-- ==== Sys2Proof/Word.lean ====
section
/-! DEFINITION. The word and index types of the Fandrel 4640. -/

namespace Sys2Proof

/-- A window register, a frame word or a payload word (00, Conventions). -/
abbrev Word := BitVec 32

/-- A byte of the external backing memory (R110). -/
abbrev Byte := BitVec 8

/-- A client port, P0 to P3. -/
abbrev Port := Fin 4

/-- A task table slot, 0 to 63 (R1). -/
abbrev Slot := Fin 64

/-- A message pool slot, 0 to 511 (R106). -/
abbrev PoolSlot := Fin 512

/-- An event line, EV0 to EV15 (R144). -/
abbrev Line := Fin 16

/-- A task priority, 15 the most important (00, Conventions). -/
abbrev Priority := Fin 16

/-- The four byte enables of a window access, bit n for byte lane n (R168). -/
abbrev ByteEnables := BitVec 4

/-- The eight words of a message in a pool slot or in backing memory (R110). -/
abbrev Image := Vector Word 8

end Sys2Proof
end

