-- ==== Sys2Proof/Syntax.lean ====
section
/-! DEFINITION. The commands the 4640 takes: one constructor for each row of spec/opcode_table.json. -/

namespace Sys2Proof

/-- The commands written to CMD (R175). -/
inductive Cmd where
  | attach | detach | dispatch | cancel | yield | exit | sleep | send | receive
  | queryTask | queryInbox | queryEvent | queryPart
  | create | seed | activate | halt | release | destroy | setPrio | setAffinity
  | setInbox | resetInbox | bindEvent | unbindEvent | setSink | revoke | beginService
  deriving DecidableEq, Repr

/-- The eight words the memory drives on BD in a read burst (R120): the words the model's backing memory holds
at the burst's address, or any other words (log 7). -/
inductive ReadData where
  | stored
  | driven (words : Image)
  deriving DecidableEq, Repr

/-- How far a burst attempt had come when it ended without its eight words: `count` words had been taken, by the memory
in a write burst (R119), by the part from `data` in a read burst (R120; log 7). -/
structure Taken where
  count : Fin 9
  data : ReadData
  deriving DecidableEq, Repr

/-- No word had been taken. -/
def Taken.nothing : Taken := ⟨0, .stored⟩

/-- A command: a write of a command code to CMD of a port (R175), another access to a port's window, an event
on a line, or an act of a block that the table lists as a step. -/
inductive Instr where
  /-- ATTACH (R182) written to CMD of `port`. -/
  | attach (port : Port)
  /-- DETACH (R183). -/
  | detach (port : Port)
  /-- DISPATCH (R61). -/
  | dispatch (port : Port)
  /-- CANCEL (R63, R64). -/
  | cancel (port : Port)
  /-- YIELD (R67, R68). -/
  | yield (port : Port)
  /-- EXIT (R70). -/
  | exit (port : Port)
  /-- SLEEP (R69). -/
  | sleep (port : Port)
  /-- SEND (R88 to R90). -/
  | send (port : Port)
  /-- RECEIVE (R96 to R101). -/
  | receive (port : Port)
  /-- QUERY_TASK (R28). -/
  | queryTask (port : Port)
  /-- QUERY_INBOX (R104). -/
  | queryInbox (port : Port)
  /-- QUERY_EVENT (R155). -/
  | queryEvent (port : Port)
  /-- QUERY_PART (R128). -/
  | queryPart (port : Port)
  /-- CREATE (R11, R12). -/
  | create (port : Port)
  /-- SEED (R47). -/
  | seed (port : Port)
  /-- ACTIVATE (R13). -/
  | activate (port : Port)
  /-- HALT (R19 to R21). -/
  | halt (port : Port)
  /-- RELEASE (R14). -/
  | release (port : Port)
  /-- DESTROY (R22 to R24). -/
  | destroy (port : Port)
  /-- SETPRIO (R26). -/
  | setPrio (port : Port)
  /-- SETAFFINITY (R27). -/
  | setAffinity (port : Port)
  /-- SETINBOX (R102). -/
  | setInbox (port : Port)
  /-- RESET_INBOX (R103). -/
  | resetInbox (port : Port)
  /-- BIND_EVENT (R152). -/
  | bindEvent (port : Port)
  /-- UNBIND_EVENT (R153). -/
  | unbindEvent (port : Port)
  /-- SETSINK (R164). -/
  | setSink (port : Port)
  /-- REVOKE (R186). -/
  | revoke (port : Port)
  /-- BEGIN_SERVICE (R196). -/
  | beginService (port : Port)
  /-- CMD_INVALID_CODE (R171, R177): a write to CMD whose resulting word is no command code. -/
  | cmdInvalidCode (port : Port) (enables : ByteEnables) (word : Word)
  /-- FRAME_READ (R33 to R35). -/
  | frameRead (port : Port) (enables : ByteEnables)
  /-- FRAME_WRITE (R39 to R42, R48). -/
  | frameWrite (port : Port) (enables : ByteEnables) (word : Word)
  /-- ATTN_WRITE (R181). -/
  | attnWrite (port : Port) (enables : ByteEnables) (word : Word)
  /-- CFGVAL_WRITE (R194, R195). -/
  | cfgvalWrite (port : Port) (enables : ByteEnables) (word : Word)
  /-- REGISTER_WRITE (R170, R171): `address` is the word address PnA. -/
  | registerWrite (port : Port) (address : BitVec 5) (enables : ByteEnables) (word : Word)
  /-- PART_RESET (R199): RST# falls; `taken` is how far a burst in progress had come (R119, R120, R129). -/
  | partReset (taken : Taken)
  /-- PORT_RESET (R187): PRSTn# falls. -/
  | portReset (port : Port)
  /-- PORT_RESET_RELEASE (R169): PRSTn# rises. -/
  | portResetRelease (port : Port)
  /-- EVENT_EDGE (R145, R146): the synchronized level of `line` changes to `level`. -/
  | eventEdge (line : Line) (level : Bool)
  /-- TICK_LINE_EDGE (R130): the ports of `late` take the tick after its expiries (R132, log 3). -/
  | tickLineEdge (late : BitVec 4)
  /-- DIVIDER_EXPIRY (R130). -/
  | dividerExpiry (late : BitVec 4)
  /-- DEADLINE_EXPIRY (R136): the first due entry of the deadline list expires. -/
  | deadlineExpiry
  /-- LEASE_EXPIRY (R184): the port takes its outstanding tick. -/
  | leaseExpiry (port : Port)
  /-- BACKING_TIMEOUT (R121): `taken` is how far the attempt had come (R119, R120). -/
  | backingTimeout (taken : Taken)
  /-- BURST_ATTEMPT_START (R119). -/
  | burstAttemptStart
  /-- SPILL_BURST_COMPLETE (R112). -/
  | spillBurstComplete
  /-- REFILL_BURST_COMPLETE (R114, R120). -/
  | refillBurstComplete (data : ReadData)
  /-- BURST_ATTEMPT_ERROR (R122): BERR; `taken` is how far the attempt had come (R119, R120). -/
  | burstAttemptError (taken : Taken)
  /-- PART_RESET_RELEASE (R145): RST# rises with the event lines at `levels`. -/
  | partResetRelease (levels : BitVec 16)
  deriving DecidableEq, Repr

end Sys2Proof
end

