-- ==== Sys2Proof/Decode.lean ====
section
/-! DEFINITION. What a word written to a port window spells: the byte-enable convention (R171), the command codes
(R175); and decodeTableWord, for the rows of the opcode table that carry bits (none does). -/

namespace Sys2Proof

/-- A write with fewer than four byte enables writes zero into the bytes not enabled (R171; 00, Partial writes). -/
def maskBytes (enables : ByteEnables) (word : Word) : Word :=
  let lane (n : Nat) : BitVec 8 := if enables.getLsbD n then 0xFF#8 else 0#8
  word &&& (lane 3 ++ lane 2 ++ lane 1 ++ lane 0)

/-- The command codes (R175). -/
def Cmd.code : Cmd → Word
  | .attach => 0x01#32
  | .detach => 0x02#32
  | .dispatch => 0x03#32
  | .cancel => 0x04#32
  | .yield => 0x05#32
  | .exit => 0x06#32
  | .sleep => 0x07#32
  | .send => 0x08#32
  | .receive => 0x09#32
  | .queryTask => 0x0A#32
  | .queryInbox => 0x0B#32
  | .queryEvent => 0x0C#32
  | .queryPart => 0x0D#32
  | .create => 0x10#32
  | .seed => 0x11#32
  | .activate => 0x12#32
  | .halt => 0x13#32
  | .release => 0x14#32
  | .destroy => 0x15#32
  | .setPrio => 0x16#32
  | .setAffinity => 0x17#32
  | .setInbox => 0x18#32
  | .resetInbox => 0x19#32
  | .bindEvent => 0x1A#32
  | .unbindEvent => 0x1B#32
  | .setSink => 0x1C#32
  | .revoke => 0x1D#32
  | .beginService => 0x1F#32

/-- Every command (R175). -/
def Cmd.all : List Cmd :=
  [.attach, .detach, .dispatch, .cancel, .yield, .exit, .sleep, .send, .receive,
   .queryTask, .queryInbox, .queryEvent, .queryPart,
   .create, .seed, .activate, .halt, .release, .destroy, .setPrio, .setAffinity,
   .setInbox, .resetInbox, .bindEvent, .unbindEvent, .setSink, .revoke, .beginService]

/-- The command whose code is the whole word written to CMD; none is refused with BADCMD (R171, R177 check 1). -/
def Cmd.ofWord (word : Word) : Option Cmd :=
  Cmd.all.find? fun c => c.code == word

/-- The command that a word of the opcode table's bits spells: no row of the table carries bits. -/
def decodeTableWord (_nbits _w : Nat) : Option Instr :=
  none

end Sys2Proof
end

