-- ==== Sys2Proof/Config.lean ====
section
/-! DEFINITION. What the part fixes: its capacities, and the configuration items with their ranges and reset values
(10, R192). The spec leaves no value of a result open, so there is no free value here; the values it takes from
outside are operands of commands. -/

namespace Sys2Proof.Config

/-- Capacity of the job queue (R111). -/
def jobQueueCapacity : Nat := 16

/-- Payload words a message may have (R77). -/
def maxPayload : Nat := 6

/-- The part code shown by PARTINFO (R173). -/
def partCode : BitVec 16 := 0x4640#16

/-- What a byte of the external backing memory that nothing has written reads as.
DESIGN CHOICE (log 7): the spec gives the content of that memory no value; unsafe. -/
def unwrittenByte : Byte := 0#8

/-- The configuration items (R192). -/
structure Items where
  /-- Item 0x00, bit n for port Pn. -/
  supervisors : BitVec 4
  /-- Item 0x01, 0 to 32. -/
  reserve : Nat
  /-- Item 0x02: set for the TICK line, clear for the internal divider. -/
  tickLine : Bool
  /-- Item 0x03, 1 to 65536 CLK periods a tick. -/
  divider : Nat
  /-- Items 0x04 to 0x07, 0 to 65535 ticks. -/
  leases : Vector Nat 4
  /-- Item 0x08. -/
  backingEnable : Bool
  /-- Item 0x09, 1 to 255 ticks. -/
  backingTimeout : Nat
  /-- Item 0x0A, bit n for line n, set for FALLING. -/
  polarity : BitVec 16
  deriving DecidableEq, Repr

/-- The items after part reset (R192). -/
def Items.reset : Items where
  supervisors := 0x1#4
  reserve := 8
  tickLine := false
  divider := 1000
  leases := Vector.replicate 4 0
  backingEnable := false
  backingTimeout := 4
  polarity := 0#16

end Sys2Proof.Config
end

