-- ==== Sys2Proof/Machine/State.lean ====
section
/-! DEFINITION. The state of the 4640 as plain data, the reasons a step can stop, and the state right after reset. -/

namespace Sys2Proof.Machine

/-- A task handle: slot in bits 5 to 0, generation in bits 15 to 6 (00, Conventions; R1). -/
structure Handle where
  slot : Slot
  gen : BitVec 10
  deriving DecidableEq, Repr

/-- The result codes (R172). -/
inductive ResultCode where
  | ok | pending | queued | empty | full | noSpace | badHandle | badState | badArg
  | badCmd | notSupv | phase | broken | timeout | gone | halted | busy
  deriving DecidableEq, Repr

/-- A task's resume result (R6). -/
inductive Resume where
  | ok | queued | timeout | gone | broken | noSpace
  deriving DecidableEq, Repr

/-- What commit does with a task being checked in (R7). -/
inductive Disposition where
  | readyTail | readyHead | recvWait | sendWait | sleeping
  deriving DecidableEq, Repr

/-- Why a task is HALTED (R7). -/
inductive HaltReason where
  | supervisor | portLost
  deriving DecidableEq, Repr

/-- The state of a task that is not FREE (R8), with the fields present only in it: the current port in RUNNING and
SAVING, the disposition with its satisfied mark in SAVING, the halt reason in HALTED. -/
inductive TaskState where
  | dormant
  | ready
  | running (port : Port)
  | saving (port : Port) (disposition : Disposition) (satisfied : Bool)
  | recvWait
  | sendWait
  | sleeping
  | halted (reason : HaltReason)
  deriving DecidableEq, Repr

/-- A message held in a task record while the task waits for room (R7, R90); its length is that of `payload`. -/
structure PendingSend where
  target : Handle
  tag : BitVec 16
  payload : List Word
  deriving DecidableEq, Repr

/-- The record of a task (1.2). The field 'deadline present' is the view `State.deadlinePresent` (R133, log 15). -/
structure Task where
  state : TaskState
  priority : Priority
  affinity : BitVec 4
  /-- Frame length L, 4 to 32 (R4). -/
  frameLength : Nat
  extension : Bool
  seedPort : Option Port
  resume : Resume
  bound : Option PoolSlot
  pendingSend : Option PendingSend
  deriving DecidableEq, Repr

/-- A slot of the task table; a FREE slot holds no task (R2, 1.2). -/
structure TaskSlot where
  gen : BitVec 10
  task : Option Task
  deriving DecidableEq, Repr

/-- The record of an inbox (R79); the resident count is the length of `resident`. -/
structure Inbox where
  broken : Bool
  limit : Nat
  mark : Nat
  basePage : Nat
  capacity : Nat
  resident : List PoolSlot
  spilling : Nat
  backed : Nat
  refilling : Nat
  writeIndex : Nat
  readIndex : Nat
  nextSeq : BitVec 16
  lostCount : Nat
  senders : List Handle
  recvPending : Bool
  deriving DecidableEq, Repr

/-- The values of an inbox record after CREATE (R12). -/
def Inbox.default : Inbox where
  broken := false
  limit := 4
  mark := 0
  basePage := 0
  capacity := 0
  resident := []
  spilling := 0
  backed := 0
  refilling := 0
  writeIndex := 0
  readIndex := 0
  nextSeq := 0#16
  lostCount := 0
  senders := []
  recvPending := false

/-- The kinds of a message (R77); their codes are those of R110. -/
inductive MessageKind where
  | data | event | fault
  deriving DecidableEq, Repr

/-- A message as it is presented for routing, before it has a sequence number (R77); its length is that of
`payload`. -/
structure Message where
  kind : MessageKind
  tag : BitVec 16
  sender : Handle
  payload : List Word
  deriving DecidableEq, Repr

/-- The two kinds of backing job (R111). -/
inductive JobKind where
  | spill | refill
  deriving DecidableEq, Repr

/-- Which attempt of its burst the current job is in (R122). -/
inductive Attempt where
  | first | second
  deriving DecidableEq, Repr

/-- A backing job (R111). `basePage` and `capacity` are the ring the job was made for (log 8). -/
structure Job where
  kind : JobKind
  inbox : Handle
  resetMark : Bool
  basePage : Nat
  capacity : Nat
  position : Nat
  count : Nat
  /-- The slots the job still holds, in ring order. -/
  slots : List PoolSlot
  burstsDone : Nat
  attempt : Attempt
  deriving DecidableEq, Repr

/-- The burst attempt in progress: BREQ is high, BWR is `write`, BA is `address` (R119, R120). -/
structure Burst where
  write : Bool
  address : Word
  /-- The attempt timer (R121). -/
  timer : Nat
  /-- The timer has reached the backing timeout and the ERROR is still to be taken (log 3). -/
  timedOut : Bool
  deriving DecidableEq, Repr

/-- The kind of a deadline entry (R133). -/
inductive DeadlineKind where
  | sleep | recv | send
  deriving DecidableEq, Repr

/-- A deadline list entry (R133). -/
structure Deadline where
  task : Handle
  expiry : Word
  kind : DeadlineKind
  deriving DecidableEq, Repr

/-- Where a line's pending message stands (R144). -/
inductive Place where
  | inbox | bound
  deriving DecidableEq, Repr

/-- The binding of a line (R144). -/
structure Binding where
  target : Handle
  tag : BitVec 16
  deriving DecidableEq, Repr

/-- The pending record of a line (R144). -/
structure PendingEvent where
  target : Handle
  seq : BitVec 16
  place : Place
  deriving DecidableEq, Repr

/-- The record of an event line (R144) with its last synchronized level (R145). -/
structure LineRec where
  level : Bool
  binding : Option Binding
  pending : Option PendingEvent
  count : Nat
  missed : Nat
  deriving DecidableEq, Repr

/-- The record of a line after part reset, at a given level (R156). -/
def LineRec.reset (level : Bool) : LineRec where
  level := level
  binding := none
  pending := none
  count := 0
  missed := 0

/-- Whether a SAVING port saves its current task or seeds a task (R32). -/
inductive SaveKind where
  | checkIn | seed
  deriving DecidableEq, Repr

/-- The state of a port (9.4) with what is present only in it: the current task or seed target, the stream record's
length and position, the staging buffer, and in RUN whether a RECEIVE is pending. -/
inductive PortState where
  | offline
  | idle
  | await
  | loading (task : Handle) (length position : Nat)
  | run (task : Handle) (receiving : Bool)
  | saving (kind : SaveKind) (target : Handle) (staging : List Word)
  | lost
  deriving DecidableEq, Repr

/-- What a port has still to do with the last tick delivered (log 3): nothing, take it, or be lost by it. -/
inductive LeaseTick where
  | none | owed | expired
  deriving DecidableEq, Repr

/-- A port unit (Chapter 9). -/
structure PortUnit where
  /-- PRSTn# is low (R169). -/
  prstLow : Bool
  state : PortState
  /-- The lease counter, 0 to 65535 (R184). -/
  lease : Nat
  leaseTick : LeaseTick
  preempt : Bool
  done : Bool
  evicted : Bool
  overrun : Bool
  lost : Bool
  args : Vector Word 4
  result : Word
  resume : Word
  msgHdr : Word
  msgSrc : Word
  msgData : Vector Word 6
  outData : Vector Word 6
  cfgIdx : Word
  /-- The word the last FRAME read drove on PnD (log 5). -/
  readData : Word
  deriving DecidableEq, Repr

/-- A port unit after part reset and port reset (R190), with the given level of PRSTn#. -/
def PortUnit.reset (prstLow : Bool) : PortUnit where
  prstLow := prstLow
  state := .offline
  lease := 0
  leaseTick := .none
  preempt := false
  done := false
  evicted := false
  overrun := false
  lost := false
  args := Vector.replicate 4 0#32
  result := 0#32
  resume := 0#32
  msgHdr := 0#32
  msgSrc := 0#32
  msgData := Vector.replicate 6 0#32
  outData := Vector.replicate 6 0#32
  cfgIdx := 0#32
  readData := 0#32

/-- The part phase (R191). -/
inductive Phase where
  | config | service
  deriving DecidableEq, Repr

/-- The state of the part. INVENTORY.md names the rule of each field. -/
structure State where
  pending : List Instr
  rstLow : Bool
  phase : Phase
  items : Config.Items
  tasks : Vector TaskSlot 64
  freeSlots : List Slot
  frames : Vector (Vector Word 48) 64
  ready : Vector (List Handle) 16
  awaitList : List Port
  inboxes : Vector Inbox 64
  pool : Vector Image 512
  poolFree : List PoolSlot
  jobs : List Job
  burst : Option Burst
  deferred : List Handle
  backing : List Host.Cell
  tickCounter : Word
  dividerCount : Nat
  deadlines : List Deadline
  expiring : Bool
  lines : Vector LineRec 16
  sink : Option Handle
  unreported : Nat
  ports : Vector PortUnit 4
  deriving DecidableEq, Repr

/-- The reasons a step could stop with a fault: none. The spec turns every refusal into a result code and every
failure into an effect on the state (R157, R172), so no command stops the part. -/
inductive Fault where
  deriving DecidableEq, Repr

/-- The reasons a step could have no meaning. -/
inductive Refusal where
  /-- A command without a meaning in this model; raised by an arm of exec that has none (no arm is left); safe. -/
  | notModelled (mnemonic : String)
  deriving DecidableEq, Repr

/-- The outcome of a command. -/
abbrev Result := Host.Outcome State Fault Refusal

/-- The part right after reset: RST# and every PRSTn# high again, the phase CONFIG, every block at the values of R29,
R51, R76, R105, R129, R143, R156, R157, R190 and R199. Log 11 names the values the spec does not give. -/
def State.reset : State where
  pending := []
  rstLow := false
  phase := .config
  items := Config.Items.reset
  tasks := Vector.replicate 64 ⟨1#10, none⟩
  freeSlots := List.finRange 64
  frames := Vector.replicate 64 (Vector.replicate 48 0#32)
  ready := Vector.replicate 16 []
  awaitList := []
  inboxes := Vector.replicate 64 Inbox.default
  pool := Vector.replicate 512 (Vector.replicate 8 0#32)
  poolFree := List.finRange 512
  jobs := []
  burst := none
  deferred := []
  backing := []
  tickCounter := 0#32
  dividerCount := 0
  deadlines := []
  expiring := false
  lines := Vector.replicate 16 (LineRec.reset false)
  sink := none
  unreported := 0
  ports := Vector.replicate 4 (PortUnit.reset false)

end Sys2Proof.Machine
end

