-- ==== Sys2Proof/Machine/Operands.lean ====
section
/-! DEFINITION. The bit layouts that software sees (9.3) and the fields of the arguments. -/

namespace Sys2Proof.Machine

/-! ### Handles -/

/-- The null handle, which names no task (00, Conventions). -/
def Handle.null : Handle := ⟨0, 0#10⟩

/-- The handle in bits 15 to 0 of a word (R1). -/
def Handle.ofWord (w : Word) : Handle :=
  ⟨⟨(w.extractLsb' 0 6).toNat, (w.extractLsb' 0 6).isLt⟩, w.extractLsb' 6 10⟩

/-- The 16 bits of a handle (00, Conventions). -/
def Handle.bits (h : Handle) : BitVec 16 :=
  h.gen ++ BitVec.ofNat 6 h.slot.val

/-! ### Result codes -/

/-- The result codes (R172). -/
def ResultCode.code : ResultCode → BitVec 8
  | .ok => 0#8
  | .pending => 1#8
  | .queued => 2#8
  | .empty => 3#8
  | .full => 4#8
  | .noSpace => 5#8
  | .badHandle => 6#8
  | .badState => 7#8
  | .badArg => 8#8
  | .badCmd => 9#8
  | .notSupv => 10#8
  | .phase => 11#8
  | .broken => 12#8
  | .timeout => 13#8
  | .gone => 14#8
  | .halted => 15#8
  | .busy => 16#8

/-- A resume result as a result code (R172). -/
def Resume.result : Resume → ResultCode
  | .ok => .ok
  | .queued => .queued
  | .timeout => .timeout
  | .gone => .gone
  | .broken => .broken
  | .noSpace => .noSpace

/-- RESULT: the code in bits 7 to 0, the value in bits 31 to 16 (R172). -/
def resultWord (code : ResultCode) (value : BitVec 16) : Word :=
  value ++ 0#8 ++ code.code

/-! ### Argument fields (R175) -/

/-- Bits 15 to 0 of a word: a tag, a timeout. -/
def lowHalf (w : Word) : BitVec 16 := w.extractLsb' 0 16

/-- The length field of SEND's ARG1, bits 23 to 16. -/
def sendLength (w : Word) : Nat := (w.extractLsb' 16 8).toNat

/-- The WAIT flag of SEND's ARG2 and RECEIVE's ARG0, bit 31. -/
def waitFlag (w : Word) : Bool := w.getLsbD 31

/-- The resident limit of SETINBOX's ARG1, bits 7 to 0. -/
def limitField (w : Word) : Nat := (w.extractLsb' 0 8).toNat

/-- The refill mark of SETINBOX's ARG1, bits 15 to 8. -/
def markField (w : Word) : Nat := (w.extractLsb' 8 8).toNat

/-- A line number argument: a whole word of 0 to 15 (R152, R153, R155). -/
def lineOfWord (w : Word) : Option Line :=
  if h : w.toNat < 16 then some ⟨w.toNat, h⟩ else none

/-- A port number argument: a whole word of 0 to 3 (R186). -/
def portOfWord (w : Word) : Option Port :=
  if h : w.toNat < 4 then some ⟨w.toNat, h⟩ else none

/-- A priority argument: a whole word of 0 to 15 (R10). -/
def priorityOfWord (w : Word) : Option Priority :=
  if h : w.toNat < 16 then some ⟨w.toNat, h⟩ else none

/-- An affinity argument: a whole word of 1 to 15 (R10). -/
def affinityOfWord (w : Word) : Option (BitVec 4) :=
  if 1 ≤ w.toNat ∧ w.toNat ≤ 15 then some (w.extractLsb' 0 4) else none

/-- A frame length argument: a whole word of 4 to 32 in steps of 4 (R10). -/
def frameLengthOfWord (w : Word) : Option Nat :=
  if 4 ≤ w.toNat ∧ w.toNat ≤ 32 ∧ w.toNat % 4 = 0 then some w.toNat else none

/-! ### Frame descriptor (R31, R174) -/

/-- The descriptor that a check-out produces: bits outside the three fields are zero. -/
def descriptorWord (h : Handle) (frameLength : Nat) (extension : Bool) : Word :=
  0#7 ++ BitVec.ofBool extension ++ 0#2 ++ BitVec.ofNat 6 frameLength ++ h.bits

/-- The L field of a descriptor, bits 21 to 16. -/
def descriptorLength (w : Word) : Nat := (w.extractLsb' 16 6).toNat

/-- The extension flag of a descriptor, bit 24. -/
def descriptorExtension (w : Word) : Bool := w.getLsbD 24

/-- The words of a frame stream: 1 + L, or 17 + L with the extension (R31). -/
def streamLength (frameLength : Nat) (extension : Bool) : Nat :=
  if extension then 17 + frameLength else 1 + frameLength

/-- The place in the frame area of stream position `n`, for 1 to L + 16: body words from 0, extension words
from 32 (R30, R33). -/
def frameIndex (frameLength n : Nat) : Nat :=
  if n ≤ frameLength then n - 1 else 32 + (n - frameLength - 1)

/-! ### Messages and images (R77, R110, R174) -/

/-- The kind codes (R110). -/
def MessageKind.code : MessageKind → BitVec 8
  | .data => 1#8
  | .event => 2#8
  | .fault => 3#8

/-- The eight words of a message with its sequence number (R110). -/
def Message.image (m : Message) (seq : BitVec 16) : Image :=
  let word (n : Nat) : Word := m.payload.getD n 0#32
  #v[m.tag ++ BitVec.ofNat 8 m.payload.length ++ m.kind.code, seq ++ m.sender.bits,
     word 0, word 1, word 2, word 3, word 4, word 5]

/-- The kind byte of an image. -/
def imageKind (i : Image) : BitVec 8 := i[0].extractLsb' 0 8

/-- The length byte of an image. -/
def imageLength (i : Image) : Nat := (i[0].extractLsb' 8 8).toNat

/-- The sequence number of an image. -/
def imageSeq (i : Image) : BitVec 16 := i[1].extractLsb' 16 16

/-- The check of a read image: kind 1, 2 or 3 and length 0 to 6 (R120). -/
def imageValid (i : Image) : Bool :=
  (imageKind i == 1#8 || imageKind i == 2#8 || imageKind i == 3#8) && decide (imageLength i ≤ 6)

/-- Payload word `n` as delivered: words beyond the length read 0 (R77, R97). -/
def deliveredWord (i : Image) (n : Fin 6) : Word :=
  if n.val < imageLength i then i[n.val + 2] else 0#32

/-- MSGDATA0 to MSGDATA5 for an image. -/
def deliveredData (i : Image) : Vector Word 6 :=
  #v[deliveredWord i 0, deliveredWord i 1, deliveredWord i 2, deliveredWord i 3, deliveredWord i 4,
     deliveredWord i 5]

/-! ### Codes of the query records (R173, R176) -/

/-- The port state code of PSTATE (R173). -/
def PortState.code : PortState → BitVec 3
  | .offline => 0#3
  | .idle => 1#3
  | .await => 2#3
  | .loading _ _ _ => 3#3
  | .run _ _ => 4#3
  | .saving _ _ _ => 5#3
  | .lost => 6#3

/-- A port is busy in AWAIT, and in RUN with a RECEIVE pending (R180). -/
def PortState.busy : PortState → Bool
  | .await => true
  | .run _ receiving => receiving
  | .offline | .idle | .loading _ _ _ | .saving _ _ _ | .lost => false

/-- The states in which the lease counts (R184). -/
def PortState.counting : PortState → Bool
  | .loading _ _ _ | .run _ _ | .saving _ _ _ => true
  | .offline | .idle | .await | .lost => false

/-- The handle PSTATE shows: the current task, or the seed target (R173). -/
def PortState.shownHandle : PortState → BitVec 16
  | .loading h _ _ => h.bits
  | .run h _ => h.bits
  | .saving _ h _ => h.bits
  | .offline | .idle | .await | .lost => 0#16

/-- The current task of a port: it has one in LOADING, RUN and SAVING for a check-in (R5). -/
def PortState.currentTask : PortState → Option Handle
  | .loading h _ _ => some h
  | .run h _ => some h
  | .saving .checkIn h _ => some h
  | .saving .seed _ _ | .offline | .idle | .await | .lost => none

/-- PSTATE (R173). -/
def PortState.pstate (st : PortState) : Word :=
  let seeding : Bool := match st with
    | .saving .seed _ _ => true
    | _ => false
  st.shownHandle ++ 0#11 ++ BitVec.ofBool seeding ++ BitVec.ofBool st.busy ++ st.code

/-- The task state code of QUERY_TASK (R176). -/
def TaskState.code : TaskState → BitVec 4
  | .dormant => 1#4
  | .ready => 2#4
  | .running _ => 3#4
  | .saving _ _ _ => 4#4
  | .recvWait => 5#4
  | .sendWait => 6#4
  | .sleeping => 7#4
  | .halted _ => 8#4

/-- The halt reason code of QUERY_TASK (R176). -/
def TaskState.haltCode : TaskState → BitVec 4
  | .halted .supervisor => 1#4
  | .halted .portLost => 2#4
  | _ => 0#4

/-- The current port of a task (R5). -/
def TaskState.currentPort : TaskState → Option Port
  | .running p => some p
  | .saving p _ _ => some p
  | _ => none

/-- The disposition code of QUERY_TASK (R176). -/
def Disposition.code : Disposition → BitVec 4
  | .readyTail => 1#4
  | .readyHead => 2#4
  | .recvWait => 3#4
  | .sendWait => 4#4
  | .sleeping => 5#4

/-- The disposition field of QUERY_TASK: 0 when absent. -/
def TaskState.dispositionCode : TaskState → BitVec 4
  | .saving _ d _ => d.code
  | _ => 0#4

/-- The satisfied mark (R7). -/
def TaskState.satisfied : TaskState → Bool
  | .saving _ _ sat => sat
  | _ => false

/-- A port field of QUERY_TASK: 15 when absent (R176). -/
def portField (p : Option Port) : BitVec 4 :=
  match p with
  | some q => BitVec.ofNat 4 q.val
  | none => 15#4

/-- A disposition that waits (R7). -/
def Disposition.waits : Disposition → Bool
  | .recvWait | .sendWait | .sleeping => true
  | .readyTail | .readyHead => false

/-- The task is waiting to receive: RECV_WAIT, or SAVING with an unsatisfied RECV_WAIT disposition (R83, R84). -/
def TaskState.waitsToReceive : TaskState → Bool
  | .recvWait => true
  | .saving _ .recvWait false => true
  | _ => false

end Sys2Proof.Machine

namespace Sys2Proof
open Machine

/-! ### Command rights (R175, R177, R178) -/

/-- Supervisor commands (R175). -/
def Cmd.supervisor : Cmd → Bool
  | .create | .seed | .activate | .halt | .release | .destroy | .setPrio | .setAffinity
  | .setInbox | .resetInbox | .bindEvent | .unbindEvent | .setSink | .revoke => true
  | .attach | .detach | .dispatch | .cancel | .yield | .exit | .sleep | .send | .receive
  | .queryTask | .queryInbox | .queryEvent | .queryPart | .beginService => false

/-- The queries. -/
def Cmd.query : Cmd → Bool
  | .queryTask | .queryInbox | .queryEvent | .queryPart => true
  | _ => false

/-- Check 2 of R177: which phase takes the command (R191). -/
def Cmd.takenInPhase (c : Cmd) : Phase → Bool
  | .config => c == .attach || c == .detach || c == .beginService
  | .service => c != .beginService

/-- Check 4 of R177: which port state takes the command (R178). -/
def Cmd.takenIn (c : Cmd) : PortState → Bool
  | .offline => c == .attach
  | .idle =>
    c == .detach || c == .dispatch || c == .cancel || c == .beginService || c.query || c.supervisor
  | .await => c == .cancel
  | .loading _ _ _ => false
  | .run _ _ =>
    c == .yield || c == .exit || c == .sleep || c == .send || c == .receive || c == .cancel || c.query ||
      (c.supervisor && c != .seed)
  | .saving _ _ _ => false
  | .lost => c == .attach || c == .detach

end Sys2Proof

namespace Sys2Proof.Machine

/-! ### Configuration items (R176, R192 to R194) -/

/-- The item that CFGIDX selects as CFGVAL shows it; any other index reads 0 (R193). -/
def itemWord (it : Config.Items) (index : Word) : Word :=
  match index.toNat with
  | 0x00 => 0#28 ++ it.supervisors
  | 0x01 => BitVec.ofNat 32 it.reserve
  | 0x02 => 0#31 ++ BitVec.ofBool it.tickLine
  | 0x03 => BitVec.ofNat 32 it.divider
  | 0x04 => BitVec.ofNat 32 it.leases[0]
  | 0x05 => BitVec.ofNat 32 it.leases[1]
  | 0x06 => BitVec.ofNat 32 it.leases[2]
  | 0x07 => BitVec.ofNat 32 it.leases[3]
  | 0x08 => 0#31 ++ BitVec.ofBool it.backingEnable
  | 0x09 => BitVec.ofNat 32 it.backingTimeout
  | 0x0A => 0#16 ++ it.polarity
  | _ => 0#32

/-- A lease of port `p` written, if the word is in range (R194). -/
def writeLease (it : Config.Items) (p : Port) (w : Word) : Config.Items :=
  if w.toNat ≤ 65535 then { it with leases := it.leases.set p w.toNat } else it

/-- The items after a word is written to the selected one: a field is written, a whole word only within its range
(R194). -/
def writeItem (it : Config.Items) (index : Word) (w : Word) : Config.Items :=
  match index.toNat with
  | 0x00 => { it with supervisors := w.extractLsb' 0 4 }
  | 0x01 => if w.toNat ≤ 32 then { it with reserve := w.toNat } else it
  | 0x02 => { it with tickLine := w.getLsbD 0 }
  | 0x03 => if 1 ≤ w.toNat ∧ w.toNat ≤ 65536 then { it with divider := w.toNat } else it
  | 0x04 => writeLease it 0 w
  | 0x05 => writeLease it 1 w
  | 0x06 => writeLease it 2 w
  | 0x07 => writeLease it 3 w
  | 0x08 => { it with backingEnable := w.getLsbD 0 }
  | 0x09 => if 1 ≤ w.toNat ∧ w.toNat ≤ 255 then { it with backingTimeout := w.toNat } else it
  | 0x0A => { it with polarity := w.extractLsb' 0 16 }
  | _ => it

end Sys2Proof.Machine
end

