-- ==== Sys2Proof/Machine/Ops.lean ====
section
/-! DEFINITION. Reading and updating the records of the state, the pool's free list, and the bytes of the external
backing memory. Taking an exception does not apply: a block has no exception entry. -/

namespace Sys2Proof.Machine

/-! ### Port units -/

/-- The port unit of a port. -/
def State.port (s : State) (p : Port) : PortUnit := s.ports[p]

/-- Change one port unit. -/
def State.modPort (s : State) (p : Port) (f : PortUnit → PortUnit) : State :=
  { s with ports := s.ports.set p (f (s.port p)) }

/-- Leave a result code and a value in RESULT of a port (R172). -/
def State.setResult (s : State) (p : Port) (code : ResultCode) (value : BitVec 16) : State :=
  s.modPort p fun u => { u with result := resultWord code value }

/-- Move a port to another state. -/
def State.setPortState (s : State) (p : Port) (st : PortState) : State :=
  s.modPort p fun u => { u with state := st }

/-- A command that returns a record overwrites ARG0 to ARG3 (R171, R176). -/
def State.setArgs (s : State) (p : Port) (args : Vector Word 4) : State :=
  s.modPort p fun u => { u with args := args }

/-- Port `p` is held in its reset condition, by its PRSTn# line or by RST# (R169). -/
def State.held (s : State) (p : Port) : Bool :=
  s.rstLow || (s.port p).prstLow

/-- The lease counter is loaded with its configured value (R184). -/
def State.reloadLease (s : State) (p : Port) : State :=
  s.modPort p fun u => { u with lease := s.items.leases[p] }

/-- The handle argument in ARG0 (R1). -/
def State.handleArg (s : State) (p : Port) : Handle :=
  Handle.ofWord (s.port p).args[0]

/-! ### Task records -/

/-- The record of the task a handle names; absent for a stale handle (R1). -/
def State.task? (s : State) (h : Handle) : Option Task :=
  if s.tasks[h.slot].gen = h.gen then s.tasks[h.slot].task else none

/-- A handle is live while its slot is not FREE and the generations agree (R1). -/
def State.live (s : State) (h : Handle) : Bool := (s.task? h).isSome

/-- Change the record of a live task. -/
def State.modTask (s : State) (h : Handle) (f : Task → Task) : State :=
  match s.task? h with
  | some t => { s with tasks := s.tasks.set h.slot ⟨h.gen, some (f t)⟩ }
  | none => s

/-- Move a task to another state. -/
def State.setTaskState (s : State) (h : Handle) (st : TaskState) : State :=
  s.modTask h fun t => { t with state := st }

/-- The port is in the task's affinity (00, eligible). -/
def Task.eligible (t : Task) (p : Port) : Bool := t.affinity.getLsbD p.val

/-- The task a handle names is eligible for the port. -/
def State.eligible (s : State) (h : Handle) (p : Port) : Bool :=
  match s.task? h with
  | some t => t.eligible p
  | none => false

/-! ### Inbox records -/

/-- The inbox of a slot's task (R79). -/
def State.inbox (s : State) (h : Handle) : Inbox := s.inboxes[h.slot]

/-- Change one inbox record. -/
def State.modInbox (s : State) (h : Handle) (f : Inbox → Inbox) : State :=
  { s with inboxes := s.inboxes.set h.slot (f (s.inbox h)) }

/-- The ring occupancy: spilling plus backed plus refilling (R79). -/
def Inbox.occupancy (ib : Inbox) : Nat := ib.spilling + ib.backed + ib.refilling

/-- The total: resident plus ring occupancy (R79). -/
def Inbox.total (ib : Inbox) : Nat := ib.resident.length + ib.occupancy

/-- The receive pending mark is cleared (R81). -/
def State.clearReceivePending (s : State) (h : Handle) : State :=
  s.modInbox h fun ib => { ib with recvPending := false }

/-- The sequence number of a message an inbox accepts is its next sequence, which advances by one (R78). -/
def Inbox.advanceSeq (ib : Inbox) : Inbox := { ib with nextSeq := ib.nextSeq + 1#16 }

/-- An index of a ring advanced by `n`, wrapping at the capacity (R109). -/
def ringAdvance (index n capacity : Nat) : Nat :=
  if capacity = 0 then 0 else (index + n) % capacity

/-! ### Event lines -/

/-- Change one line record. -/
def State.modLine (s : State) (l : Line) (f : LineRec → LineRec) : State :=
  { s with lines := s.lines.set l (f s.lines[l]) }

/-- A count that saturates at 65535 (R79, R144). -/
def saturate16 (n : Nat) : Nat := min n 65535

/-- A count that saturates at 255 (R157). -/
def saturate8 (n : Nat) : Nat := min n 255

/-! ### The message pool (R106, R107) -/

/-- The two slot rules (R107). -/
inductive SlotRule where
  | ordinary | fault
  deriving DecidableEq, Repr

/-- The free count (R106). -/
def State.freeCount (s : State) : Nat := s.poolFree.length

/-- The slot rule allows an allocation: under the ordinary rule the free count must exceed the reserve, under the
fault rule it must be above 0 (R107). -/
def State.mayAllocate (s : State) (rule : SlotRule) : Bool :=
  match rule with
  | .ordinary => decide (s.items.reserve < s.freeCount)
  | .fault => decide (0 < s.freeCount)

/-- Allocate one slot: the head of the free list. Which free slot is taken is not observable (R106, log 6). -/
def State.takeSlot (s : State) (rule : SlotRule) : Option (PoolSlot × State) :=
  if s.mayAllocate rule then
    match s.poolFree with
    | x :: rest => some (x, { s with poolFree := rest })
    | [] => none
  else none

/-- Write an image into a pool slot. -/
def State.writeSlot (s : State) (x : PoolSlot) (i : Image) : State :=
  { s with pool := s.pool.set x i }

/-- Put held slots back among the free ones, without the retry that a slot return makes (R108). -/
def State.freeSlotList (s : State) (xs : List PoolSlot) : State :=
  { s with poolFree := xs ++ s.poolFree }

/-! ### The external backing memory (R109, R110, log 7) -/

/-- The byte at an address. -/
def Memory.read : List Host.Cell → Nat → Byte
  | [], _ => Config.unwrittenByte
  | (b, v) :: rest, a => if a = b then v else Memory.read rest a

/-- Write one byte, keeping the canonical form. -/
def Memory.write : List Host.Cell → Nat → Byte → List Host.Cell
  | [], a, v => if v = Config.unwrittenByte then [] else [(a, v)]
  | (b, w) :: rest, a, v =>
    if a < b then
      if v = Config.unwrittenByte then (b, w) :: rest else (a, v) :: (b, w) :: rest
    else if a = b then
      if v = Config.unwrittenByte then rest else (a, v) :: rest
    else (b, w) :: Memory.write rest a v

/-- The canonical form: addresses strictly rising, no entry equal to what an unlisted address reads as. -/
def Memory.wf : List Host.Cell → Bool
  | [] => true
  | (a, v) :: rest => rest.all (fun c => decide (a < c.1)) && decide (v ≠ Config.unwrittenByte) && Memory.wf rest

/-- Write a word, byte lane 0 at the lowest address (R110). -/
def Memory.writeWord (m : List Host.Cell) (a : Nat) (w : Word) : List Host.Cell :=
  Memory.write (Memory.write (Memory.write (Memory.write m a (w.extractLsb' 0 8)) (a + 1) (w.extractLsb' 8 8))
    (a + 2) (w.extractLsb' 16 8)) (a + 3) (w.extractLsb' 24 8)

/-- The word at an address (R110). -/
def Memory.readWord (m : List Host.Cell) (a : Nat) : Word :=
  Memory.read m (a + 3) ++ Memory.read m (a + 2) ++ Memory.read m (a + 1) ++ Memory.read m a

/-- Write words at consecutive word addresses (R119: word k at BA + 4k). -/
def Memory.writeWords (m : List Host.Cell) (a : Nat) : List Word → List Host.Cell
  | [] => m
  | w :: ws => Memory.writeWords (Memory.writeWord m a w) (a + 4) ws

/-- The eight words of the image at an address (R110, R120). -/
def Memory.readImage (m : List Host.Cell) (a : Nat) : Image :=
  #v[Memory.readWord m a, Memory.readWord m (a + 4), Memory.readWord m (a + 8), Memory.readWord m (a + 12),
     Memory.readWord m (a + 16), Memory.readWord m (a + 20), Memory.readWord m (a + 24),
     Memory.readWord m (a + 28)]

end Sys2Proof.Machine
end

