-- ==== Sys2Proof/Machine/Flags.lean ====
section
/-! DEFINITION. The flags the part computes: the preempt flags (3.6) and the attention causes (9.5). -/

namespace Sys2Proof.Machine

/-- The preempt flag's condition: the port is in RUN and a READY task eligible for it has a priority above its current
task's (R72). The ready queue of a task is that of its priority (R52). -/
def State.preemptCondition (s : State) (p : Port) : Bool :=
  match (s.port p).state with
  | .run h _ =>
    match s.task? h with
    | some t => (List.finRange 16).any fun q => decide (t.priority < q) && s.ready[q].any fun r => s.eligible r p
    | none => false
  | _ => false

/-- Judge the preempt flag of one port. -/
def State.evalPreemptAt (s : State) (p : Port) : State :=
  s.modPort p fun u => { u with preempt := s.preemptCondition p }

/-- The dispatch unit re-evaluates the preempt flags of all four ports (R73). -/
def State.evalPreempt (s : State) : State :=
  (((s.evalPreemptAt 0).evalPreemptAt 1).evalPreemptAt 2).evalPreemptAt 3

/-- The current task of the port has a rival: a READY task eligible for the port of equal or greater priority
(R67). -/
def State.hasRival (s : State) (p : Port) (t : Task) : Bool :=
  (List.finRange 16).any fun q => decide (t.priority ≤ q) && s.ready[q].any fun r => s.eligible r p

/-- ATTN: the five attention causes (R173). -/
def PortUnit.attn (u : PortUnit) : Word :=
  0#27 ++ BitVec.ofBool u.lost ++ BitVec.ofBool u.overrun ++ BitVec.ofBool u.evicted ++
    BitVec.ofBool u.preempt ++ BitVec.ofBool u.done

/-- ATTNn is high while any cause is set (R181). -/
def State.attnPin (s : State) (p : Port) : Bool :=
  let u := s.port p
  u.done || u.preempt || u.evicted || u.overrun || u.lost

/-- ATTACH, DETACH and port reset clear every attention cause (R181); PREEMPT follows its flag. -/
def PortUnit.clearCauses (u : PortUnit) : PortUnit :=
  { u with done := false, evicted := false, overrun := false, lost := false, preempt := false }

/-- A write to ATTN clears each of DONE, EVICTED and OVERRUN whose bit is 1 (R181). -/
def PortUnit.clearWritten (u : PortUnit) (w : Word) : PortUnit :=
  { u with
    done := u.done && !w.getLsbD 0
    evicted := u.evicted && !w.getLsbD 2
    overrun := u.overrun && !w.getLsbD 3 }

end Sys2Proof.Machine
end

