-- ==== Sys2Proof/Machine/DispatchUnit.lean ====
section
/-! DEFINITION. The dispatch unit: ready queues, selection, the await list and the hand-off of a task to a port
(Chapter 3). -/

namespace Sys2Proof.Machine

/-- Place a task at the tail of the ready queue of its priority (R53). -/
def State.enqueueTail (s : State) (h : Handle) : State :=
  match s.task? h with
  | some t => { s with ready := s.ready.set t.priority (s.ready[t.priority] ++ [h]) }
  | none => s

/-- Place a task at the head of the ready queue of its priority (R54). -/
def State.enqueueHead (s : State) (h : Handle) : State :=
  match s.task? h with
  | some t => { s with ready := s.ready.set t.priority (h :: s.ready[t.priority]) }
  | none => s

/-- A task leaves the ready queue of its priority; the tasks behind it keep their order (R55). -/
def State.dequeue (s : State) (h : Handle) : State :=
  match s.task? h with
  | some t => { s with ready := s.ready.set t.priority (s.ready[t.priority].filter fun r => r ≠ h) }
  | none => s

/-- Selection: the first eligible task, from priority 15 down, each queue from its head (R56). -/
def State.select (s : State) (p : Port) : Option Handle :=
  (List.finRange 16).reverse.findSome? fun q => s.ready[q].find? fun r => s.eligible r p

/-- A port leaves the await list; the ports behind it keep their order (R57). -/
def State.leaveAwait (s : State) (p : Port) : State :=
  { s with awaitList := s.awaitList.filter fun q => q ≠ p }

/-- The task becomes RUNNING on the port, and the port goes to LOADING with the stream record of a check-out
(R33, R58). -/
def State.beginCheckOut (s : State) (p : Port) (h : Handle) : State :=
  match s.task? h with
  | some t =>
    (s.setTaskState h (.running p)).setPortState p (.loading h (streamLength t.frameLength t.extension) 0)
  | none => s

/-- Steps 1 to 3 of a hand-off (R58): the port leaves the await list, the task leaves its ready queue, and the
check-out begins. -/
def State.handOff (s : State) (p : Port) (h : Handle) : State :=
  ((s.leaveAwait p).dequeue h).beginCheckOut p h

/-- Step 4 of R58: RESULT is OK with the handle, and DONE is set. -/
def State.announce (s : State) (p : Port) (h : Handle) : State :=
  s.modPort p fun u => { u with result := resultWord .ok h.bits, done := true }

/-- Offer a READY task to the await list: the first eligible port on it receives the task (R58). -/
def State.offer (s : State) (h : Handle) : State :=
  match s.awaitList.find? (fun p => s.eligible h p) with
  | some p => (s.handOff p h).announce p h
  | none => s

/-- A task becomes READY at the tail of its queue and is offered (R53, R59). -/
def State.readyTail (s : State) (h : Handle) : State :=
  ((s.setTaskState h .ready).enqueueTail h).offer h

/-- A task becomes READY at the head of its queue and is offered (R54, R59). -/
def State.readyHead (s : State) (h : Handle) : State :=
  ((s.setTaskState h .ready).enqueueHead h).offer h

end Sys2Proof.Machine
end

