-- ==== Sys2Proof/Machine/Waits.lean ====
section
/-! DEFINITION. The deadline list (Chapter 6), the sender lists (R91), and how a wait ends. -/

namespace Sys2Proof.Machine

/-- An entry's remaining distance: its expiry value minus the tick counter, modulo 2^32 (R134). -/
def Deadline.distance (e : Deadline) (counter : Word) : Word := e.expiry - counter

/-- The place of a new entry: behind every entry whose distance is less than or equal to its own (R134). -/
def insertDeadlineEntry (counter : Word) (e : Deadline) : List Deadline → List Deadline
  | [] => [e]
  | x :: rest =>
    if x.distance counter ≤ e.distance counter then x :: insertDeadlineEntry counter e rest else e :: x :: rest

/-- Insert a deadline of `n` ticks for a task (R135). -/
def State.insertDeadline (s : State) (h : Handle) (n : BitVec 16) (kind : DeadlineKind) : State :=
  { s with
    deadlines := insertDeadlineEntry s.tickCounter ⟨h, s.tickCounter + n.setWidth 32, kind⟩ s.deadlines }

/-- Insert the deadline of a timed wait; a timeout of 0 makes the wait untimed (R90, R101). -/
def State.armTimeout (s : State) (h : Handle) (n : BitVec 16) (kind : DeadlineKind) : State :=
  if n = 0#16 then s else s.insertDeadline h n kind

/-- Remove a task's entry without expiring (R140). -/
def State.removeDeadline (s : State) (h : Handle) : State :=
  { s with deadlines := s.deadlines.filter fun e => e.task ≠ h }

/-- The task record's field 'deadline present' (R133). -/
def State.deadlinePresent (s : State) (h : Handle) : Bool :=
  s.deadlines.any fun e => e.task == h

/-- The expiry value of a task's entry, or 0 when it has none (R28, R142). -/
def State.deadlineExpiryOf (s : State) (h : Handle) : Word :=
  match s.deadlines.find? (fun e => e.task == h) with
  | some e => e.expiry
  | none => 0#32

/-- A task leaves the sender list of its pending send's target, and the pending send is removed from its record
(R91). -/
def State.dropPendingSend (s : State) (h : Handle) : State :=
  match s.task? h with
  | some t =>
    match t.pendingSend with
    | some ps =>
      (s.modInbox ps.target fun ib => { ib with senders := ib.senders.filter fun r => r ≠ h }).modTask h
        fun u => { u with pendingSend := none }
    | none => s
  | none => s

/-- End a wait with a resume result: a waiting task becomes READY at the tail of its queue, a SAVING task's
disposition becomes satisfied (R7, R42). -/
def State.wake (s : State) (h : Handle) (res : Resume) : State :=
  match s.task? h with
  | some t =>
    match t.state with
    | .recvWait | .sendWait | .sleeping => (s.modTask h fun u => { u with resume := res }).readyTail h
    | .saving p d false =>
      if d.waits then s.modTask h fun u => { u with state := .saving p d true, resume := res } else s
    | _ => s
  | none => s

/-- End a task's wait: it leaves its sender list and loses its pending send and its deadline entry, and wakes with the
resume result (R93, R94, R103, R137 to R139). -/
def State.endWait (s : State) (h : Handle) (res : Resume) : State :=
  ((s.dropPendingSend h).removeDeadline h).wake h res

/-- Undo a wait without waking: off the sender list, pending send discarded, deadline removed (R16, R20, R45). A
satisfied disposition holds neither, so nothing of it is undone. -/
def State.undoWait (s : State) (h : Handle) : State :=
  (s.dropPendingSend h).removeDeadline h

end Sys2Proof.Machine
end

