-- ==== Sys2Proof/Machine/Refill.lean ====
section
/-! DEFINITION. REFILL jobs, the refill check, the deferred-refill list and slot returns (5.3, 5.4). -/

namespace Sys2Proof.Machine

/-- Conditions 1 to 4 of the refill check, for a live inbox (R116, R118). -/
def State.refillNeeded (s : State) (h : Handle) : Bool :=
  let ib := s.inbox h
  s.live h && !ib.broken && decide (0 < ib.backed) &&
    !(s.jobs.any fun j => j.kind == .refill && j.inbox == h) &&
    (decide (ib.resident.length ≤ ib.mark) || ib.recvPending)

/-- Allocate up to `n` slots under the ordinary slot rule, stopping at the first refusal (R113). -/
def takeSlots : Nat → State → List PoolSlot × State
  | 0, s => ([], s)
  | n + 1, s =>
    match s.takeSlot .ordinary with
    | some (x, s1) =>
      let r := takeSlots n s1
      (x :: r.1, r.2)
    | none => ([], s)

/-- The REFILL job for the slots allocated (R113). -/
def Inbox.refillJob (ib : Inbox) (h : Handle) (slots : List PoolSlot) : Job where
  kind := .refill
  inbox := h
  resetMark := false
  basePage := ib.basePage
  capacity := ib.capacity
  position := ib.readIndex
  count := slots.length
  slots := slots
  burstsDone := 0
  attempt := .first

/-- The inbox after a REFILL job of `a` messages is made (R113). -/
def Inbox.claim (ib : Inbox) (a : Nat) : Inbox :=
  { ib with
    readIndex := ringAdvance ib.readIndex a ib.capacity
    backed := ib.backed - a
    refilling := ib.refilling + a }

/-- Create the REFILL job of an inbox in need of one; none when the queue is full or no slot is allowed (R113). -/
def State.createRefill (s : State) (h : Handle) : Option State :=
  if s.jobs.length < Config.jobQueueCapacity then
    let ib := s.inbox h
    let r := takeSlots (min ib.backed (ib.limit - ib.resident.length)) s
    if r.1.isEmpty then none
    else
      some ({ r.2 with jobs := s.jobs ++ [ib.refillJob h r.1] }.modInbox h fun ib => ib.claim r.1.length)
  else none

/-- An inbox joins the tail of the deferred-refill list, unless it stands there (R116, R117). -/
def State.defer (s : State) (h : Handle) : State :=
  if s.deferred.contains h then s else { s with deferred := s.deferred ++ [h] }

/-- An inbox leaves the deferred-refill list (R117). -/
def State.undefer (s : State) (h : Handle) : State :=
  { s with deferred := s.deferred.filter fun r => r ≠ h }

/-- The refill check of an inbox (R116). -/
def State.refillCheck (s : State) (h : Handle) : State :=
  if s.refillNeeded h then
    match s.createRefill h with
    | some s' => s'
    | none => s.defer h
  else s

/-- Retry the entries of the deferred-refill list from the head; what is left is the new list (R118). -/
def retryEntries : List Handle → State → State
  | [], s => { s with deferred := [] }
  | h :: rest, s =>
    if s.refillNeeded h then
      match s.createRefill h with
      | some s' => retryEntries rest s'
      | none => { s with deferred := h :: rest }
    else retryEntries rest s

/-- The backing engine retries the deferred-refill list (R118). -/
def State.retryDeferred (s : State) : State := retryEntries s.deferred s

/-- Slot returns made in one step: the slots are freed, and the deferred-refill list is retried once (R108). -/
def State.returnSlots (s : State) (xs : List PoolSlot) : State :=
  if xs.isEmpty then s else (s.freeSlotList xs).retryDeferred

end Sys2Proof.Machine
end

