-- ==== Sys2Proof/Machine/Inboxes.lean ====
section
/-! DEFINITION. The inbox unit: routing of an arriving message, delivery with the completion of EVENT messages,
sender release, and the emptying of an inbox (Chapters 4 and 7). -/

namespace Sys2Proof.Machine

/-- How routing ends (R82). -/
inductive RouteOutcome where
  | handedOff | resident | spilled | broken | noSpace | full
  deriving DecidableEq, Repr

/-- The result code of a routing outcome (R89). -/
def RouteOutcome.result : RouteOutcome → ResultCode
  | .handedOff => .ok
  | .resident => .ok
  | .spilled => .queued
  | .broken => .broken
  | .noSpace => .noSpace
  | .full => .full

/-- Routing accepted the message (R78). -/
def RouteOutcome.accepted : RouteOutcome → Bool
  | .handedOff | .resident | .spilled => true
  | .broken | .noSpace | .full => false

/-- Step 2 of routing: bind the message to the waiting owner and end its wait with OK (R83, R84). -/
def State.handOffMessage (s : State) (rule : SlotRule) (h : Handle) (m : Message) : RouteOutcome × State :=
  match s.takeSlot rule with
  | some (x, s1) =>
    let s2 := (s1.writeSlot x (m.image (s.inbox h).nextSeq)).modInbox h Inbox.advanceSeq
    (.handedOff, ((s2.modTask h fun t => { t with bound := some x }).removeDeadline h).wake h .ok)
  | none => (.noSpace, s)

/-- Step 3 of routing: the message joins the tail of the resident list (R85). -/
def State.placeResident (s : State) (rule : SlotRule) (h : Handle) (m : Message) : RouteOutcome × State :=
  match s.takeSlot rule with
  | some (x, s1) =>
    (.resident, (s1.writeSlot x (m.image (s.inbox h).nextSeq)).modInbox h fun ib =>
      { ib.advanceSeq with resident := ib.resident ++ [x] })
  | none => (.noSpace, s)

/-- The SPILL job of a message in slot `x` (R86). -/
def Inbox.spillJob (ib : Inbox) (h : Handle) (x : PoolSlot) : Job where
  kind := .spill
  inbox := h
  resetMark := false
  basePage := ib.basePage
  capacity := ib.capacity
  position := ib.writeIndex
  count := 1
  slots := [x]
  burstsDone := 0
  attempt := .first

/-- Step 4 of routing: a SPILL job for the message joins the job queue (R86). -/
def State.placeSpill (s : State) (rule : SlotRule) (h : Handle) (m : Message) : RouteOutcome × State :=
  if s.jobs.length < Config.jobQueueCapacity then
    match s.takeSlot rule with
    | some (x, s1) =>
      let ib := s.inbox h
      (.spilled, { s1.writeSlot x (m.image ib.nextSeq) with jobs := s.jobs ++ [ib.spillJob h x] }.modInbox h fun ib =>
        { ib.advanceSeq with
          writeIndex := ringAdvance ib.writeIndex 1 ib.capacity
          spilling := ib.spilling + 1 })
    | none => (.noSpace, s)
  else (.noSpace, s)

/-- The owner of an inbox is waiting to receive (R82 step 2). -/
def State.ownerWaits (s : State) (h : Handle) : Bool :=
  match s.task? h with
  | some t => t.state.waitsToReceive
  | none => false

/-- Routing of a message to the inbox of a live task, by the first step that applies (R82). -/
def State.route (s : State) (rule : SlotRule) (h : Handle) (m : Message) : RouteOutcome × State :=
  let ib := s.inbox h
  if ib.broken then (.broken, s)
  else if s.ownerWaits h then s.handOffMessage rule h m
  else if ib.occupancy = 0 ∧ ib.resident.length < ib.limit then s.placeResident rule h m
  else if ib.occupancy < ib.capacity then s.placeSpill rule h m
  else (.full, s)

/-! ### Delivery (R97, R149) -/

/-- The line whose pending message it is: place, target and sequence agree (R149). Of two lines with equal pending records the
lowest-numbered is taken, which is the model's choice (log 23). -/
def State.lineOf (s : State) (place : Place) (h : Handle) (seq : BitVec 16) : Option Line :=
  (List.finRange 16).find? fun l => s.lines[l].pending == some ⟨h, seq, place⟩

/-- The line is clear again: count 0, pending mark clear (R149). -/
def LineRec.clearPending (r : LineRec) : LineRec := { r with pending := none, count := 0 }

/-- The image as delivered: payload words 0 and 1 of an EVENT message are the line's count and number, or 0 when no
line's pending record matches (R149). -/
def State.completeImage (s : State) (place : Place) (h : Handle) (i : Image) : Image :=
  if imageKind i = MessageKind.event.code then
    match s.lineOf place h (imageSeq i) with
    | some l => (i.set 2 (BitVec.ofNat 32 s.lines[l].count)).set 3 (BitVec.ofNat 32 l.val)
    | none => (i.set 2 0#32).set 3 0#32
  else i

/-- The line record is acted on at the delivery of its message (R149). -/
def State.completeLine (s : State) (place : Place) (h : Handle) (i : Image) : State :=
  if imageKind i = MessageKind.event.code then
    match s.lineOf place h (imageSeq i) with
    | some l => s.modLine l LineRec.clearPending
    | none => s
  else s

/-- A delivered message stands in MSGHDR, MSGSRC and MSGDATA0 to MSGDATA5 (R97, R174). -/
def PortUnit.present (u : PortUnit) (i : Image) : PortUnit :=
  { u with msgHdr := i[0], msgSrc := i[1], msgData := deliveredData i }

/-- Deliver the message in a pool slot to a port: the message registers and the line (R66, R97). -/
def State.presentSlot (s : State) (p : Port) (place : Place) (h : Handle) (x : PoolSlot) : State :=
  let i := s.pool[x]
  (s.completeLine place h i).modPort p fun u => u.present (s.completeImage place h i)

/-- Deliver the head of the resident list into the port's message registers and free its slot (R97). -/
def State.deliverHead (s : State) (p : Port) (h : Handle) : State :=
  match (s.inbox h).resident with
  | x :: rest =>
    ((s.presentSlot p .inbox h x).modInbox h fun ib => { ib with resident := rest }).returnSlots [x]
  | [] => s

/-! ### Sender release (4.5) -/

/-- The resume result that a routing outcome gives a released sender; none for FULL (R93). -/
def RouteOutcome.resume : RouteOutcome → Option Resume
  | .handedOff => some .ok
  | .resident => some .ok
  | .spilled => some .queued
  | .noSpace => some .noSpace
  | .broken => some .broken
  | .full => none

/-- The message of a pending send (R93). -/
def PendingSend.message (ps : PendingSend) (sender : Handle) : Message :=
  ⟨.data, ps.tag, sender, ps.payload⟩

/-- The pending send of a task (R7). -/
def State.pendingSendOf (s : State) (h : Handle) : Option PendingSend :=
  match s.task? h with
  | some t => t.pendingSend
  | none => none

/-- Try the senders of an inbox in their order until one meets FULL (R93, R94). -/
def releaseEntries (h : Handle) : List Handle → State → State
  | [], s => s
  | sender :: rest, s =>
    match s.pendingSendOf sender with
    | some ps =>
      let r := s.route .ordinary h (ps.message sender)
      match r.1.resume with
      | some res => releaseEntries h rest (r.2.endWait sender res)
      | none => s
    | none => releaseEntries h rest s

/-- Sender release at an inbox whose total has decreased (R92). -/
def State.releaseSenders (s : State) (h : Handle) : State :=
  releaseEntries h (s.inbox h).senders s

/-- Every sender on the list is released with GONE, oldest first, without routing (R23, R103). -/
def State.releaseAllGone (s : State) (h : Handle) : State :=
  (s.inbox h).senders.foldl (fun s sender => s.endWait sender .gone) s

/-- What follows the delivery of a resident message: sender release, then the refill check (R97, R99). -/
def State.afterDelivery (s : State) (h : Handle) : State :=
  (s.releaseSenders h).refillCheck h

/-- Complete the RECEIVE pending on an inbox, if there is one: the mark is cleared, the owner's port leaves its busy
state, RESULT takes the code and DONE is set (R99, R103, R124). -/
def State.completeReceive (s : State) (h : Handle) (code : ResultCode) : State :=
  if (s.inbox h).recvPending then
    let s := s.clearReceivePending h
    match s.task? h with
    | some t =>
      match t.state with
      | .running p => s.modPort p fun u =>
          { u with state := .run h false, result := resultWord code 0#16, done := true }
      | _ => s
    | none => s
  else s

/-- A message of the inbox became resident: a pending RECEIVE is answered with it (R99, R114). -/
def State.answerReceive (s : State) (h : Handle) : State :=
  if (s.inbox h).recvPending then
    match s.task? h with
    | some t =>
      match t.state with
      | .running p => ((s.deliverHead p h).completeReceive h .ok).afterDelivery h
      | _ => s
    | none => s
  else s

/-! ### Emptying an inbox (R23, R103) -/

/-- The job queue without the queued jobs of an inbox: the current job, at the head, stays (R111). -/
def jobsWithout (h : Handle) : List Job → List Job
  | [] => []
  | j :: rest => j :: rest.filter fun k => k.inbox ≠ h

/-- The slots of the queued jobs of an inbox, those behind the head (R23, R103). -/
def queuedSlots (h : Handle) : List Job → List PoolSlot
  | [] => []
  | _ :: rest => (rest.filter fun k => k.inbox = h).flatMap Job.slots

/-- No messages: the resident list is empty and every count and both ring indices are 0. -/
def Inbox.emptied (ib : Inbox) : Inbox :=
  { ib with
    resident := []
    spilling := 0
    backed := 0
    refilling := 0
    writeIndex := 0
    readIndex := 0 }

/-- Step 1 of R23 and R103: resident messages freed, ring messages discarded, queued jobs removed with their slots,
the inbox off the deferred-refill list; then one retry if a slot was returned. -/
def State.emptyInbox (s : State) (h : Handle) : State :=
  let slots := (s.inbox h).resident ++ queuedSlots h s.jobs
  (({ s with jobs := jobsWithout h s.jobs }.undefer h).modInbox h Inbox.emptied).returnSlots slots

/-- The current job, if it is the inbox's, gets the reset mark (R126). -/
def markCurrent (h : Handle) : List Job → List Job
  | [] => []
  | j :: rest => (if j.inbox = h then { j with resetMark := true } else j) :: rest

/-! ### Lines whose message is discarded (R150, R151) -/

/-- A discarded message's count is added to missed; count and pending mark are cleared (R150). -/
def LineRec.discard (r : LineRec) : LineRec :=
  { r with missed := saturate16 (r.missed + r.count), count := 0, pending := none }

/-- RESET_INBOX: every line pending in the inbox (R150). -/
def LineRec.discardInbox (h : Handle) (r : LineRec) : LineRec :=
  match r.pending with
  | some pe => if pe.place = .inbox ∧ pe.target = h then r.discard else r
  | none => r

/-- An inbox becoming BROKEN: every line pending in the inbox whose sequence is among the `d` numbers before the next
sequence (R150). -/
def LineRec.discardBroken (h : Handle) (next : BitVec 16) (d : Nat) (r : LineRec) : LineRec :=
  match r.pending with
  | some pe =>
    if pe.place = .inbox ∧ pe.target = h ∧ (next - 1#16 - pe.seq).toNat < d then r.discard else r
  | none => r

/-- DESTROY: a binding to the task is removed, and a line pending on it is cleared without counting missed (R151). -/
def LineRec.clearDestroyed (h : Handle) (r : LineRec) : LineRec :=
  let r := match r.binding with
    | some b => if b.target = h then { r with binding := none } else r
    | none => r
  match r.pending with
  | some pe => if pe.target = h then r.clearPending else r
  | none => r

/-- Change every line record. -/
def State.mapLines (s : State) (f : LineRec → LineRec) : State :=
  { s with lines := Vector.ofFn fun l => f s.lines[l] }

end Sys2Proof.Machine
end

