-- ==== Sys2Proof/Machine/Faults.lean ====
section
/-! DEFINITION. The fault reporter: the FAULT messages, the sink and the unreported-fault count (Chapter 8). -/

namespace Sys2Proof.Machine

/-- The causes of a port loss (R187). -/
inductive LossCause where
  | line | revoke | lease
  deriving DecidableEq, Repr

/-- The detail of a PORT_LOST fault (R158). -/
def LossCause.detail : LossCause → Word
  | .line => 0#32
  | .revoke => 1#32
  | .lease => 2#32

/-- A fault to be reported (R158). -/
inductive FaultReport where
  | portLost (task : Handle) (port : Port) (cause : LossCause)
  | backingFailed (owner : Handle) (discarded : Nat)
  deriving DecidableEq, Repr

/-- The FAULT message of a fault: tag, subject, port and detail (R158). -/
def FaultReport.message : FaultReport → Message
  | .portLost h p cause =>
    ⟨.fault, 0x0001#16, Handle.null, [h.bits.setWidth 32, BitVec.ofNat 32 p.val, cause.detail]⟩
  | .backingFailed h d =>
    ⟨.fault, 0x0002#16, Handle.null, [h.bits.setWidth 32, 255#32, BitVec.ofNat 32 d]⟩

/-- A fault that is not placed raises the unreported-fault count, saturating at 255 (R163). -/
def State.countUnreported (s : State) : State :=
  { s with unreported := saturate8 (s.unreported + 1) }

/-- Report a fault: its message is routed to the sink under the fault slot rule, or counted when the sink is unset or
stale or routing refuses it (R162, R163). -/
def State.raiseFault (s : State) (f : FaultReport) : State :=
  match s.sink with
  | some k =>
    if s.live k then
      let r := s.route .fault k f.message
      if r.1.accepted then r.2 else r.2.countUnreported
    else s.countUnreported
  | none => s.countUnreported

end Sys2Proof.Machine
end

