-- ==== Sys2Proof/Machine/Ports.lean ====
section
/-! DEFINITION. The port units: the loss of a port (9.8) and the eviction of its task (1.6). -/

namespace Sys2Proof.Machine

/-- A pending RECEIVE of the port's task is abandoned: the receive pending mark of its inbox is cleared, without DONE
(R17, R81, R188). -/
def State.abandonReceive (s : State) (p : Port) : State :=
  match (s.port p).state with
  | .run h true => s.clearReceivePending h
  | _ => s

/-- The port side of an eviction or a seed abort: IDLE, the code in RESULT, EVICTED set (R15, R18). -/
def State.evictPort (s : State) (p : Port) (code : ResultCode) : State :=
  s.modPort p fun u => { u with state := .idle, result := resultWord code 0#16, evicted := true }

/-- Evict a task in RUNNING or SAVING from its port: a pending RECEIVE is abandoned, a disposition undone, the staging
buffer discarded with the port's state (R15, R16, R17). The caller gives the task its next state. -/
def State.evict (s : State) (p : Port) (h : Handle) (code : ResultCode) : State :=
  ((s.abandonReceive p).undoWait h).evictPort p code

/-- What a loss leaves of the port unit: OFFLINE with its window reset for PRSTn#, LOST with its window kept for REVOKE
and lease expiry (R187, R190). -/
def PortUnit.lose (u : PortUnit) : LossCause → PortUnit
  | .line => PortUnit.reset true
  | .revoke | .lease => { u with state := .lost, preempt := false, leaseTick := .none, lost := true }

/-- What a loss does to the port's work, by the port state it found (R188); the fault, where one is due, is raised
last (R160). -/
def State.loseWork (s : State) (p : Port) (st : PortState) (cause : LossCause) : State :=
  match st with
  | .offline | .idle | .lost => s
  | .await => s.leaveAwait p
  | .loading h _ _ => s.readyHead h
  | .run h receiving =>
    let s := if receiving then s.clearReceivePending h else s
    (s.setTaskState h (.halted .portLost)).raiseFault (.portLost h p cause)
  | .saving .checkIn h _ =>
    ((s.undoWait h).setTaskState h (.halted .portLost)).raiseFault (.portLost h p cause)
  | .saving .seed h _ => s.modTask h fun t => { t with seedPort := none }

/-- The loss of a port (R187): the port leaves service, its work is acted on, the preempt flags are re-evaluated. -/
def State.losePort (s : State) (p : Port) (cause : LossCause) : State :=
  ((s.modPort p fun u => u.lose cause).loseWork p (s.port p).state cause).evalPreempt

end Sys2Proof.Machine
end

