-- ==== Sys2Proof/Machine/Frames.lean ====
section
/-! DEFINITION. Frame streams: check-out, check-in, seed and commit (Chapter 2). -/

namespace Sys2Proof.Machine

/-! ### The stream record (R32), as a view of the port state -/

/-- The kinds of a stream (R32). -/
inductive StreamKind where
  | checkOut | checkIn | seed
  deriving DecidableEq, Repr

/-- A stream record (R32). -/
structure StreamRecord where
  kind : StreamKind
  target : Handle
  length : Option Nat
  position : Nat
  deriving DecidableEq, Repr

/-- The kind of stream of a SAVING port. -/
def SaveKind.stream : SaveKind → StreamKind
  | .checkIn => .checkIn
  | .seed => .seed

/-- The stream record of a port: present in LOADING and SAVING (R32). The length of a check-in or seed is fixed by the
descriptor accepted, which stands first in the staging buffer (R39). -/
def PortState.stream : PortState → Option StreamRecord
  | .loading h n pos => some ⟨.checkOut, h, some n, pos⟩
  | .saving k h staging =>
    let len := match staging with
      | d :: _ => some (streamLength (descriptorLength d) (descriptorExtension d))
      | [] => none
    some ⟨k.stream, h, len, staging.length⟩
  | .offline | .idle | .await | .run _ _ | .lost => none

/-! ### Check-out -/

/-- The word of a task's check-out at a position: the descriptor, body words, extension words (R33). -/
def State.streamWord (s : State) (h : Handle) (t : Task) (position : Nat) : Word :=
  if position = 0 then descriptorWord h t.frameLength t.extension
  else s.frames[h.slot][frameIndex t.frameLength position]?.getD 0#32

/-- No bound message: MSGHDR shows NONE, and the other message registers read 0 (R66). -/
def PortUnit.presentNone (u : PortUnit) : PortUnit :=
  { u with msgHdr := 0#32, msgSrc := 0#32, msgData := Vector.replicate 6 0#32 }

/-- The presentation of the bound message or its absence (R66). -/
def State.presentBound (s : State) (p : Port) (h : Handle) (bound : Option PoolSlot) : State :=
  match bound with
  | some x => s.presentSlot p .bound h x
  | none => s.modPort p PortUnit.presentNone

/-- RESUME shows the resume result (R65). -/
def State.presentResume (s : State) (p : Port) (res : Resume) : State :=
  s.modPort p fun u => { u with resume := 0#24 ++ res.result.code }

/-- The end of a check-out: the port goes to RUN, the resume result and any bound message are presented, the task's
resume result is OK again with no bound message, and the slot is returned (R35, R65, R66). -/
def State.endCheckOut (s : State) (p : Port) (h : Handle) (t : Task) : State :=
  (((((s.setPortState p (.run h false)).presentResume p t.resume).presentBound p h t.bound).modTask h
    fun t => { t with resume := .ok, bound := none }).returnSlots t.bound.toList).evalPreempt

/-- The last word a FRAME read drove on PnD (log 5). -/
def State.setReadData (s : State) (p : Port) (w : Word) : State :=
  s.modPort p fun u => { u with readData := w }

/-- A read of FRAME: in LOADING the next stream word, with the end of the check-out after the last; 0 in every other
state (R33 to R35). -/
def State.readFrame (s : State) (p : Port) : State :=
  match (s.port p).state with
  | .loading h length position =>
    match s.task? h with
    | some t =>
      let s := s.setReadData p (s.streamWord h t position)
      if position + 1 < length then s.setPortState p (.loading h length (position + 1)) else s.endCheckOut p h t
    | none => s.setReadData p 0#32
  | .offline | .idle | .await | .run _ _ | .saving _ _ _ | .lost => s.setReadData p 0#32

/-! ### Check-in and seed -/

/-- A command sends the current task to SAVING: the disposition is written, the stream record set, the staging buffer
empty; RESULT holds the command's code with the task's handle (R38). -/
def State.beginCheckIn (s : State) (p : Port) (h : Handle) (d : Disposition) (code : ResultCode) : State :=
  ((s.setTaskState h (.saving p d false)).setPortState p (.saving .checkIn h [])).setResult p code h.bits

/-- The frame area after a commit: body words from staging words 1 to L, extension words from the words after them when
the flag is set; the rest as it was (R41). -/
def committedFrame (area : Vector Word 48) (frameLength : Nat) (extension : Bool) (staging : List Word) :
    Vector Word 48 :=
  Vector.ofFn fun i =>
    if i.val < frameLength then staging.getD (i.val + 1) 0#32
    else if extension && decide (32 ≤ i.val) then staging.getD (frameLength + 1 + (i.val - 32)) 0#32
    else area[i]

/-- The state in which an unsatisfied wait disposition leaves the task at commit (R42). -/
def Disposition.waitState : Disposition → TaskState
  | .recvWait => .recvWait
  | .sendWait => .sendWait
  | .sleeping => .sleeping
  | .readyTail => .ready
  | .readyHead => .ready

/-- Commit applies the disposition of a SAVING task (R42). -/
def State.applyDisposition (s : State) (h : Handle) : State :=
  match s.task? h with
  | some t =>
    match t.state with
    | .saving _ d satisfied =>
      match d with
      | .readyHead => s.readyHead h
      | .readyTail => s.readyTail h
      | .recvWait | .sendWait | .sleeping => if satisfied then s.readyTail h else s.setTaskState h d.waitState
    | _ => s
  | none => s

/-- The frame store takes the committed words, and the record the extension flag (R41). -/
def State.storeFrame (s : State) (h : Handle) (t : Task) (extension : Bool) (staging : List Word) : State :=
  { s with
    frames := s.frames.set h.slot (committedFrame s.frames[h.slot] t.frameLength extension staging) }.modTask h
      fun t => { t with extension := extension }

/-- Commit of a check-in or a seed: the frame is stored, the port goes to IDLE with RESULT OK and the handle, and the
disposition is applied or the seeding port cleared (R41, R42, R48). -/
def State.commit (s : State) (p : Port) (kind : SaveKind) (h : Handle) (t : Task) (extension : Bool)
    (staging : List Word) : State :=
  let s := ((s.storeFrame h t extension staging).setPortState p .idle).setResult p .ok h.bits
  match kind with
  | .checkIn => (s.applyDisposition h).evalPreempt
  | .seed => s.modTask h fun t => { t with seedPort := none }

/-- A word written to FRAME in SAVING: the descriptor at position 0, a body or extension word after it, the commit at
the final word (R39, R40, R41, R48). -/
def State.takeFrameWord (s : State) (p : Port) (kind : SaveKind) (h : Handle) (staging : List Word) (w : Word) :
    State :=
  match s.task? h with
  | some t =>
    match staging with
    | [] =>
      if Handle.ofWord w = h ∧ descriptorLength w = t.frameLength then s.setPortState p (.saving kind h [w])
      else s.setResult p .badArg 0#16
    | d :: _ =>
      if staging.length + 1 < streamLength t.frameLength (descriptorExtension d) then
        s.setPortState p (.saving kind h (staging ++ [w]))
      else s.commit p kind h t (descriptorExtension d) (staging ++ [w])
  | none => s

/-- A write of FRAME: taken in SAVING, without effect in every other state (R34, R40). -/
def State.writeFrame (s : State) (p : Port) (w : Word) : State :=
  match (s.port p).state with
  | .saving kind h staging => s.takeFrameWord p kind h staging w
  | .offline | .idle | .await | .loading _ _ _ | .run _ _ | .lost => s

end Sys2Proof.Machine
end

