-- ==== Sys2Proof/Machine/Backing.lean ====
section
/-! DEFINITION. The backing engine: burst attempts, their completions and failures, BROKEN inboxes and unowned jobs
(5.3 to 5.7). -/

namespace Sys2Proof.Machine

/-- The byte address of a job's present burst: base page times 4096 plus ring position times 32 (R109, R114). -/
def Job.address (j : Job) : Word :=
  BitVec.ofNat 32 (j.basePage * 4096 + ringAdvance j.position j.burstsDone j.capacity * 32)

/-- The job is owned: its inbox handle is live and its reset mark clear (R126). -/
def State.owns (s : State) (j : Job) : Bool := s.live j.inbox && !j.resetMark

/-- Pin BREQ (R119). -/
def State.breq (s : State) : Bool := s.burst.isSome

/-- Pin BWR while a burst is in progress (R119, R120). -/
def State.bwr (s : State) : Option Bool := s.burst.map Burst.write

/-- Pins BA while a burst is in progress (R119). -/
def State.ba (s : State) : Option Word := s.burst.map Burst.address

/-- Pin BVAL: high through a write burst (R119), low through a read burst and between bursts (R120). -/
def State.bval (s : State) : Bool :=
  match s.burst with
  | some b => b.write
  | none => false

/-- The three conditions of the engine (R122). -/
inductive EngineCondition where
  | idle | first | second
  deriving DecidableEq, Repr

/-- The condition of the engine: IDLE on an empty queue, else by the current job's attempt (R122). -/
def State.engineCondition (s : State) : EngineCondition :=
  match s.jobs with
  | [] => .idle
  | j :: _ =>
    match j.attempt with
    | .first => .first
    | .second => .second

/-- The engine raises BREQ for the current job's burst, with its attempt timer at 0 (R119, R121). -/
def State.startAttempt (s : State) : State :=
  match s.burst, s.jobs with
  | none, j :: _ => { s with burst := some ⟨decide (j.kind = .spill), j.address, 0, false⟩ }
  | _, _ => s

/-- The image a read burst brings (R120, log 7). -/
def State.readBurst (s : State) (b : Burst) : ReadData → Image
  | .stored => Memory.readImage s.backing b.address.toNat
  | .driven i => i

/-- An image whose first `n` words have been overwritten with those of another. -/
def Image.overlay (n : Nat) (new old : Image) : Image :=
  Vector.ofFn fun k => if k.val < n then new[k] else old[k]

/-- The words of a burst in progress that have been taken stand where they go: a write burst's in backing memory (R119), a
read burst's in the job's current slot (R120; log 7). -/
def State.landWords (s : State) (taken : Taken) : State :=
  match s.burst, s.jobs with
  | some b, j :: _ =>
    match j.slots with
    | x :: _ =>
      if b.write then
        { s with backing := Memory.writeWords s.backing b.address.toNat ((s.pool[x]).toList.take taken.count) }
      else s.writeSlot x (Image.overlay taken.count (s.readBurst b taken.data) s.pool[x])
    | [] => s
  | _, _ => s

/-- The end of the attempt: BREQ falls. -/
def State.endAttempt (s : State) : State := { s with burst := none }

/-- The end of an unowned current job, whatever its attempt's outcome: its slots are returned and it leaves the queue
(R126). -/
def State.endUnowned (s : State) (j : Job) (rest : List Job) : State :=
  ({ s with jobs := rest }.freeSlotList j.slots).retryDeferred

/-- The inbox record as it becomes BROKEN with `d` messages discarded (R123). -/
def Inbox.break (ib : Inbox) (d : Nat) : Inbox :=
  { ib with
    broken := true
    spilling := 0
    backed := 0
    refilling := 0
    writeIndex := 0
    readIndex := 0
    lostCount := saturate16 (ib.lostCount + d) }

/-- Steps 1 to 4 of R123: the current job ends, the inbox's other jobs are removed, all their slots are freed, the
inbox becomes BROKEN and leaves the deferred-refill list. -/
def State.breakRing (s : State) (j : Job) (rest : List Job) : State :=
  let h := j.inbox
  let slots := j.slots ++ (rest.filter fun k => k.inbox = h).flatMap Job.slots
  ((({ s with jobs := rest.filter fun k => k.inbox ≠ h }.freeSlotList slots).modInbox h fun ib =>
    ib.break ib.occupancy)).undefer h

/-- A second failure makes the inbox BROKEN (R123), with the consequences of R124 in their order; the retry of the
deferred-refill list comes after them. -/
def State.breakInbox (s : State) (j : Job) (rest : List Job) : State :=
  let h := j.inbox
  let d := (s.inbox h).occupancy
  (((((((s.breakRing j rest).mapLines (LineRec.discardBroken h (s.inbox h).nextSeq d)).completeReceive h
    .broken).releaseSenders h).raiseFault (.backingFailed h d)).retryDeferred)).evalPreempt

/-- The burst attempt in progress ends with ERROR (R122, R126). -/
def State.attemptError (s : State) : State :=
  let s := s.endAttempt
  match s.jobs with
  | j :: rest =>
    if s.owns j then
      match j.attempt with
      | .first => { s with jobs := { j with attempt := .second } :: rest }
      | .second => s.breakInbox j rest
    else s.endUnowned j rest
  | [] => s

/-- The completion of an owned SPILL job (R112). -/
def State.spillDone (s : State) (j : Job) (rest : List Job) : State :=
  let h := j.inbox
  ((({ s with jobs := rest }.freeSlotList j.slots).modInbox h fun ib =>
    { ib with spilling := ib.spilling - 1, backed := ib.backed + 1 }).refillCheck h).retryDeferred

/-- The end of a REFILL job after its last burst (R114 step 3). -/
def State.refillJobEnd (s : State) (h : Handle) : State :=
  ({ s with jobs := s.jobs.tail }.refillCheck h).retryDeferred

/-- The completion of a burst of an owned REFILL job whose image, in the job's current slot, is valid (R114). -/
def State.refillDone (s : State) (j : Job) (rest : List Job) : State :=
  match j.slots with
  | x :: xs =>
    let h := j.inbox
    let j' := { j with slots := xs, burstsDone := j.burstsDone + 1, attempt := Attempt.first }
    let s := ({ s with jobs := j' :: rest }.modInbox h fun ib =>
      { ib with resident := ib.resident ++ [x], refilling := ib.refilling - 1 }).answerReceive h
    (if j'.burstsDone = j'.count then s.refillJobEnd h else s).evalPreempt
  | [] => s

/-- A write burst completes with OK: all eight words are in memory, and the SPILL job is done, or ends unowned
(R112, R126). Without a write attempt in progress BRDY is ignored (R119). -/
def State.spillComplete (s : State) : State :=
  match s.burst, s.jobs with
  | some b, j :: rest =>
    if b.write then
      let s := (s.landWords ⟨8, .stored⟩).endAttempt
      if s.owns j then s.spillDone j rest else s.endUnowned j rest
    else s
  | _, _ => s

/-- The eight words of a read burst stand in the job's current slot, whatever becomes of the attempt (R120). -/
def State.keepImage (s : State) (j : Job) (i : Image) : State :=
  match j.slots with
  | x :: _ => s.writeSlot x i
  | [] => s

/-- A read burst has brought its eight words: an image that passes the check completes the burst, one that fails is an
ERROR of the attempt; an unowned job ends (R114, R120, R126). -/
def State.refillComplete (s : State) (data : ReadData) : State :=
  match s.burst, s.jobs with
  | some b, j :: rest =>
    if b.write then s
    else
      let i := s.readBurst b data
      let s := (s.keepImage j i).endAttempt
      if s.owns j then
        if imageValid i then s.refillDone j rest else s.attemptError
      else s.endUnowned j rest
  | _, _ => s

/-- A burst attempt ends with BERR (R119, R122). Without an attempt in progress BERR is ignored. -/
def State.burstError (s : State) (taken : Taken) : State :=
  match s.burst with
  | some _ => (s.landWords taken).attemptError
  | none => s

/-- The attempt ends by the backing timeout, if its timer has reached it (R121). -/
def State.takeTimeout (s : State) (taken : Taken) : State :=
  match s.burst with
  | some b => if b.timedOut then s.burstError taken else s
  | none => s

end Sys2Proof.Machine
end

