-- ==== Sys2Proof/Machine/Ticks.lean ====
section
/-! DEFINITION. The tick: its delivery to the deadline unit, the port units and the backing engine, and the expiries
it causes (Chapter 6, R121, R184). A tick's expiries are commands of their own, or are made before the next other
request (R131, log 3). -/

namespace Sys2Proof.Machine

/-! ### Deadline expiries -/

/-- The resume result of an expiry (R137 to R139). -/
def DeadlineKind.resume : DeadlineKind → Resume
  | .sleep => .ok
  | .recv => .timeout
  | .send => .timeout

/-- The head entry's expiry value equals the counter: it is due (R136). -/
def State.deadlineDue (s : State) : Bool :=
  match s.deadlines with
  | e :: _ => e.expiry == s.tickCounter
  | [] => false

/-- Expire the head entry: it leaves the list and is taken at the task record (R136 to R139). -/
def State.expireHead (s : State) : State :=
  match s.deadlines with
  | e :: _ => (s.endWait e.task e.kind.resume).evalPreempt
  | [] => s

/-- Expire entries while the head is due, `fuel` bounding how many. -/
def expireDue : Nat → State → State
  | 0, s => s
  | fuel + 1, s => if s.deadlineDue then expireDue fuel s.expireHead else s

/-- Make every outstanding deadline expiry (R131, R136). -/
def State.settleDeadlines (s : State) : State :=
  if s.deadlineDue then { expireDue s.deadlines.length s with expiring := false } else s

/-- A deadline unit in the middle of a tick's expiries makes the rest of them before another holder's request (R131). -/
def State.finishExpiries (s : State) : State :=
  if s.expiring then s.settleDeadlines else s

/-! ### Leases -/

/-- A port unit takes a tick: in a counting state with a lease configured the counter falls by one, and reaching 0 is
the loss of the port (R184). -/
def PortUnit.countDown (u : PortUnit) (configured : Nat) : PortUnit :=
  if decide (0 < configured) && u.state.counting then
    if u.lease ≤ 1 then { u with lease := 0, leaseTick := .expired }
    else { u with lease := u.lease - 1, leaseTick := .none }
  else { u with leaseTick := .none }

/-- A port unit takes a tick that it still owes. -/
def PortUnit.takeOwed (u : PortUnit) (configured : Nat) : PortUnit :=
  match u.leaseTick with
  | .owed => u.countDown configured
  | .none | .expired => u

/-- A port takes what the last tick has left for it: a tick still owed, the loss by lease expiry (R184, R187). -/
def State.takeLeaseTick (s : State) (p : Port) : State :=
  match (s.port p).leaseTick with
  | .none => s
  | .owed | .expired =>
    let s := s.modPort p fun u => u.takeOwed s.items.leases[p]
    match (s.port p).leaseTick with
    | .expired => s.losePort p .lease
    | .none | .owed => s

/-! ### Settling and delivery -/

/-- Every consequence of the last tick that is still outstanding is made: deadline expiries, leases of P0 to P3, the
backing timeout (log 3); ticks that ports still owe are taken with them, before any other request (log 28). -/
def State.settle (s : State) : State :=
  (((((s.settleDeadlines.takeLeaseTick 0).takeLeaseTick 1).takeLeaseTick 2).takeLeaseTick 3)).takeTimeout .nothing

/-- No consequence of a tick is outstanding. -/
def State.quiet (s : State) : Bool :=
  !s.deadlineDue && s.ports.toList.all (fun u => u.leaseTick == .none) &&
    (match s.burst with
      | some b => !b.timedOut
      | none => true)

/-- The attempt timer advances, and reaches the timeout or not (R121). -/
def Burst.tick (b : Burst) (timeout : Nat) : Burst :=
  { b with timer := b.timer + 1, timedOut := decide (timeout ≤ b.timer + 1) }

/-- The tick at one port: taken now, or owed (log 3). -/
def State.tickPort (s : State) (late : BitVec 4) (p : Port) : State :=
  s.modPort p fun u =>
    if late.getLsbD p.val then { u with leaseTick := .owed } else u.countDown s.items.leases[p]

/-- Deliver one tick to its three holders: the tick counter, the leases and the attempt timer (R131, R132). That the
attempt timer always advances with the counter, before the tick's expiries, and that no other request comes between the
tick at one holder and the same tick at another, is the model's choice (R121, R132; log 28). -/
def State.deliverTick (s : State) (late : BitVec 4) : State :=
  let s := { s with
    tickCounter := s.tickCounter + 1#32
    burst := s.burst.map (Burst.tick · s.items.backingTimeout) }
  (((s.tickPort late 0).tickPort late 1).tickPort late 2).tickPort late 3

/-- Ticks are delivered in SERVICE only, and not while RST# is low (R130, R199). -/
def State.ticking (s : State) (fromLine : Bool) : Bool :=
  !s.rstLow && s.phase == .service && s.items.tickLine == fromLine

/-- A tick is taken whole before the next: what the last one left is made first (R131). -/
def State.takeTick (s : State) (late : BitVec 4) : State := s.settle.deliverTick late

/-- One CLK period on an empty queue: the divider counts, and delivers a tick when it reaches its value (R130,
log 2). -/
def State.clockPeriod (s : State) : State :=
  if s.ticking false then
    if s.dividerCount + 1 < s.items.divider then { s with dividerCount := s.dividerCount + 1 }
    else { s with dividerCount := 0 }.takeTick 0#4
  else s

end Sys2Proof.Machine
end

