-- ==== Sys2Proof/Machine/Gate.lean ====
section
/-! DEFINITION. The taking of a command by a port unit: the checks of R177 in their order, and what a command written
to CMD does when it is refused, not taken, or taken. -/

namespace Sys2Proof.Machine

/-- What the port unit's checks decide (R177). -/
inductive Gate where
  /-- The port is held in reset: the write is not a command (R169). -/
  | ignored
  | refused (code : ResultCode)
  /-- The port is busy: the write is not taken (R180). -/
  | overrun
  | taken
  deriving DecidableEq, Repr

/-- The port is in the supervisor set (R179). -/
def State.isSupervisor (s : State) (p : Port) : Bool := s.items.supervisors.getLsbD p.val

/-- Checks 2 to 5 of R177, in their order; check 1 is the code's (`Cmd.ofWord`). The order of R177 decides
where another rule names BADSTATE for a port state without it: ATTACH (R182), SEED (R47, R49), DISPATCH in RUN (R61) and DETACH
in RUN (R183) written to a busy port are overruns (R180), and SEED in CONFIG is refused with PHASE. That is the model's choice
(log 24). -/
def State.gate (s : State) (c : Cmd) (p : Port) : Gate :=
  let st := (s.port p).state
  if s.held p then .ignored
  else if !c.takenInPhase s.phase then .refused .phase
  else if st.busy && c != .cancel then .overrun
  else if !c.takenIn st then .refused .badState
  else if c.supervisor && !s.isSupervisor p then .refused .notSupv
  else .taken

/-- A write that a busy port does not take sets OVERRUN (R180). -/
def State.setOverrun (s : State) (p : Port) : State :=
  s.modPort p fun u => { u with overrun := true }

/-- A command written to CMD, after the outstanding tick consequences: refused with its code, not taken, or taken, which
reloads the lease before the command's own effect (R177, R184). -/
def State.issue (c : Cmd) (p : Port) (effect : State → State) (s : State) : State :=
  let s := s.settle
  match s.gate c p with
  | .ignored => s
  | .refused code => s.setResult p code 0#16
  | .overrun => s.setOverrun p
  | .taken => effect (s.reloadLease p)

/-- A word written to CMD that is no command code is refused with BADCMD at check 1 (R177). -/
def State.refuseCode (s : State) (p : Port) : State :=
  let s := s.settle
  if s.held p then s else s.setResult p .badCmd 0#16

end Sys2Proof.Machine
end

