-- ==== Sys2Proof/Machine/QueryCommands.lean ====
section
/-! DEFINITION. The queries: QUERY_TASK, QUERY_INBOX, QUERY_EVENT, QUERY_PART, with the layouts of R176. -/

namespace Sys2Proof.Machine

/-- ARG0 to ARG3 of QUERY_TASK (R28, R176). -/
def State.taskRecord (s : State) (h : Handle) (t : Task) : Vector Word 4 :=
  #v[0#8 ++ t.state.haltCode ++ t.state.code ++ h.bits,
     0#15 ++ BitVec.ofBool t.extension ++ 0#2 ++ BitVec.ofNat 6 t.frameLength ++ t.affinity ++
       BitVec.ofNat 4 t.priority.val,
     0#5 ++ BitVec.ofBool (s.deadlinePresent h) ++ BitVec.ofBool t.pendingSend.isSome ++
       BitVec.ofBool t.bound.isSome ++ t.resume.result.code ++ 0#3 ++ BitVec.ofBool t.state.satisfied ++
       t.state.dispositionCode ++ portField t.seedPort ++ portField t.state.currentPort,
     s.deadlineExpiryOf h]

/-- QUERY_TASK, taken (R28). -/
def State.queryTask (p : Port) (s : State) : State :=
  match s.task? (s.handleArg p) with
  | some t => (s.setArgs p (s.taskRecord (s.handleArg p) t)).setResult p .ok 0#16
  | none => s.setResult p .badHandle 0#16

/-- QUERY_TASK (R28). -/
def execQueryTask (p : Port) (s : State) : Result := .next (s.issue .queryTask p (State.queryTask p))

/-- ARG0 to ARG3 of QUERY_INBOX (R104, R176). -/
def Inbox.record (ib : Inbox) : Vector Word 4 :=
  #v[BitVec.ofNat 8 ib.senders.length ++ BitVec.ofNat 8 ib.spilling ++ BitVec.ofNat 8 ib.resident.length ++ 0#6 ++
       BitVec.ofBool ib.recvPending ++ BitVec.ofBool ib.broken,
     BitVec.ofNat 6 ib.mark ++ BitVec.ofNat 6 ib.limit ++ BitVec.ofNat 20 ib.basePage,
     BitVec.ofNat 6 ib.refilling ++ BitVec.ofNat 13 ib.backed ++ BitVec.ofNat 13 ib.capacity,
     BitVec.ofNat 16 ib.lostCount ++ ib.nextSeq]

/-- QUERY_INBOX, taken (R104). -/
def State.queryInbox (p : Port) (s : State) : State :=
  if s.live (s.handleArg p) then (s.setArgs p (s.inbox (s.handleArg p)).record).setResult p .ok 0#16
  else s.setResult p .badHandle 0#16

/-- QUERY_INBOX (R104). -/
def execQueryInbox (p : Port) (s : State) : Result := .next (s.issue .queryInbox p (State.queryInbox p))

/-- The edge field of a line, from its polarity: set for FALLING (R144, R192). -/
def State.falling (s : State) (l : Line) : Bool := s.items.polarity.getLsbD l.val

/-- The pending place bit of QUERY_EVENT: 1 for BOUND (R176). -/
def LineRec.placeBit (r : LineRec) : Bool :=
  match r.pending with
  | some pe => decide (pe.place = .bound)
  | none => false

/-- The binding word of QUERY_EVENT (R155, R176). -/
def LineRec.bindingWord (r : LineRec) : Word :=
  match r.binding with
  | some b => b.tag ++ b.target.bits
  | none => 0#32

/-- The pending word of QUERY_EVENT (R155, R176). -/
def LineRec.pendingWord (r : LineRec) : Word :=
  match r.pending with
  | some pe => pe.seq ++ pe.target.bits
  | none => 0#32

/-- ARG0 to ARG3 of QUERY_EVENT (R155, R176). -/
def State.lineRecord (s : State) (l : Line) : Vector Word 4 :=
  let r := s.lines[l]
  #v[0#24 ++ BitVec.ofBool r.placeBit ++ BitVec.ofBool r.pending.isSome ++ BitVec.ofBool (s.falling l) ++
       BitVec.ofBool r.binding.isSome ++ BitVec.ofNat 4 l.val,
     r.bindingWord,
     BitVec.ofNat 16 r.missed ++ BitVec.ofNat 16 r.count,
     r.pendingWord]

/-- QUERY_EVENT, taken (R155). -/
def State.queryEvent (p : Port) (s : State) : State :=
  match lineOfWord (s.port p).args[0] with
  | some l => (s.setArgs p (s.lineRecord l)).setResult p .ok 0#16
  | none => s.setResult p .badArg 0#16

/-- QUERY_EVENT (R155). -/
def execQueryEvent (p : Port) (s : State) : Result := .next (s.issue .queryEvent p (State.queryEvent p))

/-- ARG0 to ARG3 of QUERY_PART (R128, R176): of the fault reporter's two items the count alone. R157 speaks of QUERY_PART's
reading of both, and no field shows the sink: the model's choice (log 27). -/
def State.partRecord (s : State) : Vector Word 4 :=
  #v[BitVec.ofNat 32 s.freeCount, BitVec.ofNat 32 s.jobs.length, BitVec.ofNat 32 s.unreported, s.tickCounter]

/-- QUERY_PART, taken (R128). -/
def State.queryPart (p : Port) (s : State) : State :=
  (s.setArgs p s.partRecord).setResult p .ok 0#16

/-- QUERY_PART (R128). -/
def execQueryPart (p : Port) (s : State) : Result := .next (s.issue .queryPart p (State.queryPart p))

end Sys2Proof.Machine
end

