-- ==== Sys2Proof/Machine/EventCommands.lean ====
section
/-! DEFINITION. BIND_EVENT, UNBIND_EVENT, SETSINK and the edge of an event line (Chapter 7, R164). -/

namespace Sys2Proof.Machine

/-- A tag argument: a whole word of 0 to 65535 (R152). -/
def tagOfWord (w : Word) : Option (BitVec 16) :=
  if w.toNat ≤ 65535 then some (lowHalf w) else none

/-- A line takes a binding; missed is set to 0 (R152). -/
def LineRec.bind (r : LineRec) (b : Binding) : LineRec :=
  { r with binding := some b, count := 0, missed := 0 }

/-- BIND_EVENT, taken (R152). -/
def State.bindEvent (p : Port) (s : State) : State :=
  let args := (s.port p).args
  let h := Handle.ofWord args[1]
  if !s.live h then s.setResult p .badHandle 0#16
  else
    match lineOfWord args[0], tagOfWord args[2] with
    | some l, some tag =>
      if s.lines[l].pending.isSome then s.setResult p .badState 0#16
      else (s.modLine l fun r => r.bind ⟨h, tag⟩).setResult p .ok 0#16
    | _, _ => s.setResult p .badArg 0#16

/-- BIND_EVENT (R152). -/
def execBindEvent (p : Port) (s : State) : Result := .next (s.issue .bindEvent p (State.bindEvent p))

/-- UNBIND_EVENT, taken (R153). -/
def State.unbindEvent (p : Port) (s : State) : State :=
  match lineOfWord (s.port p).args[0] with
  | some l => (s.modLine l fun r => { r with binding := none }).setResult p .ok 0#16
  | none => s.setResult p .badArg 0#16

/-- UNBIND_EVENT (R153). -/
def execUnbindEvent (p : Port) (s : State) : Result := .next (s.issue .unbindEvent p (State.unbindEvent p))

/-- The previous sink's handle as a value: 0 when unset (R164). -/
def State.sinkBits (s : State) : BitVec 16 :=
  match s.sink with
  | some h => h.bits
  | none => 0#16

/-- SETSINK, taken (R164). -/
def State.setSink (p : Port) (s : State) : State :=
  let h := s.handleArg p
  if s.live h then { s with sink := some h }.setResult p .ok s.sinkBits
  else s.setResult p .badHandle 0#16

/-- SETSINK (R164). -/
def execSetSink (p : Port) (s : State) : Result := .next (s.issue .setSink p (State.setSink p))

/-! ### Edges (R145 to R148) -/

/-- The EVENT message of a line (R147). -/
def Binding.message (b : Binding) : Message :=
  ⟨.event, b.tag, Handle.null, [0#32, 0#32]⟩

/-- The place of an accepted EVENT message (R147). -/
def RouteOutcome.place : RouteOutcome → Place
  | .handedOff => .bound
  | .resident | .spilled | .broken | .noSpace | .full => .inbox

/-- A line whose message was accepted (R147): count 1, pending. -/
def LineRec.posted (r : LineRec) (pe : PendingEvent) : LineRec :=
  { r with count := 1, pending := some pe }

/-- A line whose message was refused: missed rises, count 0, not pending (R148). -/
def LineRec.refused (r : LineRec) : LineRec :=
  { r with missed := saturate16 (r.missed + 1), count := 0 }

/-- An edge posts an EVENT message to the binding's target; a stale target counts as a refusal (R147, R148). -/
def State.postEvent (s : State) (l : Line) (b : Binding) : State :=
  if s.live b.target then
    let r := s.route .ordinary b.target b.message
    if r.1.accepted then
      (r.2.modLine l fun rec => rec.posted ⟨b.target, (s.inbox b.target).nextSeq, r.1.place⟩).evalPreempt
    else s.modLine l LineRec.refused
  else s.modLine l LineRec.refused

/-- An edge taken at a line record (R146). -/
def State.takeEdge (s : State) (l : Line) : State :=
  match s.lines[l].binding with
  | some b =>
    if s.lines[l].pending.isSome then s.modLine l fun r => { r with count := saturate16 (r.count + 1) }
    else s.postEvent l b
  | none => s

/-- A change of the synchronized level is detected if it is an edge of the line's polarity (R145). -/
def State.edgeDetected (s : State) (l : Line) (level : Bool) : Bool :=
  s.lines[l].level != level && level != s.falling l

/-- The synchronized level of a line changes (R145). -/
def State.changeLevel (l : Line) (level : Bool) (s : State) : State :=
  let t := s.modLine l fun r => { r with level := level }
  if s.edgeDetected l level then t.takeEdge l else t

/-- EVENT_EDGE (R145, R146). While RST# is low the part is held in reset, and the levels are taken at its rise. -/
def execEventEdge (l : Line) (level : Bool) (s : State) : Result :=
  .next (if s.rstLow then s else s.settle.changeLevel l level)

end Sys2Proof.Machine
end

