-- ==== Sys2Proof/Machine/RunCommands.lean ====
section
/-! DEFINITION. The commands by which a port asks for a task and gives it up: DISPATCH, CANCEL, YIELD, EXIT, SLEEP
(3.3, 3.5). A task-level command acts on the port's current task; the gate lets it pass in RUN only (R71, R178). -/

namespace Sys2Proof.Machine

/-- DISPATCH, taken: the selected task is handed to the port, or the port joins the tail of the await list (R61). -/
def State.dispatch (p : Port) (s : State) : State :=
  (match s.select p with
  | some h => (s.handOff p h).setResult p .ok h.bits
  | none =>
    ({ s with awaitList := s.awaitList ++ [p] }.setPortState p .await).setResult p .pending 0#16).evalPreempt

/-- DISPATCH (R61). -/
def execDispatch (p : Port) (s : State) : Result := .next (s.issue .dispatch p (State.dispatch p))

/-- CANCEL, taken: in AWAIT the request is withdrawn, in RUN a pending RECEIVE is abandoned with EMPTY, otherwise
BADSTATE (R63, R64). -/
def State.cancel (p : Port) (s : State) : State :=
  match (s.port p).state with
  | .await => ((s.leaveAwait p).setPortState p .idle).setResult p .ok 0#16
  | .run h true => ((s.clearReceivePending h).setPortState p (.run h false)).setResult p .empty 0#16
  | .run _ false | .offline | .idle | .loading _ _ _ | .saving _ _ _ | .lost => s.setResult p .badState 0#16

/-- CANCEL (R63, R64). -/
def execCancel (p : Port) (s : State) : Result := .next (s.issue .cancel p (State.cancel p))

/-- Act on the current task of a port in RUN. -/
def State.onCurrent (s : State) (p : Port) (f : Handle → Task → State) : State :=
  match (s.port p).state with
  | .run h _ =>
    match s.task? h with
    | some t => f h t
    | none => s
  | .offline | .idle | .await | .loading _ _ _ | .saving _ _ _ | .lost => s

/-- YIELD, taken: OK at once without a rival, else SAVING with READY-head if the preempt flag is set and READY-tail
otherwise (R67, R68). -/
def State.yield (p : Port) (s : State) : State :=
  s.onCurrent p fun h t =>
    if s.hasRival p t then
      (s.beginCheckIn p h (if (s.port p).preempt then .readyHead else .readyTail) .ok).evalPreempt
    else s.setResult p .ok 0#16

/-- YIELD (R67, R68). -/
def execYield (p : Port) (s : State) : Result := .next (s.issue .yield p (State.yield p))

/-- EXIT, taken: the task becomes DORMANT and the port IDLE, without a check-in (R70). -/
def State.exit (p : Port) (s : State) : State :=
  s.onCurrent p fun h _ =>
    (((s.setTaskState h .dormant).setPortState p .idle).setResult p .ok 0#16).evalPreempt

/-- EXIT (R70). -/
def execExit (p : Port) (s : State) : Result := .next (s.issue .exit p (State.exit p))

/-- SLEEP, taken: a value of 1 to 65535 inserts a SLEEP deadline and begins the check-in (R69). -/
def State.sleep (p : Port) (s : State) : State :=
  s.onCurrent p fun h _ =>
    let n := (s.port p).args[0]
    if 1 ≤ n.toNat ∧ n.toNat ≤ 65535 then
      ((s.insertDeadline h (lowHalf n) .sleep).beginCheckIn p h .sleeping .ok).evalPreempt
    else s.setResult p .badArg 0#16

/-- SLEEP (R69). -/
def execSleep (p : Port) (s : State) : Result := .next (s.issue .sleep p (State.sleep p))

end Sys2Proof.Machine
end

