-- ==== Sys2Proof/Machine/MessageCommands.lean ====
section
/-! DEFINITION. SEND, RECEIVE, SETINBOX and RESET_INBOX (4.4 to 4.7). -/

namespace Sys2Proof.Machine

/-- The pending send that a SEND's arguments and OUTDATA describe (R88). -/
def PortUnit.pendingSend (u : PortUnit) : PendingSend :=
  ⟨Handle.ofWord u.args[0], lowHalf u.args[1], u.outData.toList.take (sendLength u.args[1])⟩

/-- A SEND with WAIT that met FULL: the sender joins the target's sender list, its record holds the pending send, a
timed wait is armed, and the check-in begins (R90). -/
def State.beginSendWait (s : State) (p : Port) (h : Handle) (ps : PendingSend) (timeout : BitVec 16) : State :=
  ((((s.modInbox ps.target fun ib => { ib with senders := ib.senders ++ [h] }).modTask h
    fun t => { t with pendingSend := some ps }).armTimeout h timeout .send).beginCheckIn p h .sendWait .full).evalPreempt

/-- SEND, taken (R88 to R90). -/
def State.send (p : Port) (s : State) : State :=
  s.onCurrent p fun h _ =>
    let u := s.port p
    let ps := u.pendingSend
    if !s.live ps.target then s.setResult p .badHandle 0#16
    else if Config.maxPayload < sendLength u.args[1] then s.setResult p .badArg 0#16
    else
      let r := s.route .ordinary ps.target (ps.message h)
      if r.1 = .full ∧ waitFlag u.args[2] ∧ ps.target ≠ h then s.beginSendWait p h ps (lowHalf u.args[2])
      else (r.2.setResult p r.1.result 0#16).evalPreempt

/-- SEND (R88). -/
def execSend (p : Port) (s : State) : Result := .next (s.issue .send p (State.send p))

/-- A RECEIVE that waits for a refill: the mark is set, PENDING, the port busy in RUN; then the refill check (R98). -/
def State.beginReceivePending (s : State) (p : Port) (h : Handle) : State :=
  (((s.modInbox h fun ib => { ib with recvPending := true }).setPortState p (.run h true)).setResult p .pending
    0#16).refillCheck h

/-- RECEIVE, taken: the cases of R96 in their order. -/
def State.receive (p : Port) (s : State) : State :=
  s.onCurrent p fun h _ =>
    let ib := s.inbox h
    let arg := (s.port p).args[0]
    if 0 < ib.resident.length then (((s.deliverHead p h).setResult p .ok 0#16).afterDelivery h).evalPreempt
    else if 0 < ib.occupancy then s.beginReceivePending p h
    else if ib.broken then s.setResult p .broken 0#16
    else if waitFlag arg then ((s.armTimeout h (lowHalf arg) .recv).beginCheckIn p h .recvWait .empty).evalPreempt
    else s.setResult p .empty 0#16

/-- RECEIVE (R96). -/
def execReceive (p : Port) (s : State) : Result := .next (s.issue .receive p (State.receive p))

/-- The arguments of SETINBOX: resident limit, refill mark, base page, capacity (R102, R175). -/
structure InboxLimits where
  limit : Nat
  mark : Nat
  basePage : Nat
  capacity : Nat
  deriving DecidableEq, Repr

/-- The limits in the argument registers (R175). -/
def PortUnit.inboxLimits (u : PortUnit) : InboxLimits :=
  ⟨limitField u.args[1], markField u.args[1], u.args[2].toNat, u.args[3].toNat⟩

/-- Checks 2 to 4 of SETINBOX (R102). -/
def InboxLimits.valid (a : InboxLimits) (backingEnable : Bool) : Bool :=
  decide (1 ≤ a.limit ∧ a.limit ≤ 32 ∧ a.mark < a.limit ∧ a.basePage ≤ 1048575 ∧ a.capacity ≤ 4096) &&
    (a.capacity == 0 || backingEnable) && decide (a.basePage * 4096 + a.capacity * 32 ≤ 2 ^ 32)

/-- The inbox with new limits: both ring indices are 0 (R102). -/
def Inbox.setLimits (ib : Inbox) (a : InboxLimits) : Inbox :=
  { ib with
    limit := a.limit
    mark := a.mark
    basePage := a.basePage
    capacity := a.capacity
    writeIndex := 0
    readIndex := 0 }

/-- SETINBOX, taken (R102). -/
def State.setInbox (p : Port) (s : State) : State :=
  let h := s.handleArg p
  let a := (s.port p).inboxLimits
  if !s.live h then s.setResult p .badHandle 0#16
  else if !a.valid s.items.backingEnable then s.setResult p .badArg 0#16
  else if (s.inbox h).total ≠ 0 ∨ (s.inbox h).broken then s.setResult p .badState 0#16
  else (s.modInbox h fun ib => ib.setLimits a).setResult p .ok 0#16

/-- SETINBOX (R102). -/
def execSetInbox (p : Port) (s : State) : Result := .next (s.issue .setInbox p (State.setInbox p))

/-- Step 2 of R103: sequence and lost count 0, state NORMAL; the counts are already 0. -/
def Inbox.renew (ib : Inbox) : Inbox :=
  { ib with broken := false, nextSeq := 0#16, lostCount := 0 }

/-- The changes of RESET_INBOX in their order (R103). -/
def State.clearInbox (s : State) (h : Handle) : State :=
  ((((({ s with jobs := markCurrent h s.jobs }.emptyInbox h).modInbox h Inbox.renew).releaseAllGone h).completeReceive h
    .empty).mapLines (LineRec.discardInbox h)).evalPreempt

/-- RESET_INBOX, taken: the value is the number of messages freed and discarded (R103). -/
def State.resetInbox (p : Port) (s : State) : State :=
  let h := s.handleArg p
  if s.live h then (s.clearInbox h).setResult p .ok (BitVec.ofNat 16 (s.inbox h).total)
  else s.setResult p .badHandle 0#16

/-- RESET_INBOX (R103). -/
def execResetInbox (p : Port) (s : State) : Result := .next (s.issue .resetInbox p (State.resetInbox p))

end Sys2Proof.Machine
end

