-- ==== Sys2Proof/Machine/PortCommands.lean ====
section
/-! DEFINITION. ATTACH, DETACH, REVOKE and BEGIN_SERVICE (9.6, 9.8, 10.4). -/

namespace Sys2Proof.Machine

/-- ATTACH, taken: IDLE, every attention cause cleared, RESULT OK with the port's number (R182). -/
def State.attach (p : Port) (s : State) : State :=
  (s.modPort p fun u => { u.clearCauses with state := .idle }).setResult p .ok (BitVec.ofNat 16 p.val)

/-- ATTACH (R182). -/
def execAttach (p : Port) (s : State) : Result := .next (s.issue .attach p (State.attach p))

/-- DETACH, taken: OFFLINE, every attention cause cleared, RESULT OK (R183). -/
def State.detach (p : Port) (s : State) : State :=
  (s.modPort p fun u => { u.clearCauses with state := .offline }).setResult p .ok 0#16

/-- DETACH (R183). -/
def execDetach (p : Port) (s : State) : Result := .next (s.issue .detach p (State.detach p))

/-- The port is attached: in neither OFFLINE nor LOST (R186). -/
def PortState.attached : PortState → Bool
  | .offline | .lost => false
  | .idle | .await | .loading _ _ _ | .run _ _ | .saving _ _ _ => true

/-- REVOKE, taken (R186). -/
def State.revoke (p : Port) (s : State) : State :=
  match portOfWord (s.port p).args[0] with
  | some q =>
    if q = p then s.setResult p .badArg 0#16
    else if (s.port q).state.attached then (s.losePort q .revoke).setResult p .ok 0#16
    else s.setResult p .badState 0#16
  | none => s.setResult p .badArg 0#16

/-- REVOKE (R186). -/
def execRevoke (p : Port) (s : State) : Result := .next (s.issue .revoke p (State.revoke p))

/-- The part enters SERVICE: the phase changes, the tick counter and the divider count start from 0 (R196). The items
are frozen because nothing writes them in SERVICE (R195). -/
def State.enterService (s : State) : State :=
  { s with phase := .service, tickCounter := 0#32, dividerCount := 0 }

/-- BEGIN_SERVICE, taken (R196). -/
def State.beginService (p : Port) (s : State) : State :=
  if s.items.supervisors = 0#4 then s.setResult p .badArg 0#16
  else s.enterService.setResult p .ok 0#16

/-- BEGIN_SERVICE (R196). -/
def execBeginService (p : Port) (s : State) : Result := .next (s.issue .beginService p (State.beginService p))

end Sys2Proof.Machine
end

