-- ==== Sys2Proof/Machine/TaskCommands.lean ====
section
/-! DEFINITION. The supervisor task commands: CREATE, SEED, ACTIVATE, RELEASE, HALT, DESTROY, SETPRIO, SETAFFINITY
(1.4 to 1.9, 2.5). -/

namespace Sys2Proof.Machine

/-- Act on the task that ARG0 names; a stale handle is refused with BADHANDLE (R1, R10). -/
def State.onNamed (s : State) (p : Port) (f : Handle → Task → State) : State :=
  match s.task? (s.handleArg p) with
  | some t => f (s.handleArg p) t
  | none => s.setResult p .badHandle 0#16

/-! ### CREATE (R11, R12) -/

/-- The record of a new task (R11). -/
def Task.new (priority : Priority) (affinity : BitVec 4) (frameLength : Nat) : Task where
  state := .dormant
  priority := priority
  affinity := affinity
  frameLength := frameLength
  extension := false
  seedPort := none
  resume := .ok
  bound := none
  pendingSend := none

/-- Make a task in a slot: the record, the frame zero-filled, the inbox at its defaults (R11, R12). -/
def State.makeTask (s : State) (slot : Slot) (t : Task) : State :=
  { s with
    tasks := s.tasks.set slot ⟨s.tasks[slot].gen, some t⟩
    frames := s.frames.set slot (Vector.replicate 48 0#32)
    inboxes := s.inboxes.set slot Inbox.default }

/-- CREATE with its arguments checked: the top slot of the free-slot list (R3, R11). -/
def State.createTask (s : State) (p : Port) (t : Task) : State :=
  match s.freeSlots with
  | slot :: rest =>
    ({ s with freeSlots := rest }.makeTask slot t).setResult p .ok (Handle.mk slot s.tasks[slot].gen).bits
  | [] => s.setResult p .noSpace 0#16

/-- CREATE, taken (R10, R11). -/
def State.create (p : Port) (s : State) : State :=
  let args := (s.port p).args
  match priorityOfWord args[0], affinityOfWord args[1], frameLengthOfWord args[2] with
  | some prio, some aff, some len => s.createTask p (Task.new prio aff len)
  | _, _, _ => s.setResult p .badArg 0#16

/-- CREATE (R11). -/
def execCreate (p : Port) (s : State) : Result := .next (s.issue .create p (State.create p))

/-! ### SEED (R47) -/

/-- SEED with its checks passed: the seeding port is set, the port goes to SAVING for a seed (R47). -/
def State.beginSeed (s : State) (p : Port) (h : Handle) : State :=
  ((s.modTask h fun t => { t with seedPort := some p }).setPortState p (.saving .seed h [])).setResult p .ok 0#16

/-- SEED, taken (R47). -/
def State.seed (p : Port) (s : State) : State :=
  s.onNamed p fun h t =>
    if t.seedPort.isSome then s.setResult p .busy 0#16
    else
      match t.state with
      | .dormant | .halted _ => s.beginSeed p h
      | .ready | .running _ | .saving _ _ _ | .recvWait | .sendWait | .sleeping => s.setResult p .badState 0#16

/-- SEED (R47). -/
def execSeed (p : Port) (s : State) : Result := .next (s.issue .seed p (State.seed p))

/-! ### ACTIVATE and RELEASE (R13, R14) -/

/-- ACTIVATE, taken (R13). -/
def State.activate (p : Port) (s : State) : State :=
  s.onNamed p fun h t =>
    if t.seedPort.isSome then s.setResult p .busy 0#16
    else if t.state = .dormant then ((s.readyTail h).setResult p .ok 0#16).evalPreempt
    else s.setResult p .badState 0#16

/-- ACTIVATE (R13). -/
def execActivate (p : Port) (s : State) : Result := .next (s.issue .activate p (State.activate p))

/-- RELEASE, taken (R14). -/
def State.release (p : Port) (s : State) : State :=
  s.onNamed p fun h t =>
    if t.seedPort.isSome then s.setResult p .busy 0#16
    else
      match t.state with
      | .halted _ => (s.setTaskState h .dormant).setResult p .ok 0#16
      | .dormant | .ready | .running _ | .saving _ _ _ | .recvWait | .sendWait | .sleeping =>
        s.setResult p .badState 0#16

/-- RELEASE (R14). -/
def execRelease (p : Port) (s : State) : Result := .next (s.issue .release p (State.release p))

/-! ### HALT (R19 to R21) -/

/-- Take a task out of whatever holds it, by its state: its ready queue, its wait, or the port that holds it, which is
evicted with the code (R15 to R22). -/
def State.detachTask (s : State) (h : Handle) (st : TaskState) (code : ResultCode) : State :=
  match st with
  | .dormant | .halted _ => s
  | .ready => s.dequeue h
  | .running q | .saving q _ _ => s.evict q h code
  | .recvWait | .sendWait | .sleeping => s.undoWait h

/-- The issuing port's result of HALT and DESTROY: OK, unless the command evicted the issuing port, whose RESULT holds
the eviction's code (R17). -/
def State.answerEvicter (s : State) (p : Port) (st : TaskState) : State :=
  if st.currentPort = some p then s else s.setResult p .ok 0#16

/-- HALT of a task that is not HALTED: it leaves what holds it and becomes HALTED with SUPERVISOR (R19 to R21). -/
def State.haltTask (s : State) (p : Port) (h : Handle) (t : Task) : State :=
  (((s.detachTask h t.state .halted).setTaskState h (.halted .supervisor)).answerEvicter p t.state).evalPreempt

/-- HALT, taken (R19 to R21). -/
def State.halt (p : Port) (s : State) : State :=
  s.onNamed p fun h t =>
    match t.state with
    | .halted _ => s.setResult p .badState 0#16
    | .dormant | .ready | .running _ | .saving _ _ _ | .recvWait | .sendWait | .sleeping => s.haltTask p h t

/-- HALT (R19). -/
def execHalt (p : Port) (s : State) : Result := .next (s.issue .halt p (State.halt p))

/-! ### DESTROY (R22 to R24) -/

/-- A seed of the task is aborted: the seeding port goes to IDLE with GONE and EVICTED (R18). -/
def State.abortSeed (s : State) (h : Handle) (seedPort : Option Port) : State :=
  match seedPort with
  | some q => (s.evictPort q .gone).modTask h fun t => { t with seedPort := none }
  | none => s

/-- R22: the task is removed from everything that holds it as a participant, and its bound message is freed. The preempt flags
are evaluated once, when the whole request has been made (R73). -/
def State.removeTask (s : State) (h : Handle) (t : Task) : State :=
  ((((s.detachTask h t.state .gone).abortSeed h t.seedPort).undoWait h).modTask h
    fun t => { t with state := .dormant, bound := none }).returnSlots t.bound.toList

/-- The sink becomes unset if it is the task (R23 step 4, R165). -/
def State.unsetSink (s : State) (h : Handle) : State :=
  { s with sink := if s.sink = some h then none else s.sink }

/-- R23: the task's inbox and every reference to the task as a receiver. -/
def State.disposeInbox (s : State) (h : Handle) : State :=
  (((s.emptyInbox h).releaseAllGone h).mapLines (LineRec.clearDestroyed h)).unsetSink h

/-- The next generation of a slot: 1023 goes to 1 (R2). -/
def nextGeneration (g : BitVec 10) : BitVec 10 :=
  if g = 1023#10 then 1#10 else g + 1#10

/-- R24: the slot is FREE with the next generation, on top of the free-slot list. -/
def State.freeSlot (s : State) (h : Handle) : State :=
  { s with
    tasks := s.tasks.set h.slot ⟨nextGeneration h.gen, none⟩
    freeSlots := h.slot :: s.freeSlots }

/-- DESTROY, taken (R22 to R24). -/
def State.destroy (p : Port) (s : State) : State :=
  s.onNamed p fun h t =>
    (((((s.removeTask h t).disposeInbox h).freeSlot h).answerEvicter p t.state)).evalPreempt

/-- DESTROY (R22). -/
def execDestroy (p : Port) (s : State) : Result := .next (s.issue .destroy p (State.destroy p))

/-! ### SETPRIO and SETAFFINITY (R26, R27) -/

/-- A task takes another priority; a READY task moves to the tail of its new queue and is offered (R26, R59). -/
def State.changePriority (s : State) (h : Handle) (t : Task) (prio : Priority) : State :=
  if t.state = .ready then
    (((s.dequeue h).modTask h fun t => { t with priority := prio }).enqueueTail h).offer h
  else s.modTask h fun t => { t with priority := prio }

/-- SETPRIO, taken (R10, R26). -/
def State.setPrio (p : Port) (s : State) : State :=
  s.onNamed p fun h t =>
    match priorityOfWord (s.port p).args[1] with
    | some prio =>
      if prio = t.priority then s.setResult p .ok 0#16
      else ((s.changePriority h t prio).setResult p .ok 0#16).evalPreempt
    | none => s.setResult p .badArg 0#16

/-- SETPRIO (R26). -/
def execSetPrio (p : Port) (s : State) : Result := .next (s.issue .setPrio p (State.setPrio p))

/-- A task takes another affinity; a READY task keeps its place and is offered again (R27, R59). -/
def State.changeAffinity (s : State) (h : Handle) (t : Task) (aff : BitVec 4) : State :=
  let s := s.modTask h fun t => { t with affinity := aff }
  if t.state = .ready then s.offer h else s

/-- SETAFFINITY, taken (R10, R27). -/
def State.setAffinity (p : Port) (s : State) : State :=
  s.onNamed p fun h t =>
    match affinityOfWord (s.port p).args[1] with
    | some aff => ((s.changeAffinity h t aff).setResult p .ok 0#16).evalPreempt
    | none => s.setResult p .badArg 0#16

/-- SETAFFINITY (R27). -/
def execSetAffinity (p : Port) (s : State) : Result := .next (s.issue .setAffinity p (State.setAffinity p))

end Sys2Proof.Machine
end

