-- ==== Sys2Proof/Machine/Window.lean ====
section
/-! DEFINITION. The port window: the accesses to its registers (9.2), with a write to CMD by its word. -/

namespace Sys2Proof.Machine

/-! ### FRAME (R33, R34, R40) -/

/-- A FRAME access on a port that is not held: the lease is reloaded, whatever the access does (R34, R184). -/
def State.accessFrame (p : Port) (effect : State → State) (s : State) : State :=
  let s := s.settle
  if s.held p then s else effect (s.reloadLease p)

/-- A read of FRAME on a held port returns 0 (R169). -/
def State.heldRead (p : Port) (s : State) : State :=
  if s.held p then s.setReadData p 0#32 else s

/-- FRAME_READ: byte enables play no part in a read (R33, R171). -/
def execFrameRead (p : Port) (_enables : ByteEnables) (s : State) : Result :=
  .next ((s.accessFrame p fun s => s.readFrame p).heldRead p)

/-- FRAME_WRITE (R34, R40). -/
def execFrameWrite (p : Port) (enables : ByteEnables) (w : Word) (s : State) : Result :=
  .next (s.accessFrame p fun s => s.writeFrame p (maskBytes enables w))

/-! ### ATTN, CFGVAL and the plain registers -/

/-- A word written to ATTN (R181), in LOST too: the model's choice (log 25). -/
def State.writeAttn (s : State) (p : Port) (w : Word) : State :=
  if s.held p then s else s.modPort p fun u => u.clearWritten w

/-- ATTN_WRITE (R181). -/
def execAttnWrite (p : Port) (enables : ByteEnables) (w : Word) (s : State) : Result :=
  .next (s.writeAttn p (maskBytes enables w))

/-- A word written to CFGVAL: in CONFIG, from a port in IDLE, the selected item is written; otherwise no effect
(R194, R195). -/
def State.writeCfgVal (s : State) (p : Port) (w : Word) : State :=
  if s.held p ∨ s.phase = .service ∨ (s.port p).state ≠ .idle then s
  else { s with items := writeItem s.items (s.port p).cfgIdx w }

/-- CFGVAL_WRITE (R194, R195). -/
def execCfgvalWrite (p : Port) (enables : ByteEnables) (w : Word) (s : State) : Result :=
  .next (s.writeCfgVal p (maskBytes enables w))

/-- A window register that keeps the word written to it: ARG0 to ARG3, OUTDATA0 to OUTDATA5, CFGIDX; no effect on a
read-only register or an empty offset (R170, R171). -/
def PortUnit.store (u : PortUnit) (address : BitVec 5) (w : Word) : PortUnit :=
  match address.toNat with
  | 0x01 => { u with args := u.args.set 0 w }
  | 0x02 => { u with args := u.args.set 1 w }
  | 0x03 => { u with args := u.args.set 2 w }
  | 0x04 => { u with args := u.args.set 3 w }
  | 0x11 => { u with outData := u.outData.set 0 w }
  | 0x12 => { u with outData := u.outData.set 1 w }
  | 0x13 => { u with outData := u.outData.set 2 w }
  | 0x14 => { u with outData := u.outData.set 3 w }
  | 0x15 => { u with outData := u.outData.set 4 w }
  | 0x16 => { u with outData := u.outData.set 5 w }
  | 0x18 => { u with cfgIdx := w }
  | _ => u

/-- A word written to a register without a behaviour of its own (R171); nothing on a held port (R169). R171 names no port state,
so the write acts in LOST too, against the last sentence of R186: the model's choice (log 25). -/
def State.storeRegister (s : State) (p : Port) (address : BitVec 5) (w : Word) : State :=
  if s.held p then s else s.modPort p fun u => u.store address w

/-! ### CMD (R171, R175, R177) -/

/-- The effect of each command once taken. -/
def commandEffect : Cmd → Port → State → State
  | .attach => State.attach
  | .detach => State.detach
  | .dispatch => State.dispatch
  | .cancel => State.cancel
  | .yield => State.yield
  | .exit => State.exit
  | .sleep => State.sleep
  | .send => State.send
  | .receive => State.receive
  | .queryTask => State.queryTask
  | .queryInbox => State.queryInbox
  | .queryEvent => State.queryEvent
  | .queryPart => State.queryPart
  | .create => State.create
  | .seed => State.seed
  | .activate => State.activate
  | .halt => State.halt
  | .release => State.release
  | .destroy => State.destroy
  | .setPrio => State.setPrio
  | .setAffinity => State.setAffinity
  | .setInbox => State.setInbox
  | .resetInbox => State.resetInbox
  | .bindEvent => State.bindEvent
  | .unbindEvent => State.unbindEvent
  | .setSink => State.setSink
  | .revoke => State.revoke
  | .beginService => State.beginService

/-- A word written to CMD: the command whose code is the whole word, or BADCMD (R171, R177). -/
def State.writeCmd (s : State) (p : Port) (w : Word) : State :=
  match Cmd.ofWord w with
  | some c => s.issue c p (commandEffect c p)
  | none => s.refuseCode p

/-- CMD_INVALID_CODE: a write to CMD. A well-formed term's word is no code and is refused with BADCMD; another word
issues the command it spells (log 16). -/
def execCmdInvalidCode (p : Port) (enables : ByteEnables) (w : Word) (s : State) : Result :=
  .next (s.writeCmd p (maskBytes enables w))

/-- A word written at a word address of the window (R170). -/
def State.writeWindow (s : State) (p : Port) (address : BitVec 5) (w : Word) : State :=
  match address.toNat with
  | 0x00 => s.writeCmd p w
  | 0x07 => s.writeAttn p w
  | 0x08 => s.accessFrame p fun s => s.writeFrame p w
  | 0x19 => s.writeCfgVal p w
  | _ => s.storeRegister p address w

/-- REGISTER_WRITE (R170, R171). A well-formed term names a register without a behaviour of its own (log 16). -/
def execRegisterWrite (p : Port) (address : BitVec 5) (enables : ByteEnables) (w : Word) (s : State) : Result :=
  .next (s.writeWindow p address (maskBytes enables w))

/-! ### Reads other than of FRAME: they change no state (R171) -/

/-- PARTINFO (R173, R198). -/
def State.partInfo (s : State) (p : Port) : Word :=
  Config.partCode ++ 0#7 ++ BitVec.ofBool (s.phase == .service) ++ 0#6 ++ BitVec.ofNat 2 p.val

/-- The word a read returns on a port that is not held (R170, R173, R193). -/
def State.windowWord (s : State) (p : Port) (address : BitVec 5) : Word :=
  let u := s.port p
  match address.toNat with
  | 0x01 => u.args[0]
  | 0x02 => u.args[1]
  | 0x03 => u.args[2]
  | 0x04 => u.args[3]
  | 0x05 => u.result
  | 0x06 => u.state.pstate
  | 0x07 => u.attn
  | 0x09 => u.msgHdr
  | 0x0A => u.msgSrc
  | 0x0B => u.msgData[0]
  | 0x0C => u.msgData[1]
  | 0x0D => u.msgData[2]
  | 0x0E => u.msgData[3]
  | 0x0F => u.msgData[4]
  | 0x10 => u.msgData[5]
  | 0x11 => u.outData[0]
  | 0x12 => u.outData[1]
  | 0x13 => u.outData[2]
  | 0x14 => u.outData[3]
  | 0x15 => u.outData[4]
  | 0x16 => u.outData[5]
  | 0x17 => s.partInfo p
  | 0x18 => u.cfgIdx
  | 0x19 => itemWord s.items u.cfgIdx
  | 0x1A => u.resume
  | _ => 0#32

/-- The word a read of a window register other than FRAME returns: on a held port 0, but for PARTINFO (R169, R170). CFGVAL reads 0
while RST# is low too (R169), where R190 and R193 give the selected item's value: the model's choice (log 26). -/
def State.readWindow (s : State) (p : Port) (address : BitVec 5) : Word :=
  if s.held p ∧ address ≠ 0x17#5 then 0#32 else s.windowWord p address

end Sys2Proof.Machine
end

