-- ==== Sys2Proof/Machine/Events.lean ====
section
/-! DEFINITION. What happens at the part beside its port windows: resets, ticks and expiries, and the acts of the
backing engine. -/

namespace Sys2Proof.Machine

/-! ### Resets (R29, R51, R169, R187, R199) -/

/-- Part reset (R199): every block at its reset values with RST# low. Kept: the queue, the levels of the PRSTn# pins,
the frame store (R51), the pool's words, which cannot be observed before they are written, and the external memory;
the words that a burst in progress had moved stand in them (R120, R129, log 12). -/
def State.partReset (taken : Taken) (s : State) : State :=
  { State.reset with
    pending := s.pending
    rstLow := true
    frames := s.frames
    pool := (s.landWords taken).pool
    backing := (s.landWords taken).backing
    ports := Vector.ofFn fun p => PortUnit.reset s.ports[p].prstLow }

/-- PART_RESET: the fall of RST# (R199); no edge while it is low. -/
def execPartReset (taken : Taken) (s : State) : Result :=
  .next (if s.rstLow then s else s.partReset taken)

/-- PART_RESET_RELEASE: the rise of RST#; each line's level is its first level, without an edge (R145). -/
def execPartResetRelease (levels : BitVec 16) (s : State) : Result :=
  .next (if s.rstLow then
    { s with rstLow := false, lines := Vector.ofFn fun l => { s.lines[l] with level := levels.getLsbD l.val } }
  else s)

/-- The level of a PRSTn# pin while RST# holds the part. -/
def State.setPrst (s : State) (p : Port) (low : Bool) : State :=
  s.modPort p fun u => { u with prstLow := low }

/-- PORT_RESET: the fall of PRSTn# is the loss of the port (R169, R187); no edge while it is low, and no loss while the
part is held in reset. -/
def execPortReset (p : Port) (s : State) : Result :=
  .next (if (s.port p).prstLow then s
  else if s.rstLow then s.setPrst p true
  else s.settle.losePort p .line)

/-- PORT_RESET_RELEASE: the rise of PRSTn# leaves the port OFFLINE, ready to take ATTACH (R169). -/
def execPortResetRelease (p : Port) (s : State) : Result := .next (s.setPrst p false)

/-! ### Ticks (R130, R131) -/

/-- TICK_LINE_EDGE: a rising edge of TICK delivers one tick, in SERVICE with the TICK line as source (R130). -/
def execTickLineEdge (late : BitVec 4) (s : State) : Result :=
  .next (if s.ticking true then s.takeTick late else s)

/-- DIVIDER_EXPIRY: the divider count reaches its value, delivers one tick and starts again from zero (R130, log 4). -/
def execDividerExpiry (late : BitVec 4) (s : State) : Result :=
  .next (if s.ticking false then { s with dividerCount := 0 }.takeTick late else s)

/-- DEADLINE_EXPIRY: the first due entry expires (R136). With none due no expiry occurs. -/
def execDeadlineExpiry (s : State) : Result :=
  .next (if s.deadlineDue then { s.expireHead with expiring := s.expireHead.deadlineDue } else s)

/-- LEASE_EXPIRY: the port takes what the last tick left for it; a counter brought to 0 is the loss of the port
(R184, R187). -/
def execLeaseExpiry (p : Port) (s : State) : Result := .next (s.finishExpiries.takeLeaseTick p)

/-- BACKING_TIMEOUT: an attempt timer that has reached the timeout ends the attempt with ERROR (R121). -/
def execBackingTimeout (taken : Taken) (s : State) : Result := .next (s.finishExpiries.takeTimeout taken)

/-! ### Backing engine (R112, R114, R119, R122) -/

/-- BURST_ATTEMPT_START (R119). -/
def execBurstAttemptStart (s : State) : Result := .next s.settle.startAttempt

/-- SPILL_BURST_COMPLETE (R112). -/
def execSpillBurstComplete (s : State) : Result := .next s.settle.spillComplete

/-- REFILL_BURST_COMPLETE (R114, R120). -/
def execRefillBurstComplete (data : ReadData) (s : State) : Result := .next (s.settle.refillComplete data)

/-- BURST_ATTEMPT_ERROR (R122). -/
def execBurstAttemptError (taken : Taken) (s : State) : Result := .next (s.settle.burstError taken)

end Sys2Proof.Machine
end

