-- ==== Sys2Proof/Machine/Dispatch.lean ====
section
/-! DEFINITION. The meaning of every command: one arm per constructor of Instr, each a direct call. -/

namespace Sys2Proof.Machine

/-- The effect of a command on everything but the queue. -/
def exec (i : Instr) (s : State) : Host.Outcome State Fault Refusal :=
  match i with
  | .attach p => Sys2Proof.Machine.execAttach p s
  | .detach p => Sys2Proof.Machine.execDetach p s
  | .dispatch p => Sys2Proof.Machine.execDispatch p s
  | .cancel p => Sys2Proof.Machine.execCancel p s
  | .yield p => Sys2Proof.Machine.execYield p s
  | .exit p => Sys2Proof.Machine.execExit p s
  | .sleep p => Sys2Proof.Machine.execSleep p s
  | .send p => Sys2Proof.Machine.execSend p s
  | .receive p => Sys2Proof.Machine.execReceive p s
  | .queryTask p => Sys2Proof.Machine.execQueryTask p s
  | .queryInbox p => Sys2Proof.Machine.execQueryInbox p s
  | .queryEvent p => Sys2Proof.Machine.execQueryEvent p s
  | .queryPart p => Sys2Proof.Machine.execQueryPart p s
  | .create p => Sys2Proof.Machine.execCreate p s
  | .seed p => Sys2Proof.Machine.execSeed p s
  | .activate p => Sys2Proof.Machine.execActivate p s
  | .halt p => Sys2Proof.Machine.execHalt p s
  | .release p => Sys2Proof.Machine.execRelease p s
  | .destroy p => Sys2Proof.Machine.execDestroy p s
  | .setPrio p => Sys2Proof.Machine.execSetPrio p s
  | .setAffinity p => Sys2Proof.Machine.execSetAffinity p s
  | .setInbox p => Sys2Proof.Machine.execSetInbox p s
  | .resetInbox p => Sys2Proof.Machine.execResetInbox p s
  | .bindEvent p => Sys2Proof.Machine.execBindEvent p s
  | .unbindEvent p => Sys2Proof.Machine.execUnbindEvent p s
  | .setSink p => Sys2Proof.Machine.execSetSink p s
  | .revoke p => Sys2Proof.Machine.execRevoke p s
  | .beginService p => Sys2Proof.Machine.execBeginService p s
  | .cmdInvalidCode p be w => Sys2Proof.Machine.execCmdInvalidCode p be w s
  | .frameRead p be => Sys2Proof.Machine.execFrameRead p be s
  | .frameWrite p be w => Sys2Proof.Machine.execFrameWrite p be w s
  | .attnWrite p be w => Sys2Proof.Machine.execAttnWrite p be w s
  | .cfgvalWrite p be w => Sys2Proof.Machine.execCfgvalWrite p be w s
  | .registerWrite p a be w => Sys2Proof.Machine.execRegisterWrite p a be w s
  | .partReset taken => Sys2Proof.Machine.execPartReset taken s
  | .portReset p => Sys2Proof.Machine.execPortReset p s
  | .portResetRelease p => Sys2Proof.Machine.execPortResetRelease p s
  | .eventEdge l level => Sys2Proof.Machine.execEventEdge l level s
  | .tickLineEdge late => Sys2Proof.Machine.execTickLineEdge late s
  | .dividerExpiry late => Sys2Proof.Machine.execDividerExpiry late s
  | .deadlineExpiry => Sys2Proof.Machine.execDeadlineExpiry s
  | .leaseExpiry p => Sys2Proof.Machine.execLeaseExpiry p s
  | .backingTimeout taken => Sys2Proof.Machine.execBackingTimeout taken s
  | .burstAttemptStart => Sys2Proof.Machine.execBurstAttemptStart s
  | .spillBurstComplete => Sys2Proof.Machine.execSpillBurstComplete s
  | .refillBurstComplete data => Sys2Proof.Machine.execRefillBurstComplete data s
  | .burstAttemptError taken => Sys2Proof.Machine.execBurstAttemptError taken s
  | .partResetRelease levels => Sys2Proof.Machine.execPartResetRelease levels s

end Sys2Proof.Machine
end

