-- ==== Sys2Proof/Safety.lean ====
section
/-! DEFINITION. The words the statements about the part are made of: conditions on a state, what "only this changes"
means, and the invariants of the part. -/

namespace Sys2Proof.Machine

/-! ### Conditions under which a command is taken -/

/-- Port `p` answers its processor: no consequence of a tick is outstanding, and no reset line holds the port. -/
abbrev State.Served (s : State) (p : Port) : Prop :=
  s.quiet = true ∧ s.rstLow = false ∧ (s.port p).prstLow = false

/-- The port state in which the queries and the supervisor commands but SEED are taken: IDLE, or RUN and not busy
(R178, R180). -/
abbrev PortState.Free (st : PortState) : Prop := st = .idle ∨ (st.code = 4#3 ∧ st.busy = false)

/-- Port `p` may issue a query in SERVICE (R177, R178). -/
abbrev State.FreeAt (s : State) (p : Port) : Prop := s.Served p ∧ s.phase = .service ∧ (s.port p).state.Free

/-- Port `p` may issue a supervisor command in SERVICE (R177 to R179). -/
abbrev State.SupervisorAt (s : State) (p : Port) : Prop := s.FreeAt p ∧ s.items.supervisors.getLsbD p.val = true

/-- Port `p` runs task `h`, whose record is `t`, and is not busy, in SERVICE (R71). -/
abbrev State.RunningAt (s : State) (p : Port) (h : Handle) (t : Task) : Prop :=
  s.Served p ∧ s.phase = .service ∧ (s.port p).state = .run h false ∧ s.task? h = some t

/-! ### What changes -/

/-- Nothing but the unit of port `p` is changed. -/
def State.withPort (s : State) (p : Port) (u : PortUnit) : State := { s with ports := s.ports.set p u }

/-- Nothing but the record of the live task `h` is changed. -/
def State.withTask (s : State) (h : Handle) (t : Task) : State :=
  { s with tasks := s.tasks.set h.slot ⟨h.gen, some t⟩ }

/-- Nothing but the inbox of the task `h` is changed. -/
def State.withInbox (s : State) (h : Handle) (ib : Inbox) : State := { s with inboxes := s.inboxes.set h.slot ib }

/-- Nothing but the record of line `l` is changed. -/
def State.withLine (s : State) (l : Line) (r : LineRec) : State := { s with lines := s.lines.set l r }

/-- The unit of port `p` after it took a command: its lease is reloaded (R177, R184). -/
def State.takenUnit (s : State) (p : Port) : PortUnit := { s.port p with lease := s.items.leases[p] }

/-- The state after port `p` took a command, before the command's own effect. -/
def State.taken (s : State) (p : Port) : State := s.withPort p (s.takenUnit p)

/-- A unit with a result: the code and, in bits 31 to 16, the value (R172). -/
def PortUnit.answer (u : PortUnit) (code : ResultCode) (value : BitVec 16) : PortUnit :=
  { u with result := resultWord code value }

/-- A command taken at port `p` changes nothing but its lease and RESULT. -/
def State.answered (s : State) (p : Port) (code : ResultCode) (value : BitVec 16) : State :=
  s.withPort p ((s.takenUnit p).answer code value)

/-- A write to CMD of port `p` that is refused changes nothing but RESULT (R177). -/
def State.refused (s : State) (p : Port) (code : ResultCode) : State :=
  s.withPort p ((s.port p).answer code 0#16)

/-- Task `h` with the record `t` has become READY, with `queue` as the ready queue of its priority, and has been
offered to the await list: the first port on it that is eligible receives the task (R58 steps 1 to 4), and the task
stays in the queue when there is none. -/
def State.offered (s : State) (h : Handle) (t : Task) (queue : List Handle) : State :=
  match s.awaitList.find? fun r => t.eligible r with
  | none => { s.withTask h { t with state := .ready } with ready := s.ready.set t.priority queue }
  | some r =>
    { s.withTask h { t with state := .running r } with
      awaitList := s.awaitList.filter fun x => x ≠ r }.withPort r
        { s.port r with
          state := .loading h (streamLength t.frameLength t.extension) 0
          result := resultWord .ok h.bits
          done := true }

/-- The command written to CMD of port `p`. -/
def cmdInstr (c : Cmd) (p : Port) : Instr :=
  match c with
  | .attach => .attach p
  | .detach => .detach p
  | .dispatch => .dispatch p
  | .cancel => .cancel p
  | .yield => .yield p
  | .exit => .exit p
  | .sleep => .sleep p
  | .send => .send p
  | .receive => .receive p
  | .queryTask => .queryTask p
  | .queryInbox => .queryInbox p
  | .queryEvent => .queryEvent p
  | .queryPart => .queryPart p
  | .create => .create p
  | .seed => .seed p
  | .activate => .activate p
  | .halt => .halt p
  | .release => .release p
  | .destroy => .destroy p
  | .setPrio => .setPrio p
  | .setAffinity => .setAffinity p
  | .setInbox => .setInbox p
  | .resetInbox => .resetInbox p
  | .bindEvent => .bindEvent p
  | .unbindEvent => .unbindEvent p
  | .setSink => .setSink p
  | .revoke => .revoke p
  | .beginService => .beginService p

/-! ### Where a task stands, and what a port does for one -/

/-- Where a task stands (R8): in nothing because it is stopped, in nothing but its wait, in a ready queue, on a port
that loads or runs it, or on a port that checks it in. -/
inductive TaskPlace where
  | stopped | waiting | ready
  | held (p : Port)
  | saved (p : Port)
  deriving DecidableEq, Repr

/-- The place of a task (R8). -/
def TaskState.place : TaskState → TaskPlace
  | .dormant => .stopped
  | .halted _ => .stopped
  | .recvWait => .waiting
  | .sendWait => .waiting
  | .sleeping => .waiting
  | .ready => .ready
  | .running p => .held p
  | .saving p _ _ => .saved p

/-- What a port does for a task: nothing, wait for one, hold one in LOADING or RUN, check one in, or seed one. -/
inductive PortPost where
  | none | waits
  | holds (h : Handle)
  | saves (h : Handle)
  | seeds (h : Handle)
  deriving DecidableEq, Repr

/-- The post of a port (R5, R57). -/
def PortState.post : PortState → PortPost
  | .offline => .none
  | .idle => .none
  | .lost => .none
  | .await => .waits
  | .loading h _ _ => .holds h
  | .run h _ => .holds h
  | .saving .checkIn h _ => .saves h
  | .saving .seed h _ => .seeds h

/-! ### Invariants -/

/-- The records and lists agree: the free-slot list names the FREE slots (R3), no generation is 0 (R2), the await list
names the ports in AWAIT (R57), a port and its current task name each other (R5), as do a seeding port and its target,
which is stopped (R5, R47), and a ready queue names the READY tasks of its priority, each once (R52). -/
structure State.Linked (s : State) : Prop where
  freeNodup : s.freeSlots.Nodup
  free : ∀ k : Slot, k ∈ s.freeSlots ↔ s.tasks[k].task = none
  generation : ∀ k : Slot, s.tasks[k].gen ≠ 0#10
  awaitNodup : s.awaitList.Nodup
  await : ∀ p, p ∈ s.awaitList ↔ (s.port p).state.post = .waits
  held : ∀ p h, (s.port p).state.post = .holds h ↔ ∃ t, s.task? h = some t ∧ t.state.place = .held p
  saved : ∀ p h, (s.port p).state.post = .saves h ↔ ∃ t, s.task? h = some t ∧ t.state.place = .saved p
  seeded : ∀ p h, (s.port p).state.post = .seeds h ↔ ∃ t, s.task? h = some t ∧ t.seedPort = some p
  seedStopped : ∀ h t, s.task? h = some t → t.seedPort.isSome → t.state.place = .stopped
  readyNodup : ∀ q : Priority, s.ready[q].Nodup
  ready : ∀ (q : Priority) h,
    h ∈ s.ready[q] ↔ ∃ t, s.task? h = some t ∧ t.state.place = .ready ∧ t.priority = q

/-- Every preempt flag is as R72 states. -/
abbrev State.Flagged (s : State) : Prop := ∀ p, (s.port p).preempt = s.preemptCondition p

/-- `t` is `s` with the preempt flags re-evaluated: each is as R72 states, and nothing else differs (R73). -/
def State.Reevaluated (t s : State) : Prop :=
  t.Flagged ∧ t = { s with ports := t.ports } ∧ ∀ q, t.port q = { s.port q with preempt := (t.port q).preempt }

/-- The backing memory is in its canonical form. -/
abbrev State.BackingCanonical (s : State) : Prop := Memory.wf s.backing = true

/-- The deadline list is ordered by remaining distance (R134), and empty in CONFIG (R143). -/
abbrev State.DeadlinesOrdered (s : State) : Prop :=
  s.deadlines.Pairwise (fun a b => a.distance s.tickCounter ≤ b.distance s.tickCounter) ∧
    (s.phase = .config → s.deadlines = [])

/-- Every line's count is above 0 exactly while its pending mark is set, and both its counts stay in their range
(R144). -/
abbrev State.LinesCounted (s : State) : Prop :=
  ∀ l : Line, (0 < s.lines[l].count ↔ s.lines[l].pending ≠ none) ∧ s.lines[l].count ≤ 65535 ∧
    s.lines[l].missed ≤ 65535

/-- The task is SEND_WAIT, or SAVING with an unsatisfied SEND_WAIT disposition (R91). -/
def TaskState.waitsToSend : TaskState → Bool
  | .sendWait => true
  | .saving _ .sendWait false => true
  | _ => false

/-- The sender lists and the pending sends agree (R91): a task holds a pending send exactly while it waits to send, for the
inbox of another live task; the sender list of a live inbox names the tasks whose pending send is for it, each once. -/
structure State.SendersAgree (s : State) : Prop where
  waits : ∀ h t, s.task? h = some t → (t.pendingSend.isSome = t.state.waitsToSend)
  target : ∀ h t ps, s.task? h = some t → t.pendingSend = some ps → s.live ps.target = true ∧ ps.target ≠ h
  listed : ∀ k h, s.live k = true →
    (h ∈ (s.inbox k).senders ↔ ∃ t ps, s.task? h = some t ∧ t.pendingSend = some ps ∧ ps.target = k)
  nodup : ∀ k, s.live k = true → (s.inbox k).senders.Nodup

/-- The pool slots that are held, by holder (R106): resident messages, slots of jobs, bound messages. -/
def State.heldSlots (s : State) : List PoolSlot :=
  (List.finRange 64).flatMap (fun k => s.inboxes[k].resident) ++ s.jobs.flatMap Job.slots ++
    (List.finRange 64).filterMap fun k => s.tasks[k].task.bind Task.bound

/-- Every pool slot is free or has one holder (R106). The rest is what a run needs to keep that: a job holds the slots of
its bursts to come (R111), a FREE slot's inbox holds no message (R24), no bound message is held by a task that still waits or
that runs (R66, R83, R84), and a pending RECEIVE is a running port's (R81, R98). -/
structure State.SlotsPlaced (s : State) : Prop where
  slots : (s.poolFree ++ s.heldSlots).Perm (List.finRange 512)
  jobs : ∀ j ∈ s.jobs, j.slots ≠ [] ∧ j.burstsDone + j.slots.length = j.count
  free : ∀ k : Slot, s.tasks[k].task = none → s.inboxes[k].resident = []
  waiting : ∀ h t, s.task? h = some t → (t.state = .recvWait ∨ t.state = .sendWait ∨ t.state = .sleeping ∨
    ∃ p d, t.state = .saving p d false) → t.bound = none
  running : ∀ p h r t, (s.port p).state = .run h r → s.task? h = some t → t.bound = none
  receiving : ∀ h, s.live h = true → ((s.inbox h).recvPending = true ↔ ∃ p, (s.port p).state = .run h true)

/-- The job is of the kind, for the inbox of `h`, and owned while `h` is live (R126). -/
def Job.serves (j : Job) (kind : JobKind) (h : Handle) : Bool :=
  j.kind == kind && j.inbox == h && !j.resetMark

/-- The counts of every inbox are those of the jobs that serve it, and stay within its limits (R79, R116). A burst in progress
is the current job's, of its direction (R119, R120). -/
structure State.CountsAgree (s : State) : Prop where
  resident : ∀ k : Slot, s.inboxes[k].resident.length + s.inboxes[k].refilling ≤ s.inboxes[k].limit
  ring : ∀ k : Slot, s.inboxes[k].occupancy ≤ s.inboxes[k].capacity
  spilling : ∀ h, s.live h = true → (s.inbox h).spilling = s.jobs.countP (Job.serves · .spill h)
  refilling : ∀ h, s.live h = true →
    (s.inbox h).refilling = ((s.jobs.filter (Job.serves · .refill h)).flatMap Job.slots).length
  oneRefill : ∀ h, s.live h = true → s.jobs.countP (Job.serves · .refill h) ≤ 1
  burst : ∀ b, s.burst = some b → ∃ j rest, s.jobs = j :: rest ∧ b.write = (j.kind == .spill)

/-- The next CREATE does not bring back the handle of a job whose inbox was destroyed: that takes 1023 destroys of one slot
while the job stands in the queue (R2). -/
abbrev State.NoJobComesRound (s : State) : Prop :=
  ∀ j ∈ s.jobs, ∀ k ∈ s.freeSlots.head?, j.inbox ≠ ⟨k, s.tasks[k].gen⟩

end Sys2Proof.Machine
end

