-- ==== Sys2Proof/WellFormed.lean ====
section
/-! DEFINITION. When a command is one its row of the table describes. A term that is not has a meaning too (log 16):
it acts as the access to the window that it spells. -/

namespace Sys2Proof

/-- The window registers with a behaviour of their own on a write: CMD, ATTN, FRAME and CFGVAL (R170), by word
address. -/
def hasOwnBehaviour (address : BitVec 5) : Bool :=
  address == 0x00#5 || address == 0x07#5 || address == 0x08#5 || address == 0x19#5

/-- CMD_INVALID_CODE carries a word that spells no command; REGISTER_WRITE goes to a register without a behaviour of
its own. Every other command is well formed by its type. -/
def Instr.wellFormed : Instr → Bool
  | .cmdInvalidCode _ enables word => (Cmd.ofWord (maskBytes enables word)).isNone
  | .registerWrite _ address _ _ => !hasOwnBehaviour address
  | .attach _ | .detach _ | .dispatch _ | .cancel _ | .yield _ | .exit _ | .sleep _ | .send _ | .receive _
  | .queryTask _ | .queryInbox _ | .queryEvent _ | .queryPart _
  | .create _ | .seed _ | .activate _ | .halt _ | .release _ | .destroy _ | .setPrio _ | .setAffinity _
  | .setInbox _ | .resetInbox _ | .bindEvent _ | .unbindEvent _ | .setSink _ | .revoke _ | .beginService _
  | .frameRead _ _ | .frameWrite _ _ _ | .attnWrite _ _ _ | .cfgvalWrite _ _ _
  | .partReset _ | .portReset _ | .portResetRelease _ | .eventEdge _ _ | .tickLineEdge _ | .dividerExpiry _
  | .deadlineExpiry | .leaseExpiry _ | .backingTimeout _ | .burstAttemptStart | .spillBurstComplete
  | .refillBurstComplete _ | .burstAttemptError _ | .partResetRelease _ => true

end Sys2Proof
end

