-- ==== Sys2Proof/Certificates/Slice0/Obligations.lean ====
section
/-! DEFINITION. The statements about the part. Each follows the rules of spec/ that its docstring names; a docstring that
names a log entry says what of the statement is the model's choice. -/

section

open Sys2Proof Sys2Proof.Machine

/-! ### The queue and the port unit's checks -/

/-- The command at the front of the queue is carried out on the state with the queue's rest (log 1). -/
def Obligations.StepRunsTheFrontCommand : Prop :=
  ∀ (c : Instr) (s : State), step { s with pending := c :: s.pending } = exec c s

/-- With nothing waiting one CLK period passes: the divider counts in SERVICE when it is the tick source, and its
expiry is DIVIDER_EXPIRY with no port late (R130; log 2, log 3). -/
def Obligations.EmptyQueueIsOneClockPeriod : Prop :=
  ∀ s : State, s.pending = [] →
    (s.rstLow = true ∨ s.phase = .config ∨ s.items.tickLine = true → step s = .next s) ∧
    (s.rstLow = false → s.phase = .service → s.items.tickLine = false →
      (s.dividerCount + 1 < s.items.divider → step s = .next { s with dividerCount := s.dividerCount + 1 }) ∧
      (s.items.divider ≤ s.dividerCount + 1 → step s = exec (.dividerExpiry 0#4) s))

/-- No command stops the part, and none touches the queue (R168, R172; log 1). -/
def Obligations.EveryCommandAnswersANextState : Prop :=
  ∀ (c : Instr) (s : State), ∃ t, exec c s = .next t ∧ t.pending = s.pending

/-- The codes of R175 and its supervisor commands, the phases of R191 and the port states of R178. -/
def Obligations.CommandTableIsTheSpecs : Prop :=
  (∀ (w : Word) (c : Cmd), Cmd.ofWord w = some c ↔ (w, c) ∈
    [(0x01#32, Cmd.attach), (0x02#32, .detach), (0x03#32, .dispatch), (0x04#32, .cancel), (0x05#32, .yield),
     (0x06#32, .exit), (0x07#32, .sleep), (0x08#32, .send), (0x09#32, .receive), (0x0A#32, .queryTask),
     (0x0B#32, .queryInbox), (0x0C#32, .queryEvent), (0x0D#32, .queryPart), (0x10#32, .create), (0x11#32, .seed),
     (0x12#32, .activate), (0x13#32, .halt), (0x14#32, .release), (0x15#32, .destroy), (0x16#32, .setPrio),
     (0x17#32, .setAffinity), (0x18#32, .setInbox), (0x19#32, .resetInbox), (0x1A#32, .bindEvent),
     (0x1B#32, .unbindEvent), (0x1C#32, .setSink), (0x1D#32, .revoke), (0x1F#32, .beginService)]) ∧
  ∀ c : Cmd,
    (c.supervisor = true ↔ c ∈ [Cmd.create, .seed, .activate, .halt, .release, .destroy, .setPrio, .setAffinity,
      .setInbox, .resetInbox, .bindEvent, .unbindEvent, .setSink, .revoke]) ∧
    (c.takenInPhase .config = true ↔ c ∈ [Cmd.attach, .detach, .beginService]) ∧
    (c.takenInPhase .service = true ↔ c ≠ .beginService) ∧
    (c.takenIn .offline = true ↔ c = .attach) ∧
    (c.takenIn .idle = true ↔ c ∈ [Cmd.detach, .dispatch, .cancel, .beginService, .queryTask, .queryInbox, .queryEvent,
      .queryPart] ∨ c.supervisor = true) ∧
    (c.takenIn .await = true ↔ c = .cancel) ∧
    (∀ h n k, c.takenIn (.loading h n k) = false) ∧
    (∀ h r, c.takenIn (.run h r) = true ↔ c ∈ [Cmd.yield, .exit, .sleep, .send, .receive, .cancel, .queryTask,
      .queryInbox, .queryEvent, .queryPart] ∨ c.supervisor = true ∧ c ≠ .seed) ∧
    (∀ k h ws, c.takenIn (.saving k h ws) = false) ∧
    (c.takenIn .lost = true ↔ c ∈ [Cmd.attach, .detach])

/-- The checks of R177 in their order, the overrun of R180, and the held port of R169, for every command written to CMD, and
for a word that is no command code, judged with zero in the bytes not enabled (R171). A refusal changes RESULT alone, an
overrun OVERRUN alone. That the order of R177 decides against the BADSTATE that
R182, R47, R49, R61 and R183 name for a port state is log 24. -/
def Obligations.RefusedCommandsChangeOnlyTheirAnswer : Prop :=
  ∀ (p : Port) (s : State), s.quiet = true →
    (s.rstLow = true ∨ (s.port p).prstLow = true →
      (∀ c, exec (cmdInstr c p) s = .next s) ∧
      ∀ e w, (∀ c : Cmd, c.code ≠ maskBytes e w) → exec (.cmdInvalidCode p e w) s = .next s) ∧
    (s.rstLow = false → (s.port p).prstLow = false →
      (∀ e w, (∀ c : Cmd, c.code ≠ maskBytes e w) → exec (.cmdInvalidCode p e w) s = .next (s.refused p .badCmd)) ∧
      ∀ c : Cmd,
        (c.takenInPhase s.phase = false → exec (cmdInstr c p) s = .next (s.refused p .phase)) ∧
        (c.takenInPhase s.phase = true →
          ((s.port p).state.busy = true ∧ c ≠ .cancel →
            exec (cmdInstr c p) s = .next (s.withPort p { s.port p with overrun := true })) ∧
          ((s.port p).state.busy = false ∨ c = .cancel →
            (c.takenIn (s.port p).state = false → exec (cmdInstr c p) s = .next (s.refused p .badState)) ∧
            (c.takenIn (s.port p).state = true → c.supervisor = true → s.items.supervisors.getLsbD p.val = false →
              exec (cmdInstr c p) s = .next (s.refused p .notSupv)))))

/-- With expiries of the last tick outstanding, a write to CMD, an access to FRAME, an edge of an event line, the fall of
PRSTn# and an act of the backing engine act on the state in which they have been made (R131; log 3). That state is the one
DEADLINE_EXPIRY makes, once for each entry while the head is due, and after them LEASE_EXPIRY of P0 to P3 and
BACKING_TIMEOUT, with no word of the attempt exchanged (log 7); and it has nothing outstanding: no head entry whose expiry
value is the counter, no port with a tick owed or a lease run out, no attempt that reached the timeout. That no request
comes between the tick at one holder and the same tick at another is log 28. -/
def Obligations.OutstandingExpiriesComeFirst : Prop :=
  (∀ s : State,
    (s.deadlineDue = true ↔ ∃ e rest, s.deadlines = e :: rest ∧ e.expiry = s.tickCounter) ∧
    (s.quiet = true ↔ s.deadlineDue = false ∧ (∀ p, (s.port p).leaseTick = .none) ∧
      ∀ b, s.burst = some b → b.timedOut = false) ∧
    (s.deadlineDue = false → s.settleDeadlines = s) ∧
    (s.deadlineDue = true → ∃ t, exec .deadlineExpiry s = .next t ∧ t.settleDeadlines = s.settleDeadlines)) ∧
  ∀ s : State, s.DeadlinesOrdered →
    (∃ a b c d, exec (.leaseExpiry 0) s.settleDeadlines = .next a ∧ exec (.leaseExpiry 1) a = .next b ∧
      exec (.leaseExpiry 2) b = .next c ∧ exec (.leaseExpiry 3) c = .next d ∧
      exec (.backingTimeout .nothing) d = .next s.settle) ∧
    s.settle.quiet = true ∧
    (∀ c p, exec (cmdInstr c p) s = exec (cmdInstr c p) s.settle) ∧
    (∀ p e, exec (.frameRead p e) s = exec (.frameRead p e) s.settle) ∧
    (∀ p e w, exec (.cmdInvalidCode p e w) s = exec (.cmdInvalidCode p e w) s.settle) ∧
    (∀ p e w, exec (.frameWrite p e w) s = exec (.frameWrite p e w) s.settle) ∧
    (∀ l level, s.rstLow = false → exec (.eventEdge l level) s = exec (.eventEdge l level) s.settle) ∧
    (∀ p, s.rstLow = false → (s.port p).prstLow = false → exec (.portReset p) s = exec (.portReset p) s.settle) ∧
    exec .burstAttemptStart s = exec .burstAttemptStart s.settle ∧
    exec .spillBurstComplete s = exec .spillBurstComplete s.settle ∧
    (∀ d, exec (.refillBurstComplete d) s = exec (.refillBurstComplete d) s.settle) ∧
    ∀ n, exec (.burstAttemptError n) s = exec (.burstAttemptError n) s.settle

/-! ### Ports -/

/-- ATTACH from OFFLINE or LOST, and DETACH from IDLE or LOST, in either phase (R182, R183): the port's state, every
attention cause cleared, RESULT; nothing else but the lease that a taken command reloads. -/
def Obligations.AttachAndDetachMoveThePort : Prop :=
  ∀ (p : Port) (s : State), s.Served p →
    ((s.port p).state = .offline ∨ (s.port p).state = .lost →
      exec (.attach p) s = .next (s.withPort p { (s.takenUnit p).answer .ok (BitVec.ofNat 16 p.val) with
        state := .idle, done := false, preempt := false, evicted := false, overrun := false, lost := false })) ∧
    ((s.port p).state = .idle ∨ (s.port p).state = .lost →
      exec (.detach p) s = .next (s.withPort p { (s.takenUnit p).answer .ok 0#16 with
        state := .offline, done := false, preempt := false, evicted := false, overrun := false, lost := false }))

/-- BEGIN_SERVICE from an IDLE port in CONFIG (R196): BADARG with an empty supervisor set, otherwise the phase, the tick
counter and the divider count, and nothing else but RESULT and the reloaded lease. -/
def Obligations.BeginServiceEntersService : Prop :=
  ∀ (p : Port) (s : State), s.Served p → s.phase = .config → (s.port p).state = .idle →
    (s.items.supervisors = 0#4 → exec (.beginService p) s = .next (s.answered p .badArg 0#16)) ∧
    (s.items.supervisors ≠ 0#4 → exec (.beginService p) s =
      .next { s.answered p .ok 0#16 with phase := .service, tickCounter := 0#32, dividerCount := 0 })

/-- REVOKE (R186): the argument, the target's state, and the loss of the target with cause REVOKE, which
`LossOfAPortActsByItsState` states. The 0 in bits 31 to 16 with BADARG and BADSTATE is log 10. -/
def Obligations.RevokeTakesAnotherPort : Prop :=
  ∀ (p : Port) (s : State), s.SupervisorAt p →
    (3 < ((s.port p).args[0]).toNat ∨ ((s.port p).args[0]).toNat = p.val →
      exec (.revoke p) s = .next (s.answered p .badArg 0#16)) ∧
    ∀ q : Port, ((s.port p).args[0]).toNat = q.val → q ≠ p →
      ((s.port q).state = .offline ∨ (s.port q).state = .lost →
        exec (.revoke p) s = .next (s.answered p .badState 0#16)) ∧
      ((s.port q).state ≠ .offline → (s.port q).state ≠ .lost →
        exec (.revoke p) s = .next (((s.taken p).losePort q .revoke).withPort p
          ((((s.taken p).losePort q .revoke).port p).answer .ok 0#16)))

/-- A loss of port `q`, by its line, REVOKE or lease expiry, according to the port's state (R187, R188): what becomes of
the port unit, of its task, and of nothing else. Where a fault is due it is raised last (R160). -/
def Obligations.LossOfAPortActsByItsState : Prop :=
  ∀ (s : State) (q : Port) (cause : LossCause), s.Linked →
    let gone : PortUnit := match cause with
      | .line => PortUnit.reset true
      | .revoke | .lease => { s.port q with state := .lost, preempt := false, leaseTick := .none, lost := true }
    let u := s.withPort q gone
    ((s.port q).state = .offline ∨ (s.port q).state = .idle ∨ (s.port q).state = .lost →
      (s.losePort q cause).Reevaluated u) ∧
    ((s.port q).state = .await →
      (s.losePort q cause).Reevaluated { u with awaitList := s.awaitList.filter fun r => r ≠ q }) ∧
    (∀ h n k t, (s.port q).state = .loading h n k → s.task? h = some t →
      (s.losePort q cause).Reevaluated (u.offered h t (h :: s.ready[t.priority]))) ∧
    (∀ h r t, (s.port q).state = .run h r → s.task? h = some t → (s.losePort q cause).Reevaluated
      (((if r then u.withInbox h { s.inbox h with recvPending := false } else u).withTask h
        { t with state := .halted .portLost }).raiseFault (.portLost h q cause))) ∧
    (∀ h ws t, (s.port q).state = .saving .checkIn h ws → s.task? h = some t → (s.losePort q cause).Reevaluated
      (((u.undoWait h).withTask h { t with state := .halted .portLost, pendingSend := none }).raiseFault
        (.portLost h q cause))) ∧
    ∀ h ws t, (s.port q).state = .saving .seed h ws → s.task? h = some t →
      (s.losePort q cause).Reevaluated (u.withTask h { t with seedPort := none })

/-- PORT_RESET, the fall of PRSTn# (R169, R187), with what happens at a line already low and at a part held by RST#; and
PORT_RESET_RELEASE, its rise (R169; log 19). -/
def Obligations.PortResetIsTheLossOfThePort : Prop :=
  ∀ (p : Port) (s : State),
    ((s.port p).prstLow = true → exec (.portReset p) s = .next s) ∧
    ((s.port p).prstLow = false → s.rstLow = true →
      exec (.portReset p) s = .next (s.withPort p { s.port p with prstLow := true })) ∧
    ((s.port p).prstLow = false → s.rstLow = false → s.quiet = true →
      exec (.portReset p) s = .next (s.losePort p .line)) ∧
    exec (.portResetRelease p) s = .next (s.withPort p { s.port p with prstLow := false })

/-! ### Asking for a task and giving it up -/

/-- Selection (R56): the first eligible task of the highest queue that holds one. DISPATCH (R61) from an IDLE port in SERVICE:
the selected task leaves its queue, becomes RUNNING and begins its check-out; with none selected the port joins the tail of
the await list with PENDING. -/
def Obligations.DispatchHandsOutTheSelectedTaskOrWaits : Prop :=
  ∀ (p : Port) (s : State),
    (∀ h, s.select p = some h ↔ ∃ (q : Priority) (front back : List Handle),
      s.ready[q] = front ++ h :: back ∧ s.eligible h p = true ∧ (∀ r ∈ front, s.eligible r p = false) ∧
        ∀ q' : Priority, q < q' → ∀ r ∈ s.ready[q'], s.eligible r p = false) ∧
    (s.select p = none ↔ ∀ (q : Priority), ∀ r ∈ s.ready[q], s.eligible r p = false) ∧
    (s.Served p → s.phase = .service → (s.port p).state = .idle →
      (∀ h t, s.select p = some h → s.task? h = some t → ∃ r, exec (.dispatch p) s = .next r ∧ r.Reevaluated
        ({ s.withTask h { t with state := .running p } with
          ready := s.ready.set t.priority (s.ready[t.priority].filter fun x => x ≠ h)
          awaitList := s.awaitList.filter fun x => x ≠ p }.withPort p
            { (s.takenUnit p).answer .ok h.bits with
              state := .loading h (streamLength t.frameLength t.extension) 0 })) ∧
      (s.select p = none → ∃ r, exec (.dispatch p) s = .next r ∧ r.Reevaluated
        ({ s with awaitList := s.awaitList ++ [p] }.withPort p
          { (s.takenUnit p).answer .pending 0#16 with state := .await })))

/-- CANCEL in AWAIT (R63), in RUN with a RECEIVE pending, and with nothing to cancel (R64). The 0 in bits 31 to 16 with
BADSTATE is log 10. -/
def Obligations.CancelEndsTheBusyState : Prop :=
  ∀ (p : Port) (s : State), s.Served p → s.phase = .service →
    ((s.port p).state = .await → exec (.cancel p) s = .next
      ({ s with awaitList := s.awaitList.filter fun x => x ≠ p }.withPort p
        { (s.takenUnit p).answer .ok 0#16 with state := .idle })) ∧
    (∀ h, (s.port p).state = .run h true → exec (.cancel p) s = .next
      ((s.withInbox h { s.inbox h with recvPending := false }).withPort p
        { (s.takenUnit p).answer .empty 0#16 with state := .run h false })) ∧
    ((s.port p).state.Free → exec (.cancel p) s = .next (s.answered p .badState 0#16))

/-- YIELD without a rival (R67): OK, and nothing else but the lease that a taken command reloads (R177). A rival is a
READY task, which stands in the queue of its priority (R52), eligible for the port, of equal or greater priority. -/
def Obligations.YieldWithoutARivalReturnsAtOnce : Prop :=
  ∀ (p : Port) (h : Handle) (t : Task) (s : State), s.RunningAt p h t →
    (∀ q : Priority, t.priority ≤ q → ∀ r ∈ s.ready[q], s.eligible r p = false) →
    exec (.yield p) s = .next (s.answered p .ok 0#16)

/-- YIELD with a rival (R68) begins a check-in with READY-head if the port's preempt flag is set and READY-tail
otherwise; EXIT (R70) makes the task DORMANT and the port IDLE. -/
def Obligations.YieldToARivalAndExitGiveTheTaskUp : Prop :=
  ∀ (p : Port) (h : Handle) (t : Task) (s : State), s.RunningAt p h t →
    ((∃ q : Priority, t.priority ≤ q ∧ ∃ r ∈ s.ready[q], s.eligible r p = true) →
      ∃ r, exec (.yield p) s = .next r ∧ r.Reevaluated
        ((s.withTask h { t with
            state := .saving p (if (s.port p).preempt then .readyHead else .readyTail) false }).withPort p
          { (s.takenUnit p).answer .ok h.bits with state := .saving .checkIn h [] })) ∧
    ∃ r, exec (.exit p) s = .next r ∧ r.Reevaluated
      ((s.withTask h { t with state := .dormant }).withPort p { (s.takenUnit p).answer .ok 0#16 with state := .idle })

/-- SLEEP (R69): a value of 1 to 65535 inserts a SLEEP deadline at the counter plus the value and begins the check-in
with disposition SLEEPING; any other value is refused with BADARG, whose 0 in bits 31 to 16 is log 10. -/
def Obligations.SleepBeginsATimedCheckIn : Prop :=
  ∀ (p : Port) (h : Handle) (t : Task) (s : State), s.RunningAt p h t →
    let n := (s.port p).args[0]
    (1 ≤ n.toNat → n.toNat ≤ 65535 → ∃ r, exec (.sleep p) s = .next r ∧ r.Reevaluated
      ({ s.withTask h { t with state := .saving p .sleeping false } with
        deadlines := insertDeadlineEntry s.tickCounter ⟨h, s.tickCounter + n, .sleep⟩ s.deadlines }.withPort p
          { (s.takenUnit p).answer .ok h.bits with state := .saving .checkIn h [] })) ∧
    (n.toNat = 0 ∨ 65535 < n.toNat → exec (.sleep p) s = .next (s.answered p .badArg 0#16))

/-- The place of a new deadline (R134): behind every entry whose remaining distance is less than or equal to its own and
in front of every other; the other entries keep their order. -/
def Obligations.DeadlinesAreInsertedByDistance : Prop :=
  ∀ (counter : Word) (e : Deadline) (ds : List Deadline),
    ds.Pairwise (fun a b => a.distance counter ≤ b.distance counter) →
    ∃ front back, ds = front ++ back ∧ insertDeadlineEntry counter e ds = front ++ e :: back ∧
      (∀ x ∈ front, x.distance counter ≤ e.distance counter) ∧ ∀ x ∈ back, e.distance counter < x.distance counter

/-- A task that becomes READY enters the queue of its priority at the tail or the head and is offered to the await list
(R53, R54, R58, R59). -/
def Obligations.ReadyTasksAreOfferedToTheAwaitList : Prop :=
  ∀ (s : State) (h : Handle) (t : Task), s.Linked → s.task? h = some t → t.state ≠ .ready →
    s.readyTail h = s.offered h t (s.ready[t.priority] ++ [h]) ∧
    s.readyHead h = s.offered h t (h :: s.ready[t.priority])

/-- The end of a wait (R7, R9, R93, R94, R137 to R139): the task leaves its sender list, its pending send and its deadline
entry go, and it becomes READY with the resume result, or its wait disposition is satisfied with it; a task that no
longer waits is left as it is. -/
def Obligations.EndOfAWaitWakesTheTask : Prop :=
  ∀ (s : State) (h : Handle) (t : Task) (res : Resume), s.Linked → s.task? h = some t →
    let u := { (match t.pendingSend with
      | some ps => (s.withInbox ps.target { s.inbox ps.target with
          senders := (s.inbox ps.target).senders.filter fun r => r ≠ h }).withTask h { t with pendingSend := none }
      | none => s) with deadlines := s.deadlines.filter fun e => e.task ≠ h }
    s.undoWait h = u ∧
    (t.state = .recvWait ∨ t.state = .sendWait ∨ t.state = .sleeping →
      s.endWait h res = u.offered h { t with pendingSend := none, resume := res } (s.ready[t.priority] ++ [h])) ∧
    (∀ p d, t.state = .saving p d false → d = .recvWait ∨ d = .sendWait ∨ d = .sleeping →
      s.endWait h res = u.withTask h { t with pendingSend := none, resume := res, state := .saving p d true }) ∧
    (t.state = .dormant ∨ t.state = .ready ∨ (∃ p, t.state = .running p) ∨ (∃ reason, t.state = .halted reason) ∨
      (∃ p d, t.state = .saving p d true) ∨ (∃ p, t.state = .saving p .readyTail false) ∨
      (∃ p, t.state = .saving p .readyHead false) → s.endWait h res = u)

/-! ### Messages -/

/-- The codes of the results, of the resume results and of the kinds of a message (R110, R172), and the layouts of handles,
results, descriptors and message images (R1, R110, R172, R174): every field stands in its bits, and the bits of no field
are zero. -/
def Obligations.WordsCarryTheirFields : Prop :=
  (∀ c : ResultCode, (c, c.code.toNat) ∈
    [(ResultCode.ok, 0), (.pending, 1), (.queued, 2), (.empty, 3), (.full, 4), (.noSpace, 5), (.badHandle, 6),
     (.badState, 7), (.badArg, 8), (.badCmd, 9), (.notSupv, 10), (.phase, 11), (.broken, 12), (.timeout, 13),
     (.gone, 14), (.halted, 15), (.busy, 16)]) ∧
  (∀ r : Resume, (r, r.result.code.toNat) ∈
    [(Resume.ok, 0), (.queued, 2), (.noSpace, 5), (.broken, 12), (.timeout, 13), (.gone, 14)]) ∧
  (∀ k : MessageKind, (k, k.code.toNat) ∈ [(MessageKind.data, 1), (.event, 2), (.fault, 3)]) ∧
  (∀ h : Handle, Handle.ofWord (h.bits.setWidth 32) = h ∧ h.bits.extractLsb' 0 6 = BitVec.ofNat 6 h.slot.val ∧
    h.bits.extractLsb' 6 10 = h.gen) ∧
  (∀ (w : Word) (hi : BitVec 16), Handle.ofWord (hi ++ w.extractLsb' 0 16) = Handle.ofWord w) ∧
  (∀ (code : ResultCode) (v : BitVec 16),
    (resultWord code v).extractLsb' 0 8 = code.code ∧ (resultWord code v).extractLsb' 8 8 = 0#8 ∧
      (resultWord code v).extractLsb' 16 16 = v) ∧
  (∀ (h : Handle) (n : Nat) (e : Bool), n < 64 →
    let d := descriptorWord h n e
    Handle.ofWord d = h ∧ descriptorLength d = n ∧ descriptorExtension d = e ∧ d.extractLsb' 22 2 = 0#2 ∧
      d.extractLsb' 25 7 = 0#7) ∧
  ∀ (m : Message) (seq : BitVec 16), m.payload.length ≤ 6 →
    let i := m.image seq
    imageKind i = m.kind.code ∧ imageLength i = m.payload.length ∧ i[0].extractLsb' 16 16 = m.tag ∧
      i[1].extractLsb' 0 16 = m.sender.bits ∧ imageSeq i = seq ∧ imageValid i = true ∧
      ∀ n : Fin 6, i[n.val + 2] = m.payload.getD n.val 0#32

/-- The first step of R82 that applies decides: what each outcome changes (R78, R83 to R86), and that a refused message
changes nothing. The slot rules are those of R107; which free slot is taken is log 6. -/
def Obligations.RoutingTakesTheFirstStepThatApplies : Prop :=
  ∀ (s : State) (rule : SlotRule) (h : Handle) (t : Task) (m : Message), s.Linked → s.task? h = some t →
    let ib := s.inbox h
    let ring := ib.spilling + ib.backed + ib.refilling
    let waits := t.state = .recvWait ∨ ∃ p, t.state = .saving p .recvWait false
    let allowed := match rule with
      | .ordinary => s.items.reserve < s.poolFree.length
      | .fault => 0 < s.poolFree.length
    let stored (x : PoolSlot) (rest : List PoolSlot) := { s with
      pool := s.pool.set x (m.image ib.nextSeq)
      poolFree := rest }
    (ib.broken = true → s.route rule h m = (.broken, s)) ∧
    (ib.broken = false →
      (waits → (¬ allowed → s.route rule h m = (.noSpace, s)) ∧
        ∀ x rest, allowed → s.poolFree = x :: rest →
          let u := { (stored x rest).withInbox h { ib with nextSeq := ib.nextSeq + 1#16 } with
            deadlines := s.deadlines.filter fun e => e.task ≠ h }
          (t.state = .recvWait → s.route rule h m =
            (.handedOff, u.offered h { t with resume := .ok, bound := some x } (s.ready[t.priority] ++ [h]))) ∧
          ∀ p, t.state = .saving p .recvWait false → s.route rule h m =
            (.handedOff, u.withTask h { t with resume := .ok, bound := some x, state := .saving p .recvWait true })) ∧
      (¬ waits →
        (ring = 0 → ib.resident.length < ib.limit →
          (¬ allowed → s.route rule h m = (.noSpace, s)) ∧
          ∀ x rest, allowed → s.poolFree = x :: rest → s.route rule h m =
            (.resident, (stored x rest).withInbox h { ib with
              nextSeq := ib.nextSeq + 1#16
              resident := ib.resident ++ [x] })) ∧
        (ring ≠ 0 ∨ ib.limit ≤ ib.resident.length →
          (ring < ib.capacity →
            (¬ allowed ∨ 16 ≤ s.jobs.length → s.route rule h m = (.noSpace, s)) ∧
            ∀ x rest, allowed → s.jobs.length < 16 → s.poolFree = x :: rest → s.route rule h m =
              (.spilled, { (stored x rest).withInbox h { ib with
                  nextSeq := ib.nextSeq + 1#16
                  writeIndex := (ib.writeIndex + 1) % ib.capacity
                  spilling := ib.spilling + 1 } with
                jobs := s.jobs ++ [{
                  kind := .spill
                  inbox := h
                  resetMark := false
                  basePage := ib.basePage
                  capacity := ib.capacity
                  position := ib.writeIndex
                  count := 1
                  slots := [x]
                  burstsDone := 0
                  attempt := .first }] })) ∧
          (ib.capacity ≤ ring → s.route rule h m = (.full, s)))))

/-- What a delivery puts in the message registers (R66, R97, R174), and the completion of an EVENT message from the record
of the line whose pending message it is, or with zeros when there is none (R149). That an EVENT image of length 0 or 1
shows 0 beyond its length in spite of R149's filling is log 17; that of two lines with equal pending records the
lowest-numbered is meant is log 23. -/
def Obligations.DeliveryShowsTheMessage : Prop :=
  ∀ (s : State) (p : Port) (place : Place) (h : Handle) (x : PoolSlot),
    let i := s.pool[x]
    let shown (j : Image) : PortUnit := { s.port p with msgHdr := i[0], msgSrc := i[1], msgData := deliveredData j }
    (∀ (j : Image) (n : Fin 6), (deliveredData j)[n] = if n.val < imageLength j then j[n.val + 2] else 0#32) ∧
    (imageKind i ≠ 2#8 → s.presentSlot p place h x = s.withPort p (shown i)) ∧
    (∀ l : Line, imageKind i = 2#8 → s.lines[l].pending = some ⟨h, imageSeq i, place⟩ →
      (∀ k < l, s.lines[k].pending ≠ some ⟨h, imageSeq i, place⟩) →
      s.presentSlot p place h x = (s.withLine l { s.lines[l] with pending := none, count := 0 }).withPort p
        (shown ((i.set 2 (BitVec.ofNat 32 s.lines[l].count)).set 3 (BitVec.ofNat 32 l.val)))) ∧
    (imageKind i = 2#8 → (∀ l : Line, s.lines[l].pending ≠ some ⟨h, imageSeq i, place⟩) →
      s.presentSlot p place h x = s.withPort p (shown ((i.set 2 0#32).set 3 0#32)))

/-- Sender release (R92 to R94): the oldest sender's pending send is routed under the ordinary rule; FULL stops the release
and leaves the sender, any other outcome ends its wait with the resume result of R93 and goes on to the next. -/
def Obligations.SenderReleaseTriesTheOldestFirst : Prop :=
  (∀ (s : State) (h : Handle), s.releaseSenders h = releaseEntries h (s.inbox h).senders s) ∧
  (∀ (s : State) (h : Handle), releaseEntries h [] s = s) ∧
  ∀ (s : State) (h sender : Handle) (rest : List Handle) (t : Task) (ps : PendingSend),
    s.task? sender = some t → t.pendingSend = some ps →
    let r := s.route .ordinary h ⟨.data, ps.tag, sender, ps.payload⟩
    (r.1 = .full → releaseEntries h (sender :: rest) s = s) ∧
    (r.1 = .handedOff ∨ r.1 = .resident →
      releaseEntries h (sender :: rest) s = releaseEntries h rest (r.2.endWait sender .ok)) ∧
    (r.1 = .spilled → releaseEntries h (sender :: rest) s = releaseEntries h rest (r.2.endWait sender .queued)) ∧
    (r.1 = .noSpace → releaseEntries h (sender :: rest) s = releaseEntries h rest (r.2.endWait sender .noSpace)) ∧
    (r.1 = .broken → releaseEntries h (sender :: rest) s = releaseEntries h rest (r.2.endWait sender .broken))

/-- The refill check (R116): nothing unless its four conditions hold; else a REFILL job for as many messages as are wanted
and the ordinary slot rule allows (R113), or, with no slot or no room in the queue, a place on the deferred-refill list
(R117). Which free slots are taken is log 6. -/
def Obligations.RefillCheckMakesOrDefersAJob : Prop :=
  ∀ (s : State) (h : Handle),
    let ib := s.inbox h
    let needed := (s.task? h).isSome ∧ ib.broken = false ∧ 0 < ib.backed ∧
      (∀ j ∈ s.jobs, j.kind = .refill → j.inbox ≠ h) ∧ (ib.resident.length ≤ ib.mark ∨ ib.recvPending = true)
    let a := min (min ib.backed (ib.limit - ib.resident.length)) (s.poolFree.length - s.items.reserve)
    let made := { s.withInbox h { ib with
        readIndex := if ib.capacity = 0 then 0 else (ib.readIndex + a) % ib.capacity
        backed := ib.backed - a
        refilling := ib.refilling + a } with
      poolFree := s.poolFree.drop a
      jobs := s.jobs ++ [{
        kind := .refill
        inbox := h
        resetMark := false
        basePage := ib.basePage
        capacity := ib.capacity
        position := ib.readIndex
        count := a
        slots := s.poolFree.take a
        burstsDone := 0
        attempt := .first }] }
    (s.refillNeeded h = true ↔ needed) ∧
    (s.jobs.length < 16 → 0 < a → s.createRefill h = some made) ∧
    (16 ≤ s.jobs.length ∨ a = 0 → s.createRefill h = none) ∧
    (¬ needed → s.refillCheck h = s) ∧
    (needed → s.jobs.length < 16 → 0 < a → s.refillCheck h = made) ∧
    (needed → 16 ≤ s.jobs.length ∨ a = 0 →
      (h ∉ s.deferred → s.refillCheck h = { s with deferred := s.deferred ++ [h] }) ∧
      (h ∈ s.deferred → s.refillCheck h = s))

/-- The retry of the deferred-refill list (R118): an entry in no need leaves it, an entry that gets its job leaves it, and
the first that cannot keeps its place and ends the retry. -/
def Obligations.DeferredRefillsAreRetriedInOrder : Prop :=
  ∀ (s : State),
    (s.deferred = [] → s.retryDeferred = s) ∧
    ∀ h rest, s.deferred = h :: rest →
      (s.refillNeeded h = false → s.retryDeferred = { s with deferred := rest }.retryDeferred) ∧
      (s.refillNeeded h = true →
        (∀ u, s.createRefill h = some u → s.retryDeferred = { u with deferred := rest }.retryDeferred) ∧
        (s.createRefill h = none → s.retryDeferred = s))

/-- SEND (R88, R89, R90): the checks, the routing of the message, what the sender sees, and the wait of a SEND with WAIT
that met FULL at another task's inbox. The 0 in bits 31 to 16 with BADHANDLE and BADARG is log 10. -/
def Obligations.SendIsRoutedOrWaits : Prop :=
  ∀ (p : Port) (h : Handle) (t : Task) (s : State), s.RunningAt p h t →
    let u := s.port p
    let target := Handle.ofWord u.args[0]
    let tag := u.args[1].extractLsb' 0 16
    let length := (u.args[1].extractLsb' 16 8).toNat
    let timeout := u.args[2].extractLsb' 0 16
    let payload := u.outData.toList.take length
    let r := (s.taken p).route .ordinary target ⟨.data, tag, h, payload⟩
    (s.live target = false → exec (.send p) s = .next (s.answered p .badHandle 0#16)) ∧
    (s.live target = true → 6 < length → exec (.send p) s = .next (s.answered p .badArg 0#16)) ∧
    (s.live target = true → length ≤ 6 →
      (∀ code, (r.1, code) ∈ [(RouteOutcome.handedOff, ResultCode.ok), (.resident, .ok), (.spilled, .queued),
          (.broken, .broken), (.noSpace, .noSpace)] →
        ∃ x, exec (.send p) s = .next x ∧ x.Reevaluated (r.2.withPort p ((r.2.port p).answer code 0#16))) ∧
      (r.1 = .full → u.args[2].getLsbD 31 = false ∨ target = h →
        ∃ x, exec (.send p) s = .next x ∧ x.Reevaluated (s.answered p .full 0#16)) ∧
      (r.1 = .full → u.args[2].getLsbD 31 = true → target ≠ h →
        ∃ x, exec (.send p) s = .next x ∧ x.Reevaluated
          ({ (s.withInbox target { s.inbox target with senders := (s.inbox target).senders ++ [h] }).withTask h { t with
                state := .saving p .sendWait false
                pendingSend := some ⟨target, tag, payload⟩ } with
            deadlines := if timeout = 0#16 then s.deadlines else
              insertDeadlineEntry s.tickCounter ⟨h, s.tickCounter + timeout.setWidth 32, .send⟩ s.deadlines }.withPort p
              { (s.takenUnit p).answer .full h.bits with state := .saving .checkIn h [] })))

/-- RECEIVE by the cases of R96. With a resident message (R97): the head is delivered and leaves the list, its slot is freed
with the retry of the deferred-refill list (R108), then sender release and the refill check run. With none: it waits for a
refill while the ring holds messages (R98); with the total 0 it returns BROKEN or EMPTY at once (R100), or, with WAIT at a
NORMAL inbox, begins a check-in with disposition RECV_WAIT and, unless the timeout is 0, a RECV deadline (R101). That a
returned slot becomes the head of the free list is log 6. -/
def Obligations.ReceiveDeliversWaitsOrReturns : Prop :=
  ∀ (p : Port) (h : Handle) (t : Task) (s : State), s.RunningAt p h t →
    let ib := s.inbox h
    let ring := ib.spilling + ib.backed + ib.refilling
    let arg := (s.port p).args[0]
    let timeout := arg.extractLsb' 0 16
    (∀ x rest, ib.resident = x :: rest →
      let shown := (s.taken p).presentSlot p .inbox h x
      let freed := { shown.withInbox h { ib with resident := rest } with poolFree := x :: s.poolFree }.retryDeferred
      let answered := freed.withPort p ((freed.port p).answer .ok 0#16)
      ∃ r, exec (.receive p) s = .next r ∧ r.Reevaluated ((answered.releaseSenders h).refillCheck h)) ∧
    (ib.resident = [] → 0 < ring → exec (.receive p) s = .next
      (((s.withInbox h { ib with recvPending := true }).withPort p
        { (s.takenUnit p).answer .pending 0#16 with state := .run h true }).refillCheck h)) ∧
    (ib.resident = [] → ring = 0 → ib.broken = true → exec (.receive p) s = .next (s.answered p .broken 0#16)) ∧
    (ib.resident = [] → ring = 0 → ib.broken = false →
      (arg.getLsbD 31 = false → exec (.receive p) s = .next (s.answered p .empty 0#16)) ∧
      (arg.getLsbD 31 = true → ∃ r, exec (.receive p) s = .next r ∧ r.Reevaluated
        ({ s.withTask h { t with state := .saving p .recvWait false } with
          deadlines := if timeout = 0#16 then s.deadlines else
            insertDeadlineEntry s.tickCounter ⟨h, s.tickCounter + timeout.setWidth 32, .recv⟩ s.deadlines }.withPort p
            { (s.takenUnit p).answer .empty h.bits with state := .saving .checkIn h [] })))

/-- SETINBOX (R102): the five checks in their order, and the limits written with both ring indices 0; every other field of
the inbox is kept. The 0 in bits 31 to 16 with its refusals is log 10. -/
def Obligations.SetInboxWritesTheLimits : Prop :=
  ∀ (p : Port) (s : State), s.SupervisorAt p →
    let args := (s.port p).args
    let h := Handle.ofWord args[0]
    let limit := (args[1].extractLsb' 0 8).toNat
    let mark := (args[1].extractLsb' 8 8).toNat
    let page := args[2].toNat
    let capacity := args[3].toNat
    let ib := s.inbox h
    let valid := 1 ≤ limit ∧ limit ≤ 32 ∧ mark ≤ limit - 1 ∧ page ≤ 1048575 ∧ capacity ≤ 4096 ∧
      (0 < capacity → s.items.backingEnable = true) ∧ page * 4096 + capacity * 32 ≤ 2 ^ 32
    (s.live h = false → exec (.setInbox p) s = .next (s.answered p .badHandle 0#16)) ∧
    (s.live h = true →
      (¬ valid → exec (.setInbox p) s = .next (s.answered p .badArg 0#16)) ∧
      (valid →
        (ib.resident ≠ [] ∨ 0 < ib.spilling + ib.backed + ib.refilling ∨ ib.broken = true →
          exec (.setInbox p) s = .next (s.answered p .badState 0#16)) ∧
        (ib.resident = [] → ib.spilling + ib.backed + ib.refilling = 0 → ib.broken = false →
          exec (.setInbox p) s = .next ((s.answered p .ok 0#16).withInbox h { ib with
            limit := limit
            mark := mark
            basePage := page
            capacity := capacity
            writeIndex := 0
            readIndex := 0 }))))

/-- RESET_INBOX (R103) and DESTROY (R22 to R24), from IDLE or RUN: each refused with BADHANDLE for a stale handle, and
otherwise the whole state it leaves. Both empty the inbox (`emptied`: its messages and queued jobs go, their slots return to
the pool with one retry of the deferred-refill list, which `DeferredRefillsAreRetriedInOrder` states) and release every
sender with GONE, oldest first (`released`: `EndOfAWaitWakesTheTask` states `endWait`). RESET_INBOX marks the inbox's
current job, renews the inbox, answers a pending RECEIVE with EMPTY (`PendingReceivesAreCompleted`) and discards the lines
pending in the inbox. DESTROY first takes the task out of what holds it, evicts its port and its seeding port with GONE
and returns its bound message; at the end the lines and the sink forget the task and its slot is FREE with the next
generation. What follows of this is stated after each: the pool, the senders, and that nothing names the destroyed handle.
A returned slot at the head of the free list is log 6; the 0 in bits 31 to 16 with BADHANDLE, EMPTY and GONE is log 10; the bound
message returned before the inbox is emptied, each with its own retry, is log 22. -/
def Obligations.ResetInboxAndDestroyEmptyTheInbox : Prop :=
  ∀ (p : Port) (s : State), s.SupervisorAt p →
    let h := Handle.ofWord (s.port p).args[0]
    let freedBy (u : State) : List PoolSlot :=
      (u.inbox h).resident ++ (u.jobs.tail.filter fun k => k.inbox = h).flatMap Job.slots
    let emptied (u : State) : State :=
      let w : State := { u.withInbox h { u.inbox h with
          resident := [], spilling := 0, backed := 0, refilling := 0, writeIndex := 0, readIndex := 0 } with
        jobs := u.jobs.take 1 ++ u.jobs.tail.filter fun k => k.inbox ≠ h
        deferred := u.deferred.filter fun k => k ≠ h
        poolFree := freedBy u ++ u.poolFree }
      if freedBy u = [] then w else w.retryDeferred
    let released (u : State) : State := (u.inbox h).senders.foldl (fun v k => v.endWait k .gone) u
    let returned (r : State) (xs : List PoolSlot) : Prop :=
      ∀ x ∈ xs, x ∈ r.poolFree ∨ ∃ j ∈ r.jobs, j.kind = .refill ∧ x ∈ j.slots
    let releasedWithGone (r : State) (k : Handle) : Prop :=
      ∀ v, s.task? k = some v → ∃ x, r.task? k = some x ∧ x.pendingSend = none ∧ x.resume = .gone ∧
        r.deadlinePresent k = false ∧
        (v.state = .sendWait → (x.state = .ready ∧ k ∈ r.ready[v.priority]) ∨ ∃ q ∈ s.awaitList, x.state = .running q) ∧
        ∀ q, v.state = .saving q .sendWait false → x.state = .saving q .sendWait true
    (s.task? h = none → exec (.resetInbox p) s = .next (s.answered p .badHandle 0#16) ∧
      exec (.destroy p) s = .next (s.answered p .badHandle 0#16)) ∧
    ∀ t, s.task? h = some t →
      (let ib := s.inbox h
        let marked : State := { s.taken p with
          jobs := (s.jobs.take 1).map (fun j => if j.inbox = h then { j with resetMark := true } else j) ++ s.jobs.tail }
        let e := emptied marked
        let u := (released (e.withInbox h { e.inbox h with broken := false, nextSeq := 0#16, lostCount := 0 })).completeReceive
          h .empty
        let v : State := { u with
          lines := Vector.ofFn fun l => match s.lines[l].pending with
            | some pe => if pe.place = .inbox ∧ pe.target = h then { s.lines[l] with
                  missed := min (s.lines[l].missed + s.lines[l].count) 65535
                  count := 0
                  pending := none }
                else s.lines[l]
            | none => s.lines[l] }
        let total := ib.resident.length + ib.spilling + ib.backed + ib.refilling
        ∃ r, exec (.resetInbox p) s = .next r ∧
          r.Reevaluated (v.withPort p ((v.port p).answer .ok (BitVec.ofNat 16 total))) ∧
          returned r (freedBy s) ∧
          (s.deferred = [] → r.poolFree = freedBy s ++ s.poolFree) ∧
          r.inbox h = { Inbox.default with
            limit := ib.limit
            mark := ib.mark
            basePage := ib.basePage
            capacity := ib.capacity
            senders := (r.inbox h).senders } ∧
          h ∉ r.deferred ∧
          (∃ more, r.jobs = marked.jobs.take 1 ++ (marked.jobs.tail.filter fun k => k.inbox ≠ h) ++ more ∧
            ∀ k ∈ more, k.kind = .refill ∧ k.inbox ≠ h) ∧
          (∀ q, ib.recvPending = true → t.state = .running q → (s.port q).state = .run h true → s.Linked →
            (r.port q).state = .run h false ∧ (r.port q).done = true ∧
              (q ≠ p → (r.port q).result = resultWord .empty 0#16)) ∧
          (s.Linked → s.SendersAgree → (r.inbox h).senders = [] ∧ r.task? h = some t ∧
            (r.deadlines.filter fun d => d.task = h) = (s.deadlines.filter fun d => d.task = h) ∧
            ∀ k ∈ ib.senders, releasedWithGone r k)) ∧
      (s.Linked →
        let evicted (u : State) (q : Port) : State :=
          u.withPort q { (u.port q).answer .gone 0#16 with state := .idle, evicted := true }
        let away (q : Port) : State := evicted (((if (s.port q).state = .run h true then
          (s.taken p).withInbox h { s.inbox h with recvPending := false } else s.taken p)).undoWait h) q
        let out : State := match t.state with
          | .dormant => s.taken p
          | .halted _ => s.taken p
          | .ready => { s.taken p with
              ready := s.ready.set t.priority (s.ready[t.priority].filter fun x => x ≠ h) }
          | .running q => away q
          | .saving q _ _ => away q
          | .recvWait => (s.taken p).undoWait h
          | .sendWait => (s.taken p).undoWait h
          | .sleeping => (s.taken p).undoWait h
        let unseeded : State := match t.seedPort with
          | some q => evicted out q
          | none => out
        let bare := (unseeded.undoWait h).withTask h
          { t with state := .dormant, bound := none, pendingSend := none, seedPort := none }
        let w : State := match t.bound with
          | some x => State.retryDeferred { bare with poolFree := x :: s.poolFree }
          | none => bare
        let u := released (emptied w)
        let v : State := { u with
          lines := Vector.ofFn fun l =>
            let bound : LineRec := match s.lines[l].binding with
              | some b => if b.target = h then { s.lines[l] with binding := none } else s.lines[l]
              | none => s.lines[l]
            match s.lines[l].pending with
            | some pe => if pe.target = h then { bound with pending := none, count := 0 } else bound
            | none => bound
          sink := if s.sink = some h then none else s.sink
          tasks := u.tasks.set h.slot ⟨if h.gen = 1023#10 then 1#10 else h.gen + 1#10, none⟩
          freeSlots := h.slot :: s.freeSlots }
        let heldHere := t.state.place = .held p ∨ t.state.place = .saved p
        ∃ r, exec (.destroy p) s = .next r ∧
          r.Reevaluated (if heldHere then v else v.withPort p ((v.port p).answer .ok 0#16)) ∧
          returned r (t.bound.toList ++ freedBy s) ∧
          (s.deferred = [] → r.poolFree = freedBy s ++ t.bound.toList ++ s.poolFree) ∧
          r.live h = false ∧ r.deadlinePresent h = false ∧ h ∉ r.deferred ∧
          (∀ q : Priority, h ∉ r.ready[q]) ∧
          (∀ ps, t.pendingSend = some ps → h ∉ (r.inbox ps.target).senders) ∧
          (r.inbox h).resident = [] ∧ (r.inbox h).spilling + (r.inbox h).backed + (r.inbox h).refilling = 0 ∧
          (∀ k ∈ r.jobs.tail, k.inbox ≠ h) ∧
          (∀ l : Line, (∀ b, r.lines[l].binding = some b → b.target ≠ h) ∧
            ∀ pe, r.lines[l].pending = some pe → pe.target ≠ h) ∧
          r.sink ≠ some h ∧
          (∀ q, (r.port q).state.post ≠ .holds h ∧ (r.port q).state.post ≠ .saves h ∧ (r.port q).state.post ≠ .seeds h) ∧
          (∀ q, t.state.place = .held q ∨ t.state.place = .saved q ∨ t.seedPort = some q →
            (r.port q).state = .idle ∧ (r.port q).evicted = true ∧ (r.port q).result = resultWord .gone 0#16) ∧
          (s.SendersAgree → (r.inbox h).senders = [] ∧ ∀ k ∈ (s.inbox h).senders, releasedWithGone r k))

/-! ### Queries -/

/-- QUERY_TASK (R28) in the layout of R176: every field in its bits, and nothing changed but ARG0 to ARG3, RESULT and the
lease that a taken command reloads. The 0 in bits 31 to 16 with BADHANDLE is log 10. -/
def Obligations.QueryTaskReportsTheRecord : Prop :=
  ∀ (p : Port) (s : State), s.FreeAt p →
    let h := Handle.ofWord (s.port p).args[0]
    (s.task? h = none → exec (.queryTask p) s = .next (s.answered p .badHandle 0#16)) ∧
    ∀ t, s.task? h = some t → ∃ a : Vector Word 4,
      exec (.queryTask p) s = .next (s.withPort p { (s.takenUnit p).answer .ok 0#16 with args := a }) ∧
      a[0].extractLsb' 0 16 = h.bits ∧
      a[0].extractLsb' 16 4 = (match t.state with
        | .dormant => 1#4
        | .ready => 2#4
        | .running _ => 3#4
        | .saving _ _ _ => 4#4
        | .recvWait => 5#4
        | .sendWait => 6#4
        | .sleeping => 7#4
        | .halted _ => 8#4) ∧
      a[0].extractLsb' 20 4 = (match t.state with
        | .halted .supervisor => 1#4
        | .halted .portLost => 2#4
        | _ => 0#4) ∧
      a[0].extractLsb' 24 8 = 0#8 ∧
      a[1].extractLsb' 0 4 = BitVec.ofNat 4 t.priority.val ∧
      a[1].extractLsb' 4 4 = t.affinity ∧
      a[1].extractLsb' 8 6 = BitVec.ofNat 6 t.frameLength ∧
      a[1].extractLsb' 14 2 = 0#2 ∧
      a[1].getLsbD 16 = t.extension ∧
      a[1].extractLsb' 17 15 = 0#15 ∧
      a[2].extractLsb' 0 4 = (match t.state with
        | .running q => BitVec.ofNat 4 q.val
        | .saving q _ _ => BitVec.ofNat 4 q.val
        | _ => 15#4) ∧
      a[2].extractLsb' 4 4 = (match t.seedPort with
        | some q => BitVec.ofNat 4 q.val
        | none => 15#4) ∧
      a[2].extractLsb' 8 4 = (match t.state with
        | .saving _ .readyTail _ => 1#4
        | .saving _ .readyHead _ => 2#4
        | .saving _ .recvWait _ => 3#4
        | .saving _ .sendWait _ => 4#4
        | .saving _ .sleeping _ => 5#4
        | _ => 0#4) ∧
      a[2].getLsbD 12 = (match t.state with
        | .saving _ _ satisfied => satisfied
        | _ => false) ∧
      a[2].extractLsb' 13 3 = 0#3 ∧
      a[2].extractLsb' 16 8 = t.resume.result.code ∧
      a[2].getLsbD 24 = t.bound.isSome ∧
      a[2].getLsbD 25 = t.pendingSend.isSome ∧
      a[2].getLsbD 26 = (s.deadlines.any fun e => e.task = h) ∧
      a[2].extractLsb' 27 5 = 0#5 ∧
      a[3] = (match s.deadlines.find? fun e => e.task = h with
        | some e => e.expiry
        | none => 0#32)

/-- QUERY_INBOX (R104), QUERY_EVENT (R155) and QUERY_PART (R128) in the layouts of R176: every field in its bits, and nothing
changed but ARG0 to ARG3, RESULT and the lease that a taken command reloads. The 0 in bits 31 to 16 with BADHANDLE and BADARG
is log 10; that QUERY_PART shows the unreported-fault count and not the sink is log 27. -/
def Obligations.QueriesReportInboxEventAndPart : Prop :=
  ∀ (p : Port) (s : State), s.FreeAt p →
    let w := (s.port p).args[0]
    let h := Handle.ofWord w
    let ib := s.inbox h
    (s.live h = false → exec (.queryInbox p) s = .next (s.answered p .badHandle 0#16)) ∧
    (s.live h = true → ∃ a : Vector Word 4,
      exec (.queryInbox p) s = .next (s.withPort p { (s.takenUnit p).answer .ok 0#16 with args := a }) ∧
      a[0].getLsbD 0 = ib.broken ∧ a[0].getLsbD 1 = ib.recvPending ∧ a[0].extractLsb' 2 6 = 0#6 ∧
      a[0].extractLsb' 8 8 = BitVec.ofNat 8 ib.resident.length ∧ a[0].extractLsb' 16 8 = BitVec.ofNat 8 ib.spilling ∧
      a[0].extractLsb' 24 8 = BitVec.ofNat 8 ib.senders.length ∧
      a[1].extractLsb' 0 20 = BitVec.ofNat 20 ib.basePage ∧ a[1].extractLsb' 20 6 = BitVec.ofNat 6 ib.limit ∧
      a[1].extractLsb' 26 6 = BitVec.ofNat 6 ib.mark ∧
      a[2].extractLsb' 0 13 = BitVec.ofNat 13 ib.capacity ∧ a[2].extractLsb' 13 13 = BitVec.ofNat 13 ib.backed ∧
      a[2].extractLsb' 26 6 = BitVec.ofNat 6 ib.refilling ∧
      a[3].extractLsb' 0 16 = ib.nextSeq ∧ a[3].extractLsb' 16 16 = BitVec.ofNat 16 ib.lostCount) ∧
    exec (.queryPart p) s = .next (s.withPort p { (s.takenUnit p).answer .ok 0#16 with
      args := #v[BitVec.ofNat 32 s.poolFree.length, BitVec.ofNat 32 s.jobs.length, BitVec.ofNat 32 s.unreported,
        s.tickCounter] }) ∧
    (15 < w.toNat → exec (.queryEvent p) s = .next (s.answered p .badArg 0#16)) ∧
    ∀ l : Line, w.toNat = l.val → ∃ a : Vector Word 4,
      exec (.queryEvent p) s = .next (s.withPort p { (s.takenUnit p).answer .ok 0#16 with args := a }) ∧
      a[0].extractLsb' 0 4 = BitVec.ofNat 4 l.val ∧ a[0].getLsbD 4 = s.lines[l].binding.isSome ∧
      a[0].getLsbD 5 = s.items.polarity.getLsbD l.val ∧ a[0].getLsbD 6 = s.lines[l].pending.isSome ∧
      a[0].getLsbD 7 = (match s.lines[l].pending with
        | some pe => decide (pe.place = .bound)
        | none => false) ∧
      a[0].extractLsb' 8 24 = 0#24 ∧
      a[1] = (match s.lines[l].binding with
        | some b => b.tag ++ b.target.bits
        | none => 0#32) ∧
      a[2].extractLsb' 0 16 = BitVec.ofNat 16 s.lines[l].count ∧
      a[2].extractLsb' 16 16 = BitVec.ofNat 16 s.lines[l].missed ∧
      a[3] = (match s.lines[l].pending with
        | some pe => pe.seq ++ pe.target.bits
        | none => 0#32)

/-! ### Task commands -/

/-- CREATE (R10, R11, R12): a word outside the range of its argument is refused with BADARG and an empty free-slot list with
NOSPACE; otherwise the top slot holds a DORMANT task with a zero frame and an inbox at its defaults, and RESULT its handle. -/
def Obligations.CreateMakesADormantTask : Prop :=
  ∀ (p : Port) (s : State), s.SupervisorAt p →
    let a0 := (s.port p).args[0]
    let a1 := (s.port p).args[1]
    let a2 := (s.port p).args[2]
    (15 < a0.toNat ∨ a1.toNat = 0 ∨ 15 < a1.toNat ∨ a2.toNat < 4 ∨ 32 < a2.toNat ∨ a2.toNat % 4 ≠ 0 →
      exec (.create p) s = .next (s.answered p .badArg 0#16)) ∧
    (a0.toNat ≤ 15 → 1 ≤ a1.toNat → a1.toNat ≤ 15 → 4 ≤ a2.toNat → a2.toNat ≤ 32 → a2.toNat % 4 = 0 →
      (s.freeSlots = [] → exec (.create p) s = .next (s.answered p .noSpace 0#16)) ∧
      ∀ slot rest, s.freeSlots = slot :: rest →
        let h : Handle := ⟨slot, s.tasks[slot].gen⟩
        exec (.create p) s = .next { (s.answered p .ok h.bits).withTask h {
            state := .dormant
            priority := Fin.ofNat 16 a0.toNat
            affinity := a1.extractLsb' 0 4
            frameLength := a2.toNat
            extension := false
            seedPort := none
            resume := .ok
            bound := none
            pendingSend := none } with
          freeSlots := rest
          frames := s.frames.set slot (Vector.replicate 48 0#32)
          inboxes := s.inboxes.set slot {
            broken := false, limit := 4, mark := 0, basePage := 0, capacity := 0, resident := [], spilling := 0
            backed := 0, refilling := 0, writeIndex := 0, readIndex := 0, nextSeq := 0#16, lostCount := 0
            senders := [], recvPending := false } })

/-- SEED (R47), from IDLE: the checks, and the beginning of a seed. From RUN it is refused with BADSTATE, which
`RefusedCommandsChangeOnlyTheirAnswer` states. -/
def Obligations.SeedBeginsWritingAStoppedTask : Prop :=
  ∀ (p : Port) (s : State), s.SupervisorAt p → (s.port p).state = .idle →
    let h := Handle.ofWord (s.port p).args[0]
    (s.task? h = none → exec (.seed p) s = .next (s.answered p .badHandle 0#16)) ∧
    ∀ t, s.task? h = some t →
      (t.seedPort ≠ none → exec (.seed p) s = .next (s.answered p .busy 0#16)) ∧
      (t.seedPort = none →
        (t.state = .dormant ∨ t.state = .halted .supervisor ∨ t.state = .halted .portLost →
          exec (.seed p) s = .next ((s.withTask h { t with seedPort := some p }).withPort p
            { (s.takenUnit p).answer .ok 0#16 with state := .saving .seed h [] })) ∧
        (t.state.place ≠ .stopped → exec (.seed p) s = .next (s.answered p .badState 0#16)))

/-- ACTIVATE (R13) and RELEASE (R14): the checks in their order, the DORMANT task that becomes READY and is offered to the
await list, and the HALTED task that becomes DORMANT. -/
def Obligations.ActivateAndReleaseMoveTheTask : Prop :=
  ∀ (p : Port) (s : State), s.SupervisorAt p → s.Linked →
    let h := Handle.ofWord (s.port p).args[0]
    (s.task? h = none → exec (.activate p) s = .next (s.answered p .badHandle 0#16) ∧
      exec (.release p) s = .next (s.answered p .badHandle 0#16)) ∧
    ∀ t, s.task? h = some t →
      (t.seedPort ≠ none → exec (.activate p) s = .next (s.answered p .busy 0#16) ∧
        exec (.release p) s = .next (s.answered p .busy 0#16)) ∧
      (t.seedPort = none →
        (t.state ≠ .dormant → exec (.activate p) s = .next (s.answered p .badState 0#16)) ∧
        (t.state = .dormant → ∃ r, exec (.activate p) s = .next r ∧
          r.Reevaluated ((s.answered p .ok 0#16).offered h t (s.ready[t.priority] ++ [h]))) ∧
        (t.state = .halted .supervisor ∨ t.state = .halted .portLost →
          exec (.release p) s = .next ((s.answered p .ok 0#16).withTask h { t with state := .dormant })) ∧
        (t.state ≠ .halted .supervisor → t.state ≠ .halted .portLost →
          exec (.release p) s = .next (s.answered p .badState 0#16)))

/-- HALT (R17, R19 to R21) by the task's state: the task becomes HALTED with SUPERVISOR; a READY task leaves its queue, a
waiting one its wait (`EndOfAWaitWakesTheTask` states `undoWait`), and a port that holds the task is evicted to IDLE with
HALTED, its staging buffer and pending RECEIVE abandoned; the issuing port gets OK unless it was evicted itself. The 0 in
bits 31 to 16 with BADHANDLE, with BADSTATE and with the eviction's HALTED is log 10. -/
def Obligations.HaltStopsTheTask : Prop :=
  ∀ (p : Port) (s : State), s.SupervisorAt p → s.Linked →
    let h := Handle.ofWord (s.port p).args[0]
    let ok := s.answered p .ok 0#16
    (s.task? h = none → exec (.halt p) s = .next (s.answered p .badHandle 0#16)) ∧
    ∀ t, s.task? h = some t →
      let stopped : Task := { t with state := .halted .supervisor }
      (t.state = .halted .supervisor ∨ t.state = .halted .portLost →
        exec (.halt p) s = .next (s.answered p .badState 0#16)) ∧
      (t.state = .dormant → ∃ r, exec (.halt p) s = .next r ∧ r.Reevaluated (ok.withTask h stopped)) ∧
      (t.state = .ready → ∃ r, exec (.halt p) s = .next r ∧ r.Reevaluated
        { ok.withTask h stopped with
          ready := s.ready.set t.priority (s.ready[t.priority].filter fun x => x ≠ h) }) ∧
      (t.state = .recvWait ∨ t.state = .sendWait ∨ t.state = .sleeping → ∃ r, exec (.halt p) s = .next r ∧
        r.Reevaluated ((ok.undoWait h).withTask h { stopped with pendingSend := none })) ∧
      (∀ q, t.state = .running q ∨ (∃ d satisfied, t.state = .saving q d satisfied) →
        let idle (u : PortUnit) : PortUnit := { u.answer .halted 0#16 with state := .idle, evicted := true }
        let u := (s.taken p).withPort q (idle ((s.taken p).port q))
        let v := (if (s.port q).state = .run h true then u.withInbox h { s.inbox h with recvPending := false }
          else u).undoWait h
        let w := v.withTask h { stopped with pendingSend := none }
        ∃ r, exec (.halt p) s = .next r ∧ r.Reevaluated
          (if q = p then w else w.withPort p ((s.takenUnit p).answer .ok 0#16)))

/-- SETPRIO (R10, R26) and SETAFFINITY (R10, R27): the checks, the field, and what follows for a READY task, which moves to
the tail of its new queue, or is offered to the await list with its new affinity. -/
def Obligations.SetPrioAndSetAffinityChangeTheField : Prop :=
  ∀ (p : Port) (s : State), s.SupervisorAt p → s.Linked →
    let h := Handle.ofWord (s.port p).args[0]
    let w := (s.port p).args[1]
    let ok := s.answered p .ok 0#16
    (s.task? h = none → exec (.setPrio p) s = .next (s.answered p .badHandle 0#16) ∧
      exec (.setAffinity p) s = .next (s.answered p .badHandle 0#16)) ∧
    ∀ t, s.task? h = some t →
      (15 < w.toNat → exec (.setPrio p) s = .next (s.answered p .badArg 0#16)) ∧
      (∀ prio : Priority, w.toNat = prio.val →
        (prio = t.priority → exec (.setPrio p) s = .next ok) ∧
        (prio ≠ t.priority →
          (t.state ≠ .ready → ∃ r, exec (.setPrio p) s = .next r ∧
            r.Reevaluated (ok.withTask h { t with priority := prio })) ∧
          (t.state = .ready → ∃ r, exec (.setPrio p) s = .next r ∧ r.Reevaluated
            ({ ok with ready := s.ready.set t.priority (s.ready[t.priority].filter fun x => x ≠ h) }.offered h
              { t with priority := prio } (s.ready[prio] ++ [h]))))) ∧
      (w.toNat = 0 ∨ 15 < w.toNat → exec (.setAffinity p) s = .next (s.answered p .badArg 0#16)) ∧
      (1 ≤ w.toNat → w.toNat ≤ 15 →
        let changed : Task := { t with affinity := w.extractLsb' 0 4 }
        (t.state ≠ .ready → ∃ r, exec (.setAffinity p) s = .next r ∧ r.Reevaluated (ok.withTask h changed)) ∧
        (t.state = .ready →
          (s.awaitList.find? (fun q => changed.eligible q) = none → ∃ r, exec (.setAffinity p) s = .next r ∧
            r.Reevaluated (ok.withTask h changed)) ∧
          (s.awaitList.find? (fun q => changed.eligible q) ≠ none → ∃ r, exec (.setAffinity p) s = .next r ∧
            r.Reevaluated ({ ok with
              ready := s.ready.set t.priority (s.ready[t.priority].filter fun x => x ≠ h) }.offered h changed []))))

/-! ### Event lines and faults -/

/-- BIND_EVENT (R152) and UNBIND_EVENT (R153): the checks in their order, and the line's record; nothing else changes but
RESULT and the reloaded lease. The 0 in bits 31 to 16 with their refusals is log 10. -/
def Obligations.BindAndUnbindWriteTheLine : Prop :=
  ∀ (p : Port) (s : State), s.SupervisorAt p →
    let args := (s.port p).args
    let h := Handle.ofWord args[1]
    (s.live h = false → exec (.bindEvent p) s = .next (s.answered p .badHandle 0#16)) ∧
    (s.live h = true → 15 < args[0].toNat ∨ 65535 < args[2].toNat →
      exec (.bindEvent p) s = .next (s.answered p .badArg 0#16)) ∧
    (15 < args[0].toNat → exec (.unbindEvent p) s = .next (s.answered p .badArg 0#16)) ∧
    ∀ l : Line, args[0].toNat = l.val →
      (s.live h = true → args[2].toNat ≤ 65535 →
        (s.lines[l].pending ≠ none → exec (.bindEvent p) s = .next (s.answered p .badState 0#16)) ∧
        (s.lines[l].pending = none → exec (.bindEvent p) s = .next ((s.answered p .ok 0#16).withLine l { s.lines[l] with
          binding := some ⟨h, args[2].extractLsb' 0 16⟩
          count := 0
          missed := 0 }))) ∧
      exec (.unbindEvent p) s = .next ((s.answered p .ok 0#16).withLine l { s.lines[l] with binding := none })

/-- A change of a line's synchronized level (R145), by the record of the line as R146 tabulates; the posting of the EVENT
message (R147) and its refusal (R148). A stale target counts as a refusal (log 18); while RST# holds the part nothing is
taken (log 14). -/
def Obligations.EdgesActByTheLineRecord : Prop :=
  ∀ (l : Line) (level : Bool) (s : State),
    let r0 := { s.lines[l] with level := level }
    let u := s.withLine l r0
    let edge := s.lines[l].level ≠ level ∧ level = !s.items.polarity.getLsbD l.val
    (s.rstLow = true → exec (.eventEdge l level) s = .next s) ∧
    (s.rstLow = false → s.quiet = true →
      (¬ edge → exec (.eventEdge l level) s = .next u) ∧
      (edge →
        (r0.binding = none → exec (.eventEdge l level) s = .next u) ∧
        ∀ b, r0.binding = some b →
          (r0.pending ≠ none → exec (.eventEdge l level) s =
            .next (s.withLine l { r0 with count := min (r0.count + 1) 65535 })) ∧
          (r0.pending = none →
            let r := u.route .ordinary b.target ⟨.event, b.tag, ⟨0, 0#10⟩, [0#32, 0#32]⟩
            let posted (place : Place) := r.2.withLine l { r0 with
              count := 1
              pending := some ⟨b.target, (s.inbox b.target).nextSeq, place⟩ }
            (s.live b.target = true → r.1 = .handedOff →
              ∃ x, exec (.eventEdge l level) s = .next x ∧ x.Reevaluated (posted .bound)) ∧
            (s.live b.target = true → r.1 = .resident ∨ r.1 = .spilled →
              ∃ x, exec (.eventEdge l level) s = .next x ∧ x.Reevaluated (posted .inbox)) ∧
            (s.live b.target = false ∨ r.1 = .broken ∨ r.1 = .noSpace ∨ r.1 = .full →
              exec (.eventEdge l level) s =
                .next (s.withLine l { r0 with missed := min (r0.missed + 1) 65535, count := 0 })))))

/-- SETSINK (R164), the FAULT messages (R158), and where a fault goes: to the sink's inbox under the fault slot rule, or
into the unreported-fault count (R162, R163). The 0 in bits 31 to 16 with SETSINK's BADHANDLE is log 10. -/
def Obligations.FaultsGoToTheSinkOrAreCounted : Prop :=
  (∀ (p : Port) (s : State), s.SupervisorAt p →
    let h := Handle.ofWord (s.port p).args[0]
    (s.live h = false → exec (.setSink p) s = .next (s.answered p .badHandle 0#16)) ∧
    (s.live h = true → (s.sink = none → exec (.setSink p) s = .next { s.answered p .ok 0#16 with sink := some h }) ∧
      ∀ k, s.sink = some k → exec (.setSink p) s = .next { s.answered p .ok k.bits with sink := some h })) ∧
  (∀ (h : Handle) (p : Port),
    (FaultReport.portLost h p .line).message =
      ⟨.fault, 1#16, ⟨0, 0#10⟩, [0#16 ++ h.bits, BitVec.ofNat 32 p.val, 0#32]⟩ ∧
    (FaultReport.portLost h p .revoke).message =
      ⟨.fault, 1#16, ⟨0, 0#10⟩, [0#16 ++ h.bits, BitVec.ofNat 32 p.val, 1#32]⟩ ∧
    (FaultReport.portLost h p .lease).message =
      ⟨.fault, 1#16, ⟨0, 0#10⟩, [0#16 ++ h.bits, BitVec.ofNat 32 p.val, 2#32]⟩) ∧
  (∀ (h : Handle) (d : Nat), (FaultReport.backingFailed h d).message =
      ⟨.fault, 2#16, ⟨0, 0#10⟩, [0#16 ++ h.bits, 255#32, BitVec.ofNat 32 d]⟩) ∧
  ∀ (s : State) (f : FaultReport),
    let counted := { s with unreported := min (s.unreported + 1) 255 }
    (s.sink = none → s.raiseFault f = counted) ∧
    ∀ k, s.sink = some k →
      (s.live k = false → s.raiseFault f = counted) ∧
      (s.live k = true →
        let r := s.route .fault k f.message
        (r.1 = .handedOff ∨ r.1 = .resident ∨ r.1 = .spilled → s.raiseFault f = r.2) ∧
        (r.1 = .broken ∨ r.1 = .noSpace ∨ r.1 = .full → s.raiseFault f = counted))

/-! ### The frame stream -/

/-- FRAME_READ (R33, R34, R35, R65, R66, R169): in LOADING the next word of the check-out, and after the last the port in
RUN with the resume result and the bound message presented; 0 in every other state and at a held port. Every access at a
port that is not held reloads the lease; that one at a held port does not is log 13. The word read is log 5; that the returned
slot becomes the head of the free list is log 6. -/
def Obligations.FrameReadsStreamTheCheckOut : Prop :=
  ∀ (p : Port) (e : ByteEnables) (s : State), s.quiet = true →
    (s.rstLow = true ∨ (s.port p).prstLow = true →
      exec (.frameRead p e) s = .next (s.withPort p { s.port p with readData := 0#32 })) ∧
    (s.Served p →
      ((s.port p).state.code ≠ 3#3 →
        exec (.frameRead p e) s = .next (s.withPort p { s.takenUnit p with readData := 0#32 })) ∧
      ∀ h n k t, (s.port p).state = .loading h n k → s.task? h = some t →
        let word (i : Nat) : Word := s.frames[h.slot][i]?.getD 0#32
        let w := if k = 0 then descriptorWord h t.frameLength t.extension
          else if k ≤ t.frameLength then word (k - 1) else word (32 + (k - t.frameLength - 1))
        let u := { s.takenUnit p with readData := w }
        (k + 1 < n → exec (.frameRead p e) s = .next (s.withPort p { u with state := .loading h n (k + 1) })) ∧
        (n ≤ k + 1 →
          let v := { u with state := .run h false, resume := 0#24 ++ t.resume.result.code }
          (t.bound = none → ∃ r, exec (.frameRead p e) s = .next r ∧
            r.Reevaluated ((s.withTask h { t with resume := .ok }).withPort p { v with
              msgHdr := 0#32
              msgSrc := 0#32
              msgData := Vector.replicate 6 0#32 })) ∧
          ∀ x, t.bound = some x → ∃ r, exec (.frameRead p e) s = .next r ∧
            r.Reevaluated (State.retryDeferred { ((s.withPort p v).presentSlot p .bound h x).withTask h { t with
              resume := .ok
              bound := none } with poolFree := x :: s.poolFree })))

/-- FRAME_WRITE (R34, R39, R40, R169) in SAVING for a check-in or a seed: the descriptor judged on its handle and L, each
further word placed, the final word committed (`CommitStoresTheFrame`); no effect in every other state and at a held port.
Every access at a port that is not held reloads the lease, and that one at a held port does not is log 13; the bytes not
enabled are zero. -/
def Obligations.FrameWritesFillTheStagingBuffer : Prop :=
  ∀ (p : Port) (e : ByteEnables) (word : Word) (s : State), s.quiet = true →
    (s.rstLow = true ∨ (s.port p).prstLow = true → exec (.frameWrite p e word) s = .next s) ∧
    (s.Served p →
      ((s.port p).state.code ≠ 5#3 → exec (.frameWrite p e word) s = .next (s.taken p)) ∧
      ∀ kind h staging t, (s.port p).state = .saving kind h staging → s.task? h = some t →
        let w := maskBytes e word
        (staging = [] →
          (w.extractLsb' 0 16 = h.bits → (w.extractLsb' 16 6).toNat = t.frameLength →
            exec (.frameWrite p e word) s = .next (s.withPort p { s.takenUnit p with state := .saving kind h [w] })) ∧
          (w.extractLsb' 0 16 ≠ h.bits ∨ (w.extractLsb' 16 6).toNat ≠ t.frameLength →
            exec (.frameWrite p e word) s = .next (s.answered p .badArg 0#16))) ∧
        ∀ d ws, staging = d :: ws →
          let n := if d.getLsbD 24 then 17 + t.frameLength else 1 + t.frameLength
          (staging.length + 1 < n → exec (.frameWrite p e word) s =
            .next (s.withPort p { s.takenUnit p with state := .saving kind h (staging ++ [w]) })) ∧
          (n ≤ staging.length + 1 → exec (.frameWrite p e word) s =
            .next ((s.taken p).commit p kind h t (d.getLsbD 24) (staging ++ [w]))))

/-- Commit (R41, R42, R48): the staging words replace the body, and the extension when its flag is set; the port goes to
IDLE with OK and the handle; the disposition is applied, or the seeding port cleared. -/
def Obligations.CommitStoresTheFrame : Prop :=
  ∀ (s : State) (p : Port) (h : Handle) (t : Task) (ext : Bool) (staging : List Word), s.Linked →
    s.task? h = some t →
    let frame : Vector Word 48 := Vector.ofFn fun i =>
      if i.val < t.frameLength then staging.getD (i.val + 1) 0#32
      else if ext = true ∧ 32 ≤ i.val then staging.getD (t.frameLength + 1 + (i.val - 32)) 0#32
      else s.frames[h.slot][i]
    let stored := { s with frames := s.frames.set h.slot frame }.withPort p
      { (s.port p).answer .ok h.bits with state := .idle }
    let w := { t with extension := ext }
    (∀ q, t.state = .saving q .readyHead false ∨ t.state = .saving q .readyHead true →
      (s.commit p .checkIn h t ext staging).Reevaluated (stored.offered h w (h :: s.ready[t.priority]))) ∧
    (∀ q, t.state = .saving q .readyTail false ∨ t.state = .saving q .readyTail true ∨
      t.state = .saving q .recvWait true ∨ t.state = .saving q .sendWait true ∨ t.state = .saving q .sleeping true →
      (s.commit p .checkIn h t ext staging).Reevaluated (stored.offered h w (s.ready[t.priority] ++ [h]))) ∧
    (∀ q, t.state = .saving q .recvWait false →
      (s.commit p .checkIn h t ext staging).Reevaluated (stored.withTask h { w with state := .recvWait })) ∧
    (∀ q, t.state = .saving q .sendWait false →
      (s.commit p .checkIn h t ext staging).Reevaluated (stored.withTask h { w with state := .sendWait })) ∧
    (∀ q, t.state = .saving q .sleeping false →
      (s.commit p .checkIn h t ext staging).Reevaluated (stored.withTask h { w with state := .sleeping })) ∧
    s.commit p .seed h t ext staging = stored.withTask h { w with seedPort := none }

/-! ### The window registers -/

/-- ATTN_WRITE (R181) and REGISTER_WRITE (R170, R171): the bytes not enabled are written as zero; ATTN clears DONE, EVICTED
and OVERRUN; ARG0 to ARG3, OUTDATA0 to OUTDATA5 and CFGIDX keep the word; a read-only register and an empty offset keep
theirs; nothing happens at a held port (R169). That these writes act in LOST too is log 25. -/
def Obligations.RegisterWritesKeepTheWord : Prop :=
  (∀ (e : ByteEnables) (word : Word) (i : Nat), i < 32 →
    (maskBytes e word).getLsbD i = (e.getLsbD (i / 8) && word.getLsbD i)) ∧
  ∀ (p : Port) (a : BitVec 5) (e : ByteEnables) (word : Word) (s : State),
    let w := maskBytes e word
    let u := s.port p
    (s.rstLow = true ∨ u.prstLow = true → exec (.attnWrite p e word) s = .next s ∧
      (a ∉ [0x00#5, 0x07#5, 0x08#5, 0x19#5] → exec (.registerWrite p a e word) s = .next s)) ∧
    (s.rstLow = false → u.prstLow = false →
      exec (.attnWrite p e word) s = .next (s.withPort p { u with
        done := u.done && !w.getLsbD 0
        evicted := u.evicted && !w.getLsbD 2
        overrun := u.overrun && !w.getLsbD 3 }) ∧
      (∀ n : Fin 4, a.toNat = 0x01 + n.val →
        exec (.registerWrite p a e word) s = .next (s.withPort p { u with args := u.args.set n w })) ∧
      (∀ n : Fin 6, a.toNat = 0x11 + n.val →
        exec (.registerWrite p a e word) s = .next (s.withPort p { u with outData := u.outData.set n w })) ∧
      (a.toNat = 0x18 → exec (.registerWrite p a e word) s = .next (s.withPort p { u with cfgIdx := w })) ∧
      (a.toNat ∈ [0x05, 0x06] ∨ (0x09 ≤ a.toNat ∧ a.toNat ≤ 0x10) ∨ a.toNat = 0x17 ∨ 0x1A ≤ a.toNat →
        exec (.registerWrite p a e word) s = .next s))

/-- CFGVAL_WRITE (R194): in CONFIG from an IDLE port the item that CFGIDX selects is written, a field without regard to the
bits outside it, a whole word only within its range; no effect in SERVICE, from another port state, for an index that selects
nothing and at a held port. -/
def Obligations.ConfigurationWritesAreJudgedByTheItem : Prop :=
  ∀ (p : Port) (e : ByteEnables) (word : Word) (s : State),
    let w := maskBytes e word
    let index := (s.port p).cfgIdx.toNat
    (s.rstLow = true ∨ (s.port p).prstLow = true ∨ s.phase = .service ∨ (s.port p).state ≠ .idle →
      exec (.cfgvalWrite p e word) s = .next s) ∧
    (s.rstLow = false → (s.port p).prstLow = false → s.phase = .config → (s.port p).state = .idle →
      (index = 0x00 → exec (.cfgvalWrite p e word) s =
        .next { s with items := { s.items with supervisors := w.extractLsb' 0 4 } }) ∧
      (index = 0x01 → w.toNat ≤ 32 → exec (.cfgvalWrite p e word) s =
        .next { s with items := { s.items with reserve := w.toNat } }) ∧
      (index = 0x02 → exec (.cfgvalWrite p e word) s =
        .next { s with items := { s.items with tickLine := w.getLsbD 0 } }) ∧
      (index = 0x03 → 1 ≤ w.toNat → w.toNat ≤ 65536 → exec (.cfgvalWrite p e word) s =
        .next { s with items := { s.items with divider := w.toNat } }) ∧
      (∀ q : Port, index = 0x04 + q.val → w.toNat ≤ 65535 → exec (.cfgvalWrite p e word) s =
        .next { s with items := { s.items with leases := s.items.leases.set q w.toNat } }) ∧
      (index = 0x08 → exec (.cfgvalWrite p e word) s =
        .next { s with items := { s.items with backingEnable := w.getLsbD 0 } }) ∧
      (index = 0x09 → 1 ≤ w.toNat → w.toNat ≤ 255 → exec (.cfgvalWrite p e word) s =
        .next { s with items := { s.items with backingTimeout := w.toNat } }) ∧
      (index = 0x0A → exec (.cfgvalWrite p e word) s =
        .next { s with items := { s.items with polarity := w.extractLsb' 0 16 } }) ∧
      ((index = 0x01 ∧ 32 < w.toNat) ∨ (index = 0x03 ∧ (w.toNat = 0 ∨ 65536 < w.toNat)) ∨
        (4 ≤ index ∧ index ≤ 7 ∧ 65535 < w.toNat) ∨ (index = 0x09 ∧ (w.toNat = 0 ∨ 255 < w.toNat)) ∨ 0x0A < index →
        exec (.cfgvalWrite p e word) s = .next s))

/-- The configuration in SERVICE (R195): a write to CFGVAL has no effect, a read returns the value in force, and nothing but
a part reset changes an item; no loss of a port touches its supervisor membership or its configured lease. -/
def Obligations.ConfigurationIsFrozenInService : Prop :=
  ∀ s : State, s.phase = .service →
    (∀ p e word, exec (.cfgvalWrite p e word) s = .next s) ∧
    (∀ p, s.held p = false → s.readWindow p 0x19#5 = itemWord s.items (s.port p).cfgIdx) ∧
    (∀ c t, (∀ n, c ≠ .partReset n) → exec c s = .next t → t.items = s.items) ∧
    (∀ t, s.pending = [] → step s = .next t → t.items = s.items) ∧
    ∀ p cause, (s.losePort p cause).items = s.items

/-- What a read of the window returns (R169, R170, R173, R174, R193): PSTATE, ATTN and PARTINFO field by field, CFGVAL by the
layout of R176, and every other register as it stands; ATTNn (R181). That CFGVAL reads 0 while RST# is low is log 26. -/
def Obligations.WindowReadsShowTheRegisters : Prop :=
  ∀ (p : Port) (s : State),
    let u := s.port p
    let info := s.readWindow p 0x17#5
    (info.extractLsb' 0 2 = BitVec.ofNat 2 p.val ∧ info.extractLsb' 2 6 = 0#6 ∧
      info.getLsbD 8 = decide (s.phase = .service) ∧ info.extractLsb' 9 7 = 0#7 ∧
      info.extractLsb' 16 16 = 0x4640#16) ∧
    (s.attnPin p = (u.done || u.preempt || u.evicted || u.overrun || u.lost)) ∧
    (s.rstLow = true ∨ u.prstLow = true → ∀ a, a ≠ 0x17#5 → s.readWindow p a = 0#32) ∧
    (s.rstLow = false → u.prstLow = false →
      let pstate := s.readWindow p 0x06#5
      let attn := s.readWindow p 0x07#5
      pstate.extractLsb' 0 3 = (match u.state with
        | .offline => 0#3
        | .idle => 1#3
        | .await => 2#3
        | .loading _ _ _ => 3#3
        | .run _ _ => 4#3
        | .saving _ _ _ => 5#3
        | .lost => 6#3) ∧
      pstate.getLsbD 3 = (match u.state with
        | .await => true
        | .run _ receiving => receiving
        | _ => false) ∧
      pstate.getLsbD 4 = (match u.state with
        | .saving .seed _ _ => true
        | _ => false) ∧
      pstate.extractLsb' 5 11 = 0#11 ∧
      pstate.extractLsb' 16 16 = (match u.state with
        | .loading h _ _ => h.bits
        | .run h _ => h.bits
        | .saving _ h _ => h.bits
        | _ => 0#16) ∧
      attn.getLsbD 0 = u.done ∧ attn.getLsbD 1 = u.preempt ∧ attn.getLsbD 2 = u.evicted ∧
      attn.getLsbD 3 = u.overrun ∧ attn.getLsbD 4 = u.lost ∧ attn.extractLsb' 5 27 = 0#27 ∧
      s.readWindow p 0x00#5 = 0#32 ∧ s.readWindow p 0x05#5 = u.result ∧ s.readWindow p 0x09#5 = u.msgHdr ∧
      s.readWindow p 0x0A#5 = u.msgSrc ∧ s.readWindow p 0x18#5 = u.cfgIdx ∧ s.readWindow p 0x1A#5 = u.resume ∧
      (∀ n : Fin 4, s.readWindow p (0x01#5 + BitVec.ofNat 5 n.val) = u.args[n]) ∧
      (∀ n : Fin 6, s.readWindow p (0x0B#5 + BitVec.ofNat 5 n.val) = u.msgData[n]) ∧
      (∀ n : Fin 6, s.readWindow p (0x11#5 + BitVec.ofNat 5 n.val) = u.outData[n]) ∧
      (∀ a : BitVec 5, 0x1A#5 < a → s.readWindow p a = 0#32) ∧
      s.readWindow p 0x19#5 = (match u.cfgIdx.toNat with
        | 0x00 => 0#28 ++ s.items.supervisors
        | 0x01 => BitVec.ofNat 32 s.items.reserve
        | 0x02 => if s.items.tickLine then 1#32 else 0#32
        | 0x03 => BitVec.ofNat 32 s.items.divider
        | 0x04 => BitVec.ofNat 32 s.items.leases[0]
        | 0x05 => BitVec.ofNat 32 s.items.leases[1]
        | 0x06 => BitVec.ofNat 32 s.items.leases[2]
        | 0x07 => BitVec.ofNat 32 s.items.leases[3]
        | 0x08 => if s.items.backingEnable then 1#32 else 0#32
        | 0x09 => BitVec.ofNat 32 s.items.backingTimeout
        | 0x0A => 0#16 ++ s.items.polarity
        | _ => 0#32))

/-! ### Part reset -/

/-- PART_RESET, the fall of RST# (R29, R51, R76, R105, R129, R143, R156, R157, R190, R199): every field of the state; and
PART_RESET_RELEASE, its rise, with the levels the lines then have (R145). What is kept of the queue, the PRSTn# pins, the
frames, the pool's words and the external memory is log 12; the other values the spec does not give are log 11. The words
that a burst had moved when RST# fell are log 7. The levels of the rise are log 14; that a fall of a line already low and a rise
of one already high change nothing is log 19. -/
def Obligations.PartResetClearsThePart : Prop :=
  ∀ (s : State),
    (∀ n, s.rstLow = true → exec (.partReset n) s = .next s) ∧
    (∀ n, s.rstLow = false → exec (.partReset n) s = .next {
      pending := s.pending
      rstLow := true
      phase := .config
      items := {
        supervisors := 1#4, reserve := 8, tickLine := false, divider := 1000, leases := Vector.replicate 4 0
        backingEnable := false, backingTimeout := 4, polarity := 0#16 }
      tasks := Vector.replicate 64 ⟨1#10, none⟩
      freeSlots := List.finRange 64
      frames := s.frames
      ready := Vector.replicate 16 []
      awaitList := []
      inboxes := Vector.replicate 64 Inbox.default
      pool := (s.landWords n).pool
      poolFree := List.finRange 512
      jobs := []
      burst := none
      deferred := []
      backing := (s.landWords n).backing
      tickCounter := 0#32
      dividerCount := 0
      deadlines := []
      expiring := false
      lines := Vector.replicate 16 { level := false, binding := none, pending := none, count := 0, missed := 0 }
      sink := none
      unreported := 0
      ports := Vector.ofFn fun p => {
        prstLow := (s.port p).prstLow, state := .offline, lease := 0, leaseTick := .none, preempt := false
        done := false, evicted := false, overrun := false, lost := false, args := Vector.replicate 4 0#32
        result := 0#32, resume := 0#32, msgHdr := 0#32, msgSrc := 0#32, msgData := Vector.replicate 6 0#32
        outData := Vector.replicate 6 0#32, cfgIdx := 0#32, readData := 0#32 } }) ∧
    ∀ levels, (s.rstLow = false → exec (.partResetRelease levels) s = .next s) ∧
      (s.rstLow = true → exec (.partResetRelease levels) s = .next { s with
        rstLow := false
        lines := Vector.ofFn fun l => { s.lines[l] with level := levels.getLsbD l.val } })

/-! ### Ticks and what they end -/

/-- A tick (R121, R130 to R132, R184), from the TICK line or from the divider: the counter, the lease of every port that is
not in `late`, and the attempt timer of the burst in progress; a tick reached is left for an expiry command (log 3). What an
earlier tick left is made first (R131). Without SERVICE, with the other source, and while RST# is low there is no tick. That
DIVIDER_EXPIRY brings its tick whatever the divider count was is log 4; that the attempt timer always advances with the
counter, and that no other request comes between the tick at one holder and at another, is log 28. -/
def Obligations.TicksReachTheirThreeHolders : Prop :=
  ∀ (late : BitVec 4) (s : State),
    let counts (p : Port) : Bool := match (s.port p).state with
      | .loading _ _ _ => true
      | .run _ _ => true
      | .saving _ _ _ => true
      | _ => false
    let ticked := { s with
      tickCounter := s.tickCounter + 1#32
      burst := s.burst.map fun b => { b with
        timer := b.timer + 1
        timedOut := decide (s.items.backingTimeout ≤ b.timer + 1) }
      ports := Vector.ofFn fun p =>
        if late.getLsbD p.val then { s.port p with leaseTick := .owed }
        else if 0 < s.items.leases[p] ∧ counts p = true then
          if (s.port p).lease ≤ 1 then { s.port p with lease := 0, leaseTick := .expired }
          else { s.port p with lease := (s.port p).lease - 1 }
        else s.port p }
    (s.rstLow = true ∨ s.phase = .config → exec (.tickLineEdge late) s = .next s ∧
      exec (.dividerExpiry late) s = .next s) ∧
    (s.items.tickLine = false → exec (.tickLineEdge late) s = .next s) ∧
    (s.items.tickLine = true → exec (.dividerExpiry late) s = .next s) ∧
    (s.rstLow = false → s.phase = .service → s.items.tickLine = true →
      (s.DeadlinesOrdered → exec (.tickLineEdge late) s = exec (.tickLineEdge late) s.settle) ∧
      (s.quiet = true → exec (.tickLineEdge late) s = .next ticked)) ∧
    (s.rstLow = false → s.phase = .service → s.items.tickLine = false →
      (s.DeadlinesOrdered → exec (.dividerExpiry late) s = exec (.dividerExpiry late) s.settle) ∧
      (s.quiet = true → exec (.dividerExpiry late) s = .next { ticked with dividerCount := 0 }))

/-- DEADLINE_EXPIRY (R136 to R139): the head entry, when it is due, leaves the list and ends its task's wait with OK for a
sleep and TIMEOUT otherwise. LEASE_EXPIRY (R184, R187): what the last tick left at the port. BACKING_TIMEOUT (R121): an
attempt whose timer reached the timeout ends with ERROR. A command with nothing due has no effect; once a tick's deadline
expiries have begun the rest of them come first (R131; log 3). The words that memory and the part had exchanged when the
timeout came are log 7, and what they change `FailedAttemptsAreRetriedOnceThenBreakTheInbox` states. -/
def Obligations.ExpiriesEndWhatTheTickLeft : Prop :=
  ∀ s : State,
    (s.deadlines = [] → exec .deadlineExpiry s = .next s) ∧
    (∀ e rest, s.deadlines = e :: rest →
      (e.expiry ≠ s.tickCounter → exec .deadlineExpiry s = .next s) ∧
      (e.expiry = s.tickCounter → ∃ r : State, exec .deadlineExpiry s = .next { r with expiring := r.deadlineDue } ∧
        r.Reevaluated (s.endWait e.task (match e.kind with
          | .sleep => .ok
          | .recv => .timeout
          | .send => .timeout)))) ∧
    (s.expiring = true →
      (∀ p, exec (.leaseExpiry p) s = exec (.leaseExpiry p) s.settleDeadlines) ∧
      ∀ n, exec (.backingTimeout n) s = exec (.backingTimeout n) s.settleDeadlines) ∧
    (s.expiring = false →
      (∀ p : Port,
        let u := s.port p
        ((s.port p).leaseTick = .none → exec (.leaseExpiry p) s = .next s) ∧
        (u.leaseTick = .expired → exec (.leaseExpiry p) s = .next (s.losePort p .lease)) ∧
        (u.leaseTick = .owed →
          (s.items.leases[p] = 0 ∨ u.state.code ∉ [3#3, 4#3, 5#3] →
            exec (.leaseExpiry p) s = .next (s.withPort p { u with leaseTick := .none })) ∧
          (s.items.leases[p] ≠ 0 → u.state.code ∈ [3#3, 4#3, 5#3] →
            (1 < u.lease → exec (.leaseExpiry p) s =
              .next (s.withPort p { u with lease := u.lease - 1, leaseTick := .none })) ∧
            (u.lease ≤ 1 → exec (.leaseExpiry p) s =
              .next ((s.withPort p { u with lease := 0, leaseTick := .expired }).losePort p .lease))))) ∧
      ∀ n : Taken,
        (s.burst = none → exec (.backingTimeout n) s = .next s) ∧
        ∀ b, s.burst = some b →
          (b.timedOut = false → exec (.backingTimeout n) s = .next s) ∧
          (b.timedOut = true → exec (.backingTimeout n) s = .next (s.landWords n).attemptError))

/-! ### The backing engine -/

/-- BURST_ATTEMPT_START (R109, R119 to R121): with a job and no attempt in progress, BREQ rises for the job's burst. That it
has no effect with an attempt in progress or an empty queue is log 9; that the address is formed from the base page and the
capacity the job was made with is log 8. -/
def Obligations.BurstAttemptsDriveTheJobsPosition : Prop :=
  ∀ s : State, s.quiet = true →
    (∀ b, s.burst = some b → exec .burstAttemptStart s = .next s) ∧
    (s.jobs = [] → exec .burstAttemptStart s = .next s) ∧
    ∀ j rest, s.jobs = j :: rest → s.burst = none →
      let position := if j.capacity = 0 then 0 else (j.position + j.burstsDone) % j.capacity
      exec .burstAttemptStart s = .next { s with
        burst := some {
          write := decide (j.kind = .spill)
          address := BitVec.ofNat 32 (j.basePage * 4096 + position * 32)
          timer := 0
          timedOut := false } }

/-- The end of an attempt with ERROR (R122), by BERR or by the timeout (R121): BERR is ignored with no attempt in progress
(R119); the end of an unowned job (R126); the second attempt after the first; BROKEN after the second, with the changes of
R123 and the consequences of R124 in their order. What a tick left is made before a BERR is taken (log 3). The words that a
write attempt put into memory, or a read attempt into the job's slot (R120), before the ERROR are log 7; that a returned
slot becomes the head of the free list is log 6. -/
def Obligations.FailedAttemptsAreRetriedOnceThenBreakTheInbox : Prop :=
  ∀ s : State,
    (s.quiet = true → s.burst = none → ∀ n, exec (.burstAttemptError n) s = .next s) ∧
    ∀ (n : Taken) b j rest, s.burst = some b → s.jobs = j :: rest →
      let h := j.inbox
      let ib := s.inbox h
      let d := ib.spilling + ib.backed + ib.refilling
      let brought := match n.data with
        | .stored => Memory.readImage s.backing b.address.toNat
        | .driven words => words
      let landed := s.landWords n
      let idle := { landed with burst := none }
      (s.quiet = true → exec (.burstAttemptError n) s = .next landed.attemptError) ∧
      (s.expiring = false → b.timedOut = true → exec (.backingTimeout n) s = .next landed.attemptError) ∧
      (∀ x xs, b.write = false → j.slots = x :: xs → landed = { s with
        pool := s.pool.set x (Vector.ofFn fun k => if k.val < n.count.val then brought[k] else s.pool[x][k]) }) ∧
      (∀ x xs, b.write = true → j.slots = x :: xs → landed = { s with
        backing := Memory.writeWords s.backing b.address.toNat (s.pool[x].toList.take n.count.val) }) ∧
      (s.live h = false ∨ j.resetMark = true → landed.attemptError =
        { idle with jobs := rest, poolFree := j.slots ++ s.poolFree }.retryDeferred) ∧
      (s.live h = true → j.resetMark = false →
        (j.attempt = .first → landed.attemptError = { idle with jobs := { j with attempt := .second } :: rest }) ∧
        (j.attempt = .second →
          let broken : State := { idle.withInbox h { ib with
              broken := true
              spilling := 0
              backed := 0
              refilling := 0
              writeIndex := 0
              readIndex := 0
              lostCount := min (ib.lostCount + d) 65535 } with
            jobs := rest.filter fun k : Job => k.inbox ≠ h
            poolFree := j.slots ++ (rest.filter fun k : Job => k.inbox = h).flatMap Job.slots ++ s.poolFree
            deferred := s.deferred.filter fun k => k ≠ h
            lines := Vector.ofFn fun l => match s.lines[l].pending with
              | some pe => if pe.place = .inbox ∧ pe.target = h ∧ (ib.nextSeq - 1#16 - pe.seq).toNat < d then
                  { s.lines[l] with
                    missed := min (s.lines[l].missed + s.lines[l].count) 65535
                    count := 0
                    pending := none }
                else s.lines[l]
              | none => s.lines[l] }
          landed.attemptError.Reevaluated
            (((broken.completeReceive h .broken).releaseSenders h).raiseFault (.backingFailed h d)).retryDeferred))

/-- The completion of a pending RECEIVE (R99, R103, R124): the mark is cleared, the owner's port leaves its busy state, and
RESULT and DONE are set; nothing without a pending RECEIVE. With OK (R114 step 2) the head is delivered first, and sender
release and the refill check follow. The 0 in bits 31 to 16 with EMPTY is log 10; that the returned slot becomes the head of the
free list is log 6. -/
def Obligations.PendingReceivesAreCompleted : Prop :=
  ∀ (s : State) (h : Handle) (code : ResultCode),
    ((s.inbox h).recvPending = false → s.completeReceive h code = s ∧ s.answerReceive h = s) ∧
    ∀ q t, (s.inbox h).recvPending = true → s.task? h = some t → t.state = .running q →
      s.completeReceive h code = (s.withInbox h { s.inbox h with recvPending := false }).withPort q
        { (s.port q).answer code 0#16 with state := .run h false, done := true } ∧
      ∀ x rest, (s.inbox h).resident = x :: rest →
        let shown := s.presentSlot q .inbox h x
        let freed := { shown.withInbox h { s.inbox h with resident := rest } with poolFree := x :: s.poolFree }.retryDeferred
        s.answerReceive h = ((freed.completeReceive h .ok).releaseSenders h).refillCheck h

/-- SPILL_BURST_COMPLETE (R112, R126): the image stands in memory; the slot is returned and the position is backed, with the
refill check and one retry; or the job ends unowned. With no attempt in progress it is ignored (R119); with a read attempt in
progress that is log 9. That the returned slot becomes the head of the free list is log 6. -/
def Obligations.SpillCompletionBacksTheMessage : Prop :=
  ∀ s : State, s.quiet = true →
    (s.burst = none ∨ s.jobs = [] → exec .spillBurstComplete s = .next s) ∧
    ∀ b j rest, s.burst = some b → s.jobs = j :: rest →
      (b.write = false → exec .spillBurstComplete s = .next s) ∧
      ∀ x xs, b.write = true → j.slots = x :: xs →
        let address := b.address.toNat
        let memory := Memory.writeWords s.backing address s.pool[x].toList
        let ib := s.inbox j.inbox
        let ended := { s with backing := memory, burst := none, jobs := rest, poolFree := j.slots ++ s.poolFree }
        (s.BackingCanonical → Memory.readImage memory address = s.pool[x] ∧
          ∀ a, a < address ∨ address + 32 ≤ a → Memory.read memory a = Memory.read s.backing a) ∧
        (s.live j.inbox = false ∨ j.resetMark = true → exec .spillBurstComplete s = .next ended.retryDeferred) ∧
        (s.live j.inbox = true → j.resetMark = false → exec .spillBurstComplete s =
          .next ((ended.withInbox j.inbox { ib with
            spilling := ib.spilling - 1
            backed := ib.backed + 1 }).refillCheck j.inbox).retryDeferred)

/-- REFILL_BURST_COMPLETE (R114, R120, R126): the words stand in the job's slot; a valid image joins the tail of the resident
list, answers a pending RECEIVE, and ends the job after its last burst; an image that fails the check is an ERROR of the
attempt; an unowned job ends. With no attempt in progress it is ignored (R119); with a write attempt in progress that is log
9. Whether the words are those stored or driven ones is log 7; that a returned slot becomes the head of the free list is log
6. -/
def Obligations.RefillCompletionBringsTheMessageBack : Prop :=
  ∀ (s : State) (data : ReadData), s.quiet = true →
    (s.burst = none ∨ s.jobs = [] → exec (.refillBurstComplete data) s = .next s) ∧
    ∀ b j rest, s.burst = some b → s.jobs = j :: rest →
      (b.write = true → exec (.refillBurstComplete data) s = .next s) ∧
      (b.write = false →
        let h := j.inbox
        let ib := s.inbox h
        let i := match data with
          | .stored => Memory.readImage s.backing b.address.toNat
          | .driven words => words
        let kind := i[0].extractLsb' 0 8
        let valid := (kind = 1#8 ∨ kind = 2#8 ∨ kind = 3#8) ∧ (i[0].extractLsb' 8 8).toNat ≤ 6
        (s.live h = false ∨ j.resetMark = true → exec (.refillBurstComplete data) s =
          .next (State.retryDeferred { s with
            burst := none
            pool := match j.slots with
              | x :: _ => s.pool.set x i
              | [] => s.pool
            jobs := rest
            poolFree := j.slots ++ s.poolFree })) ∧
        ∀ x xs, s.live h = true → j.resetMark = false → j.slots = x :: xs →
          (¬ valid → exec (.refillBurstComplete data) s =
            exec (.burstAttemptError .nothing) { s with pool := s.pool.set x i }) ∧
          (valid →
            let job := { j with slots := xs, burstsDone := j.burstsDone + 1, attempt := .first }
            let brought := { s.withInbox h { ib with
                resident := ib.resident ++ [x]
                refilling := ib.refilling - 1 } with
              burst := none
              pool := s.pool.set x i
              jobs := job :: rest }
            let u := brought.answerReceive h
            ∃ r, exec (.refillBurstComplete data) s = .next r ∧
              (j.burstsDone + 1 ≠ j.count → r.Reevaluated u) ∧
              (j.burstsDone + 1 = j.count →
                r.Reevaluated (State.refillCheck { u with jobs := u.jobs.tail } h).retryDeferred)))

/-! ### What every command keeps, and the invariants -/

/-- The frame of every well-formed command (log 16) over the kinds of state listed here and no others: the queue, RST#, the
phase, the configuration, the backing memory, the tick counter, the divider count, the frame store, the free-slot list, the
generations, the sink, the line levels, the inbox limits and regions, and the PRSTn# pins. Each may be changed by the
commands named in its line only; a command that is named may leave it. Over all states the frame rests on choices of the
model. The queue and that a command leaves it alone are the model's (log 1). The backing line rests on log 7's DESIGN
CHOICE: an attempt's timeout that is made before another command (log 3), and not by BACKING_TIMEOUT, leaves none of the
attempt's words in memory. A completion without its attempt is ignored (log 9). The divider count stands still while
commands are taken (log 2) and DIVIDER_EXPIRY sets it to 0 (log 4). PART_RESET keeps the PRSTn# pins and the frame store
(log 12). The level of a line changes with EVENT_EDGE and the two acts of RST# (log 14). -/
def Obligations.WhatEachCommandMayChange : Prop :=
  ∀ (c : Instr) (s t : State), c.wellFormed = true → exec c s = .next t →
    t.pending = s.pending ∧
    (match c with
      | .partReset _ | .partResetRelease _ => True
      | _ => t.rstLow = s.rstLow) ∧
    (match c with
      | .partReset _ | .beginService _ => True
      | _ => t.phase = s.phase) ∧
    (match c with
      | .partReset _ | .cfgvalWrite _ _ _ => True
      | _ => t.items = s.items) ∧
    (match c with
      | .partReset _ | .spillBurstComplete | .burstAttemptError _ | .backingTimeout _ => True
      | _ => t.backing = s.backing) ∧
    (match c with
      | .partReset _ | .beginService _ | .tickLineEdge _ | .dividerExpiry _ => True
      | _ => t.tickCounter = s.tickCounter) ∧
    (match c with
      | .partReset _ | .beginService _ | .dividerExpiry _ => True
      | _ => t.dividerCount = s.dividerCount) ∧
    (match c with
      | .create _ | .frameWrite _ _ _ => True
      | _ => t.frames = s.frames) ∧
    (match c with
      | .partReset _ | .create _ | .destroy _ => True
      | _ => t.freeSlots = s.freeSlots) ∧
    (match c with
      | .partReset _ | .destroy _ => True
      | _ => ∀ k : Slot, t.tasks[k].gen = s.tasks[k].gen) ∧
    (match c with
      | .partReset _ | .setSink _ | .destroy _ => True
      | _ => t.sink = s.sink) ∧
    (match c with
      | .partReset _ | .partResetRelease _ | .eventEdge _ _ => True
      | _ => ∀ l : Line, t.lines[l].level = s.lines[l].level) ∧
    (match c with
      | .partReset _ | .create _ | .setInbox _ => True
      | _ => ∀ k : Slot, t.inboxes[k].limit = s.inboxes[k].limit ∧ t.inboxes[k].mark = s.inboxes[k].mark ∧
          t.inboxes[k].basePage = s.inboxes[k].basePage ∧ t.inboxes[k].capacity = s.inboxes[k].capacity) ∧
    (match c with
      | .portReset _ | .portResetRelease _ => True
      | _ => ∀ q, (t.port q).prstLow = (s.port q).prstLow)

/-- Every step keeps the backing memory in its canonical form, which is the model's (log 7), and the deadline list in the
order of R134 and empty in CONFIG (R143). -/
def Obligations.EveryStepKeepsTheMemoryAndTheDeadlines : Prop :=
  (∀ s t : State, s.BackingCanonical → step s = .next t → t.BackingCanonical) ∧
  ∀ s t : State, s.DeadlinesOrdered → step s = .next t → t.DeadlinesOrdered

/-- Every step keeps the records and lists in agreement (R2, R3, R5, R47, R52, R57). -/
def Obligations.EveryStepKeepsTheLinks : Prop :=
  ∀ s t : State, s.Linked → step s = .next t → t.Linked

/-- Every step keeps the line records in range with a count exactly while a message is pending (R144), the sender lists and
pending sends in agreement (R91), every pool slot in one place (R106), and the counts of every inbox those of its jobs and
within its limits (R79), with a burst in progress the current job's (R119, R120), as long as no handle comes round to a job
left by DESTROY (R2). What a run needs beside these rules to keep them is said with `State.SlotsPlaced`. -/
def Obligations.EveryStepKeepsThePoolAndTheLists : Prop :=
  (∀ s t : State, s.LinesCounted → step s = .next t → t.LinesCounted) ∧
  (∀ s t : State, s.Linked → s.SendersAgree → step s = .next t → t.SendersAgree) ∧
  (∀ s t : State, s.Linked → s.SlotsPlaced → step s = .next t → t.SlotsPlaced) ∧
  ∀ s t : State, s.Linked → s.SlotsPlaced → s.CountsAgree → s.NoJobComesRound → step s = .next t → t.CountsAgree

/-- Every step leaves every preempt flag as R72 states (R73): in a state whose records and lists agree, the flag of a port is
set exactly when the port is in RUN with a live current task and a READY task of higher priority has the port in its
affinity. In any state the condition speaks of the handles in the ready queues above the current task's priority. -/
def Obligations.EveryStepKeepsTheFlags : Prop :=
  (∀ (s : State) (p : Port), s.preemptCondition p = true ↔
    ∃ h r t, (s.port p).state = .run h r ∧ s.task? h = some t ∧
      ∃ q : Priority, t.priority < q ∧ ∃ k ∈ s.ready[q], ∃ v, s.task? k = some v ∧ v.affinity.getLsbD p.val = true) ∧
  (∀ s : State, s.Linked → s.Flagged → ∀ p : Port, (s.port p).preempt = true ↔
    ∃ h r t, (s.port p).state = .run h r ∧ s.task? h = some t ∧
      ∃ k v, s.task? k = some v ∧ v.state = .ready ∧ t.priority < v.priority ∧ v.affinity.getLsbD p.val = true) ∧
  ∀ s t : State, s.Linked → s.Flagged → step s = .next t → t.Flagged

/-- The state after reset satisfies what every step keeps. Its backing memory lists nothing, which is the canonical form of a
memory of zeros (log 7, log 11). -/
def Obligations.ResetSatisfiesTheInvariants : Prop :=
  State.reset.Linked ∧ State.reset.Flagged ∧ State.reset.BackingCanonical ∧ State.reset.DeadlinesOrdered ∧
    State.reset.LinesCounted ∧ State.reset.SendersAgree ∧ State.reset.SlotsPlaced ∧ State.reset.CountsAgree

end
end

