-- ==== Sys2Proof/Laws/State.lean ====
section
/-! SUPPORT. One lemma per field per update of the state's records, so that no proof unfolds a record update. -/

namespace Sys2Proof.Machine

/-- Reading a vector after one entry is set. -/
theorem getElem_set_fin {α : Type} {n : Nat} (v : Vector α n) (i j : Fin n) (a : α) :
    (v.set i a)[j] = if j = i then a else v[j] := by
  simp only [Fin.getElem_fin, Vector.getElem_set, Fin.ext_iff, eq_comm]

namespace State

variable (s : State) (p q : Port) (h : Handle) (l : Line) (x : PoolSlot)

/-! ### One port unit -/

@[simp] theorem modPort_pending (f : PortUnit → PortUnit) : (s.modPort p f).pending = s.pending := rfl
@[simp] theorem modPort_rstLow (f : PortUnit → PortUnit) : (s.modPort p f).rstLow = s.rstLow := rfl
@[simp] theorem modPort_phase (f : PortUnit → PortUnit) : (s.modPort p f).phase = s.phase := rfl
@[simp] theorem modPort_items (f : PortUnit → PortUnit) : (s.modPort p f).items = s.items := rfl
@[simp] theorem modPort_tasks (f : PortUnit → PortUnit) : (s.modPort p f).tasks = s.tasks := rfl
@[simp] theorem modPort_freeSlots (f : PortUnit → PortUnit) : (s.modPort p f).freeSlots = s.freeSlots := rfl
@[simp] theorem modPort_frames (f : PortUnit → PortUnit) : (s.modPort p f).frames = s.frames := rfl
@[simp] theorem modPort_ready (f : PortUnit → PortUnit) : (s.modPort p f).ready = s.ready := rfl
@[simp] theorem modPort_awaitList (f : PortUnit → PortUnit) : (s.modPort p f).awaitList = s.awaitList := rfl
@[simp] theorem modPort_inboxes (f : PortUnit → PortUnit) : (s.modPort p f).inboxes = s.inboxes := rfl
@[simp] theorem modPort_pool (f : PortUnit → PortUnit) : (s.modPort p f).pool = s.pool := rfl
@[simp] theorem modPort_poolFree (f : PortUnit → PortUnit) : (s.modPort p f).poolFree = s.poolFree := rfl
@[simp] theorem modPort_jobs (f : PortUnit → PortUnit) : (s.modPort p f).jobs = s.jobs := rfl
@[simp] theorem modPort_burst (f : PortUnit → PortUnit) : (s.modPort p f).burst = s.burst := rfl
@[simp] theorem modPort_deferred (f : PortUnit → PortUnit) : (s.modPort p f).deferred = s.deferred := rfl
@[simp] theorem modPort_backing (f : PortUnit → PortUnit) : (s.modPort p f).backing = s.backing := rfl
@[simp] theorem modPort_tickCounter (f : PortUnit → PortUnit) : (s.modPort p f).tickCounter = s.tickCounter := rfl
@[simp] theorem modPort_dividerCount (f : PortUnit → PortUnit) : (s.modPort p f).dividerCount = s.dividerCount := rfl
@[simp] theorem modPort_deadlines (f : PortUnit → PortUnit) : (s.modPort p f).deadlines = s.deadlines := rfl
@[simp] theorem modPort_expiring (f : PortUnit → PortUnit) : (s.modPort p f).expiring = s.expiring := rfl
@[simp] theorem modPort_lines (f : PortUnit → PortUnit) : (s.modPort p f).lines = s.lines := rfl
@[simp] theorem modPort_sink (f : PortUnit → PortUnit) : (s.modPort p f).sink = s.sink := rfl
@[simp] theorem modPort_unreported (f : PortUnit → PortUnit) : (s.modPort p f).unreported = s.unreported := rfl

/-! ### One task record -/

@[simp] theorem modTask_pending (f : Task → Task) : (s.modTask h f).pending = s.pending := by unfold modTask; split <;> rfl
@[simp] theorem modTask_rstLow (f : Task → Task) : (s.modTask h f).rstLow = s.rstLow := by unfold modTask; split <;> rfl
@[simp] theorem modTask_phase (f : Task → Task) : (s.modTask h f).phase = s.phase := by unfold modTask; split <;> rfl
@[simp] theorem modTask_items (f : Task → Task) : (s.modTask h f).items = s.items := by unfold modTask; split <;> rfl
@[simp] theorem modTask_freeSlots (f : Task → Task) : (s.modTask h f).freeSlots = s.freeSlots := by unfold modTask; split <;> rfl
@[simp] theorem modTask_frames (f : Task → Task) : (s.modTask h f).frames = s.frames := by unfold modTask; split <;> rfl
@[simp] theorem modTask_ready (f : Task → Task) : (s.modTask h f).ready = s.ready := by unfold modTask; split <;> rfl
@[simp] theorem modTask_awaitList (f : Task → Task) : (s.modTask h f).awaitList = s.awaitList := by unfold modTask; split <;> rfl
@[simp] theorem modTask_inboxes (f : Task → Task) : (s.modTask h f).inboxes = s.inboxes := by unfold modTask; split <;> rfl
@[simp] theorem modTask_pool (f : Task → Task) : (s.modTask h f).pool = s.pool := by unfold modTask; split <;> rfl
@[simp] theorem modTask_poolFree (f : Task → Task) : (s.modTask h f).poolFree = s.poolFree := by unfold modTask; split <;> rfl
@[simp] theorem modTask_jobs (f : Task → Task) : (s.modTask h f).jobs = s.jobs := by unfold modTask; split <;> rfl
@[simp] theorem modTask_burst (f : Task → Task) : (s.modTask h f).burst = s.burst := by unfold modTask; split <;> rfl
@[simp] theorem modTask_deferred (f : Task → Task) : (s.modTask h f).deferred = s.deferred := by unfold modTask; split <;> rfl
@[simp] theorem modTask_backing (f : Task → Task) : (s.modTask h f).backing = s.backing := by unfold modTask; split <;> rfl
@[simp] theorem modTask_tickCounter (f : Task → Task) : (s.modTask h f).tickCounter = s.tickCounter := by unfold modTask; split <;> rfl
@[simp] theorem modTask_dividerCount (f : Task → Task) : (s.modTask h f).dividerCount = s.dividerCount := by unfold modTask; split <;> rfl
@[simp] theorem modTask_deadlines (f : Task → Task) : (s.modTask h f).deadlines = s.deadlines := by unfold modTask; split <;> rfl
@[simp] theorem modTask_expiring (f : Task → Task) : (s.modTask h f).expiring = s.expiring := by unfold modTask; split <;> rfl
@[simp] theorem modTask_lines (f : Task → Task) : (s.modTask h f).lines = s.lines := by unfold modTask; split <;> rfl
@[simp] theorem modTask_sink (f : Task → Task) : (s.modTask h f).sink = s.sink := by unfold modTask; split <;> rfl
@[simp] theorem modTask_unreported (f : Task → Task) : (s.modTask h f).unreported = s.unreported := by unfold modTask; split <;> rfl
@[simp] theorem modTask_ports (f : Task → Task) : (s.modTask h f).ports = s.ports := by unfold modTask; split <;> rfl

/-! ### One inbox record -/

@[simp] theorem modInbox_pending (f : Inbox → Inbox) : (s.modInbox h f).pending = s.pending := rfl
@[simp] theorem modInbox_rstLow (f : Inbox → Inbox) : (s.modInbox h f).rstLow = s.rstLow := rfl
@[simp] theorem modInbox_phase (f : Inbox → Inbox) : (s.modInbox h f).phase = s.phase := rfl
@[simp] theorem modInbox_items (f : Inbox → Inbox) : (s.modInbox h f).items = s.items := rfl
@[simp] theorem modInbox_tasks (f : Inbox → Inbox) : (s.modInbox h f).tasks = s.tasks := rfl
@[simp] theorem modInbox_freeSlots (f : Inbox → Inbox) : (s.modInbox h f).freeSlots = s.freeSlots := rfl
@[simp] theorem modInbox_frames (f : Inbox → Inbox) : (s.modInbox h f).frames = s.frames := rfl
@[simp] theorem modInbox_ready (f : Inbox → Inbox) : (s.modInbox h f).ready = s.ready := rfl
@[simp] theorem modInbox_awaitList (f : Inbox → Inbox) : (s.modInbox h f).awaitList = s.awaitList := rfl
@[simp] theorem modInbox_pool (f : Inbox → Inbox) : (s.modInbox h f).pool = s.pool := rfl
@[simp] theorem modInbox_poolFree (f : Inbox → Inbox) : (s.modInbox h f).poolFree = s.poolFree := rfl
@[simp] theorem modInbox_jobs (f : Inbox → Inbox) : (s.modInbox h f).jobs = s.jobs := rfl
@[simp] theorem modInbox_burst (f : Inbox → Inbox) : (s.modInbox h f).burst = s.burst := rfl
@[simp] theorem modInbox_deferred (f : Inbox → Inbox) : (s.modInbox h f).deferred = s.deferred := rfl
@[simp] theorem modInbox_backing (f : Inbox → Inbox) : (s.modInbox h f).backing = s.backing := rfl
@[simp] theorem modInbox_tickCounter (f : Inbox → Inbox) : (s.modInbox h f).tickCounter = s.tickCounter := rfl
@[simp] theorem modInbox_dividerCount (f : Inbox → Inbox) : (s.modInbox h f).dividerCount = s.dividerCount := rfl
@[simp] theorem modInbox_deadlines (f : Inbox → Inbox) : (s.modInbox h f).deadlines = s.deadlines := rfl
@[simp] theorem modInbox_expiring (f : Inbox → Inbox) : (s.modInbox h f).expiring = s.expiring := rfl
@[simp] theorem modInbox_lines (f : Inbox → Inbox) : (s.modInbox h f).lines = s.lines := rfl
@[simp] theorem modInbox_sink (f : Inbox → Inbox) : (s.modInbox h f).sink = s.sink := rfl
@[simp] theorem modInbox_unreported (f : Inbox → Inbox) : (s.modInbox h f).unreported = s.unreported := rfl
@[simp] theorem modInbox_ports (f : Inbox → Inbox) : (s.modInbox h f).ports = s.ports := rfl

/-! ### One line record -/

@[simp] theorem modLine_pending (f : LineRec → LineRec) : (s.modLine l f).pending = s.pending := rfl
@[simp] theorem modLine_rstLow (f : LineRec → LineRec) : (s.modLine l f).rstLow = s.rstLow := rfl
@[simp] theorem modLine_phase (f : LineRec → LineRec) : (s.modLine l f).phase = s.phase := rfl
@[simp] theorem modLine_items (f : LineRec → LineRec) : (s.modLine l f).items = s.items := rfl
@[simp] theorem modLine_tasks (f : LineRec → LineRec) : (s.modLine l f).tasks = s.tasks := rfl
@[simp] theorem modLine_freeSlots (f : LineRec → LineRec) : (s.modLine l f).freeSlots = s.freeSlots := rfl
@[simp] theorem modLine_frames (f : LineRec → LineRec) : (s.modLine l f).frames = s.frames := rfl
@[simp] theorem modLine_ready (f : LineRec → LineRec) : (s.modLine l f).ready = s.ready := rfl
@[simp] theorem modLine_awaitList (f : LineRec → LineRec) : (s.modLine l f).awaitList = s.awaitList := rfl
@[simp] theorem modLine_inboxes (f : LineRec → LineRec) : (s.modLine l f).inboxes = s.inboxes := rfl
@[simp] theorem modLine_pool (f : LineRec → LineRec) : (s.modLine l f).pool = s.pool := rfl
@[simp] theorem modLine_poolFree (f : LineRec → LineRec) : (s.modLine l f).poolFree = s.poolFree := rfl
@[simp] theorem modLine_jobs (f : LineRec → LineRec) : (s.modLine l f).jobs = s.jobs := rfl
@[simp] theorem modLine_burst (f : LineRec → LineRec) : (s.modLine l f).burst = s.burst := rfl
@[simp] theorem modLine_deferred (f : LineRec → LineRec) : (s.modLine l f).deferred = s.deferred := rfl
@[simp] theorem modLine_backing (f : LineRec → LineRec) : (s.modLine l f).backing = s.backing := rfl
@[simp] theorem modLine_tickCounter (f : LineRec → LineRec) : (s.modLine l f).tickCounter = s.tickCounter := rfl
@[simp] theorem modLine_dividerCount (f : LineRec → LineRec) : (s.modLine l f).dividerCount = s.dividerCount := rfl
@[simp] theorem modLine_deadlines (f : LineRec → LineRec) : (s.modLine l f).deadlines = s.deadlines := rfl
@[simp] theorem modLine_expiring (f : LineRec → LineRec) : (s.modLine l f).expiring = s.expiring := rfl
@[simp] theorem modLine_sink (f : LineRec → LineRec) : (s.modLine l f).sink = s.sink := rfl
@[simp] theorem modLine_unreported (f : LineRec → LineRec) : (s.modLine l f).unreported = s.unreported := rfl
@[simp] theorem modLine_ports (f : LineRec → LineRec) : (s.modLine l f).ports = s.ports := rfl

/-! ### All line records -/

@[simp] theorem mapLines_pending (f : LineRec → LineRec) : (s.mapLines f).pending = s.pending := by simp only [mapLines]
@[simp] theorem mapLines_rstLow (f : LineRec → LineRec) : (s.mapLines f).rstLow = s.rstLow := by simp only [mapLines]
@[simp] theorem mapLines_phase (f : LineRec → LineRec) : (s.mapLines f).phase = s.phase := by simp only [mapLines]
@[simp] theorem mapLines_items (f : LineRec → LineRec) : (s.mapLines f).items = s.items := by simp only [mapLines]
@[simp] theorem mapLines_tasks (f : LineRec → LineRec) : (s.mapLines f).tasks = s.tasks := by simp only [mapLines]
@[simp] theorem mapLines_freeSlots (f : LineRec → LineRec) : (s.mapLines f).freeSlots = s.freeSlots := by simp only [mapLines]
@[simp] theorem mapLines_frames (f : LineRec → LineRec) : (s.mapLines f).frames = s.frames := by simp only [mapLines]
@[simp] theorem mapLines_ready (f : LineRec → LineRec) : (s.mapLines f).ready = s.ready := by simp only [mapLines]
@[simp] theorem mapLines_awaitList (f : LineRec → LineRec) : (s.mapLines f).awaitList = s.awaitList := by simp only [mapLines]
@[simp] theorem mapLines_inboxes (f : LineRec → LineRec) : (s.mapLines f).inboxes = s.inboxes := by simp only [mapLines]
@[simp] theorem mapLines_pool (f : LineRec → LineRec) : (s.mapLines f).pool = s.pool := by simp only [mapLines]
@[simp] theorem mapLines_poolFree (f : LineRec → LineRec) : (s.mapLines f).poolFree = s.poolFree := by simp only [mapLines]
@[simp] theorem mapLines_jobs (f : LineRec → LineRec) : (s.mapLines f).jobs = s.jobs := by simp only [mapLines]
@[simp] theorem mapLines_burst (f : LineRec → LineRec) : (s.mapLines f).burst = s.burst := by simp only [mapLines]
@[simp] theorem mapLines_deferred (f : LineRec → LineRec) : (s.mapLines f).deferred = s.deferred := by simp only [mapLines]
@[simp] theorem mapLines_backing (f : LineRec → LineRec) : (s.mapLines f).backing = s.backing := by simp only [mapLines]
@[simp] theorem mapLines_tickCounter (f : LineRec → LineRec) : (s.mapLines f).tickCounter = s.tickCounter := by simp only [mapLines]
@[simp] theorem mapLines_dividerCount (f : LineRec → LineRec) : (s.mapLines f).dividerCount = s.dividerCount := by simp only [mapLines]
@[simp] theorem mapLines_deadlines (f : LineRec → LineRec) : (s.mapLines f).deadlines = s.deadlines := by simp only [mapLines]
@[simp] theorem mapLines_expiring (f : LineRec → LineRec) : (s.mapLines f).expiring = s.expiring := by simp only [mapLines]
@[simp] theorem mapLines_sink (f : LineRec → LineRec) : (s.mapLines f).sink = s.sink := by simp only [mapLines]
@[simp] theorem mapLines_unreported (f : LineRec → LineRec) : (s.mapLines f).unreported = s.unreported := by simp only [mapLines]
@[simp] theorem mapLines_ports (f : LineRec → LineRec) : (s.mapLines f).ports = s.ports := by simp only [mapLines]

/-! ### Pool slots -/

@[simp] theorem writeSlot_pending (i : Image) : (s.writeSlot x i).pending = s.pending := rfl
@[simp] theorem writeSlot_rstLow (i : Image) : (s.writeSlot x i).rstLow = s.rstLow := rfl
@[simp] theorem writeSlot_phase (i : Image) : (s.writeSlot x i).phase = s.phase := rfl
@[simp] theorem writeSlot_items (i : Image) : (s.writeSlot x i).items = s.items := rfl
@[simp] theorem writeSlot_tasks (i : Image) : (s.writeSlot x i).tasks = s.tasks := rfl
@[simp] theorem writeSlot_freeSlots (i : Image) : (s.writeSlot x i).freeSlots = s.freeSlots := rfl
@[simp] theorem writeSlot_frames (i : Image) : (s.writeSlot x i).frames = s.frames := rfl
@[simp] theorem writeSlot_ready (i : Image) : (s.writeSlot x i).ready = s.ready := rfl
@[simp] theorem writeSlot_awaitList (i : Image) : (s.writeSlot x i).awaitList = s.awaitList := rfl
@[simp] theorem writeSlot_inboxes (i : Image) : (s.writeSlot x i).inboxes = s.inboxes := rfl
@[simp] theorem writeSlot_poolFree (i : Image) : (s.writeSlot x i).poolFree = s.poolFree := rfl
@[simp] theorem writeSlot_jobs (i : Image) : (s.writeSlot x i).jobs = s.jobs := rfl
@[simp] theorem writeSlot_burst (i : Image) : (s.writeSlot x i).burst = s.burst := rfl
@[simp] theorem writeSlot_deferred (i : Image) : (s.writeSlot x i).deferred = s.deferred := rfl
@[simp] theorem writeSlot_backing (i : Image) : (s.writeSlot x i).backing = s.backing := rfl
@[simp] theorem writeSlot_tickCounter (i : Image) : (s.writeSlot x i).tickCounter = s.tickCounter := rfl
@[simp] theorem writeSlot_dividerCount (i : Image) : (s.writeSlot x i).dividerCount = s.dividerCount := rfl
@[simp] theorem writeSlot_deadlines (i : Image) : (s.writeSlot x i).deadlines = s.deadlines := rfl
@[simp] theorem writeSlot_expiring (i : Image) : (s.writeSlot x i).expiring = s.expiring := rfl
@[simp] theorem writeSlot_lines (i : Image) : (s.writeSlot x i).lines = s.lines := rfl
@[simp] theorem writeSlot_sink (i : Image) : (s.writeSlot x i).sink = s.sink := rfl
@[simp] theorem writeSlot_unreported (i : Image) : (s.writeSlot x i).unreported = s.unreported := rfl
@[simp] theorem writeSlot_ports (i : Image) : (s.writeSlot x i).ports = s.ports := rfl

/-! ### Pool slots put back -/

@[simp] theorem freeSlotList_pending (xs : List PoolSlot) : (s.freeSlotList xs).pending = s.pending := rfl
@[simp] theorem freeSlotList_rstLow (xs : List PoolSlot) : (s.freeSlotList xs).rstLow = s.rstLow := rfl
@[simp] theorem freeSlotList_phase (xs : List PoolSlot) : (s.freeSlotList xs).phase = s.phase := rfl
@[simp] theorem freeSlotList_items (xs : List PoolSlot) : (s.freeSlotList xs).items = s.items := rfl
@[simp] theorem freeSlotList_tasks (xs : List PoolSlot) : (s.freeSlotList xs).tasks = s.tasks := rfl
@[simp] theorem freeSlotList_freeSlots (xs : List PoolSlot) : (s.freeSlotList xs).freeSlots = s.freeSlots := rfl
@[simp] theorem freeSlotList_frames (xs : List PoolSlot) : (s.freeSlotList xs).frames = s.frames := rfl
@[simp] theorem freeSlotList_ready (xs : List PoolSlot) : (s.freeSlotList xs).ready = s.ready := rfl
@[simp] theorem freeSlotList_awaitList (xs : List PoolSlot) : (s.freeSlotList xs).awaitList = s.awaitList := rfl
@[simp] theorem freeSlotList_inboxes (xs : List PoolSlot) : (s.freeSlotList xs).inboxes = s.inboxes := rfl
@[simp] theorem freeSlotList_pool (xs : List PoolSlot) : (s.freeSlotList xs).pool = s.pool := rfl
@[simp] theorem freeSlotList_jobs (xs : List PoolSlot) : (s.freeSlotList xs).jobs = s.jobs := rfl
@[simp] theorem freeSlotList_burst (xs : List PoolSlot) : (s.freeSlotList xs).burst = s.burst := rfl
@[simp] theorem freeSlotList_deferred (xs : List PoolSlot) : (s.freeSlotList xs).deferred = s.deferred := rfl
@[simp] theorem freeSlotList_backing (xs : List PoolSlot) : (s.freeSlotList xs).backing = s.backing := rfl
@[simp] theorem freeSlotList_tickCounter (xs : List PoolSlot) : (s.freeSlotList xs).tickCounter = s.tickCounter := rfl
@[simp] theorem freeSlotList_dividerCount (xs : List PoolSlot) : (s.freeSlotList xs).dividerCount = s.dividerCount := rfl
@[simp] theorem freeSlotList_deadlines (xs : List PoolSlot) : (s.freeSlotList xs).deadlines = s.deadlines := rfl
@[simp] theorem freeSlotList_expiring (xs : List PoolSlot) : (s.freeSlotList xs).expiring = s.expiring := rfl
@[simp] theorem freeSlotList_lines (xs : List PoolSlot) : (s.freeSlotList xs).lines = s.lines := rfl
@[simp] theorem freeSlotList_sink (xs : List PoolSlot) : (s.freeSlotList xs).sink = s.sink := rfl
@[simp] theorem freeSlotList_unreported (xs : List PoolSlot) : (s.freeSlotList xs).unreported = s.unreported := rfl
@[simp] theorem freeSlotList_ports (xs : List PoolSlot) : (s.freeSlotList xs).ports = s.ports := rfl

/-! ### Updates that are one change of a port unit -/

@[simp] theorem setResult_eq (c : ResultCode) (v : BitVec 16) :
    s.setResult p c v = s.modPort p fun u => { u with result := resultWord c v } := rfl
@[simp] theorem setPortState_eq (st : PortState) :
    s.setPortState p st = s.modPort p fun u => { u with state := st } := rfl
@[simp] theorem setArgs_eq (a : Vector Word 4) :
    s.setArgs p a = s.modPort p fun u => { u with args := a } := rfl
@[simp] theorem reloadLease_eq :
    s.reloadLease p = s.modPort p fun u => { u with lease := s.items.leases[p] } := rfl
@[simp] theorem setOverrun_eq : s.setOverrun p = s.modPort p fun u => { u with overrun := true } := rfl
@[simp] theorem setReadData_eq (w : Word) :
    s.setReadData p w = s.modPort p fun u => { u with readData := w } := rfl
@[simp] theorem announce_eq :
    s.announce p h = s.modPort p fun u => { u with result := resultWord .ok h.bits, done := true } := rfl
@[simp] theorem evalPreemptAt_eq :
    s.evalPreemptAt p = s.modPort p fun u => { u with preempt := s.preemptCondition p } := rfl
@[simp] theorem presentResume_eq (r : Resume) :
    s.presentResume p r = s.modPort p fun u => { u with resume := 0#24 ++ r.result.code } := rfl
@[simp] theorem evictPort_eq (c : ResultCode) : s.evictPort p c =
    s.modPort p fun u => { u with state := .idle, result := resultWord c 0#16, evicted := true } := rfl
@[simp] theorem setTaskState_eq (st : TaskState) :
    s.setTaskState h st = s.modTask h fun t => { t with state := st } := rfl
@[simp] theorem clearReceivePending_eq :
    s.clearReceivePending h = s.modInbox h fun ib => { ib with recvPending := false } := rfl

/-! ### Reading a record after an update of one -/

@[simp] theorem modPort_port (f : PortUnit → PortUnit) :
    (s.modPort p f).port q = if q = p then f (s.port p) else s.port q := by
  by_cases hq : q = p
  · subst hq; simp [modPort, port]
  · simp only [modPort, port, if_neg hq]
    exact Vector.getElem_set_ne _ _ fun e => hq (Fin.ext e.symm)

theorem mapLines_lines (f : LineRec → LineRec) : (s.mapLines f).lines = Vector.ofFn fun k => f s.lines[k] := by
  simp only [mapLines]

theorem mapLines_line (f : LineRec → LineRec) : (s.mapLines f).lines[l] = f s.lines[l] := by
  rw [Fin.getElem_fin]
  simp only [mapLines_lines, Vector.getElem_ofFn]

/-- Two changes of one port unit are one change. -/
theorem modPort_modPort (f g : PortUnit → PortUnit) :
    (s.modPort p f).modPort p g = s.modPort p fun u => g (f u) := by
  simp [modPort, port]

/-- A change of a port unit, written out. -/
theorem modPort_eq (f : PortUnit → PortUnit) : s.modPort p f = { s with ports := s.ports.set p (f (s.port p)) } :=
  rfl

/-! ### Views of one record group -/

variable {s} {t : State}

theorem task?_congr (e : t.tasks = s.tasks) (h : Handle) : t.task? h = s.task? h := by unfold task?; rw [e]
theorem live_congr (e : t.tasks = s.tasks) (h : Handle) : t.live h = s.live h := by
  unfold live; rw [task?_congr e]
theorem eligible_congr (e : t.tasks = s.tasks) (h : Handle) (p : Port) : t.eligible h p = s.eligible h p := by
  unfold eligible; rw [task?_congr e]
theorem inbox_congr (e : t.inboxes = s.inboxes) (h : Handle) : t.inbox h = s.inbox h := by unfold inbox; rw [e]
theorem port_congr (e : t.ports = s.ports) (p : Port) : t.port p = s.port p := by unfold port; rw [e]

variable (s)

/-! ### Views that an update of another record leaves alone -/

@[simp] theorem modPort_task? (f : PortUnit → PortUnit) : (s.modPort p f).task? h = s.task? h := task?_congr (modPort_tasks ..) h
@[simp] theorem modInbox_task? (f : Inbox → Inbox) (k : Handle) : (s.modInbox k f).task? h = s.task? h := task?_congr (modInbox_tasks ..) h
@[simp] theorem modLine_task? (f : LineRec → LineRec) : (s.modLine l f).task? h = s.task? h := task?_congr (modLine_tasks ..) h
@[simp] theorem mapLines_task? (f : LineRec → LineRec) : (s.mapLines f).task? h = s.task? h := task?_congr (mapLines_tasks ..) h
@[simp] theorem writeSlot_task? (i : Image) : (s.writeSlot x i).task? h = s.task? h := task?_congr (writeSlot_tasks ..) h
@[simp] theorem freeSlotList_task? (xs : List PoolSlot) : (s.freeSlotList xs).task? h = s.task? h := task?_congr (freeSlotList_tasks ..) h
@[simp] theorem modPort_live (f : PortUnit → PortUnit) : (s.modPort p f).live h = s.live h := live_congr (modPort_tasks ..) h
@[simp] theorem modInbox_live (f : Inbox → Inbox) (k : Handle) : (s.modInbox k f).live h = s.live h := live_congr (modInbox_tasks ..) h
@[simp] theorem modLine_live (f : LineRec → LineRec) : (s.modLine l f).live h = s.live h := live_congr (modLine_tasks ..) h
@[simp] theorem mapLines_live (f : LineRec → LineRec) : (s.mapLines f).live h = s.live h := live_congr (mapLines_tasks ..) h
@[simp] theorem writeSlot_live (i : Image) : (s.writeSlot x i).live h = s.live h := live_congr (writeSlot_tasks ..) h
@[simp] theorem freeSlotList_live (xs : List PoolSlot) : (s.freeSlotList xs).live h = s.live h := live_congr (freeSlotList_tasks ..) h
@[simp] theorem modPort_eligible (f : PortUnit → PortUnit) : (s.modPort p f).eligible h q = s.eligible h q := eligible_congr (modPort_tasks ..) h q
@[simp] theorem modInbox_eligible (f : Inbox → Inbox) (k : Handle) : (s.modInbox k f).eligible h q = s.eligible h q := eligible_congr (modInbox_tasks ..) h q
@[simp] theorem modLine_eligible (f : LineRec → LineRec) : (s.modLine l f).eligible h q = s.eligible h q := eligible_congr (modLine_tasks ..) h q
@[simp] theorem mapLines_eligible (f : LineRec → LineRec) : (s.mapLines f).eligible h q = s.eligible h q := eligible_congr (mapLines_tasks ..) h q
@[simp] theorem writeSlot_eligible (i : Image) : (s.writeSlot x i).eligible h q = s.eligible h q := eligible_congr (writeSlot_tasks ..) h q
@[simp] theorem freeSlotList_eligible (xs : List PoolSlot) : (s.freeSlotList xs).eligible h q = s.eligible h q := eligible_congr (freeSlotList_tasks ..) h q
@[simp] theorem modPort_inbox (f : PortUnit → PortUnit) : (s.modPort p f).inbox h = s.inbox h := inbox_congr (modPort_inboxes ..) h
@[simp] theorem modLine_inbox (f : LineRec → LineRec) : (s.modLine l f).inbox h = s.inbox h := inbox_congr (modLine_inboxes ..) h
@[simp] theorem mapLines_inbox (f : LineRec → LineRec) : (s.mapLines f).inbox h = s.inbox h := inbox_congr (mapLines_inboxes ..) h
@[simp] theorem writeSlot_inbox (i : Image) : (s.writeSlot x i).inbox h = s.inbox h := inbox_congr (writeSlot_inboxes ..) h
@[simp] theorem freeSlotList_inbox (xs : List PoolSlot) : (s.freeSlotList xs).inbox h = s.inbox h := inbox_congr (freeSlotList_inboxes ..) h
@[simp] theorem modTask_inbox (f : Task → Task) (k : Handle) : (s.modTask k f).inbox h = s.inbox h := inbox_congr (modTask_inboxes ..) h
@[simp] theorem modInbox_port (f : Inbox → Inbox) (k : Handle) : (s.modInbox k f).port q = s.port q := port_congr (modInbox_ports ..) q
@[simp] theorem modLine_port (f : LineRec → LineRec) : (s.modLine l f).port q = s.port q := port_congr (modLine_ports ..) q
@[simp] theorem mapLines_port (f : LineRec → LineRec) : (s.mapLines f).port q = s.port q := port_congr (mapLines_ports ..) q
@[simp] theorem writeSlot_port (i : Image) : (s.writeSlot x i).port q = s.port q := port_congr (writeSlot_ports ..) q
@[simp] theorem freeSlotList_port (xs : List PoolSlot) : (s.freeSlotList xs).port q = s.port q := port_congr (freeSlotList_ports ..) q
@[simp] theorem modTask_port (f : Task → Task) (k : Handle) : (s.modTask k f).port q = s.port q := port_congr (modTask_ports ..) q

end State
end Sys2Proof.Machine
end

