-- ==== Sys2Proof/Laws/Steady.lean ====
section
/-! SUPPORT. What every consequence of a request leaves alone, said once: `Steady` for any shared operation, `Reacts`
for one that also leaves the burst and the port units' own registers alone. The frame of each command follows from the
lemmas here. -/

namespace Sys2Proof.Machine

/-- The part of a task slot that no consequence changes: generation, and the fields of R4. -/
def TaskSlot.identity (x : TaskSlot) : BitVec 10 × Option (Priority × BitVec 4 × Nat × Bool) :=
  (x.gen, x.task.map fun t => (t.priority, t.affinity, t.frameLength, t.extension))

/-- The limits of an inbox. -/
def Inbox.limits (ib : Inbox) : Nat × Nat × Nat × Nat := (ib.limit, ib.mark, ib.basePage, ib.capacity)

/-- What no command but BEGIN_SERVICE changes: the queue, the reset lines, the phase, the configuration, the backing
memory, the tick source and the event lines' levels. -/
structure KeepsPart (s t : State) : Prop where
  pending : t.pending = s.pending
  rstLow : t.rstLow = s.rstLow
  phase : t.phase = s.phase
  items : t.items = s.items
  backing : t.backing = s.backing
  tickCounter : t.tickCounter = s.tickCounter
  dividerCount : t.dividerCount = s.dividerCount
  level : ∀ l : Line, t.lines[l].level = s.lines[l].level
  prstLow : ∀ p, (t.port p).prstLow = (s.port p).prstLow

/-- What a consequence of a request leaves of the state. -/
structure Steady (s t : State) : Prop extends KeepsPart s t where
  identity : ∀ k : Slot, t.tasks[k].identity = s.tasks[k].identity
  freeSlots : t.freeSlots = s.freeSlots
  frames : t.frames = s.frames
  limits : ∀ k : Slot, t.inboxes[k].limits = s.inboxes[k].limits
  deadlines : t.deadlines.Sublist s.deadlines
  sink : t.sink = s.sink

/-- What the hand-off of a task or of a message leaves of a port unit: all but its state, its preempt flag, DONE,
RESULT and the message registers. -/
def PortUnit.own (u : PortUnit) : PortUnit :=
  { u with state := .offline, preempt := false, done := false, result := 0#32, msgHdr := 0#32, msgSrc := 0#32
           msgData := Vector.replicate 6 0#32 }

/-- A consequence that leaves the burst, the expiries of the tick and the port units' own registers alone. -/
structure Reacts (s t : State) : Prop extends Steady s t where
  burst : t.burst = s.burst
  expiring : t.expiring = s.expiring
  own : ∀ p, (t.port p).own = (s.port p).own

namespace KeepsPart

theorem refl (s : State) : KeepsPart s s := ⟨rfl, rfl, rfl, rfl, rfl, rfl, rfl, fun _ => rfl, fun _ => rfl⟩

theorem trans {s t u : State} (a : KeepsPart s t) (b : KeepsPart t u) : KeepsPart s u :=
  ⟨b.pending.trans a.pending, b.rstLow.trans a.rstLow, b.phase.trans a.phase, b.items.trans a.items,
   b.backing.trans a.backing, b.tickCounter.trans a.tickCounter, b.dividerCount.trans a.dividerCount,
   fun l => (b.level l).trans (a.level l), fun p => (b.prstLow p).trans (a.prstLow p)⟩

end KeepsPart

namespace Steady

theorem refl (s : State) : Steady s s :=
  ⟨.refl s, fun _ => rfl, rfl, rfl, fun _ => rfl, .refl _, rfl⟩

theorem trans {s t u : State} (a : Steady s t) (b : Steady t u) : Steady s u :=
  ⟨a.toKeepsPart.trans b.toKeepsPart, fun k => (b.identity k).trans (a.identity k),
   b.freeSlots.trans a.freeSlots, b.frames.trans a.frames, fun k => (b.limits k).trans (a.limits k),
   b.deadlines.trans a.deadlines, b.sink.trans a.sink⟩

end Steady

namespace Reacts

theorem refl (s : State) : Reacts s s := ⟨.refl s, rfl, rfl, fun _ => rfl⟩

theorem trans {s t u : State} (a : Reacts s t) (b : Reacts t u) : Reacts s u :=
  ⟨a.toSteady.trans b.toSteady, b.burst.trans a.burst, b.expiring.trans a.expiring,
   fun p => (b.own p).trans (a.own p)⟩

end Reacts

/-! ### Slots and handles -/

theorem TaskSlot.identity_gen {x y : TaskSlot} (e : x.identity = y.identity) : x.gen = y.gen :=
  congrArg Prod.fst e

theorem TaskSlot.identity_isSome {x y : TaskSlot} (e : x.identity = y.identity) :
    x.task.isSome = y.task.isSome := by
  have := congrArg (fun z => z.2.isSome) e
  simpa [TaskSlot.identity] using this

/-- A consequence of a request keeps every live handle live and every stale handle stale. -/
theorem Steady.live {s t : State} (r : Steady s t) (h : Handle) : t.live h = s.live h := by
  have e := r.identity h.slot
  unfold State.live State.task?
  rw [TaskSlot.identity_gen e]
  split
  · exact TaskSlot.identity_isSome e
  · rfl

/-! ### Primitive updates -/

namespace State
variable (s : State)

theorem modPort_steady_at {p : Port} {f : PortUnit → PortUnit} (hf : (f (s.port p)).prstLow = (s.port p).prstLow) :
    Steady s (s.modPort p f) where
  pending := rfl
  rstLow := rfl
  phase := rfl
  items := rfl
  identity _ := rfl
  freeSlots := rfl
  frames := rfl
  limits _ := rfl
  backing := rfl
  tickCounter := rfl
  dividerCount := rfl
  deadlines := .refl _
  level _ := rfl
  sink := rfl
  prstLow q := by
    rw [modPort_port]
    split
    · subst_vars; exact hf
    · rfl

theorem modPort_steady {p : Port} {f : PortUnit → PortUnit} (hf : ∀ u, (f u).prstLow = u.prstLow) :
    Steady s (s.modPort p f) := s.modPort_steady_at (hf _)

theorem modPort_reacts_at {p : Port} {f : PortUnit → PortUnit} (hf : (f (s.port p)).own = (s.port p).own) :
    Reacts s (s.modPort p f) where
  toSteady := s.modPort_steady_at (by
    change (f (s.port p)).own.prstLow = (s.port p).own.prstLow
    rw [hf])
  burst := rfl
  expiring := rfl
  own q := by
    rw [modPort_port]
    split
    · subst_vars; exact hf
    · rfl

theorem modPort_reacts {p : Port} {f : PortUnit → PortUnit} (hf : ∀ u, (f u).own = u.own) :
    Reacts s (s.modPort p f) := s.modPort_reacts_at (hf _)

/-- A state that differs from `s` in records no consequence is barred from, and has the same slots, inboxes, lines and
port units, is one that `s` reacts to. -/
theorem reacts_of {t : State} (pending : t.pending = s.pending := by rfl) (rstLow : t.rstLow = s.rstLow := by rfl)
    (phase : t.phase = s.phase := by rfl) (items : t.items = s.items := by rfl)
    (tasks : t.tasks = s.tasks := by rfl) (freeSlots : t.freeSlots = s.freeSlots := by rfl)
    (frames : t.frames = s.frames := by rfl) (inboxes : t.inboxes = s.inboxes := by rfl)
    (backing : t.backing = s.backing := by rfl) (tickCounter : t.tickCounter = s.tickCounter := by rfl)
    (dividerCount : t.dividerCount = s.dividerCount := by rfl)
    (deadlines : t.deadlines.Sublist s.deadlines := by exact List.Sublist.refl _)
    (lines : t.lines = s.lines := by rfl) (sink : t.sink = s.sink := by rfl) (ports : t.ports = s.ports := by rfl)
    (burst : t.burst = s.burst := by rfl) (expiring : t.expiring = s.expiring := by rfl) : Reacts s t where
  pending := pending
  rstLow := rstLow
  phase := phase
  items := items
  identity k := by rw [tasks]
  freeSlots := freeSlots
  frames := frames
  limits k := by rw [inboxes]
  backing := backing
  tickCounter := tickCounter
  dividerCount := dividerCount
  deadlines := deadlines
  level l := by rw [lines]
  sink := sink
  prstLow p := by rw [port_congr ports]
  burst := burst
  expiring := expiring
  own p := by rw [port_congr ports]

theorem modTask_reacts_at {h : Handle} {f : Task → Task}
    (hf : ∀ t, s.task? h = some t → ((f t).priority, (f t).affinity, (f t).frameLength, (f t).extension) =
      (t.priority, t.affinity, t.frameLength, t.extension)) : Reacts s (s.modTask h f) := by
  unfold modTask
  split
  case h_2 => exact .refl s
  case h_1 t ht =>
    refine ⟨{ Steady.refl s with identity := fun k => ?_ }, rfl, rfl, fun _ => rfl⟩
    have e : (s.tasks.set h.slot ⟨h.gen, some (f t)⟩)[k] =
        if k = h.slot then ⟨h.gen, some (f t)⟩ else s.tasks[k] := getElem_set_fin ..
    rw [e]
    split
    case isFalse => rfl
    case isTrue e =>
      subst e
      have hft := hf t ht
      unfold task? at ht
      split at ht
      case isFalse => cases ht
      case isTrue hg => simp only [TaskSlot.identity, ht, hg, Option.map_some, hft]

theorem modTask_reacts {h : Handle} {f : Task → Task}
    (hf : ∀ t, ((f t).priority, (f t).affinity, (f t).frameLength, (f t).extension) =
      (t.priority, t.affinity, t.frameLength, t.extension)) : Reacts s (s.modTask h f) :=
  s.modTask_reacts_at fun t _ => hf t

theorem modInbox_reacts {h : Handle} {f : Inbox → Inbox} (hf : ∀ ib, (f ib).limits = ib.limits) :
    Reacts s (s.modInbox h f) := by
  refine ⟨{ Steady.refl s with limits := fun k => ?_ }, rfl, rfl, fun _ => rfl⟩
  have e : (s.modInbox h f).inboxes[k] = if k = h.slot then f (s.inbox h) else s.inboxes[k] := getElem_set_fin ..
  rw [e]
  split
  · subst_vars; exact hf _
  · rfl

theorem modLine_reacts {l : Line} {f : LineRec → LineRec} (hf : ∀ r, (f r).level = r.level) :
    Reacts s (s.modLine l f) := by
  refine ⟨{ Steady.refl s with level := fun k => ?_ }, rfl, rfl, fun _ => rfl⟩
  have e : (s.modLine l f).lines[k] = if k = l then f s.lines[l] else s.lines[k] := getElem_set_fin ..
  rw [e]
  split
  · subst_vars; exact hf _
  · rfl

theorem mapLines_reacts {f : LineRec → LineRec} (hf : ∀ r, (f r).level = r.level) : Reacts s (s.mapLines f) where
  pending := by rw [mapLines_pending]
  rstLow := by rw [mapLines_rstLow]
  phase := by rw [mapLines_phase]
  items := by rw [mapLines_items]
  identity _ := by rw [mapLines_tasks]
  freeSlots := by rw [mapLines_freeSlots]
  frames := by rw [mapLines_frames]
  limits _ := by rw [mapLines_inboxes]
  backing := by rw [mapLines_backing]
  tickCounter := by rw [mapLines_tickCounter]
  dividerCount := by rw [mapLines_dividerCount]
  deadlines := by rw [mapLines_deadlines]
  level l := by rw [mapLines_line, hf]
  sink := by rw [mapLines_sink]
  prstLow _ := by rw [mapLines_port]
  burst := by rw [mapLines_burst]
  expiring := by rw [mapLines_expiring]
  own _ := by rw [mapLines_port]

end State
end Sys2Proof.Machine
end

