-- ==== Sys2Proof/Laws/Moves.lean ====
section
/-! SUPPORT. The moves of which every consequence of a request is made, and what each of them keeps. A shared operation
is shown once to be a sequence of moves (`Moves`); frames and the invariant `State.Linked` follow for all of them. -/

namespace Sys2Proof.Machine

namespace State
variable (s : State)

/-! ### The record of a task after an update -/

theorem task?_slot (h : Handle) :
    s.task? h = if (s.tasks[h.slot]).gen = h.gen then (s.tasks[h.slot]).task else none := rfl

theorem task?_eq {h : Handle} {t : Task} :
    s.task? h = some t ↔ (s.tasks[h.slot]).gen = h.gen ∧ (s.tasks[h.slot]).task = some t := by
  rw [task?_slot]
  generalize s.tasks[h.slot] = x
  split
  case isTrue e => simp [e]
  case isFalse e => simp [e]

theorem task?_modTask (h k : Handle) (f : Task → Task) :
    (s.modTask h f).task? k = if k = h then (s.task? h).map f else s.task? k := by
  unfold modTask
  split
  case h_2 e =>
    split
    · subst_vars; rw [e]; rfl
    · rfl
  case h_1 t e =>
    have ⟨hg, ht⟩ := s.task?_eq.1 e
    have get : ({ s with tasks := s.tasks.set h.slot ⟨h.gen, some (f t)⟩ } : State).tasks[k.slot] =
        if k.slot = h.slot then ⟨h.gen, some (f t)⟩ else s.tasks[k.slot] := getElem_set_fin ..
    rw [task?_slot, get, e]
    by_cases hs : k.slot = h.slot
    · have hk : s.tasks[k.slot] = s.tasks[h.slot] := congrArg (fun j : Slot => s.tasks[j]) hs
      rw [if_pos hs, task?_slot s k, hk, hg]
      by_cases hg' : h.gen = k.gen
      · have : k = h := by cases k; cases h; simp_all
        rw [if_pos hg', if_pos this]; rfl
      · have : k ≠ h := fun c => hg' (by rw [c])
        rw [if_neg hg', if_neg this, if_neg hg']
    · have : k ≠ h := fun c => hs (by rw [c])
      rw [if_neg hs, if_neg this]
      rfl

theorem task?_modTask_self {h : Handle} {t : Task} (f : Task → Task) (e : s.task? h = some t) :
    (s.modTask h f).task? h = some (f t) := by rw [task?_modTask, if_pos rfl, e]; rfl

theorem task?_modTask_ne {h k : Handle} (f : Task → Task) (hk : k ≠ h) :
    (s.modTask h f).task? k = s.task? k := by rw [task?_modTask, if_neg hk]

end State

/-- What a move may change of a task record: not its identity, not where it stands, not its seeding port. -/
def Task.anchor (t : Task) : (Priority × BitVec 4 × Nat × Bool) × TaskPlace × Option Port :=
  ((t.priority, t.affinity, t.frameLength, t.extension), t.state.place, t.seedPort)

/-- One move. -/
inductive Move : State → State → Prop where
  /-- A port unit shows something, or moves on without changing what it does for a task. -/
  | port (s p f) (own : (f (s.port p)).own = (s.port p).own)
      (post : (f (s.port p)).state.post = (s.port p).state.post) : Move s (s.modPort p f)
  /-- A task record changes, and the task stays where it stands. -/
  | task (s h f) (anchor : ∀ t, s.task? h = some t → (f t).anchor = t.anchor) : Move s (s.modTask h f)
  | inbox (s h f) (limits : ∀ ib, (f ib).limits = ib.limits) : Move s (s.modInbox h f)
  | line (s l f) (level : ∀ r, (f r).level = r.level) : Move s (s.modLine l f)
  | lines (s f) (level : ∀ r, (f r).level = r.level) : Move s (s.mapLines f)
  /-- The pool, the jobs, the deferred-refill list or the unreported count change, or deadlines go. -/
  | rest (s t) (r : Reacts s t) (tasks : t.tasks = s.tasks) (ports : t.ports = s.ports)
      (await : t.awaitList = s.awaitList) (ready : t.ready = s.ready) : Move s t
  /-- A waiting task becomes READY at the tail of its queue. -/
  | wake (s h t) (task : s.task? h = some t) (place : t.state.place = .waiting) :
      Move s ((s.setTaskState h .ready).enqueueTail h)
  /-- A READY task is handed to a port on the await list. -/
  | give (s p h t) (await : p ∈ s.awaitList) (task : s.task? h = some t) (place : t.state.place = .ready) :
      Move s (s.handOff p h)
  /-- The RECEIVE of a running task is answered at its port. -/
  | answer (s p h t r d) (task : s.task? h = some t) (place : t.state.place = .held p) :
      Move s (s.modPort p fun u => { u with state := .run h false, result := r, done := d })

/-- A sequence of moves. -/
inductive Moves : State → State → Prop where
  | refl (s) : Moves s s
  | step {s t u} (m : Moves s t) (n : Move t u) : Moves s u

namespace Moves

theorem single {s t : State} (m : Move s t) : Moves s t := .step (.refl s) m

theorem trans {s t u : State} (a : Moves s t) (b : Moves t u) : Moves s u := by
  induction b with
  | refl => exact a
  | step _ n ih => exact .step ih n

end Moves

/-! ### Every move is a reaction -/

namespace State
variable (s : State)

theorem setTaskState_reacts (h : Handle) (st : TaskState) : Reacts s (s.setTaskState h st) :=
  s.modTask_reacts fun _ => rfl

theorem setPortState_reacts (p : Port) (st : PortState) : Reacts s (s.setPortState p st) :=
  s.modPort_reacts fun _ => rfl

theorem enqueueTail_reacts (h : Handle) : Reacts s (s.enqueueTail h) := by
  unfold enqueueTail; split
  · exact s.reacts_of
  · exact .refl s

theorem enqueueHead_reacts (h : Handle) : Reacts s (s.enqueueHead h) := by
  unfold enqueueHead; split
  · exact s.reacts_of
  · exact .refl s

theorem dequeue_reacts (h : Handle) : Reacts s (s.dequeue h) := by
  unfold dequeue; split
  · exact s.reacts_of
  · exact .refl s

theorem leaveAwait_reacts (p : Port) : Reacts s (s.leaveAwait p) := s.reacts_of

theorem beginCheckOut_reacts (p : Port) (h : Handle) : Reacts s (s.beginCheckOut p h) := by
  unfold beginCheckOut; split
  · exact (s.setTaskState_reacts h _).trans (setPortState_reacts _ p _)
  · exact .refl s

theorem handOff_reacts (p : Port) (h : Handle) : Reacts s (s.handOff p h) :=
  ((s.leaveAwait_reacts p).trans (dequeue_reacts _ h)).trans (beginCheckOut_reacts _ p h)

end State

theorem Move.reacts {s t : State} (m : Move s t) : Reacts s t := by
  cases m with
  | port p f own => exact s.modPort_reacts_at own
  | task h f anchor => exact s.modTask_reacts_at fun t ht => congrArg Prod.fst (anchor t ht)
  | inbox h f limits => exact s.modInbox_reacts limits
  | line l f level => exact s.modLine_reacts level
  | lines f level => exact s.mapLines_reacts level
  | rest => assumption
  | wake h => exact (s.setTaskState_reacts h _).trans (State.enqueueTail_reacts _ h)
  | give p h => exact s.handOff_reacts p h
  | answer p h => exact s.modPort_reacts fun _ => rfl

theorem Moves.reacts {s t : State} (m : Moves s t) : Reacts s t := by
  induction m with
  | refl => exact .refl s
  | step _ n ih => exact ih.trans n.reacts

end Sys2Proof.Machine
end

