-- ==== Sys2Proof/Laws/Links.lean ====
section
/-! SUPPORT. Every move keeps `State.Linked`. -/

namespace Sys2Proof.Machine

namespace State
variable {s t : State}

/-- What `Linked` says depends on these views of the state only. -/
theorem Linked.congr (L : s.Linked) (free : t.freeSlots = s.freeSlots)
    (identity : ∀ k : Slot, t.tasks[k].identity = s.tasks[k].identity) (await : t.awaitList = s.awaitList)
    (post : ∀ p, (t.port p).state.post = (s.port p).state.post)
    (anchor : ∀ h, (t.task? h).map Task.anchor = (s.task? h).map Task.anchor) (ready : t.ready = s.ready) :
    t.Linked := by
  have key (h : Handle) (P : TaskPlace → Option Port → Priority → Prop) :
      (∃ u, t.task? h = some u ∧ P u.state.place u.seedPort u.priority) ↔
        ∃ u, s.task? h = some u ∧ P u.state.place u.seedPort u.priority := by
    have e := anchor h
    cases ht : t.task? h with
    | none =>
      cases hs : s.task? h with
      | none => simp
      | some v => rw [ht, hs] at e; cases e
    | some u =>
      cases hs : s.task? h with
      | none => rw [ht, hs] at e; cases e
      | some v =>
        rw [ht, hs] at e
        simp only [Option.map_some, Option.some.injEq, Task.anchor, Prod.mk.injEq] at e
        simp [e]
  have none (k : Slot) : t.tasks[k].task = none ↔ s.tasks[k].task = none := by
    have := TaskSlot.identity_isSome (identity k)
    cases ht : t.tasks[k].task <;> cases hs : s.tasks[k].task <;> simp_all
  refine ⟨free ▸ L.freeNodup, fun k => by rw [free, L.free, none], fun k => ?_, await ▸ L.awaitNodup, fun p => by
    rw [await, post, L.await], fun p h => ?_, fun p h => ?_, fun p h => ?_, fun h u hu hs => ?_, fun q => by
    rw [ready]; exact L.readyNodup q, fun q h => ?_⟩
  · rw [TaskSlot.identity_gen (identity k)]; exact L.generation k
  · rw [post, L.held, key h fun pl _ _ => pl = .held p]
  · rw [post, L.saved, key h fun pl _ _ => pl = .saved p]
  · rw [post, L.seeded, key h fun _ sp _ => sp = some p]
  · have := (key h fun pl sp _ => sp.isSome ∧ pl ≠ .stopped).not.2 (by
      rintro ⟨v, hv, h1, h2⟩; exact h2 (L.seedStopped h v hv h1))
    by_contra hne
    exact this ⟨u, hu, hs, hne⟩
  · rw [ready, L.ready, key h fun pl _ pr => pl = .ready ∧ pr = q]

theorem Linked.modPort (L : s.Linked) {p : Port} {f : PortUnit → PortUnit}
    (post : (f (s.port p)).state.post = (s.port p).state.post) : (s.modPort p f).Linked :=
  L.congr rfl (fun _ => rfl) rfl (fun q => by
    rw [modPort_port]; split
    · subst_vars; exact post
    · rfl) (fun h => by rw [modPort_task?]) rfl

theorem Linked.modTask (L : s.Linked) {h : Handle} {f : Task → Task}
    (anchor : ∀ t, s.task? h = some t → (f t).anchor = t.anchor) : (s.modTask h f).Linked := by
  refine L.congr (by rw [modTask_freeSlots])
    (s.modTask_reacts_at fun t ht => congrArg Prod.fst (anchor t ht)).identity (by rw [modTask_awaitList])
    (fun p => by rw [modTask_port]) (fun k => ?_) (by rw [modTask_ready])
  rw [task?_modTask]
  split
  · subst_vars
    cases e : s.task? k with
    | none => rfl
    | some t => simp [anchor t e]
  · rfl

/-! ### A waiting task becomes READY -/

/-- The state after a task is made READY and put at one end of its queue. -/
theorem enqueueTail_of {h : Handle} {t : Task} (e : s.task? h = some t) :
    s.enqueueTail h = { s with ready := s.ready.set t.priority (s.ready[t.priority] ++ [h]) } := by
  unfold enqueueTail; rw [e]

theorem enqueueHead_of {h : Handle} {t : Task} (e : s.task? h = some t) :
    s.enqueueHead h = { s with ready := s.ready.set t.priority (h :: s.ready[t.priority]) } := by
  unfold enqueueHead; rw [e]

theorem dequeue_of {h : Handle} {t : Task} (e : s.task? h = some t) :
    s.dequeue h = { s with ready := s.ready.set t.priority (s.ready[t.priority].filter fun r => r ≠ h) } := by
  unfold dequeue; rw [e]

/-- A task that stands on no port becomes READY and joins a queue that did not name it. -/
theorem Linked.makeReady (L : s.Linked) {h : Handle} {u : Task} (e : s.task? h = some u)
    (place : u.state.place = .waiting ∨ u.state.place = .stopped) (seed : u.seedPort = none)
    (t : State) (ht : ∃ q', (∀ x, x ∈ q' ↔ x ∈ s.ready[u.priority] ∨ x = h) ∧ (s.ready[u.priority].Nodup →
      h ∉ s.ready[u.priority] → q'.Nodup) ∧
      t = { s.setTaskState h .ready with ready := s.ready.set u.priority q' }) : t.Linked := by
  obtain ⟨q', mem, nodup, rfl⟩ := ht
  have R := s.setTaskState_reacts h .ready
  have tk (k : Handle) : ({ s.setTaskState h .ready with ready := s.ready.set u.priority q' } : State).task? k =
      if k = h then some { u with state := .ready } else s.task? k := by
    change (s.setTaskState h .ready).task? k = _
    rw [setTaskState_eq, task?_modTask, e]; rfl
  have pt (p : Port) : ({ s.setTaskState h .ready with ready := s.ready.set u.priority q' } : State).port p =
      s.port p := by
    change (s.setTaskState h .ready).port p = _
    rw [setTaskState_eq, modTask_port]
  have notready : h ∉ s.ready[u.priority] := by
    intro hm
    obtain ⟨v, hv, hp, -⟩ := (L.ready _ _).1 hm
    rw [e] at hv; cases hv
    rcases place with hpl | hpl <;> rw [hpl] at hp <;> cases hp
  have off (k : Handle) (P : Task → Prop) (hn : ¬ P { u with state := .ready }) (hu : ¬ P u) :
      (∃ v, ({ s.setTaskState h .ready with ready := s.ready.set u.priority q' } : State).task? k = some v ∧ P v) ↔
        ∃ v, s.task? k = some v ∧ P v := by
    rw [tk]
    by_cases hk : k = h
    · subst hk; rw [if_pos rfl, e]; simp [hn, hu]
    · rw [if_neg hk]
  have notplace (p : TaskPlace) (h1 : p ≠ .waiting) (h2 : p ≠ .stopped) : u.state.place ≠ p := by
    rcases place with hpl | hpl <;> rw [hpl]
    · exact h1.symm
    · exact h2.symm
  refine ⟨R.freeSlots ▸ L.freeNodup, fun k => ?_, fun k => ?_, ?_, fun p => ?_, fun p k => ?_, fun p k => ?_,
    fun p k => ?_, fun k v hv hs => ?_, fun q => ?_, fun q k => ?_⟩
  · change k ∈ (s.setTaskState h .ready).freeSlots ↔ (s.setTaskState h .ready).tasks[k].task = none
    rw [R.freeSlots, L.free]
    have := TaskSlot.identity_isSome (R.identity k)
    cases ht : (s.setTaskState h .ready).tasks[k].task <;> cases hs : s.tasks[k].task <;> simp_all
  · change (s.setTaskState h .ready).tasks[k].gen ≠ _
    rw [TaskSlot.identity_gen (R.identity k)]; exact L.generation k
  · change (s.setTaskState h .ready).awaitList.Nodup
    rw [setTaskState_eq, modTask_awaitList]; exact L.awaitNodup
  · rw [pt]
    change p ∈ (s.setTaskState h .ready).awaitList ↔ _
    rw [setTaskState_eq, modTask_awaitList]; exact L.await p
  · rw [pt, L.held, off k (fun v => v.state.place = .held p) nofun (notplace _ nofun nofun)]
  · rw [pt, L.saved, off k (fun v => v.state.place = .saved p) nofun (notplace _ nofun nofun)]
  · rw [pt, L.seeded, off k (fun v => v.seedPort = some p) (by simp [seed]) (by simp [seed])]
  · rw [tk] at hv
    split at hv
    · cases hv; rw [seed] at hs; cases hs
    · exact L.seedStopped k v hv hs
  · have get : ({ s.setTaskState h .ready with ready := s.ready.set u.priority q' } : State).ready[q] =
        if q = u.priority then q' else s.ready[q] := getElem_set_fin ..
    rw [get]
    split
    · exact nodup (L.readyNodup _) notready
    · exact L.readyNodup q
  · have get : ({ s.setTaskState h .ready with ready := s.ready.set u.priority q' } : State).ready[q] =
        if q = u.priority then q' else s.ready[q] := getElem_set_fin ..
    rw [get, tk]
    by_cases hk : k = h
    · subst hk
      rw [if_pos rfl]
      have e1 : (∃ v, some { u with state := TaskState.ready } = some v ∧ v.state.place = .ready ∧ v.priority = q) ↔
          u.priority = q := by simp [TaskState.place]
      rw [e1]
      split
      case isTrue hq => subst hq; simp [mem]
      case isFalse hq =>
        refine iff_of_false (fun hm => ?_) (Ne.symm hq)
        obtain ⟨v, hv, hp, -⟩ := (L.ready _ _).1 hm
        rw [e] at hv; cases hv
        exact notplace .ready nofun nofun hp
    · rw [if_neg hk]
      split
      case isTrue hq => subst hq; rw [mem, L.ready]; simp [hk]
      case isFalse => rw [L.ready]

theorem Linked.wakeTail (L : s.Linked) {h : Handle} {u : Task} (e : s.task? h = some u)
    (place : u.state.place = .waiting ∨ u.state.place = .stopped) (seed : u.seedPort = none) :
    ((s.setTaskState h .ready).enqueueTail h).Linked := by
  refine L.makeReady e place seed _ ⟨s.ready[u.priority] ++ [h], fun x => by simp, fun n hn => ?_, ?_⟩
  · exact n.append (List.nodup_singleton h) (List.disjoint_singleton.2 hn)
  · rw [setTaskState_eq, enqueueTail_of (s.task?_modTask_self _ e), modTask_ready]

theorem Linked.wakeHead (L : s.Linked) {h : Handle} {u : Task} (e : s.task? h = some u)
    (place : u.state.place = .waiting ∨ u.state.place = .stopped) (seed : u.seedPort = none) :
    ((s.setTaskState h .ready).enqueueHead h).Linked := by
  refine L.makeReady e place seed _ ⟨h :: s.ready[u.priority], fun x => by simp [or_comm], fun n hn => ?_, ?_⟩
  · exact List.nodup_cons.2 ⟨hn, n⟩
  · rw [setTaskState_eq, enqueueHead_of (s.task?_modTask_self _ e), modTask_ready]

/-! ### One task and one port change together -/

/-- A task `h` and a port `p` change together, and name each other afterwards if either names the other. -/
theorem Linked.change (L : s.Linked) {h : Handle} {p : Port} {u v : Task} (e : s.task? h = some u) (post' : PortPost)
    (free : t.freeSlots = s.freeSlots) (gen : ∀ k : Slot, t.tasks[k].gen = s.tasks[k].gen)
    (none : ∀ k : Slot, t.tasks[k].task = none ↔ s.tasks[k].task = none)
    (task : ∀ k, t.task? k = if k = h then some v else s.task? k)
    (post : ∀ q, (t.port q).state.post = if q = p then post' else (s.port q).state.post)
    (awaitNodup : t.awaitList.Nodup)
    (await : ∀ q, q ∈ t.awaitList ↔ if q = p then post' = .waits else q ∈ s.awaitList)
    (readyNodup : ∀ q : Priority, t.ready[q].Nodup)
    (ready : ∀ (q : Priority) k,
      k ∈ t.ready[q] ↔ if k = h then v.state.place = .ready ∧ v.priority = q else k ∈ s.ready[q])
    (placeElsewhere : ∀ q, q ≠ p → (v.state.place = .held q ↔ u.state.place = .held q) ∧
      (v.state.place = .saved q ↔ u.state.place = .saved q) ∧ (v.seedPort = some q ↔ u.seedPort = some q))
    (postElsewhere : ∀ k, k ≠ h → (post' = .holds k ↔ (s.port p).state.post = .holds k) ∧
      (post' = .saves k ↔ (s.port p).state.post = .saves k) ∧ (post' = .seeds k ↔ (s.port p).state.post = .seeds k))
    (holds : post' = .holds h ↔ v.state.place = .held p) (saves : post' = .saves h ↔ v.state.place = .saved p)
    (seeds : post' = .seeds h ↔ v.seedPort = some p)
    (seedStopped : v.seedPort.isSome → v.state.place = .stopped) : t.Linked where
  freeNodup := free ▸ L.freeNodup
  free k := by rw [free, L.free, none]
  generation k := by rw [gen]; exact L.generation k
  awaitNodup := awaitNodup
  await q := by
    rw [await, post]; split
    · rfl
    · exact L.await q
  held q k := by
    rw [post, task]
    by_cases hk : k = h
    · subst hk; rw [if_pos rfl]; simp only [Option.some.injEq, exists_eq_left']
      split
      case isTrue hq => subst hq; exact holds
      case isFalse hq => rw [(placeElsewhere q hq).1, L.held, e]; simp
    · rw [if_neg hk, ← L.held]
      split
      case isTrue hq => subst hq; exact (postElsewhere k hk).1
      case isFalse => rfl
  saved q k := by
    rw [post, task]
    by_cases hk : k = h
    · subst hk; rw [if_pos rfl]; simp only [Option.some.injEq, exists_eq_left']
      split
      case isTrue hq => subst hq; exact saves
      case isFalse hq => rw [(placeElsewhere q hq).2.1, L.saved, e]; simp
    · rw [if_neg hk, ← L.saved]
      split
      case isTrue hq => subst hq; exact (postElsewhere k hk).2.1
      case isFalse => rfl
  seeded q k := by
    rw [post, task]
    by_cases hk : k = h
    · subst hk; rw [if_pos rfl]; simp only [Option.some.injEq, exists_eq_left']
      split
      case isTrue hq => subst hq; exact seeds
      case isFalse hq => rw [(placeElsewhere q hq).2.2, L.seeded, e]; simp
    · rw [if_neg hk, ← L.seeded]
      split
      case isTrue hq => subst hq; exact (postElsewhere k hk).2.2
      case isFalse => rfl
  seedStopped k w hw hs := by
    rw [task] at hw
    split at hw
    · cases hw; exact seedStopped hs
    · exact L.seedStopped k w hw hs
  readyNodup := readyNodup
  ready q k := by
    rw [ready, task]
    split
    · simp
    · exact L.ready q k

/-- The queue of a task without it. -/
theorem dequeue_ready {h : Handle} {u : Task} (e : s.task? h = some u) (L : s.Linked) (q : Priority) :
    (s.dequeue h).ready[q].Nodup ∧ ∀ k, k ∈ (s.dequeue h).ready[q] ↔ k ≠ h ∧ k ∈ s.ready[q] := by
  have get : (s.dequeue h).ready[q] =
      if q = u.priority then s.ready[u.priority].filter (fun r => r ≠ h) else s.ready[q] := by
    rw [dequeue_of e]; exact getElem_set_fin ..
  rw [get]
  split
  case isTrue hq =>
    subst hq
    exact ⟨(L.readyNodup _).filter _, fun k => by simp [and_comm]⟩
  case isFalse hq =>
    refine ⟨L.readyNodup q, fun k => ⟨fun hk => ⟨fun c => ?_, hk⟩, And.right⟩⟩
    subst c
    obtain ⟨v, hv, -, hp⟩ := (L.ready _ _).1 hk
    rw [e] at hv; cases hv
    exact hq hp.symm

/-- Nothing names a READY task but its queue, and nothing but its queue is named by it. -/
theorem Linked.handOff (L : s.Linked) {h : Handle} {u : Task} (e : s.task? h = some u) (place : u.state.place = .ready)
    {p : Port} (post : (s.port p).state.post = .waits ∨ (s.port p).state.post = .none) : (s.handOff p h).Linked := by
  have noseed : u.seedPort = none := by
    cases hs : u.seedPort with
    | none => rfl
    | some q => have := L.seedStopped h u e (by rw [hs]; rfl); rw [place] at this; cases this
  have e1 : ((s.leaveAwait p).dequeue h).task? h = some u := by
    rw [dequeue_of (s := s.leaveAwait p) e]; exact e
  have eq : s.handOff p h = (((s.leaveAwait p).dequeue h).setTaskState h (.running p)).setPortState p
      (.loading h (streamLength u.frameLength u.extension) 0) := by
    unfold State.handOff beginCheckOut; rw [e1]
  have R := s.handOff_reacts p h
  have Ll : (s.leaveAwait p).task? h = some u := e
  have nots (k : Handle) : (s.port p).state.post ≠ .holds k ∧ (s.port p).state.post ≠ .saves k ∧
      (s.port p).state.post ≠ .seeds k := by
    rcases post with hp | hp <;> rw [hp] <;> exact ⟨nofun, nofun, nofun⟩
  refine L.change (v := { u with state := .running p }) (p := p) e (.holds h) R.freeSlots
    (fun k => TaskSlot.identity_gen (R.identity k)) (fun k => ?_) (fun k => ?_) (fun q => ?_) ?_ (fun q => ?_)
    (fun q => ?_) (fun q k => ?_) (fun q hq => ?_) (fun k hk => ?_) ?_ ?_ ?_ ?_
  · have := TaskSlot.identity_isSome (R.identity k)
    cases ht : (s.handOff p h).tasks[k].task <;> cases hs : s.tasks[k].task <;> simp_all
  · rw [eq, setPortState_eq, modPort_task?, setTaskState_eq, task?_modTask, e1, dequeue_of Ll]; rfl
  · rw [eq, setPortState_eq, modPort_port, setTaskState_eq, dequeue_of Ll]
    split
    · rfl
    · rw [modTask_port]; rfl
  · rw [eq, setPortState_eq, modPort_awaitList, setTaskState_eq, modTask_awaitList, dequeue_of Ll]
    exact L.awaitNodup.filter _
  · rw [eq, setPortState_eq, modPort_awaitList, setTaskState_eq, modTask_awaitList, dequeue_of Ll]
    change q ∈ s.awaitList.filter _ ↔ _
    simp only [List.mem_filter, decide_eq_true_eq]
    split
    case isTrue hq => simp [hq]
    case isFalse hq => simp [hq]
  · rw [eq, setPortState_eq, modPort_ready, setTaskState_eq, modTask_ready, dequeue_of Ll]
    have := (dequeue_ready e L q).1
    rw [dequeue_of e] at this
    exact this
  · rw [eq, setPortState_eq, modPort_ready, setTaskState_eq, modTask_ready, dequeue_of Ll]
    have := (dequeue_ready e L q).2 k
    rw [dequeue_of e] at this
    refine this.trans ?_
    split
    case isTrue hk => simp [hk, TaskState.place]
    case isFalse hk => simp [hk]
  · rw [place]; refine ⟨⟨fun c => ?_, nofun⟩, ⟨nofun, nofun⟩, Iff.rfl⟩
    exact absurd (TaskPlace.held.inj c).symm hq
  · refine ⟨⟨fun c => absurd (PortPost.holds.inj c).symm hk, fun c => absurd c (nots k).1⟩,
      ⟨nofun, fun c => absurd c (nots k).2.1⟩, ⟨nofun, fun c => absurd c (nots k).2.2⟩⟩
  · exact ⟨fun _ => rfl, fun _ => rfl⟩
  · exact ⟨nofun, nofun⟩
  · exact ⟨nofun, fun c => by rw [noseed] at c; cases c⟩
  · rw [noseed]; nofun

end State

/-- Every move keeps the links. -/
theorem Move.linked {s t : State} (m : Move s t) (L : s.Linked) : t.Linked := by
  cases m with
  | port p f own post => exact L.modPort post
  | task h f anchor => exact L.modTask anchor
  | inbox h f => exact L.congr rfl (fun _ => rfl) rfl (fun _ => rfl) (fun k => by rw [State.modInbox_task?]) rfl
  | line l f => exact L.congr rfl (fun _ => rfl) rfl (fun _ => rfl) (fun k => by rw [State.modLine_task?]) rfl
  | lines f level =>
    exact L.congr (by rw [State.mapLines_freeSlots]) (s.mapLines_reacts level).identity
      (by rw [State.mapLines_awaitList]) (fun _ => by rw [State.mapLines_port])
      (fun k => by rw [State.mapLines_task?]) (by rw [State.mapLines_ready])
  | rest =>
    rename_i r tasks ports await ready
    exact L.congr r.freeSlots r.identity await (fun p => by rw [State.port_congr ports])
      (fun h => by rw [State.task?_congr tasks]) ready
  | wake h u task place =>
    refine L.wakeTail task (.inl place) ?_
    cases hs : u.seedPort with
    | none => rfl
    | some q => have := L.seedStopped h u task (by rw [hs]; rfl); rw [place] at this; cases this
  | give p h u await task place => exact L.handOff task place (.inl ((L.await p).1 await))
  | answer p h u r d task place => exact L.modPort ((L.held p h).2 ⟨u, task, place⟩).symm

theorem Moves.linked {s t : State} (m : Moves s t) (L : s.Linked) : t.Linked := by
  induction m with
  | refl => exact L
  | step _ n ih => exact n.linked ih

end Sys2Proof.Machine
end

