-- ==== Sys2Proof/Laws/Reactions.lean ====
section
/-! SUPPORT. One lemma per shared operation of the dispatch unit, the waits, the pool, the inbox unit and the fault
reporter: the operation is a sequence of moves. -/

namespace Sys2Proof.Machine

namespace State

variable (s : State)

/-! ### Single moves -/

theorem modPort_moves {p : Port} {f : PortUnit → PortUnit} (own : ∀ u, (f u).own = u.own)
    (state : ∀ u, (f u).state = u.state) : Moves s (s.modPort p f) :=
  .single (.port s p f (own _) (by rw [state]))

theorem modTask_moves {h : Handle} {f : Task → Task} (anchor : ∀ t, (f t).anchor = t.anchor) :
    Moves s (s.modTask h f) := .single (.task s h f fun t _ => anchor t)

theorem modInbox_moves {h : Handle} {f : Inbox → Inbox} (limits : ∀ ib, (f ib).limits = ib.limits) :
    Moves s (s.modInbox h f) := .single (.inbox s h f limits)

theorem modLine_moves {l : Line} {f : LineRec → LineRec} (level : ∀ r, (f r).level = r.level) :
    Moves s (s.modLine l f) := .single (.line s l f level)

theorem mapLines_moves {f : LineRec → LineRec} (level : ∀ r, (f r).level = r.level) : Moves s (s.mapLines f) :=
  .single (.lines s f level)

theorem rest_moves {t : State} (r : Reacts s t) (tasks : t.tasks = s.tasks := by rfl)
    (ports : t.ports = s.ports := by rfl) (await : t.awaitList = s.awaitList := by rfl)
    (ready : t.ready = s.ready := by rfl) : Moves s t := .single (.rest s t r tasks ports await ready)

/-! ### Ports and flags -/

theorem setResult_moves (p : Port) (c : ResultCode) (v : BitVec 16) : Moves s (s.setResult p c v) :=
  s.modPort_moves (fun _ => rfl) fun _ => rfl

theorem announce_moves (p : Port) (h : Handle) : Moves s (s.announce p h) :=
  s.modPort_moves (fun _ => rfl) fun _ => rfl

theorem evalPreempt_moves : Moves s s.evalPreempt := by
  have one (s : State) (p : Port) : Moves s (s.evalPreemptAt p) := s.modPort_moves (fun _ => rfl) fun _ => rfl
  exact (((one s 0).trans (one _ 1)).trans (one _ 2)).trans (one _ 3)

/-! ### The dispatch unit -/

theorem mem_eligible {h : Handle} {p : Port} (e : s.eligible h p = true) : ∃ t, s.task? h = some t := by
  unfold eligible at e
  split at e
  case h_1 t ht => exact ⟨t, ht⟩
  case h_2 => cases e

/-- The offer of a READY task: nothing, or its hand-off to a port of the await list (R58). -/
theorem offer_moves {h : Handle} {t : Task} (e : s.task? h = some t) (place : t.state.place = .ready) :
    Moves s (s.offer h) := by
  unfold offer
  split
  case h_1 p hp =>
    exact (Moves.single (.give s p h t (List.mem_of_find?_eq_some hp) e place)).trans (announce_moves _ p h)
  case h_2 => exact .refl s

/-- A waiting task becomes READY and is offered (R53, R59). -/
theorem readyTail_moves {h : Handle} {t : Task} (e : s.task? h = some t) (place : t.state.place = .waiting) :
    Moves s (s.readyTail h) := by
  refine .trans (.single (.wake s h t e place)) ?_
  have e1 : (s.setTaskState h .ready).task? h = some { t with state := .ready } := s.task?_modTask_self _ e
  refine offer_moves _ (t := { t with state := .ready }) ?_ rfl
  rw [enqueueTail_of e1]; exact e1

/-! ### Waits -/

theorem removeDeadline_moves (h : Handle) : Moves s (s.removeDeadline h) :=
  s.rest_moves (s.reacts_of (deadlines := List.filter_sublist))

theorem dropPendingSend_moves (h : Handle) : Moves s (s.dropPendingSend h) := by
  unfold dropPendingSend
  split
  · split
    · refine .trans ?_ (modTask_moves _ fun _ => rfl)
      exact s.modInbox_moves fun _ => rfl
    · exact .refl s
  · exact .refl s

theorem wake_moves (h : Handle) (r : Resume) : Moves s (s.wake h r) := by
  unfold wake
  split
  case h_2 => exact .refl s
  case h_1 t e =>
    have up : (s.modTask h fun u => { u with resume := r }).task? h = some { t with resume := r } :=
      s.task?_modTask_self _ e
    split
    case h_4 p d hst =>
      split
      · refine .single (.task s h _ fun u hu => ?_)
        rw [e] at hu; cases hu
        simp [Task.anchor, hst, TaskState.place]
      · exact .refl s
    case h_5 => exact .refl s
    all_goals
      refine .trans ?_ (readyTail_moves _ up ?_)
      · exact s.modTask_moves fun _ => rfl
      · simp_all [TaskState.place]

theorem undoWait_moves (h : Handle) : Moves s (s.undoWait h) :=
  (s.dropPendingSend_moves h).trans (removeDeadline_moves _ h)

theorem endWait_moves (h : Handle) (r : Resume) : Moves s (s.endWait h r) :=
  (s.undoWait_moves h).trans (wake_moves _ h r)

/-! ### The message pool and refills -/

/-- All that an allocation does: it takes the head of the free list (R106, R107). -/
theorem takeSlot_eq {rule : SlotRule} {x : PoolSlot} {t : State} (e : s.takeSlot rule = some (x, t)) :
    s.mayAllocate rule = true ∧ s.poolFree = x :: t.poolFree ∧ t = { s with poolFree := t.poolFree } := by
  unfold takeSlot at e
  split at e
  case isFalse => cases e
  case isTrue ha =>
    split at e
    case h_2 => cases e
    case h_1 hf => cases e; exact ⟨ha, hf, rfl⟩

theorem takeSlot_moves {rule : SlotRule} {x : PoolSlot} {t : State} (e : s.takeSlot rule = some (x, t)) :
    Moves s t := by
  rw [(s.takeSlot_eq e).2.2]
  exact s.rest_moves s.reacts_of

theorem takeSlots_moves (n : Nat) : ∀ s : State, Moves s (takeSlots n s).2 := by
  induction n with
  | zero => exact fun s => .refl s
  | succ n ih =>
    intro s
    unfold takeSlots
    split
    case h_1 e => exact (s.takeSlot_moves e).trans (ih _)
    case h_2 => exact .refl s

theorem writeSlot_moves (x : PoolSlot) (i : Image) : Moves s (s.writeSlot x i) := s.rest_moves s.reacts_of

theorem freeSlotList_moves (xs : List PoolSlot) : Moves s (s.freeSlotList xs) := s.rest_moves s.reacts_of

theorem withJobs_moves (js : List Job) : Moves s { s with jobs := js } := s.rest_moves s.reacts_of

theorem createRefill_moves {h : Handle} {t : State} (e : s.createRefill h = some t) : Moves s t := by
  unfold createRefill at e
  split at e
  case isFalse => cases e
  case isTrue =>
    simp only [] at e
    split at e
    case isTrue => cases e
    case isFalse =>
      cases e
      refine .trans ?_ (modInbox_moves _ fun _ => rfl)
      exact (takeSlots_moves _ s).trans (withJobs_moves _ _)

theorem defer_moves (h : Handle) : Moves s (s.defer h) := by
  unfold defer; split
  · exact .refl s
  · exact s.rest_moves s.reacts_of

theorem undefer_moves (h : Handle) : Moves s (s.undefer h) := s.rest_moves s.reacts_of

theorem refillCheck_moves (h : Handle) : Moves s (s.refillCheck h) := by
  unfold refillCheck
  split
  · split
    case h_1 e => exact s.createRefill_moves e
    case h_2 => exact s.defer_moves h
  · exact .refl s

theorem retryEntries_moves (hs : List Handle) : ∀ s : State, Moves s (retryEntries hs s) := by
  induction hs with
  | nil => exact fun s => s.rest_moves s.reacts_of
  | cons h rest ih =>
    intro s
    unfold retryEntries
    split
    · split
      case h_1 e => exact (s.createRefill_moves e).trans (ih _)
      case h_2 => exact s.rest_moves s.reacts_of
    · exact ih s

theorem retryDeferred_moves : Moves s s.retryDeferred := retryEntries_moves _ s

theorem returnSlots_moves (xs : List PoolSlot) : Moves s (s.returnSlots xs) := by
  unfold returnSlots; split
  · exact .refl s
  · exact (s.freeSlotList_moves xs).trans (retryDeferred_moves _)

/-! ### The inbox unit -/

theorem handOffMessage_moves (rule : SlotRule) (h : Handle) (m : Message) :
    Moves s (s.handOffMessage rule h m).2 := by
  unfold handOffMessage
  split
  case h_1 e =>
    refine .trans (.trans ?_ (removeDeadline_moves _ h)) (wake_moves _ h _)
    refine .trans ?_ (modTask_moves _ fun _ => rfl)
    refine .trans ?_ (modInbox_moves _ fun _ => rfl)
    exact (s.takeSlot_moves e).trans (writeSlot_moves _ _ _)
  case h_2 => exact .refl s

theorem placeResident_moves (rule : SlotRule) (h : Handle) (m : Message) :
    Moves s (s.placeResident rule h m).2 := by
  unfold placeResident
  split
  case h_1 e =>
    dsimp only
    refine .trans ?_ (modInbox_moves _ fun _ => rfl)
    exact (s.takeSlot_moves e).trans (writeSlot_moves _ _ _)
  case h_2 => exact .refl s

theorem placeSpill_moves (rule : SlotRule) (h : Handle) (m : Message) : Moves s (s.placeSpill rule h m).2 := by
  unfold placeSpill
  split
  · split
    case h_1 e =>
      dsimp only
      refine .trans ?_ (modInbox_moves _ fun _ => rfl)
      exact ((s.takeSlot_moves e).trans (writeSlot_moves _ _ _)).trans (withJobs_moves _ _)
    case h_2 => exact .refl s
  · exact .refl s

theorem route_moves (rule : SlotRule) (h : Handle) (m : Message) : Moves s (s.route rule h m).2 := by
  unfold route
  simp only []
  split
  · exact .refl s
  split
  · exact s.handOffMessage_moves rule h m
  split
  · exact s.placeResident_moves rule h m
  split
  · exact s.placeSpill_moves rule h m
  · exact .refl s

theorem completeLine_moves (place : Place) (h : Handle) (i : Image) : Moves s (s.completeLine place h i) := by
  unfold completeLine
  split
  · split
    · exact s.modLine_moves fun _ => rfl
    · exact .refl s
  · exact .refl s

theorem presentSlot_moves (p : Port) (place : Place) (h : Handle) (x : PoolSlot) :
    Moves s (s.presentSlot p place h x) := by
  unfold presentSlot
  refine .trans ?_ (modPort_moves _ (fun _ => rfl) fun _ => rfl)
  exact s.completeLine_moves place h _

theorem deliverHead_moves (p : Port) (h : Handle) : Moves s (s.deliverHead p h) := by
  unfold deliverHead
  split
  · refine .trans ?_ (returnSlots_moves _ _)
    refine .trans ?_ (modInbox_moves _ fun _ => rfl)
    exact s.presentSlot_moves p _ h _
  · exact .refl s

theorem releaseEntries_moves (h : Handle) (hs : List Handle) : ∀ s : State, Moves s (releaseEntries h hs s) := by
  induction hs with
  | nil => exact fun s => .refl s
  | cons k rest ih =>
    intro s
    unfold releaseEntries
    split
    · simp only []
      split
      · exact ((s.route_moves _ h _).trans (endWait_moves _ k _)).trans (ih _)
      · exact .refl s
    · exact ih s

theorem releaseSenders_moves (h : Handle) : Moves s (s.releaseSenders h) := releaseEntries_moves h _ s

theorem releaseAllGone_moves (h : Handle) : Moves s (s.releaseAllGone h) := by
  unfold releaseAllGone
  generalize (s.inbox h).senders = hs
  induction hs generalizing s with
  | nil => exact .refl s
  | cons k rest ih => exact (s.endWait_moves k _).trans (ih _)

theorem afterDelivery_moves (h : Handle) : Moves s (s.afterDelivery h) :=
  (s.releaseSenders_moves h).trans (refillCheck_moves _ h)

theorem clearReceivePending_moves (h : Handle) : Moves s (s.clearReceivePending h) :=
  s.modInbox_moves fun _ => rfl

theorem completeReceive_moves (h : Handle) (c : ResultCode) : Moves s (s.completeReceive h c) := by
  unfold completeReceive
  split
  · simp only []
    split
    case h_1 t ht =>
      split
      case h_1 p hst =>
        refine .trans (s.clearReceivePending_moves h) (.single (.answer _ p h t _ _ ?_ ?_))
        · exact ht
        · rw [hst]; rfl
      case h_2 => exact s.clearReceivePending_moves h
    case h_2 => exact s.clearReceivePending_moves h
  · exact .refl s

theorem answerReceive_moves (h : Handle) : Moves s (s.answerReceive h) := by
  unfold answerReceive
  split
  · split
    · split
      · exact ((s.deliverHead_moves _ h).trans (completeReceive_moves _ h _)).trans (afterDelivery_moves _ h)
      · exact .refl s
    · exact .refl s
  · exact .refl s

theorem emptyInbox_moves (h : Handle) : Moves s (s.emptyInbox h) := by
  unfold emptyInbox
  refine .trans ?_ (returnSlots_moves _ _)
  refine .trans ?_ (modInbox_moves _ fun _ => rfl)
  exact (s.withJobs_moves _).trans (undefer_moves _ h)

theorem discardInbox_level (h : Handle) (r : LineRec) : (r.discardInbox h).level = r.level := by
  unfold LineRec.discardInbox; split
  · split <;> rfl
  · rfl

theorem discardBroken_level (h : Handle) (n : BitVec 16) (d : Nat) (r : LineRec) :
    (r.discardBroken h n d).level = r.level := by
  unfold LineRec.discardBroken; split
  · split <;> rfl
  · rfl

theorem clearDestroyed_level (h : Handle) (r : LineRec) : (r.clearDestroyed h).level = r.level := by
  have bind : ∀ r : LineRec, (match r.binding with
      | some b => if b.target = h then { r with binding := none } else r
      | none => r).level = r.level := by
    intro r
    split
    · split <;> rfl
    · rfl
  unfold LineRec.clearDestroyed
  dsimp only
  split
  · split
    · exact bind r
    · exact bind r
  · exact bind r

/-! ### The fault reporter -/

theorem countUnreported_moves : Moves s s.countUnreported := s.rest_moves s.reacts_of

theorem raiseFault_moves (f : FaultReport) : Moves s (s.raiseFault f) := by
  unfold raiseFault
  split
  · split
    · simp only []
      split
      · exact s.route_moves _ _ _
      · exact (s.route_moves _ _ _).trans (countUnreported_moves _)
    · exact s.countUnreported_moves
  · exact s.countUnreported_moves

/-! ### The backing engine -/

theorem endUnowned_moves (j : Job) (rest : List Job) : Moves s (s.endUnowned j rest) :=
  ((s.withJobs_moves rest).trans (freeSlotList_moves _ _)).trans (retryDeferred_moves _)

theorem breakRing_moves (j : Job) (rest : List Job) : Moves s (s.breakRing j rest) := by
  unfold breakRing
  refine .trans ?_ (undefer_moves _ _)
  refine .trans ?_ (modInbox_moves _ fun _ => rfl)
  exact (s.withJobs_moves _).trans (freeSlotList_moves _ _)

theorem breakInbox_moves (j : Job) (rest : List Job) : Moves s (s.breakInbox j rest) := by
  unfold breakInbox
  refine .trans ?_ (evalPreempt_moves _)
  refine .trans ?_ (retryDeferred_moves _)
  refine .trans ?_ (raiseFault_moves _ _)
  refine .trans ?_ (releaseSenders_moves _ _)
  refine .trans ?_ (completeReceive_moves _ _ _)
  refine .trans ?_ (mapLines_moves _ fun r => discardBroken_level _ _ _ r)
  exact s.breakRing_moves j rest

/-- The end of an attempt lowers BREQ; all else an ERROR does is a sequence of moves. -/
theorem attemptError_moves : Moves s.endAttempt s.attemptError := by
  unfold attemptError
  dsimp only
  split
  · split
    · split
      · exact withJobs_moves _ _
      · exact breakInbox_moves _ _ _
    · exact endUnowned_moves _ _ _
  · exact .refl _

theorem spillDone_moves (j : Job) (rest : List Job) : Moves s (s.spillDone j rest) := by
  unfold spillDone
  dsimp only
  refine .trans ?_ (retryDeferred_moves _)
  refine .trans ?_ (refillCheck_moves _ _)
  refine .trans ?_ (modInbox_moves _ fun _ => rfl)
  exact (s.withJobs_moves rest).trans (freeSlotList_moves _ _)

theorem refillJobEnd_moves (h : Handle) : Moves s (s.refillJobEnd h) :=
  ((s.withJobs_moves _).trans (refillCheck_moves _ h)).trans (retryDeferred_moves _)

theorem refillDone_moves (j : Job) (rest : List Job) : Moves s (s.refillDone j rest) := by
  unfold refillDone
  split
  · dsimp only
    refine .trans ?_ (evalPreempt_moves _)
    split
    · refine .trans ?_ (refillJobEnd_moves _ _)
      refine .trans ?_ (answerReceive_moves _ _)
      refine .trans ?_ (modInbox_moves _ fun _ => rfl)
      exact s.withJobs_moves _
    · refine .trans ?_ (answerReceive_moves _ _)
      refine .trans ?_ (modInbox_moves _ fun _ => rfl)
      exact s.withJobs_moves _
  · exact .refl s

theorem keepImage_moves (j : Job) (i : Image) : Moves s (s.keepImage j i) := by
  unfold keepImage; split
  · exact s.writeSlot_moves _ i
  · exact .refl s

/-! ### Deadline expiries -/

theorem expireHead_moves : Moves s s.expireHead := by
  unfold expireHead; split
  · exact (s.endWait_moves _ _).trans (evalPreempt_moves _)
  · exact .refl s

theorem expireDue_moves (n : Nat) : ∀ s : State, Moves s (expireDue n s) := by
  induction n with
  | zero => exact fun s => .refl s
  | succ n ih =>
    intro s
    unfold expireDue
    split
    · exact s.expireHead_moves.trans (ih _)
    · exact .refl s

/-! ### RESET_INBOX and edges -/

theorem clearInbox_moves (h : Handle) : Moves s (s.clearInbox h) := by
  unfold clearInbox
  refine .trans ?_ (evalPreempt_moves _)
  refine .trans ?_ (mapLines_moves _ fun r => discardInbox_level h r)
  refine .trans ?_ (completeReceive_moves _ h _)
  refine .trans ?_ (releaseAllGone_moves _ h)
  refine .trans ?_ (modInbox_moves _ fun _ => rfl)
  exact (s.withJobs_moves _).trans (emptyInbox_moves _ h)

theorem takeEdge_moves (l : Line) : Moves s (s.takeEdge l) := by
  unfold takeEdge
  split
  case h_1 b _ =>
    split
    · exact s.modLine_moves fun _ => rfl
    · unfold postEvent
      split
      · dsimp only
        split
        · refine .trans ?_ (evalPreempt_moves _)
          refine .trans (s.route_moves .ordinary b.target b.message) ?_
          exact modLine_moves _ fun _ => rfl
        · exact s.modLine_moves fun _ => rfl
      · exact s.modLine_moves fun _ => rfl
  case h_2 => exact .refl s

end State
end Sys2Proof.Machine
end

