-- ==== Sys2Proof/Laws/Engine.lean ====
section
/-! SUPPORT. One lemma per operation of the port units, the frame streams, the backing engine and the tick: what it
leaves alone. -/

namespace Sys2Proof.Machine
namespace State

variable (s : State)

/-! ### Becoming READY, from any state -/

theorem offer_reacts (h : Handle) : Reacts s (s.offer h) := by
  unfold offer; split
  · exact (s.handOff_reacts _ h).trans (announce_moves _ _ h).reacts
  · exact .refl s

theorem readyTail_reacts (h : Handle) : Reacts s (s.readyTail h) :=
  ((s.setTaskState_reacts h _).trans (enqueueTail_reacts _ h)).trans (offer_reacts _ h)

theorem readyHead_reacts (h : Handle) : Reacts s (s.readyHead h) :=
  ((s.setTaskState_reacts h _).trans (enqueueHead_reacts _ h)).trans (offer_reacts _ h)

/-! ### Loss and eviction -/

theorem abandonReceive_reacts (p : Port) : Reacts s (s.abandonReceive p) := by
  unfold abandonReceive; split
  · exact (s.clearReceivePending_moves _).reacts
  · exact .refl s

theorem evictPort_steady (p : Port) (c : ResultCode) : Steady s (s.evictPort p c) := s.modPort_steady fun _ => rfl

theorem evict_steady (p : Port) (h : Handle) (c : ResultCode) : Steady s (s.evict p h c) :=
  ((s.abandonReceive_reacts p).trans (undoWait_moves _ h).reacts).toSteady.trans (evictPort_steady _ p c)

theorem loseWork_reacts (p : Port) (st : PortState) (cause : LossCause) : Reacts s (s.loseWork p st cause) := by
  unfold loseWork
  split
  iterate 3 exact .refl s
  · exact s.leaveAwait_reacts p
  · exact s.readyHead_reacts _
  · refine .trans ?_ (raiseFault_moves _ _).reacts
    refine .trans ?_ (setTaskState_reacts _ _ _)
    split
    · exact (s.clearReceivePending_moves _).reacts
    · exact .refl s
  · exact ((s.undoWait_moves _).reacts.trans (setTaskState_reacts _ _ _)).trans (raiseFault_moves _ _).reacts
  · exact s.modTask_reacts fun _ => rfl

/-- A loss changes the lost port unit as R187 and R190 state; all else it does is a reaction. -/
theorem losePort_reacts (p : Port) (cause : LossCause) :
    Reacts (s.modPort p fun u => u.lose cause) (s.losePort p cause) :=
  (loseWork_reacts _ p _ cause).trans (evalPreempt_moves _).reacts

theorem losePort_steady (p : Port) {cause : LossCause} (hc : cause ≠ .line) : Steady s (s.losePort p cause) := by
  refine .trans (modPort_steady s fun u => ?_) (s.losePort_reacts p cause).toSteady
  cases cause
  case line => exact absurd rfl hc
  all_goals rfl

theorem losePort_burst (p : Port) (cause : LossCause) : (s.losePort p cause).burst = s.burst :=
  (s.losePort_reacts p cause).burst

theorem losePort_expiring (p : Port) (cause : LossCause) : (s.losePort p cause).expiring = s.expiring :=
  (s.losePort_reacts p cause).expiring

/-- A loss leaves the other port units' own registers alone (R187). -/
theorem losePort_own {p q : Port} (hq : q ≠ p) (cause : LossCause) :
    ((s.losePort p cause).port q).own = (s.port q).own := by
  rw [(s.losePort_reacts p cause).own q, modPort_port, if_neg hq]

/-! ### Frame streams -/

theorem endCheckOut_steady (p : Port) (h : Handle) (t : Task) : Steady s (s.endCheckOut p h t) := by
  unfold endCheckOut
  refine .trans ?_ (evalPreempt_moves _).reacts.toSteady
  refine .trans ?_ (returnSlots_moves _ _).reacts.toSteady
  refine .trans ?_ (modTask_reacts (h := h) _ (f := fun t => { t with resume := .ok, bound := none }) fun _ => rfl).toSteady
  have pres : ∀ (s : State) (b : Option PoolSlot), Steady s (s.presentBound p h b) := by
    intro s b
    unfold presentBound; split
    · exact (s.presentSlot_moves p _ h _).reacts.toSteady
    · exact s.modPort_steady fun _ => rfl
  refine .trans ?_ (pres _ _)
  exact (s.setPortState_reacts p _).toSteady.trans (modPort_steady _ fun _ => rfl)

theorem setReadData_steady (p : Port) (w : Word) : Steady s (s.setReadData p w) := s.modPort_steady fun _ => rfl

theorem readFrame_steady (p : Port) : Steady s (s.readFrame p) := by
  unfold readFrame
  split
  · split
    · dsimp only
      split
      · exact (s.setReadData_steady p _).trans (setPortState_reacts _ p _).toSteady
      · exact (s.setReadData_steady p _).trans (endCheckOut_steady _ p _ _)
    · exact s.setReadData_steady p _
  all_goals exact s.setReadData_steady p _

theorem beginCheckIn_reacts (p : Port) (h : Handle) (d : Disposition) (c : ResultCode) :
    Reacts s (s.beginCheckIn p h d c) :=
  ((s.setTaskState_reacts h _).trans (setPortState_reacts _ p _)).trans (setResult_moves _ p c _).reacts

theorem applyDisposition_reacts (h : Handle) : Reacts s (s.applyDisposition h) := by
  unfold applyDisposition
  split
  · split
    · split
      case h_1 => exact s.readyHead_reacts h
      case h_2 => exact s.readyTail_reacts h
      all_goals
        split
        · exact s.readyTail_reacts h
        · exact s.setTaskState_reacts h _
    · exact .refl s
  · exact .refl s

/-- Commit writes the frame store and the extension field (R41); all else it does is a reaction. -/
theorem commit_reacts (p : Port) (k : SaveKind) (h : Handle) (t : Task) (e : Bool) (ws : List Word) :
    Reacts (s.storeFrame h t e ws) (s.commit p k h t e ws) := by
  have base : Reacts (s.storeFrame h t e ws)
      (((s.storeFrame h t e ws).setPortState p .idle).setResult p .ok h.bits) :=
    (setPortState_reacts _ p _).trans (setResult_moves _ p _ _).reacts
  unfold commit
  cases k
  · exact (base.trans (applyDisposition_reacts _ h)).trans (evalPreempt_moves _).reacts
  · exact base.trans (modTask_reacts _ fun _ => rfl)

theorem storeFrame_keeps (h : Handle) (t : Task) (e : Bool) (ws : List Word) : KeepsPart s (s.storeFrame h t e ws) := by
  unfold storeFrame
  constructor <;> (intros; simp only [modTask_pending, modTask_rstLow, modTask_phase, modTask_items, modTask_backing,
    modTask_tickCounter, modTask_dividerCount, modTask_lines, port, modTask_ports])

theorem writeFrame_keeps (p : Port) (w : Word) : KeepsPart s (s.writeFrame p w) := by
  unfold writeFrame
  split
  · unfold takeFrameWord
    split
    · split
      · split
        · exact (s.setPortState_reacts p _).toKeepsPart
        · exact (s.setResult_moves p _ _).reacts.toKeepsPart
      · split
        · exact (s.setPortState_reacts p _).toKeepsPart
        · exact (s.storeFrame_keeps _ _ _ _).trans (s.commit_reacts p _ _ _ _ _).toKeepsPart
    · exact .refl s
  all_goals exact .refl s

/-! ### The backing engine -/

theorem endAttempt_steady : Steady s s.endAttempt :=
  ⟨⟨rfl, rfl, rfl, rfl, rfl, rfl, rfl, fun _ => rfl, fun _ => rfl⟩, fun _ => rfl, rfl, rfl, fun _ => rfl, .refl _, rfl⟩

/-- The words a burst has moved change backing memory and the pool's words and nothing else. -/
theorem landWords_eq (n : Taken) :
    s.landWords n = { s with backing := (s.landWords n).backing, pool := (s.landWords n).pool } := by
  unfold landWords
  split
  · split
    · split <;> rfl
    · rfl
  · rfl

theorem overlay_zero (new old : Image) : Image.overlay 0 new old = old := by
  ext k hk
  simp [Image.overlay]

/-- No word taken, nothing written. -/
theorem landWords_zero : s.landWords .nothing = s := by
  unfold landWords
  split
  · split
    · split
      · simp [Taken.nothing, Memory.writeWords]
      · simp [Taken.nothing, overlay_zero, writeSlot]
    · rfl
  · rfl

theorem landWords_burst (n : Taken) : (s.landWords n).burst = s.burst := by rw [landWords_eq]

theorem burstError_zero_steady : Steady s (s.burstError .nothing) := by
  unfold burstError
  rw [landWords_zero]
  split
  · exact (endAttempt_steady s).trans (attemptError_moves s).reacts.toSteady
  · exact .refl s

theorem takeTimeout_zero_steady : Steady s (s.takeTimeout .nothing) := by
  unfold takeTimeout
  split
  · split
    · exact s.burstError_zero_steady
    · exact .refl s
  · exact .refl s

theorem startAttempt_steady : Steady s s.startAttempt := by
  unfold startAttempt
  split
  · exact ⟨⟨rfl, rfl, rfl, rfl, rfl, rfl, rfl, fun _ => rfl, fun _ => rfl⟩, fun _ => rfl, rfl, rfl, fun _ => rfl,
      .refl _, rfl⟩
  · exact .refl s

/-- The end of a read burst lowers BREQ; all else is a reaction. -/
theorem refillComplete_steady (d : ReadData) : Steady s (s.refillComplete d) := by
  unfold refillComplete
  split
  case h_1 b j rest _ _ =>
    split
    · exact .refl s
    · dsimp only
      refine .trans (keepImage_moves _ j (s.readBurst b d)).reacts.toSteady ?_
      refine .trans (endAttempt_steady _) ?_
      split
      · split
        · exact (refillDone_moves _ _ _).reacts.toSteady
        · exact (endAttempt_steady _).trans (attemptError_moves _).reacts.toSteady
      · exact (endUnowned_moves _ _ _).reacts.toSteady
  case h_2 => exact .refl s

/-- A write burst puts its eight words into backing memory (R119) and lowers BREQ; all else is a reaction. -/
theorem spillComplete_reacts {b : Burst} {j : Job} {rest : List Job} (hb : s.burst = some b) (hw : b.write = true)
    (hj : s.jobs = j :: rest) : Reacts (s.landWords ⟨8, .stored⟩).endAttempt s.spillComplete := by
  unfold spillComplete
  rw [hb, hj]
  simp only [hw, if_true]
  split
  · exact (spillDone_moves _ _ _).reacts
  · exact (endUnowned_moves _ _ _).reacts

/-! ### The tick -/

/-- Every expiry made: the mark of a tick in progress falls; all else is a reaction. -/
theorem settleDeadlines_steady : Steady s s.settleDeadlines := by
  unfold settleDeadlines
  split
  · have r := (expireDue_moves s.deadlines.length s).reacts.toSteady
    exact ⟨⟨r.pending, r.rstLow, r.phase, r.items, r.backing, r.tickCounter, r.dividerCount, r.level, r.prstLow⟩,
      r.identity, r.freeSlots, r.frames, r.limits, r.deadlines, r.sink⟩
  · exact .refl s

theorem settleDeadlines_burst : s.settleDeadlines.burst = s.burst := by
  unfold settleDeadlines
  split
  · exact (expireDue_moves s.deadlines.length s).reacts.burst
  · rfl

theorem settleDeadlines_own (p : Port) : (s.settleDeadlines.port p).own = (s.port p).own := by
  unfold settleDeadlines
  split
  · exact (expireDue_moves s.deadlines.length s).reacts.own p
  · rfl

theorem finishExpiries_steady : Steady s s.finishExpiries := by
  unfold finishExpiries; split
  · exact s.settleDeadlines_steady
  · exact .refl s

theorem countDown_prstLow (u : PortUnit) (v : Nat) : (u.countDown v).prstLow = u.prstLow := by
  unfold PortUnit.countDown
  split
  · split <;> rfl
  · rfl

theorem takeOwed_prstLow (u : PortUnit) (v : Nat) : (u.takeOwed v).prstLow = u.prstLow := by
  unfold PortUnit.takeOwed
  split
  · exact countDown_prstLow u v
  all_goals rfl

theorem takeLeaseTick_steady (p : Port) : Steady s (s.takeLeaseTick p) := by
  have base : Steady s (s.modPort p fun u => u.takeOwed s.items.leases[p]) :=
    s.modPort_steady fun u => takeOwed_prstLow u _
  unfold takeLeaseTick
  split
  · exact .refl s
  all_goals
    dsimp only
    split
    · exact base.trans (losePort_steady _ p nofun)
    all_goals exact base

theorem takeLeaseTick_burst (p : Port) : (s.takeLeaseTick p).burst = s.burst := by
  unfold takeLeaseTick
  split
  · rfl
  all_goals
    dsimp only
    split
    · rw [losePort_burst]; rfl
    all_goals rfl

/-- Settling a tick is steady: no memory word lands, nothing of the part's own changes. -/
theorem settle_steady : Steady s s.settle := by
  unfold settle
  refine .trans ?_ (takeTimeout_zero_steady _)
  refine .trans ?_ (takeLeaseTick_steady _ 3)
  refine .trans ?_ (takeLeaseTick_steady _ 2)
  refine .trans ?_ (takeLeaseTick_steady _ 1)
  exact s.settleDeadlines_steady.trans (takeLeaseTick_steady _ 0)

/-- With nothing outstanding there is nothing to settle. -/
theorem settle_eq_self (hq : s.quiet = true) : s.settle = s := by
  unfold quiet at hq
  simp only [Bool.and_eq_true, Bool.not_eq_true', List.all_eq_true, beq_iff_eq] at hq
  obtain ⟨⟨hd, hl⟩, hb⟩ := hq
  have e1 : s.settleDeadlines = s := by simp [settleDeadlines, hd]
  have lease : ∀ p : Port, s.takeLeaseTick p = s := by
    intro p
    have : (s.port p).leaseTick = .none := hl _ (by simp [port])
    unfold takeLeaseTick
    rw [this]
  have e3 : s.takeTimeout .nothing = s := by
    unfold takeTimeout
    split
    case h_1 b hb' => rw [hb'] at hb; simp at hb; simp [hb]
    case h_2 => rfl
  rw [settle, e1, lease, lease, lease, lease, e3]

end State
end Sys2Proof.Machine
end

