-- ==== Sys2Proof/Laws/Commands.lean ====
section
/-! SUPPORT. One lemma per command written to CMD: what its effect leaves alone. A command taken is `issue`d: its
effect on the settled state with the lease reloaded. -/

namespace Sys2Proof.Machine
namespace State

variable (s : State)

/-! ### Issuing -/

theorem reloadLease_steady (p : Port) : Steady s (s.reloadLease p) := s.modPort_steady fun _ => rfl

theorem setOverrun_steady (p : Port) : Steady s (s.setOverrun p) := s.modPort_steady fun _ => rfl

/-- What a command does with nothing outstanding, by what the port unit's checks decide (R177). -/
theorem issue_of_quiet {c : Cmd} {p : Port} {f : State → State} (hq : s.quiet = true) :
    s.issue c p f =
      match s.gate c p with
      | .ignored => s
      | .refused code => s.setResult p code 0#16
      | .overrun => s.setOverrun p
      | .taken => f (s.reloadLease p) := by
  unfold issue
  rw [s.settle_eq_self hq] <;> rfl

theorem issue_keeps {c : Cmd} {p : Port} {f : State → State} (hf : ∀ s, KeepsPart s (f s)) :
    KeepsPart s (s.issue c p f) := by
  unfold issue
  refine .trans s.settle_steady.toKeepsPart ?_
  dsimp only
  split
  · exact .refl _
  · exact (setResult_moves _ p _ _).reacts.toKeepsPart
  · exact (setOverrun_steady _ p).toKeepsPart
  · exact (reloadLease_steady _ p).toKeepsPart.trans (hf _)

theorem issue_steady {c : Cmd} {p : Port} {f : State → State} (hf : ∀ s, Steady s (f s)) :
    Steady s (s.issue c p f) := by
  unfold issue
  refine .trans s.settle_steady ?_
  dsimp only
  split
  · exact .refl _
  · exact (setResult_moves _ p _ _).reacts.toSteady
  · exact setOverrun_steady _ p
  · exact (reloadLease_steady _ p).trans (hf _)

/-! ### Port commands -/

theorem attach_steady (p : Port) : Steady s (s.attach p) := by
  refine .trans ?_ (setResult_moves _ p _ _).reacts.toSteady
  exact s.modPort_steady fun _ => rfl

theorem detach_steady (p : Port) : Steady s (s.detach p) := by
  refine .trans ?_ (setResult_moves _ p _ _).reacts.toSteady
  exact s.modPort_steady fun _ => rfl

theorem revoke_steady (p : Port) : Steady s (s.revoke p) := by
  unfold revoke
  split
  · split
    · exact (s.setResult_moves p _ _).reacts.toSteady
    · split
      · exact (s.losePort_steady (cause := .revoke) _ nofun).trans (setResult_moves _ p _ _).reacts.toSteady
      · exact (s.setResult_moves p _ _).reacts.toSteady
  · exact (s.setResult_moves p _ _).reacts.toSteady

/-! ### Asking for a task and giving it up -/

theorem dispatch_steady (p : Port) : Steady s (s.dispatch p) := by
  unfold dispatch
  refine .trans ?_ (evalPreempt_moves _).reacts.toSteady
  split
  · exact ((s.handOff_reacts p _).trans (setResult_moves _ p _ _).reacts).toSteady
  · refine .trans ?_ (setResult_moves _ p _ _).reacts.toSteady
    refine .trans ?_ (setPortState_reacts _ p _).toSteady
    exact s.reacts_of.toSteady

theorem cancel_steady (p : Port) : Steady s (s.cancel p) := by
  unfold cancel
  split
  · exact (((s.leaveAwait_reacts p).trans (setPortState_reacts _ p _)).trans (setResult_moves _ p _ _).reacts).toSteady
  · exact (((s.clearReceivePending_moves _).reacts.trans (setPortState_reacts _ p _)).trans
      (setResult_moves _ p _ _).reacts).toSteady
  all_goals exact (s.setResult_moves p _ _).reacts.toSteady

theorem onCurrent_steady (p : Port) {f : Handle → Task → State} (hf : ∀ h t, Steady s (f h t)) :
    Steady s (s.onCurrent p f) := by
  unfold onCurrent
  split
  · split
    · exact hf _ _
    · exact .refl s
  all_goals exact .refl s

theorem onCurrent_keeps (p : Port) {f : Handle → Task → State} (hf : ∀ h t, KeepsPart s (f h t)) :
    KeepsPart s (s.onCurrent p f) := by
  unfold onCurrent
  split
  · split
    · exact hf _ _
    · exact .refl s
  all_goals exact .refl s

theorem yield_steady (p : Port) : Steady s (s.yield p) := by
  refine s.onCurrent_steady p fun h t => ?_
  split
  · exact ((s.beginCheckIn_reacts p h _ _).trans (evalPreempt_moves _).reacts).toSteady
  · exact (s.setResult_moves p _ _).reacts.toSteady

theorem exit_steady (p : Port) : Steady s (s.exit p) := by
  refine s.onCurrent_steady p fun h t => ?_
  exact ((((s.setTaskState_reacts h _).trans (setPortState_reacts _ p _)).trans (setResult_moves _ p _ _).reacts).trans
    (evalPreempt_moves _).reacts).toSteady

theorem insertDeadline_keeps (h : Handle) (n : BitVec 16) (k : DeadlineKind) : KeepsPart s (s.insertDeadline h n k) :=
  ⟨rfl, rfl, rfl, rfl, rfl, rfl, rfl, fun _ => rfl, fun _ => rfl⟩

theorem armTimeout_keeps (h : Handle) (n : BitVec 16) (k : DeadlineKind) : KeepsPart s (s.armTimeout h n k) := by
  unfold armTimeout; split
  · exact .refl s
  · exact s.insertDeadline_keeps h n k

theorem sleep_keeps (p : Port) : KeepsPart s (s.sleep p) := by
  refine s.onCurrent_keeps p fun h t => ?_
  dsimp only
  split
  · exact (s.insertDeadline_keeps h _ _).trans
      ((beginCheckIn_reacts _ p h _ _).trans (evalPreempt_moves _).reacts).toKeepsPart
  · exact (s.setResult_moves p _ _).reacts.toKeepsPart

/-! ### Messages -/

theorem beginSendWait_keeps (p : Port) (h : Handle) (ps : PendingSend) (n : BitVec 16) :
    KeepsPart s (s.beginSendWait p h ps n) := by
  unfold beginSendWait
  refine .trans ?_ (evalPreempt_moves _).reacts.toKeepsPart
  refine .trans ?_ (beginCheckIn_reacts _ p h _ _).toKeepsPart
  refine .trans ?_ (armTimeout_keeps _ h n _)
  refine .trans ?_ (modTask_reacts (h := h) _ (f := fun t => { t with pendingSend := some ps }) fun _ => rfl).toKeepsPart
  refine Steady.toKeepsPart (Reacts.toSteady ?_)
  exact s.modInbox_reacts fun _ => rfl

theorem send_keeps (p : Port) : KeepsPart s (s.send p) := by
  refine s.onCurrent_keeps p fun h t => ?_
  dsimp only
  split
  · exact (s.setResult_moves p _ _).reacts.toKeepsPart
  split
  · exact (s.setResult_moves p _ _).reacts.toKeepsPart
  split
  · exact s.beginSendWait_keeps p h _ _
  · exact (((s.route_moves _ _ _).reacts.trans (setResult_moves _ p _ _).reacts).trans (evalPreempt_moves _).reacts).toKeepsPart

theorem receive_keeps (p : Port) : KeepsPart s (s.receive p) := by
  refine s.onCurrent_keeps p fun h t => ?_
  dsimp only
  split
  · exact ((((s.deliverHead_moves p h).reacts.trans (setResult_moves _ p _ _).reacts).trans (afterDelivery_moves _ h).reacts).trans
      (evalPreempt_moves _).reacts).toKeepsPart
  split
  · unfold beginReceivePending
    refine .trans ?_ (refillCheck_moves _ h).reacts.toKeepsPart
    refine .trans ?_ ((setPortState_reacts _ p _).trans (setResult_moves _ p _ _).reacts).toKeepsPart
    refine Steady.toKeepsPart (Reacts.toSteady ?_)
    exact s.modInbox_reacts fun _ => rfl
  split
  · exact (s.setResult_moves p _ _).reacts.toKeepsPart
  split
  · exact ((s.armTimeout_keeps h _ _).trans (beginCheckIn_reacts _ p h _ _).toKeepsPart).trans
      (evalPreempt_moves _).reacts.toKeepsPart
  · exact (s.setResult_moves p _ _).reacts.toKeepsPart

theorem setInbox_keeps (p : Port) : KeepsPart s (s.setInbox p) := by
  unfold setInbox
  dsimp only
  split
  · exact (s.setResult_moves p _ _).reacts.toKeepsPart
  split
  · exact (s.setResult_moves p _ _).reacts.toKeepsPart
  split
  · exact (s.setResult_moves p _ _).reacts.toKeepsPart
  · exact KeepsPart.trans (t := s.modInbox _ _)
      ⟨rfl, rfl, rfl, rfl, rfl, rfl, rfl, fun _ => rfl, fun _ => rfl⟩ (setResult_moves _ p _ _).reacts.toKeepsPart

theorem resetInbox_steady (p : Port) : Steady s (s.resetInbox p) := by
  unfold resetInbox
  dsimp only
  split
  · exact ((s.clearInbox_moves _).reacts.trans (setResult_moves _ p _ _).reacts).toSteady
  · exact (s.setResult_moves p _ _).reacts.toSteady

/-! ### Queries -/

theorem setArgs_steady (p : Port) (a : Vector Word 4) : Steady s (s.setArgs p a) := s.modPort_steady fun _ => rfl

theorem queryTask_steady (p : Port) : Steady s (s.queryTask p) := by
  unfold queryTask; split
  · exact (s.setArgs_steady p _).trans (setResult_moves _ p _ _).reacts.toSteady
  · exact (s.setResult_moves p _ _).reacts.toSteady

theorem queryInbox_steady (p : Port) : Steady s (s.queryInbox p) := by
  unfold queryInbox; split
  · exact (s.setArgs_steady p _).trans (setResult_moves _ p _ _).reacts.toSteady
  · exact (s.setResult_moves p _ _).reacts.toSteady

theorem queryEvent_steady (p : Port) : Steady s (s.queryEvent p) := by
  unfold queryEvent; split
  · exact (s.setArgs_steady p _).trans (setResult_moves _ p _ _).reacts.toSteady
  · exact (s.setResult_moves p _ _).reacts.toSteady

theorem queryPart_steady (p : Port) : Steady s (s.queryPart p) :=
  (s.setArgs_steady p _).trans (setResult_moves _ p _ _).reacts.toSteady

/-! ### Task commands -/

theorem onNamed_steady (p : Port) {f : Handle → Task → State} (hf : ∀ h t, Steady s (f h t)) :
    Steady s (s.onNamed p f) := by
  unfold onNamed; split
  · exact hf _ _
  · exact (s.setResult_moves p _ _).reacts.toSteady

theorem onNamed_keeps (p : Port) {f : Handle → Task → State} (hf : ∀ h t, KeepsPart s (f h t)) :
    KeepsPart s (s.onNamed p f) := by
  unfold onNamed; split
  · exact hf _ _
  · exact (s.setResult_moves p _ _).reacts.toKeepsPart

theorem create_keeps (p : Port) : KeepsPart s (s.create p) := by
  unfold create
  dsimp only
  split
  · unfold createTask; split
    · exact KeepsPart.trans (t := { s with freeSlots := _ }.makeTask _ _)
        ⟨rfl, rfl, rfl, rfl, rfl, rfl, rfl, fun _ => rfl, fun _ => rfl⟩ (setResult_moves _ p _ _).reacts.toKeepsPart
    · exact (s.setResult_moves p _ _).reacts.toKeepsPart
  · exact (s.setResult_moves p _ _).reacts.toKeepsPart

theorem seed_steady (p : Port) : Steady s (s.seed p) := by
  refine s.onNamed_steady p fun h t => ?_
  have begin_ : Steady s (s.beginSeed p h) := by
    unfold beginSeed
    refine .trans ?_ ((setPortState_reacts _ p _).trans (setResult_moves _ p _ _).reacts).toSteady
    refine Reacts.toSteady ?_
    exact s.modTask_reacts fun _ => rfl
  split
  · exact (s.setResult_moves p _ _).reacts.toSteady
  split
  iterate 2 exact begin_
  all_goals exact (s.setResult_moves p _ _).reacts.toSteady

theorem activate_steady (p : Port) : Steady s (s.activate p) := by
  refine s.onNamed_steady p fun h t => ?_
  split
  · exact (s.setResult_moves p _ _).reacts.toSteady
  split
  · exact (((s.readyTail_reacts h).trans (setResult_moves _ p _ _).reacts).trans (evalPreempt_moves _).reacts).toSteady
  · exact (s.setResult_moves p _ _).reacts.toSteady

theorem release_steady (p : Port) : Steady s (s.release p) := by
  refine s.onNamed_steady p fun h t => ?_
  split
  · exact (s.setResult_moves p _ _).reacts.toSteady
  split
  · exact ((s.setTaskState_reacts h _).trans (setResult_moves _ p _ _).reacts).toSteady
  all_goals exact (s.setResult_moves p _ _).reacts.toSteady

theorem detachTask_steady (h : Handle) (st : TaskState) (c : ResultCode) : Steady s (s.detachTask h st c) := by
  unfold detachTask
  split
  iterate 2 exact .refl s
  · exact (s.dequeue_reacts h).toSteady
  iterate 2 exact s.evict_steady _ h c
  all_goals exact (s.undoWait_moves h).reacts.toSteady

theorem answerEvicter_reacts (p : Port) (st : TaskState) : Reacts s (s.answerEvicter p st) := by
  unfold answerEvicter; split
  · exact .refl s
  · exact (s.setResult_moves p _ _).reacts

theorem haltTask_steady (p : Port) (h : Handle) (t : Task) : Steady s (s.haltTask p h t) :=
  (s.detachTask_steady h _ _).trans
    (((setTaskState_reacts _ h _).trans (answerEvicter_reacts _ p _)).trans (evalPreempt_moves _).reacts).toSteady

theorem halt_steady (p : Port) : Steady s (s.halt p) := by
  refine s.onNamed_steady p fun h t => ?_
  split
  · exact (s.setResult_moves p _ _).reacts.toSteady
  all_goals exact s.haltTask_steady p h t

theorem abortSeed_steady (h : Handle) (q : Option Port) : Steady s (s.abortSeed h q) := by
  unfold abortSeed; split
  case h_1 q =>
    refine .trans (s.evictPort_steady q .gone) ?_
    refine Reacts.toSteady ?_
    exact modTask_reacts _ fun _ => rfl
  case h_2 => exact .refl s

theorem removeTask_steady (h : Handle) (t : Task) : Steady s (s.removeTask h t) := by
  unfold removeTask
  refine .trans ?_ (returnSlots_moves _ _).reacts.toSteady
  refine .trans ?_ (modTask_reacts (h := h) _ (f := fun t => { t with state := .dormant, bound := none })
    fun _ => rfl).toSteady
  exact ((s.detachTask_steady h _ _).trans (abortSeed_steady _ h _)).trans (undoWait_moves _ h).reacts.toSteady

/-- DESTROY's second part unsets the sink; the rest of it is a reaction. -/
theorem disposeInbox_reacts (h : Handle) :
    ∃ u, Reacts s u ∧ s.disposeInbox h = u.unsetSink h := by
  refine ⟨_, ?_, rfl⟩
  refine .trans ?_ (mapLines_reacts _ fun r => clearDestroyed_level h r)
  exact (s.emptyInbox_moves h).reacts.trans (releaseAllGone_moves _ h).reacts

theorem destroy_keeps (p : Port) : KeepsPart s (s.destroy p) := by
  refine s.onNamed_keeps p fun h t => ?_
  refine .trans (s.removeTask_steady h t).toKeepsPart ?_
  obtain ⟨u, hu, e⟩ := (s.removeTask h t).disposeInbox_reacts h
  rw [e]
  refine .trans hu.toKeepsPart ?_
  refine .trans (t := (u.unsetSink h).freeSlot h) ?_
    ((answerEvicter_reacts _ p _).trans (evalPreempt_moves _).reacts).toKeepsPart
  exact ⟨rfl, rfl, rfl, rfl, rfl, rfl, rfl, fun _ => rfl, fun _ => rfl⟩

theorem modTask_keeps (h : Handle) (f : Task → Task) : KeepsPart s (s.modTask h f) := by
  constructor <;> (intros; simp only [modTask_pending, modTask_rstLow, modTask_phase, modTask_items, modTask_backing,
    modTask_tickCounter, modTask_dividerCount, modTask_lines, port, modTask_ports])

theorem setPrio_keeps (p : Port) : KeepsPart s (s.setPrio p) := by
  refine s.onNamed_keeps p fun h t => ?_
  split
  · split
    · exact (s.setResult_moves p _ _).reacts.toKeepsPart
    · refine .trans ?_ ((setResult_moves _ p _ _).reacts.trans (evalPreempt_moves _).reacts).toKeepsPart
      unfold changePriority; split
      · exact ((s.dequeue_reacts h).toKeepsPart.trans (modTask_keeps _ h _)).trans
          ((enqueueTail_reacts _ h).trans (offer_reacts _ h)).toKeepsPart
      · exact s.modTask_keeps h _
  · exact (s.setResult_moves p _ _).reacts.toKeepsPart

theorem setAffinity_keeps (p : Port) : KeepsPart s (s.setAffinity p) := by
  refine s.onNamed_keeps p fun h t => ?_
  split
  · refine .trans ?_ ((setResult_moves _ p _ _).reacts.trans (evalPreempt_moves _).reacts).toKeepsPart
    unfold changeAffinity; dsimp only; split
    · exact (s.modTask_keeps h _).trans (offer_reacts _ h).toKeepsPart
    · exact s.modTask_keeps h _
  · exact (s.setResult_moves p _ _).reacts.toKeepsPart

/-! ### Events and the sink -/

theorem bindEvent_steady (p : Port) : Steady s (s.bindEvent p) := by
  unfold bindEvent; dsimp only; split
  · exact (s.setResult_moves p _ _).reacts.toSteady
  split
  · split
    · exact (s.setResult_moves p _ _).reacts.toSteady
    · refine .trans ?_ (setResult_moves _ p _ _).reacts.toSteady
      refine Reacts.toSteady ?_
      exact s.modLine_reacts fun _ => rfl
  · exact (s.setResult_moves p _ _).reacts.toSteady

theorem unbindEvent_steady (p : Port) : Steady s (s.unbindEvent p) := by
  unfold unbindEvent; split
  · refine .trans ?_ (setResult_moves _ p _ _).reacts.toSteady
    refine Reacts.toSteady ?_
    exact s.modLine_reacts fun _ => rfl
  · exact (s.setResult_moves p _ _).reacts.toSteady

theorem setSink_keeps (p : Port) : KeepsPart s (s.setSink p) := by
  unfold setSink; dsimp only; split
  · have base : KeepsPart s { s with sink := some (s.handleArg p) } :=
      ⟨rfl, rfl, rfl, rfl, rfl, rfl, rfl, fun _ => rfl, fun _ => rfl⟩
    exact base.trans (setResult_moves _ p _ _).reacts.toKeepsPart
  · exact (s.setResult_moves p _ _).reacts.toKeepsPart

/-! ### All commands -/

/-- Every command but BEGIN_SERVICE keeps the queue, the reset lines, the phase, the configuration, the backing memory,
the tick source and the event lines' levels. -/
theorem effect_keeps {c : Cmd} (hc : c ≠ .beginService) (p : Port) : KeepsPart s (commandEffect c p s) := by
  cases c
  case beginService => exact absurd rfl hc
  case attach => exact (s.attach_steady p).toKeepsPart
  case detach => exact (s.detach_steady p).toKeepsPart
  case dispatch => exact (s.dispatch_steady p).toKeepsPart
  case cancel => exact (s.cancel_steady p).toKeepsPart
  case yield => exact (s.yield_steady p).toKeepsPart
  case exit => exact (s.exit_steady p).toKeepsPart
  case sleep => exact s.sleep_keeps p
  case send => exact s.send_keeps p
  case receive => exact s.receive_keeps p
  case queryTask => exact (s.queryTask_steady p).toKeepsPart
  case queryInbox => exact (s.queryInbox_steady p).toKeepsPart
  case queryEvent => exact (s.queryEvent_steady p).toKeepsPart
  case queryPart => exact (s.queryPart_steady p).toKeepsPart
  case create => exact s.create_keeps p
  case seed => exact (s.seed_steady p).toKeepsPart
  case activate => exact (s.activate_steady p).toKeepsPart
  case halt => exact (s.halt_steady p).toKeepsPart
  case release => exact (s.release_steady p).toKeepsPart
  case destroy => exact s.destroy_keeps p
  case setPrio => exact s.setPrio_keeps p
  case setAffinity => exact s.setAffinity_keeps p
  case setInbox => exact s.setInbox_keeps p
  case resetInbox => exact (s.resetInbox_steady p).toKeepsPart
  case bindEvent => exact (s.bindEvent_steady p).toKeepsPart
  case unbindEvent => exact (s.unbindEvent_steady p).toKeepsPart
  case setSink => exact s.setSink_keeps p
  case revoke => exact (s.revoke_steady p).toKeepsPart

end State
end Sys2Proof.Machine
end

