-- ==== Sys2Proof/Laws/LinkedSteps.lean ====
section
/-! SUPPORT. `State.Linked` through the changes that are not moves: a task and a port taken up with each other, or let
go. -/

namespace Sys2Proof.Machine
namespace State
variable {s t : State} {h : Handle} {u v : Task} {p : Port} {post' : PortPost}

/-- The record of one task becomes `v` and the post of one port `post'`; every other task and port, the await list and
the free slots stand. -/
structure Engages (s t : State) (h : Handle) (v : Task) (p : Port) (post' : PortPost) : Prop where
  free : t.freeSlots = s.freeSlots
  gen : ∀ k : Slot, t.tasks[k].gen = s.tasks[k].gen
  none : ∀ k : Slot, t.tasks[k].task = none ↔ s.tasks[k].task = none
  task : ∀ k, t.task? k = if k = h then some v else s.task? k
  post : ∀ q, (t.port q).state.post = if q = p then post' else (s.port q).state.post

/-- From a state that differs in identities from none. -/
theorem Engages.of (free : t.freeSlots = s.freeSlots) (identity : ∀ k : Slot, t.tasks[k].identity = s.tasks[k].identity)
    (task : ∀ k, t.task? k = if k = h then some v else s.task? k)
    (post : ∀ q, (t.port q).state.post = if q = p then post' else (s.port q).state.post) :
    Engages s t h v p post' where
  free := free
  gen k := TaskSlot.identity_gen (identity k)
  none k := by
    have := TaskSlot.identity_isSome (identity k)
    cases ht : t.tasks[k].task <;> cases hs : s.tasks[k].task <;> simp_all
  task := task
  post := post

/-- Nothing names a task that is READY but its queue, and so on: what `Linked` says of a stopped, waiting or READY
task. -/
theorem Linked.noSeed (L : s.Linked) (e : s.task? h = some u) (place : u.state.place ≠ .stopped) :
    u.seedPort = none := by
  cases hs : u.seedPort with
  | none => rfl
  | some q => exact absurd (L.seedStopped h u e (by rw [hs]; rfl)) place

/-- A task that is not READY stands in no ready queue. -/
theorem Linked.notReady (L : s.Linked) (e : s.task? h = some u) (place : u.state.place ≠ .ready) (q : Priority) :
    h ∉ s.ready[q] := by
  intro hm
  obtain ⟨w, hw, hp, -⟩ := (L.ready q h).1 hm
  rw [e] at hw; cases hw
  exact place hp

/-- The ready queues that hold a task `v` at one end of its queue, or nowhere. -/
def Queued (s t : State) (h : Handle) (v : Task) : Prop :=
  (∀ q : Priority, t.ready[q].Nodup) ∧
    ∀ (q : Priority) k, k ∈ t.ready[q] ↔ if k = h then v.state.place = .ready ∧ v.priority = q else k ∈ s.ready[q]

/-- A task that was not READY and is not. -/
theorem Linked.queuedOff (L : s.Linked) (e : s.task? h = some u) (place : u.state.place ≠ .ready)
    (place' : v.state.place ≠ .ready) (ready : t.ready = s.ready) : Queued s t h v := by
  refine ⟨fun q => ready ▸ L.readyNodup q, fun q k => ?_⟩
  rw [ready]
  split
  case isTrue hk => subst hk; exact iff_of_false (L.notReady e place q) fun c => place' c.1
  case isFalse => rfl

/-- A task that was not READY joins one end of the queue of its priority. -/
theorem Linked.queuedOn (L : s.Linked) (e : s.task? h = some u) (place : u.state.place ≠ .ready)
    (place' : v.state.place = .ready) {q' : List Handle}
    (ends : q' = s.ready[v.priority] ++ [h] ∨ q' = h :: s.ready[v.priority])
    (ready : t.ready = s.ready.set v.priority q') : Queued s t h v := by
  have off := L.notReady e place v.priority
  have mem (k : Handle) : k ∈ q' ↔ k = h ∨ k ∈ s.ready[v.priority] := by
    rcases ends with rfl | rfl <;> simp [or_comm]
  have nodup : q'.Nodup := by
    rcases ends with rfl | rfl
    · exact (L.readyNodup _).append (List.nodup_singleton h) (List.disjoint_singleton.2 off)
    · exact List.nodup_cons.2 ⟨off, L.readyNodup _⟩
  have get (q : Priority) : t.ready[q] = if q = v.priority then q' else s.ready[q] := by
    rw [ready]; exact getElem_set_fin ..
  refine ⟨fun q => ?_, fun q k => ?_⟩
  · rw [get]; split
    · exact nodup
    · exact L.readyNodup q
  · rw [get]
    by_cases hk : k = h
    · subst hk
      rw [if_pos rfl]
      split
      case isTrue hq => simp [mem, place', hq]
      case isFalse hq => exact iff_of_false (L.notReady e place q) fun c => hq c.2.symm
    · rw [if_neg hk]
      split
      case isTrue hq => subst hq; simp [mem, hk]
      case isFalse => rfl

/-- A port and its current task let go of each other (EXIT, eviction, loss, commit). -/
theorem Linked.leave (L : s.Linked) (e : s.task? h = some u) (E : Engages s t h v p .none)
    (await : t.awaitList = s.awaitList)
    (old : (s.port p).state.post = .holds h ∨ (s.port p).state.post = .saves h)
    (place : v.state.place = .stopped ∨ v.state.place = .waiting ∨ v.state.place = .ready)
    (seed : v.seedPort = u.seedPort) (Q : Queued s t h v) : t.Linked := by
  have was : u.state.place = .held p ∨ u.state.place = .saved p := by
    rcases old with o | o
    · obtain ⟨w, hw, hp⟩ := (L.held p h).1 o; rw [e] at hw; cases hw; exact .inl hp
    · obtain ⟨w, hw, hp⟩ := (L.saved p h).1 o; rw [e] at hw; cases hw; exact .inr hp
  have noseed : v.seedPort = none := by
    rw [seed]; refine L.noSeed e ?_; rcases was with w | w <;> rw [w] <;> nofun
  have other (k : Handle) (hk : k ≠ h) : (s.port p).state.post ≠ .holds k ∧ (s.port p).state.post ≠ .saves k ∧
      (s.port p).state.post ≠ .seeds k := by
    rcases old with o | o <;> rw [o]
    · exact ⟨fun c => hk (PortPost.holds.inj c).symm, nofun, nofun⟩
    · exact ⟨nofun, fun c => hk (PortPost.saves.inj c).symm, nofun⟩
  have nop (q : Port) : v.state.place ≠ .held q ∧ v.state.place ≠ .saved q := by
    rcases place with w | w | w <;> rw [w] <;> exact ⟨nofun, nofun⟩
  refine L.change e .none E.free E.gen E.none E.task E.post (await ▸ L.awaitNodup) (fun q => ?_) Q.1 Q.2
    (fun q hq => ⟨?_, ?_, by rw [seed]⟩) (fun k hk => ?_) ⟨nofun, fun c => absurd c (nop p).1⟩
    ⟨nofun, fun c => absurd c (nop p).2⟩ ⟨nofun, fun c => by rw [noseed] at c; cases c⟩
    (fun c => by rw [noseed] at c; cases c)
  · rw [await]
    split
    case isTrue hq =>
      subst hq
      refine iff_of_false (fun c => ?_) nofun
      rw [L.await] at c
      rcases old with o | o <;> rw [o] at c <;> cases c
    case isFalse => rfl
  · refine iff_of_false (nop q).1 fun c => ?_
    rcases was with w | w <;> rw [w] at c
    · exact hq (TaskPlace.held.inj c).symm
    · cases c
  · refine iff_of_false (nop q).2 fun c => ?_
    rcases was with w | w <;> rw [w] at c
    · cases c
    · exact hq (TaskPlace.saved.inj c).symm
  · exact ⟨iff_of_false nofun (other k hk).1, iff_of_false nofun (other k hk).2.1, iff_of_false nofun (other k hk).2.2⟩

/-- The current task of a port in RUN begins its check-in (R38). -/
theorem Linked.save (L : s.Linked) (e : s.task? h = some u) (E : Engages s t h v p (.saves h))
    (await : t.awaitList = s.awaitList) (ready : t.ready = s.ready) (old : (s.port p).state.post = .holds h)
    (place : v.state.place = .saved p) (seed : v.seedPort = u.seedPort) : t.Linked := by
  have was : u.state.place = .held p := by
    obtain ⟨w, hw, hp⟩ := (L.held p h).1 old; rw [e] at hw; cases hw; exact hp
  have noseed : v.seedPort = none := by rw [seed]; refine L.noSeed e ?_; rw [was]; nofun
  have Q : Queued s t h v := L.queuedOff e (by rw [was]; nofun) (by rw [place]; nofun) ready
  refine L.change e (.saves h) E.free E.gen E.none E.task E.post (await ▸ L.awaitNodup) (fun q => ?_) Q.1 Q.2
    (fun q hq => ⟨?_, ?_, by rw [seed]⟩) (fun k hk => ?_) ⟨nofun, fun c => by rw [place] at c; cases c⟩
    ⟨fun _ => place, fun _ => rfl⟩ ⟨nofun, fun c => by rw [noseed] at c; cases c⟩
    (fun c => by rw [noseed] at c; cases c)
  · rw [await]
    split
    case isTrue hq => subst hq; refine iff_of_false (fun c => ?_) nofun; rw [L.await, old] at c; cases c
    case isFalse => rfl
  · rw [place, was]; exact iff_of_false nofun fun c => hq (TaskPlace.held.inj c).symm
  · rw [place, was]; exact iff_of_false (fun c => hq (TaskPlace.saved.inj c).symm) nofun
  · rw [old]
    exact ⟨iff_of_false nofun fun c => hk (PortPost.holds.inj c).symm,
      iff_of_false (fun c => hk (PortPost.saves.inj c).symm) nofun, iff_of_false nofun nofun⟩

/-- A port begins to seed a stopped task (R47). -/
theorem Linked.startSeed (L : s.Linked) (e : s.task? h = some u) (E : Engages s t h v p (.seeds h))
    (await : t.awaitList = s.awaitList) (ready : t.ready = s.ready) (old : (s.port p).state.post = .none)
    (place : u.state.place = .stopped) (state : v.state = u.state) (free : u.seedPort = none)
    (seed : v.seedPort = some p) : t.Linked := by
  have Q : Queued s t h v := L.queuedOff e (by rw [place]; nofun) (by rw [state, place]; nofun) ready
  refine L.change e (.seeds h) E.free E.gen E.none E.task E.post (await ▸ L.awaitNodup) (fun q => ?_) Q.1 Q.2
    (fun q hq => ⟨by rw [state], by rw [state], ?_⟩) (fun k hk => ?_) ⟨nofun, fun c => by rw [state, place] at c; cases c⟩
    ⟨nofun, fun c => by rw [state, place] at c; cases c⟩ ⟨fun _ => seed, fun _ => rfl⟩
    (fun _ => by rw [state, place])
  · rw [await]
    split
    case isTrue hq => subst hq; refine iff_of_false (fun c => ?_) nofun; rw [L.await, old] at c; cases c
    case isFalse => rfl
  · rw [seed, free]; exact iff_of_false (fun c => hq (Option.some.inj c).symm) nofun
  · rw [old]
    exact ⟨iff_of_false nofun nofun, iff_of_false nofun nofun,
      iff_of_false (fun c => hk (PortPost.seeds.inj c).symm) nofun⟩

/-- A port ends its seed, by commit, loss or abort (R18, R48, R188). -/
theorem Linked.endSeed (L : s.Linked) (e : s.task? h = some u) (E : Engages s t h v p .none)
    (await : t.awaitList = s.awaitList) (ready : t.ready = s.ready) (old : (s.port p).state.post = .seeds h)
    (place : v.state.place = u.state.place) (seed : v.seedPort = none) : t.Linked := by
  have was : u.seedPort = some p := by
    obtain ⟨w, hw, hp⟩ := (L.seeded p h).1 old; rw [e] at hw; cases hw; exact hp
  have stopped : u.state.place = .stopped := L.seedStopped h u e (by rw [was]; rfl)
  have Q : Queued s t h v := L.queuedOff e (by rw [stopped]; nofun) (by rw [place, stopped]; nofun) ready
  refine L.change e .none E.free E.gen E.none E.task E.post (await ▸ L.awaitNodup) (fun q => ?_) Q.1 Q.2
    (fun q hq => ⟨by rw [place], by rw [place], ?_⟩) (fun k hk => ?_)
    ⟨nofun, fun c => by rw [place, stopped] at c; cases c⟩
    ⟨nofun, fun c => by rw [place, stopped] at c; cases c⟩ ⟨nofun, fun c => by rw [seed] at c; cases c⟩
    (fun c => by rw [seed] at c; cases c)
  · rw [await]
    split
    case isTrue hq => subst hq; refine iff_of_false (fun c => ?_) nofun; rw [L.await, old] at c; cases c
    case isFalse => rfl
  · rw [seed, was]; exact iff_of_false nofun fun c => hq (Option.some.inj c).symm
  · rw [old]
    exact ⟨iff_of_false nofun nofun, iff_of_false nofun nofun,
      iff_of_false nofun fun c => hk (PortPost.seeds.inj c).symm⟩

/-- A task changes and no port does: it keeps its port, its check-in and its seeding port. -/
theorem Linked.retask (L : s.Linked) (e : s.task? h = some u) (E : Engages s t h v 0 (s.port 0).state.post)
    (await : t.awaitList = s.awaitList) (Q : Queued s t h v)
    (held : ∀ q, v.state.place = .held q ↔ u.state.place = .held q)
    (saved : ∀ q, v.state.place = .saved q ↔ u.state.place = .saved q) (seed : v.seedPort = u.seedPort)
    (stopped : u.state.place = .stopped → v.state.place = .stopped) : t.Linked := by
  have name (P : Task → Prop) : (∃ w, s.task? h = some w ∧ P w) ↔ P u := by rw [e]; simp
  refine L.change e _ E.free E.gen E.none E.task E.post (await ▸ L.awaitNodup) (fun q => ?_) Q.1 Q.2
    (fun q _ => ⟨held q, saved q, by rw [seed]⟩) (fun k _ => ⟨Iff.rfl, Iff.rfl, Iff.rfl⟩) ?_ ?_ ?_
    (fun c => ?_)
  · rw [await]
    split
    case isTrue hq => subst hq; exact L.await 0
    case isFalse => rfl
  · rw [L.held, name, held]
  · rw [L.saved, name, saved]
  · rw [L.seeded, name, seed]
  · exact stopped (L.seedStopped h u e (by rw [← seed]; exact c))

/-- Ports with no task change: they wait or not. -/
theorem Linked.wait (L : s.Linked) (free : t.freeSlots = s.freeSlots) (tasks : t.tasks = s.tasks)
    (ready : t.ready = s.ready) (old : (s.port p).state.post = .none ∨ (s.port p).state.post = .waits)
    (new : post' = .none ∨ post' = .waits)
    (post : ∀ q, (t.port q).state.post = if q = p then post' else (s.port q).state.post)
    (awaitNodup : t.awaitList.Nodup)
    (await : ∀ q, q ∈ t.awaitList ↔ if q = p then post' = .waits else q ∈ s.awaitList) : t.Linked := by
  have no (P : PortPost) (hP : P ≠ .none) (hP' : P ≠ .waits) (q : Port) :
      (t.port q).state.post = P ↔ (s.port q).state.post = P := by
    rw [post]
    split
    case isTrue hq =>
      subst hq
      refine iff_of_false ?_ ?_
      · rcases new with n | n <;> rw [n] <;> first | exact hP.symm | exact hP'.symm
      · rcases old with n | n <;> rw [n] <;> first | exact hP.symm | exact hP'.symm
    case isFalse => rfl
  refine ⟨free ▸ L.freeNodup, fun k => by rw [free, tasks]; exact L.free k, fun k => by rw [tasks]; exact L.generation k,
    awaitNodup, fun q => ?_, fun q k => ?_, fun q k => ?_, fun q k => ?_, fun k w hw => ?_,
    fun q => by rw [ready]; exact L.readyNodup q, fun q k => ?_⟩
  · rw [await, post]; split
    · rfl
    · exact L.await q
  · rw [no (.holds k) nofun nofun, task?_congr tasks]; exact L.held q k
  · rw [no (.saves k) nofun nofun, task?_congr tasks]; exact L.saved q k
  · rw [no (.seeds k) nofun nofun, task?_congr tasks]; exact L.seeded q k
  · rw [task?_congr tasks] at hw; exact L.seedStopped k w hw
  · rw [ready, task?_congr tasks]; exact L.ready q k

end State
end Sys2Proof.Machine
end

