-- ==== Sys2Proof/Laws/LinkedCommands.lean ====
section
/-! SUPPORT. Every command and every event keeps `State.Linked`; one lemma per operation that is not made of moves
alone. -/

namespace Sys2Proof.Machine
namespace State
variable {s t : State} {h : Handle} {u v : Task} {p : Port}

/-! ### Undoing a wait -/

theorem dropPendingSend_ports : (s.dropPendingSend h).ports = s.ports := by
  unfold dropPendingSend; split
  · split <;> simp
  · rfl

theorem dropPendingSend_awaitList : (s.dropPendingSend h).awaitList = s.awaitList := by
  unfold dropPendingSend; split
  · split <;> simp
  · rfl

theorem dropPendingSend_ready : (s.dropPendingSend h).ready = s.ready := by
  unfold dropPendingSend; split
  · split <;> simp
  · rfl

theorem dropPendingSend_task? (k : Handle) : (s.dropPendingSend h).task? k =
    if k = h then (s.task? h).map fun t => { t with pendingSend := none } else s.task? k := by
  unfold dropPendingSend
  split
  case h_1 t e =>
    split
    case h_1 => rw [task?_modTask]; simp
    case h_2 e' =>
      split
      case isTrue hk => subst hk; rw [e]; simp [← e']
      case isFalse => rfl
  case h_2 e =>
    split
    case isTrue hk => subst hk; rw [e]; rfl
    case isFalse => rfl

theorem undoWait_port (q : Port) : (s.undoWait h).port q = s.port q := port_congr dropPendingSend_ports q

theorem undoWait_awaitList : (s.undoWait h).awaitList = s.awaitList := dropPendingSend_awaitList

theorem undoWait_ready : (s.undoWait h).ready = s.ready := dropPendingSend_ready

theorem undoWait_task? (k : Handle) : (s.undoWait h).task? k =
    if k = h then (s.task? h).map fun t => { t with pendingSend := none } else s.task? k := dropPendingSend_task? k

/-! ### The loss of a port -/

theorem lose_post (u : PortUnit) (cause : LossCause) : (u.lose cause).state.post = .none := by
  cases cause <;> rfl

/-- A port with nothing to do for a task changes, and has nothing to do for one. -/
theorem Linked.idle (L : s.Linked) {f : PortUnit → PortUnit} (old : (s.port p).state.post = .none)
    (new : (f (s.port p)).state.post = .none) : (s.modPort p f).Linked := L.modPort (new.trans old.symm)

theorem loseWork_linked (L : s.Linked) (cause : LossCause) :
    ((s.modPort p fun u => u.lose cause).loseWork p (s.port p).state cause).Linked := by
  have post (q : Port) : ((s.modPort p fun u => u.lose cause).port q).state.post =
      if q = p then .none else (s.port q).state.post := by
    rw [modPort_port]; split
    · exact lose_post _ _
    · rfl
  have ident (t : State) (R : Reacts (s.modPort p fun u => u.lose cause) t) (k : Slot) :
      t.tasks[k].identity = s.tasks[k].identity := R.identity k
  unfold loseWork
  split
  case h_1 hst => exact L.idle (by rw [hst]; rfl) (lose_post _ _)
  case h_2 hst => exact L.idle (by rw [hst]; rfl) (lose_post _ _)
  case h_3 hst => exact L.idle (by rw [hst]; rfl) (lose_post _ _)
  case h_4 hst =>
    refine L.wait (p := p) (post' := .none) rfl rfl rfl (.inr (by rw [hst]; rfl)) (.inl rfl) post
      (L.awaitNodup.filter _) fun q => ?_
    simp only [leaveAwait, modPort_awaitList, List.mem_filter, decide_eq_true_eq]
    split
    case isTrue hq => simp [hq]
    case isFalse hq => simp [hq]
  case h_5 k n pos hst =>
    have old : (s.port p).state.post = .holds k := by rw [hst]; rfl
    obtain ⟨u, e, place⟩ := (L.held p k).1 old
    have e1 : ((s.modPort p fun u => u.lose cause).setTaskState k .ready).task? k =
        some { u with state := .ready } := by
      rw [setTaskState_eq, task?_modTask, modPort_task?, e, if_pos rfl]; rfl
    have base : (((s.modPort p fun u => u.lose cause).setTaskState k .ready).enqueueHead k).Linked := by
      refine L.leave (v := { u with state := .ready }) e (.of ?_ (ident _ ?_) (fun k' => ?_) fun q => ?_) ?_ (.inl old)
        (.inr (.inr rfl)) rfl (L.queuedOn e (by rw [place]; nofun) rfl (.inr rfl) ?_)
      · rw [enqueueHead_of e1]; simp
      · exact (setTaskState_reacts _ k _).trans (enqueueHead_reacts _ k)
      · rw [enqueueHead_of e1]
        change (((s.modPort p fun u => u.lose cause).setTaskState k .ready)).task? k' = _
        rw [setTaskState_eq, task?_modTask, modPort_task?, e]; rfl
      · rw [enqueueHead_of e1]
        change (((s.modPort p fun u => u.lose cause).setTaskState k .ready).port q).state.post = _
        rw [setTaskState_eq, modTask_port]; exact post q
      · rw [enqueueHead_of e1]; simp
      · rw [enqueueHead_of e1]; simp
    refine (offer_moves _ (t := { u with state := .ready }) ?_ rfl).linked base
    rw [enqueueHead_of e1]; exact e1
  case h_6 k r hst =>
    have old : (s.port p).state.post = .holds k := by rw [hst]; rfl
    obtain ⟨u, e, place⟩ := (L.held p k).1 old
    refine (raiseFault_moves _ _).linked ?_
    have R : Reacts (s.modPort p fun u => u.lose cause)
        (if r then (s.modPort p fun u => u.lose cause).clearReceivePending k
          else s.modPort p fun u => u.lose cause) := by
      split
      · exact (clearReceivePending_moves _ k).reacts
      · exact .refl _
    refine L.leave (v := { u with state := .halted .portLost }) e (.of ?_ (ident _ ?_) (fun k' => ?_) fun q => ?_) ?_
      (.inl old) (.inl rfl) rfl (L.queuedOff e (by rw [place]; nofun) nofun ?_)
    · split <;> simp
    · exact R.trans (setTaskState_reacts _ k _)
    · rw [setTaskState_eq, task?_modTask]; split <;> split <;> simp [e]
    · rw [setTaskState_eq, modTask_port]
      split
      · rw [clearReceivePending_eq, modInbox_port]; exact post q
      · exact post q
    · split <;> simp
    · split <;> simp
  case h_7 k w hst =>
    have old : (s.port p).state.post = .saves k := by rw [hst]; rfl
    obtain ⟨u, e, place⟩ := (L.saved p k).1 old
    refine (raiseFault_moves _ _).linked ?_
    refine L.leave (v := { u with pendingSend := none, state := .halted .portLost }) e
      (.of ?_ (ident _ ?_) (fun k' => ?_) fun q => ?_) ?_
      (.inr old) (.inl rfl) rfl (L.queuedOff e (by rw [place]; nofun) nofun ?_)
    · rw [setTaskState_eq, modTask_freeSlots, (undoWait_moves _ k).reacts.freeSlots]; rfl
    · exact (undoWait_moves _ k).reacts.trans (setTaskState_reacts _ k _)
    · rw [setTaskState_eq, task?_modTask, undoWait_task?, undoWait_task?]; split <;> simp [*]
    · rw [setTaskState_eq, modTask_port, undoWait_port]; exact post q
    · rw [setTaskState_eq, modTask_awaitList, undoWait_awaitList]; rfl
    · rw [setTaskState_eq, modTask_ready, undoWait_ready]; rfl
  case h_8 k w hst =>
    have old : (s.port p).state.post = .seeds k := by rw [hst]; rfl
    obtain ⟨u, e, place⟩ := (L.seeded p k).1 old
    refine L.endSeed (v := { u with seedPort := none }) e
      (.of ?_ (fun k' => ?_) (fun k' => ?_) fun q => ?_) ?_ ?_ old rfl rfl
    · simp
    · refine ident _ ?_ k'
      exact modTask_reacts _ fun _ => rfl
    · rw [task?_modTask, modPort_task?, modPort_task?, e]; rfl
    · rw [modTask_port]; exact post q
    · simp
    · simp

theorem losePort_linked (L : s.Linked) (p : Port) (cause : LossCause) : (s.losePort p cause).Linked :=
  (evalPreempt_moves _).linked (loseWork_linked L cause)

/-! ### A task out of what holds it -/

/-- `t` is `s` with task `h` out of its ready queue and off its port; its record stands where it did. -/
structure Detached (s t : State) (h : Handle) (u : Task) : Prop where
  free : t.freeSlots = s.freeSlots
  identity : ∀ k : Slot, t.tasks[k].identity = s.tasks[k].identity
  task : ∃ u', u'.anchor = u.anchor ∧ ∀ k, t.task? k = if k = h then some u' else s.task? k
  post : ∀ q, (t.port q).state.post =
    if u.state.currentPort = some q then .none else (s.port q).state.post
  await : t.awaitList = s.awaitList
  readyNodup : ∀ q : Priority, t.ready[q].Nodup
  ready : ∀ (q : Priority) k, k ∈ t.ready[q] ↔ k ≠ h ∧ k ∈ s.ready[q]

theorem anchor_pendingSend (u : Task) : { u with pendingSend := none }.anchor = u.anchor := rfl

theorem Detached.undoWait (D : Detached s t h u) : Detached s (t.undoWait h) h u := by
  obtain ⟨u', ha, ht⟩ := D.task
  have R := (undoWait_moves t h).reacts
  refine ⟨R.freeSlots.trans D.free, fun k => (R.identity k).trans (D.identity k),
    ⟨{ u' with pendingSend := none }, ha, fun k => ?_⟩, fun q => by rw [undoWait_port]; exact D.post q,
    undoWait_awaitList.trans D.await, fun q => by rw [undoWait_ready]; exact D.readyNodup q,
    fun q k => by rw [undoWait_ready]; exact D.ready q k⟩
  rw [undoWait_task?, ht, if_pos rfl, ht]
  split <;> rfl

theorem abandonReceive_views (s : State) (q : Port) :
    (s.abandonReceive q).tasks = s.tasks ∧ (s.abandonReceive q).ports = s.ports ∧
      (s.abandonReceive q).awaitList = s.awaitList ∧ (s.abandonReceive q).ready = s.ready ∧
      (s.abandonReceive q).freeSlots = s.freeSlots := by
  unfold abandonReceive; split <;> exact ⟨rfl, rfl, rfl, rfl, rfl⟩

/-- A task that is in no ready queue, with nothing changed. -/
theorem Linked.detachedSelf (L : s.Linked) (e : s.task? h = some u) (port : u.state.currentPort = none)
    (place : u.state.place ≠ .ready) : Detached s s h u where
  free := rfl
  identity _ := rfl
  task := ⟨u, rfl, fun k => by
    split
    · subst_vars; exact e
    · rfl⟩
  post q := by rw [port, if_neg nofun]
  await := rfl
  readyNodup := L.readyNodup
  ready q k := ⟨fun hk => ⟨fun c => L.notReady e place q (c ▸ hk), hk⟩, And.right⟩

theorem Linked.detachedEvict (L : s.Linked) (e : s.task? h = some u) {q : Port} (port : u.state.currentPort = some q)
    (place : u.state.place ≠ .ready) (code : ResultCode) : Detached s (s.evict q h code) h u := by
  obtain ⟨vt, vp, va, vr, vf⟩ := abandonReceive_views s q
  have R := s.evict_steady q h code
  refine ⟨R.freeSlots, R.identity, ⟨{ u with pendingSend := none }, rfl, fun k => ?_⟩, fun r => ?_, ?_, fun r => ?_,
    fun r k => ?_⟩
  · unfold evict
    rw [evictPort_eq, modPort_task?, undoWait_task?, task?_congr vt, task?_congr vt, e]; rfl
  · unfold evict
    rw [evictPort_eq, modPort_port, undoWait_port, undoWait_port, port_congr vp, port_congr vp, port]
    by_cases hr : r = q
    · subst hr; simp; rfl
    · have : q ≠ r := Ne.symm hr
      simp [hr, this]
  · unfold evict
    rw [evictPort_eq, modPort_awaitList, undoWait_awaitList, va]
  · unfold evict
    rw [evictPort_eq, modPort_ready, undoWait_ready, vr]; exact L.readyNodup r
  · unfold evict
    rw [evictPort_eq, modPort_ready, undoWait_ready, vr]
    exact ⟨fun hk => ⟨fun c => L.notReady e place r (c ▸ hk), hk⟩, And.right⟩

theorem Linked.detachTask (L : s.Linked) (e : s.task? h = some u) (code : ResultCode) :
    Detached s (s.detachTask h u.state code) h u := by
  unfold State.detachTask
  split
  case h_1 hst => exact L.detachedSelf e (by rw [hst]; rfl) (by rw [hst]; nofun)
  case h_2 hst => exact L.detachedSelf e (by rw [hst]; rfl) (by rw [hst]; nofun)
  case h_3 hst =>
    have R := s.dequeue_reacts h
    refine ⟨R.freeSlots, R.identity, ⟨u, rfl, fun k => ?_⟩, fun q => ?_, ?_, fun q => (dequeue_ready e L q).1,
      fun q k => (dequeue_ready e L q).2 k⟩
    · rw [dequeue_of e]
      change s.task? k = _
      split
      · subst_vars; exact e
      · rfl
    · rw [hst, dequeue_of e]; rfl
    · rw [dequeue_of e]
  case h_4 q hst => exact L.detachedEvict e (by rw [hst]; rfl) (by rw [hst]; nofun) code
  case h_5 q d x hst => exact L.detachedEvict e (by rw [hst]; rfl) (by rw [hst]; nofun) code
  all_goals
    rename_i hst
    exact (L.detachedSelf e (by rw [hst]; rfl) (by rw [hst]; nofun)).undoWait

/-- A detached task is stopped. -/
theorem Linked.stop (L : s.Linked) (e : s.task? h = some u) (D : Detached s t h u) {g : Task → Task}
    (identity : ∀ w, ((g w).priority, (g w).affinity, (g w).frameLength, (g w).extension) =
      (w.priority, w.affinity, w.frameLength, w.extension))
    (place : ∀ w, (g w).state.place = .stopped) (seed : ∀ w, (g w).seedPort = w.seedPort) :
    (t.modTask h g).Linked := by
  obtain ⟨u', ha, ht⟩ := D.task
  have seed' : (g u').seedPort = u.seedPort := by
    rw [seed]; exact congrArg (fun z => z.2.2) ha
  have Q : Queued s (t.modTask h g) h (g u') := by
    refine ⟨fun q => by rw [modTask_ready]; exact D.readyNodup q, fun q k => ?_⟩
    rw [modTask_ready, D.ready, place]
    split
    case isTrue hk => simp [hk]
    case isFalse hk => simp [hk]
  have task (k : Handle) : (t.modTask h g).task? k = if k = h then some (g u') else s.task? k := by
    rw [task?_modTask, ht, if_pos rfl, ht]
    split <;> rfl
  have R := t.modTask_reacts (h := h) (f := g) identity
  have free : (t.modTask h g).freeSlots = s.freeSlots := R.freeSlots.trans D.free
  have ident (k : Slot) : (t.modTask h g).tasks[k].identity = s.tasks[k].identity :=
    (R.identity k).trans (D.identity k)
  cases port : u.state.currentPort with
  | none =>
    have notport (P : TaskPlace) (hP : ∃ q, P = .held q ∨ P = .saved q) : u.state.place ≠ P := by
      obtain ⟨q, rfl | rfl⟩ := hP <;> (intro c; cases hs : u.state <;> rw [hs] at port c <;> cases port <;> cases c)
    refine L.retask e (.of free ident task fun q => ?_) (by rw [modTask_awaitList, D.await]) Q
      (fun q => iff_of_false (by rw [place]; nofun) (notport _ ⟨q, .inl rfl⟩))
      (fun q => iff_of_false (by rw [place]; nofun) (notport _ ⟨q, .inr rfl⟩)) seed' fun _ => place _
    rw [modTask_port, D.post, port, if_neg nofun]
    split
    · subst_vars; rfl
    · rfl
  | some q =>
    have old : (s.port q).state.post = .holds h ∨ (s.port q).state.post = .saves h := by
      cases hs : u.state <;> rw [hs] at port <;> cases port
      · exact .inl ((L.held _ _).2 ⟨u, e, by rw [hs]; rfl⟩)
      · exact .inr ((L.saved _ _).2 ⟨u, e, by rw [hs]; rfl⟩)
    refine L.leave e (.of free ident task fun r => ?_) (by rw [modTask_awaitList, D.await]) old (.inl (place _)) seed' Q
    rw [modTask_port, D.post, port]
    by_cases hr : r = q
    · subst hr; simp
    · have : q ≠ r := Ne.symm hr
      simp [hr, this]

theorem answerEvicter_moves (s : State) (p : Port) (st : TaskState) : Moves s (s.answerEvicter p st) := by
  unfold answerEvicter; split
  · exact .refl s
  · exact s.setResult_moves p _ _

theorem haltTask_linked (L : s.Linked) (e : s.task? h = some u) (p : Port) : (s.haltTask p h u).Linked := by
  refine (evalPreempt_moves _).linked ((answerEvicter_moves _ _ _).linked ?_)
  exact L.stop e (L.detachTask e _) (fun _ => rfl) (fun _ => rfl) fun _ => rfl

/-- A stopped task that no port seeds. -/
def Idle (s : State) (h : Handle) : Prop :=
  ∃ w, s.task? h = some w ∧ w.state.place = .stopped ∧ w.seedPort = none

theorem Idle.of_anchor {w : Task} (e : t.task? h = some w) (a : w.anchor = u.anchor)
    (place : u.state.place = .stopped) (seed : u.seedPort = none) : Idle t h :=
  ⟨w, e, (congrArg (fun z => z.2.1) a).trans place, (congrArg (fun z => z.2.2) a).trans seed⟩

/-- No move takes up a stopped task. -/
theorem Idle.move (I : Idle s h) (m : Move s t) : Idle t h := by
  obtain ⟨w, e, place, seed⟩ := I
  have other {k : Handle} {x : Task} (hk : s.task? k = some x) (hx : x.state.place ≠ .stopped) : h ≠ k := by
    rintro rfl; rw [e] at hk; cases hk; exact hx place
  cases m with
  | port => exact ⟨w, e, place, seed⟩
  | task h' f anchor =>
    by_cases hk : h = h'
    · subst hk
      exact .of_anchor (s.task?_modTask_self f e) (anchor w e) place seed
    · exact ⟨w, by rw [s.task?_modTask_ne f hk]; exact e, place, seed⟩
  | inbox => exact ⟨w, e, place, seed⟩
  | line => exact ⟨w, e, place, seed⟩
  | lines => exact ⟨w, by rw [mapLines_task?]; exact e, place, seed⟩
  | rest =>
    rename_i tasks _ _ _
    exact ⟨w, by rw [task?_congr tasks]; exact e, place, seed⟩
  | wake h' x task waiting =>
    refine ⟨w, ?_, place, seed⟩
    have e1 : (s.setTaskState h' .ready).task? h' = some { x with state := .ready } := s.task?_modTask_self _ task
    rw [enqueueTail_of e1]
    change (s.setTaskState h' .ready).task? h = _
    rw [setTaskState_eq, s.task?_modTask_ne _ (other task (by rw [waiting]; nofun))]; exact e
  | give q h' x await task ready =>
    refine ⟨w, ?_, place, seed⟩
    have hne := other task (by rw [ready]; nofun)
    have e0 : (s.leaveAwait q).task? h' = some x := task
    have e1 : ((s.leaveAwait q).dequeue h').task? h' = some x := by rw [dequeue_of e0]; exact e0
    unfold State.handOff beginCheckOut
    rw [e1]
    change (((s.leaveAwait q).dequeue h').setTaskState h' (.running q)).task? h = _
    rw [setTaskState_eq, task?_modTask_ne _ _ hne, dequeue_of e0]; exact e
  | answer => exact ⟨w, e, place, seed⟩

theorem Idle.moves (I : Idle s h) (m : Moves s t) : Idle t h := by
  induction m with
  | refl => exact I
  | step _ n ih => exact ih.move n

/-- R22 leaves the task stopped, with no port seeding it. -/
theorem removeTask_linked (L : s.Linked) (e : s.task? h = some u) :
    (s.removeTask h u).Linked ∧ Idle (s.removeTask h u) h := by
  have tail (a : State) (La : a.Linked) (Ia : Idle a h) :
      (a.returnSlots u.bound.toList).Linked ∧ Idle (a.returnSlots u.bound.toList) h :=
    have m := returnSlots_moves a u.bound.toList
    ⟨m.linked La, Ia.moves m⟩
  unfold removeTask
  cases hseed : u.seedPort with
  | none =>
    have D := (L.detachTask e .gone).undoWait
    refine tail _ (L.stop e D (fun _ => rfl) (fun _ => rfl) fun _ => rfl) ?_
    obtain ⟨u', ha, ht⟩ := D.task
    refine ⟨{ u' with state := .dormant, bound := none }, task?_modTask_self _ (t := u') _ ?_, rfl, ?_⟩
    · change ((s.detachTask h u.state .gone).undoWait h).task? h = _
      rw [ht, if_pos rfl]
    · exact (congrArg (fun z => z.2.2) ha).trans hseed
  | some q =>
    have stopped : u.state.place = .stopped := L.seedStopped h u e (by rw [hseed]; rfl)
    have self : s.detachTask h u.state .gone = s := by
      cases hs : u.state <;> rw [hs] at stopped <;> first | rfl | cases stopped
    rw [self]
    have task (k : Handle) : (s.abortSeed h (some q)).task? k =
        if k = h then some { u with seedPort := none } else s.task? k := by
      unfold abortSeed
      rw [task?_modTask, evictPort_eq, modPort_task?, modPort_task?, e]; rfl
    have La : (s.abortSeed h (some q)).Linked := by
      refine L.endSeed e (.of ?_ (s.abortSeed_steady h (some q)).identity task fun r => ?_) ?_ ?_
        ((L.seeded q h).2 ⟨u, e, hseed⟩) rfl rfl
      · exact (s.abortSeed_steady h (some q)).freeSlots
      · unfold abortSeed
        rw [modTask_port, evictPort_eq, modPort_port]
        split <;> rfl
      · unfold abortSeed; simp
      · unfold abortSeed; simp
    have Ia : Idle (s.abortSeed h (some q)) h := ⟨_, (task h).trans (if_pos rfl), stopped, rfl⟩
    have m := undoWait_moves (s.abortSeed h (some q)) h
    have Lb := m.linked La
    have eb : ((s.abortSeed h (some q)).undoWait h).task? h =
        some { { u with seedPort := none } with pendingSend := none } := by
      rw [undoWait_task?, if_pos rfl, task, if_pos rfl]; rfl
    have step : Move ((s.abortSeed h (some q)).undoWait h) (((s.abortSeed h (some q)).undoWait h).modTask h
        fun t => { t with state := .dormant, bound := none }) := by
      refine .task _ h _ fun w hw => ?_
      rw [eb] at hw; cases hw
      simp only [Task.anchor]; rw [stopped]; rfl
    exact tail _ (step.linked Lb) ((Ia.moves m).move step)

/-! ### Slots taken and given back -/

/-- Records of stopped tasks that no port seeds may come and go. -/
theorem Linked.strangers (L : s.Linked) (freeNodup : t.freeSlots.Nodup)
    (free : ∀ k : Slot, k ∈ t.freeSlots ↔ t.tasks[k].task = none) (generation : ∀ k : Slot, t.tasks[k].gen ≠ 0#10)
    (await : t.awaitList = s.awaitList) (ports : t.ports = s.ports) (ready : t.ready = s.ready)
    (task : ∀ k, t.task? k = s.task? k ∨
      (∀ w, t.task? k = some w → w.state.place = .stopped ∧ w.seedPort = none) ∧
        ∀ w, s.task? k = some w → w.state.place = .stopped ∧ w.seedPort = none) : t.Linked := by
  have key (k : Handle) (P : Task → Prop) (hP : ∀ w, w.state.place = .stopped → w.seedPort = none → ¬ P w) :
      (∃ w, t.task? k = some w ∧ P w) ↔ ∃ w, s.task? k = some w ∧ P w := by
    rcases task k with e | ⟨ht, hs⟩
    · rw [e]
    · refine iff_of_false ?_ ?_
      · rintro ⟨w, hw, hp⟩; exact hP w (ht w hw).1 (ht w hw).2 hp
      · rintro ⟨w, hw, hp⟩; exact hP w (hs w hw).1 (hs w hw).2 hp
  refine ⟨freeNodup, free, generation, await ▸ L.awaitNodup, fun q => ?_, fun q k => ?_, fun q k => ?_, fun q k => ?_,
    fun k w hw hs => ?_, fun q => by rw [ready]; exact L.readyNodup q, fun q k => ?_⟩
  · rw [await, port_congr ports]; exact L.await q
  · rw [port_congr ports, L.held, key k (fun w => w.state.place = .held q) fun w hp _ => by rw [hp]; nofun]
  · rw [port_congr ports, L.saved, key k (fun w => w.state.place = .saved q) fun w hp _ => by rw [hp]; nofun]
  · rw [port_congr ports, L.seeded, key k (fun w => w.seedPort = some q) fun w _ hn => by rw [hn]; nofun]
  · rcases task k with e | ⟨ht, -⟩
    · rw [e] at hw; exact L.seedStopped k w hw hs
    · exact (ht w hw).1
  · rw [ready, L.ready, key k (fun w => w.state.place = .ready ∧ w.priority = q) fun w hp _ => by rw [hp]; nofun]

theorem nextGeneration_ne_zero (g : BitVec 10) : nextGeneration g ≠ 0#10 := by
  unfold nextGeneration
  split
  · decide
  case isFalse h =>
    intro c
    apply h
    bv_omega

theorem freeSlot_linked (L : s.Linked) (I : Idle s h) : (s.freeSlot h).Linked := by
  obtain ⟨w, e, place, seed⟩ := I
  have ⟨hg, ht⟩ := s.task?_eq.1 e
  have get (k : Slot) : (s.freeSlot h).tasks[k] = if k = h.slot then ⟨nextGeneration h.gen, none⟩ else s.tasks[k] :=
    getElem_set_fin ..
  refine L.strangers (List.nodup_cons.2 ⟨fun c => ?_, L.freeNodup⟩) (fun k => ?_) (fun k => ?_) rfl rfl rfl fun k => ?_
  · rw [L.free, ht] at c; cases c
  · rw [get]
    change k ∈ h.slot :: s.freeSlots ↔ _
    rw [List.mem_cons]
    split
    case isTrue hk => simp [hk]
    case isFalse hk => rw [← L.free]; simp [hk]
  · rw [get]; split
    · exact nextGeneration_ne_zero _
    · exact L.generation k
  · by_cases hk : k.slot = h.slot
    · right
      refine ⟨fun x hx => ?_, fun x hx => ?_⟩
      · rw [task?_eq] at hx
        rw [get, if_pos hk] at hx
        cases hx.2
      · have hkh : k = h := by
          have := (s.task?_eq.1 hx).1
          have e1 : s.tasks[k.slot] = s.tasks[h.slot] := congrArg (fun j : Slot => s.tasks[j]) hk
          rw [e1, hg] at this
          cases k; cases h; simp_all
        subst hkh
        rw [e] at hx; cases hx; exact ⟨place, seed⟩
    · left
      rw [task?_slot, task?_slot, get, if_neg hk]

theorem createTask_linked (L : s.Linked) (p : Port) {w : Task} (place : w.state.place = .stopped)
    (seed : w.seedPort = none) : (s.createTask p w).Linked := by
  unfold createTask
  split
  case h_2 => exact (setResult_moves _ _ _ _).linked L
  case h_1 slot rest hf =>
    refine (setResult_moves _ _ _ _).linked ?_
    have nodup : (slot :: rest).Nodup := hf ▸ L.freeNodup
    have isfree : s.tasks[slot].task = none := (L.free slot).1 (by rw [hf]; exact List.mem_cons_self)
    have get (k : Slot) : ({ s with freeSlots := rest }.makeTask slot w).tasks[k] =
        if k = slot then ⟨s.tasks[slot].gen, some w⟩ else s.tasks[k] := getElem_set_fin ..
    refine L.strangers (List.nodup_cons.1 nodup).2 (fun k => ?_) (fun k => ?_) rfl rfl rfl fun k => ?_
    · rw [get]
      change k ∈ rest ↔ _
      have := L.free k
      rw [hf, List.mem_cons] at this
      split
      case isTrue hk => subst hk; simpa using (List.nodup_cons.1 nodup).1
      case isFalse hk => rw [← this]; simp [hk]
    · rw [get]; split
      · exact L.generation slot
      · exact L.generation k
    · by_cases hk : k.slot = slot
      · right
        refine ⟨fun x hx => ?_, fun x hx => ?_⟩
        · rw [task?_eq] at hx
          rw [get, if_pos hk] at hx
          cases hx.2; exact ⟨place, seed⟩
        · have := (s.task?_eq.1 hx).2
          have e1 : s.tasks[k.slot] = s.tasks[slot] := congrArg (fun j : Slot => s.tasks[j]) hk
          rw [e1, isfree] at this; cases this
      · left
        rw [task?_slot, task?_slot, get, if_neg hk]

theorem unsetSink_linked (L : s.Linked) (I : Idle s h) (k : Handle) :
    (s.unsetSink k).Linked ∧ Idle (s.unsetSink k) h :=
  ⟨L.congr rfl (fun _ => rfl) rfl (fun _ => rfl) (fun _ => rfl) rfl, I⟩

theorem disposeInbox_linked (L : s.Linked) (I : Idle s h) :
    (s.disposeInbox h).Linked ∧ Idle (s.disposeInbox h) h := by
  have m : Moves s (((s.emptyInbox h).releaseAllGone h).mapLines (LineRec.clearDestroyed h)) :=
    ((s.emptyInbox_moves h).trans (releaseAllGone_moves _ h)).trans (mapLines_moves _ fun r => clearDestroyed_level h r)
  unfold disposeInbox
  exact unsetSink_linked (m.linked L) (I.moves m) h

theorem destroy_linked (L : s.Linked) (p : Port) : (s.destroy p).Linked := by
  unfold destroy onNamed
  split
  case h_2 => exact (setResult_moves _ _ _ _).linked L
  case h_1 u e =>
    refine (evalPreempt_moves _).linked ((answerEvicter_moves _ _ _).linked ?_)
    obtain ⟨L1, I1⟩ := removeTask_linked L e
    obtain ⟨L2, I2⟩ := disposeInbox_linked L1 I1
    exact freeSlot_linked L2 I2

/-! ### Port commands -/

/-- The views of which `Linked` speaks are the same. -/
theorem Linked.same (L : s.Linked) (free : t.freeSlots = s.freeSlots := by rfl) (tasks : t.tasks = s.tasks := by rfl)
    (await : t.awaitList = s.awaitList := by rfl) (ports : t.ports = s.ports := by rfl)
    (ready : t.ready = s.ready := by rfl) : t.Linked :=
  L.congr free (fun k => by rw [tasks]) await (fun p => by rw [port_congr ports])
    (fun h => by rw [task?_congr tasks]) ready

/-- A port unit changes and not its state. -/
theorem Linked.onPort (L : s.Linked) {f : PortUnit → PortUnit} (state : ∀ u, (f u).state = u.state) :
    (s.modPort p f).Linked := L.modPort (by rw [state])

theorem attach_linked (L : s.Linked) (old : (s.port p).state.post = .none) : (s.attach p).Linked :=
  (setResult_moves _ _ _ _).linked (L.idle old rfl)

theorem detach_linked (L : s.Linked) (old : (s.port p).state.post = .none) : (s.detach p).Linked :=
  (setResult_moves _ _ _ _).linked (L.idle old rfl)

theorem revoke_linked (L : s.Linked) (p : Port) : (s.revoke p).Linked := by
  have r (c : ResultCode) : (s.setResult p c 0#16).Linked := (setResult_moves _ _ _ _).linked L
  unfold revoke
  split
  · split
    · exact r _
    · split
      · exact (setResult_moves _ _ _ _).linked (losePort_linked L _ _)
      · exact r _
  · exact r _

theorem beginService_linked (L : s.Linked) (p : Port) : (s.beginService p).Linked := by
  unfold beginService
  split
  · exact (setResult_moves _ _ _ _).linked L
  · exact (setResult_moves _ _ _ _).linked (L.same (t := s.enterService))

/-! ### Asking for a task and giving it up -/

theorem select_ready (L : s.Linked) (e : s.select p = some h) :
    ∃ u, s.task? h = some u ∧ u.state.place = .ready := by
  unfold select at e
  obtain ⟨q, -, hq⟩ := List.exists_of_findSome?_eq_some e
  obtain ⟨u, hu, hp, -⟩ := (L.ready q h).1 (List.mem_of_find?_eq_some hq)
  exact ⟨u, hu, hp⟩

theorem dispatch_linked (L : s.Linked) (old : (s.port p).state.post = .none) : (s.dispatch p).Linked := by
  unfold dispatch
  refine (evalPreempt_moves _).linked ?_
  split
  case h_1 k hk =>
    obtain ⟨u, e, place⟩ := select_ready L hk
    exact (setResult_moves _ _ _ _).linked (L.handOff e place (.inr old))
  case h_2 =>
    refine (setResult_moves _ _ _ _).linked ?_
    have off : p ∉ s.awaitList := fun c => by rw [L.await, old] at c; cases c
    refine L.wait (p := p) (post' := .waits) rfl rfl rfl (.inl old) (.inr rfl) (fun q => ?_)
      (L.awaitNodup.append (List.nodup_singleton p) (List.disjoint_singleton.2 off)) fun q => ?_
    · rw [setPortState_eq, modPort_port]; split <;> rfl
    · rw [setPortState_eq, modPort_awaitList]
      change q ∈ s.awaitList ++ [p] ↔ _
      rw [List.mem_append, List.mem_singleton]
      split
      case isTrue hq => simp [hq]
      case isFalse hq => simp [hq]

theorem cancel_linked (L : s.Linked) (p : Port) : (s.cancel p).Linked := by
  unfold cancel
  split
  case h_1 hst =>
    refine (setResult_moves _ _ _ _).linked ?_
    refine L.wait (p := p) (post' := .none) rfl rfl rfl (.inr (by rw [hst]; rfl)) (.inl rfl) (fun q => ?_)
      (L.awaitNodup.filter _) fun q => ?_
    · rw [setPortState_eq, modPort_port]; split <;> rfl
    · rw [setPortState_eq, modPort_awaitList]
      change q ∈ s.awaitList.filter _ ↔ _
      simp only [List.mem_filter, decide_eq_true_eq]
      split
      case isTrue hq => simp [hq]
      case isFalse hq => simp [hq]
  case h_2 k hst =>
    refine (setResult_moves _ _ _ _).linked ?_
    refine ((clearReceivePending_moves s k).linked L).modPort ?_
    rw [clearReceivePending_eq, modInbox_port, hst]; rfl
  all_goals exact (setResult_moves _ _ _ _).linked L

theorem onCurrent_linked (L : s.Linked) (p : Port) {f : Handle → Task → State}
    (hf : ∀ h r u, (s.port p).state = .run h r → s.task? h = some u → (f h u).Linked) :
    (s.onCurrent p f).Linked := by
  unfold onCurrent
  split
  case h_1 hst =>
    split
    · exact hf _ _ _ hst ‹_›
    · exact L
  all_goals exact L

/-- The current task of a port in RUN begins its check-in (R38). -/
theorem beginCheckIn_linked (L : s.Linked) {r : Bool} (hst : (s.port p).state = .run h r) (e : s.task? h = some u)
    (d : Disposition) (c : ResultCode) : (s.beginCheckIn p h d c).Linked := by
  unfold beginCheckIn
  refine (setResult_moves _ _ _ _).linked ?_
  refine L.save (v := { u with state := .saving p d false }) e
    (.of ?_ ((setTaskState_reacts s h _).trans (setPortState_reacts _ p _)).identity (fun k => ?_) fun q => ?_) ?_ ?_
    (by rw [hst]; rfl) rfl rfl
  · simp
  · rw [setPortState_eq, modPort_task?, setTaskState_eq, task?_modTask, e]; rfl
  · rw [setPortState_eq, modPort_port, setTaskState_eq, modTask_port]; split
    · rfl
    · rw [modTask_port]
  · simp
  · simp

theorem yield_linked (L : s.Linked) (p : Port) : (s.yield p).Linked := by
  refine onCurrent_linked L p fun h r u hst e => ?_
  split
  · exact (evalPreempt_moves _).linked (beginCheckIn_linked L hst e _ _)
  · exact (setResult_moves _ _ _ _).linked L

theorem exit_linked (L : s.Linked) (p : Port) : (s.exit p).Linked := by
  refine onCurrent_linked L p fun h r u hst e => ?_
  refine (evalPreempt_moves _).linked ((setResult_moves _ _ _ _).linked ?_)
  have old : (s.port p).state.post = .holds h := by rw [hst]; rfl
  have place : u.state.place = .held p := by
    obtain ⟨w, hw, hp⟩ := (L.held p h).1 old; rw [e] at hw; cases hw; exact hp
  refine L.leave (v := { u with state := .dormant }) e
    (.of ?_ ((setTaskState_reacts s h _).trans (setPortState_reacts _ p _)).identity (fun k => ?_) fun q => ?_) ?_
    (.inl old) (.inl rfl) rfl (L.queuedOff e (by rw [place]; nofun) nofun ?_)
  · simp
  · rw [setPortState_eq, modPort_task?, setTaskState_eq, task?_modTask, e]; rfl
  · rw [setPortState_eq, modPort_port, setTaskState_eq, modTask_port]; split
    · rfl
    · rw [modTask_port]
  · simp
  · simp

theorem armTimeout_linked (L : s.Linked) (h : Handle) (n : BitVec 16) (k : DeadlineKind) :
    (s.armTimeout h n k).Linked ∧ (s.armTimeout h n k).ports = s.ports ∧ (s.armTimeout h n k).tasks = s.tasks := by
  unfold armTimeout
  split
  · exact ⟨L, rfl, rfl⟩
  · exact ⟨L.same (t := s.insertDeadline h n k), rfl, rfl⟩

theorem sleep_linked (L : s.Linked) (p : Port) : (s.sleep p).Linked := by
  refine onCurrent_linked L p fun h r u hst e => ?_
  dsimp only
  split
  · exact (evalPreempt_moves _).linked (beginCheckIn_linked (s := s.insertDeadline h _ .sleep) L.same hst e _ _)
  · exact (setResult_moves _ _ _ _).linked L

/-! ### Messages -/

theorem beginSendWait_linked (L : s.Linked) {r : Bool} (hst : (s.port p).state = .run h r) (e : s.task? h = some u)
    (ps : PendingSend) (n : BitVec 16) : (s.beginSendWait p h ps n).Linked := by
  unfold beginSendWait
  refine (evalPreempt_moves _).linked ?_
  have m : Moves s ((s.modInbox ps.target fun ib => { ib with senders := ib.senders ++ [h] }).modTask h
      fun t => { t with pendingSend := some ps }) := by
    refine .trans ?_ (modTask_moves _ fun _ => rfl)
    exact s.modInbox_moves fun _ => rfl
  obtain ⟨L1, hp, ht⟩ := armTimeout_linked (m.linked L) h n .send
  refine beginCheckIn_linked (r := r) (u := { u with pendingSend := some ps }) L1 ?_ ?_ _ _
  · rw [port_congr hp, modTask_port, modInbox_port]; exact hst
  · rw [task?_congr ht, task?_modTask, if_pos rfl, modInbox_task?, e]; rfl

theorem send_linked (L : s.Linked) (p : Port) : (s.send p).Linked := by
  refine onCurrent_linked L p fun h r u hst e => ?_
  dsimp only
  split
  · exact (setResult_moves _ _ _ _).linked L
  split
  · exact (setResult_moves _ _ _ _).linked L
  split
  · exact beginSendWait_linked L hst e _ _
  · exact (((route_moves _ _ _ _).trans (setResult_moves _ _ _ _)).trans (evalPreempt_moves _)).linked L

theorem receive_linked (L : s.Linked) (p : Port) : (s.receive p).Linked := by
  refine onCurrent_linked L p fun h r u hst e => ?_
  dsimp only
  split
  · exact ((((deliverHead_moves _ _ _).trans (setResult_moves _ _ _ _)).trans (afterDelivery_moves _ _)).trans
      (evalPreempt_moves _)).linked L
  split
  · unfold beginReceivePending
    refine (refillCheck_moves _ _).linked ((setResult_moves _ _ _ _).linked ?_)
    have m : Moves s (s.modInbox h fun ib => { ib with recvPending := true }) := s.modInbox_moves fun _ => rfl
    refine (m.linked L).modPort ?_
    rw [modInbox_port, hst]; rfl
  split
  · exact (setResult_moves _ _ _ _).linked L
  split
  · obtain ⟨L1, hp, ht⟩ := armTimeout_linked L h (lowHalf (s.port p).args[0]) .recv
    refine (evalPreempt_moves _).linked (beginCheckIn_linked (r := r) (u := u) L1 ?_ ?_ _ _)
    · rw [port_congr hp]; exact hst
    · rw [task?_congr ht]; exact e
  · exact (setResult_moves _ _ _ _).linked L

theorem setInbox_linked (L : s.Linked) (p : Port) : (s.setInbox p).Linked := by
  unfold setInbox
  dsimp only
  split
  · exact (setResult_moves _ _ _ _).linked L
  split
  · exact (setResult_moves _ _ _ _).linked L
  split
  · exact (setResult_moves _ _ _ _).linked L
  · exact (setResult_moves _ _ _ _).linked (L.same (t := s.modInbox _ _))

theorem resetInbox_linked (L : s.Linked) (p : Port) : (s.resetInbox p).Linked := by
  unfold resetInbox
  dsimp only
  split
  · exact ((clearInbox_moves _ _).trans (setResult_moves _ _ _ _)).linked L
  · exact (setResult_moves _ _ _ _).linked L

/-! ### Queries -/

theorem setArgs_linked (L : s.Linked) (p : Port) (a : Vector Word 4) : (s.setArgs p a).Linked :=
  L.onPort fun _ => rfl

theorem queryTask_linked (L : s.Linked) (p : Port) : (s.queryTask p).Linked := by
  unfold queryTask; split
  · exact (setResult_moves _ _ _ _).linked (setArgs_linked L p _)
  · exact (setResult_moves _ _ _ _).linked L

theorem queryInbox_linked (L : s.Linked) (p : Port) : (s.queryInbox p).Linked := by
  unfold queryInbox; split
  · exact (setResult_moves _ _ _ _).linked (setArgs_linked L p _)
  · exact (setResult_moves _ _ _ _).linked L

theorem queryEvent_linked (L : s.Linked) (p : Port) : (s.queryEvent p).Linked := by
  unfold queryEvent; split
  · exact (setResult_moves _ _ _ _).linked (setArgs_linked L p _)
  · exact (setResult_moves _ _ _ _).linked L

theorem queryPart_linked (L : s.Linked) (p : Port) : (s.queryPart p).Linked :=
  (setResult_moves _ _ _ _).linked (setArgs_linked L p _)

/-! ### Task commands -/

theorem onNamed_linked (L : s.Linked) (p : Port) {f : Handle → Task → State}
    (hf : ∀ h u, s.task? h = some u → (f h u).Linked) : (s.onNamed p f).Linked := by
  unfold onNamed
  split
  · exact hf _ _ ‹_›
  · exact (setResult_moves _ _ _ _).linked L

theorem create_linked (L : s.Linked) (p : Port) : (s.create p).Linked := by
  unfold create
  dsimp only
  split
  · exact createTask_linked L p rfl rfl
  · exact (setResult_moves _ _ _ _).linked L

theorem seed_linked (L : s.Linked) (old : (s.port p).state.post = .none) : (s.seed p).Linked := by
  refine onNamed_linked L p fun h u e => ?_
  have r (c : ResultCode) : (s.setResult p c 0#16).Linked := (setResult_moves _ _ _ _).linked L
  have go (place : u.state.place = .stopped) (free : ¬ u.seedPort.isSome) : (s.beginSeed p h).Linked := by
    unfold beginSeed
    refine (setResult_moves _ _ _ _).linked ?_
    refine L.startSeed (v := { u with seedPort := some p }) e (.of ?_ ?_ (fun k => ?_) fun q => ?_) ?_ ?_ old place rfl
      (by simpa using free) rfl
    · simp
    · exact ((modTask_reacts (h := h) s (f := fun t => { t with seedPort := some p }) fun _ => rfl).trans
        (setPortState_reacts _ p _)).identity
    · rw [setPortState_eq, modPort_task?, task?_modTask, e]; rfl
    · rw [setPortState_eq, modPort_port, modTask_port]; split
      · rfl
      · rw [modTask_port]
    · simp
    · simp
  split
  · exact r _
  · split
    case h_1 hst => exact go (by rw [hst]; rfl) ‹_›
    case h_2 hst => exact go (by rw [hst]; rfl) ‹_›
    all_goals exact r _

theorem activate_linked (L : s.Linked) (p : Port) : (s.activate p).Linked := by
  refine onNamed_linked L p fun h u e => ?_
  split
  · exact (setResult_moves _ _ _ _).linked L
  split
  case isTrue hseed hst =>
    refine (evalPreempt_moves _).linked ((setResult_moves _ _ _ _).linked ?_)
    have L1 := L.wakeTail e (.inr (by rw [hst]; rfl)) (by simpa using hseed)
    have e1 : (s.setTaskState h .ready).task? h = some { u with state := .ready } := s.task?_modTask_self _ e
    refine (offer_moves _ (t := { u with state := .ready }) ?_ rfl).linked L1
    rw [enqueueTail_of e1]; exact e1
  case isFalse => exact (setResult_moves _ _ _ _).linked L

theorem release_linked (L : s.Linked) (p : Port) : (s.release p).Linked := by
  refine onNamed_linked L p fun h u e => ?_
  split
  · exact (setResult_moves _ _ _ _).linked L
  split
  case h_1 hst =>
    refine (setResult_moves _ _ _ _).linked (L.modTask fun w hw => ?_)
    rw [e] at hw; cases hw
    simp only [Task.anchor]; rw [hst]; rfl
  all_goals exact (setResult_moves _ _ _ _).linked L

theorem halt_linked (L : s.Linked) (p : Port) : (s.halt p).Linked := by
  refine onNamed_linked L p fun h u e => ?_
  split
  · exact (setResult_moves _ _ _ _).linked L
  all_goals exact haltTask_linked L e p

/-- A task takes another record. -/
theorem engages_modTask (e : s.task? h = some u) (g : Task → Task) :
    Engages s (s.modTask h g) h (g u) 0 (s.port 0).state.post := by
  have ⟨hg, ht⟩ := s.task?_eq.1 e
  have get (k : Slot) : (s.modTask h g).tasks[k] = if k = h.slot then ⟨h.gen, some (g u)⟩ else s.tasks[k] := by
    unfold modTask; rw [e]; exact getElem_set_fin ..
  refine ⟨by simp, fun k => ?_, fun k => ?_, fun k => ?_, fun q => ?_⟩
  · rw [get]; split
    · subst_vars; exact hg.symm
    · rfl
  · rw [get]; split
    · subst_vars; rw [ht]; exact iff_of_false nofun nofun
    · rfl
  · rw [task?_modTask, e]; rfl
  · rw [modTask_port]; split
    · subst_vars; rfl
    · rfl

/-- A task takes a record with the same place and seeding port, and with the same priority unless it stands in no
queue. -/
theorem Linked.restate (L : s.Linked) (e : s.task? h = some u) {g : Task → Task} (place : (g u).state = u.state)
    (seed : (g u).seedPort = u.seedPort) (prio : (g u).priority = u.priority ∨ u.state.place ≠ .ready) :
    (s.modTask h g).Linked := by
  refine L.retask e (engages_modTask e g) (by simp) ?_ (fun q => by rw [place]) (fun q => by rw [place]) seed
    fun hp => by rw [place]; exact hp
  rcases prio with prio | off
  · refine ⟨fun q => by rw [modTask_ready]; exact L.readyNodup q, fun q k => ?_⟩
    rw [modTask_ready, place, prio]
    split
    case isTrue hk => subst hk; rw [L.ready, e]; simp
    case isFalse => rfl
  · exact L.queuedOff e off (by rw [place]; exact off) (by simp)

theorem setAffinity_linked (L : s.Linked) (p : Port) : (s.setAffinity p).Linked := by
  refine onNamed_linked L p fun h u e => ?_
  split
  case h_1 aff _ =>
    refine (evalPreempt_moves _).linked ((setResult_moves _ _ _ _).linked ?_)
    unfold changeAffinity
    dsimp only
    have L1 : (s.modTask h fun t => { t with affinity := aff }).Linked := L.restate e rfl rfl (.inl rfl)
    split
    case isTrue hst =>
      exact (offer_moves _ (t := { u with affinity := aff }) (s.task?_modTask_self _ e) (by rw [hst]; rfl)).linked L1
    case isFalse => exact L1
  · exact (setResult_moves _ _ _ _).linked L

/-- A READY task moves to the tail of the queue of another priority. -/
theorem requeue_linked (L : s.Linked) (e : s.task? h = some u) (place : u.state.place = .ready) (prio : Priority) :
    (((s.dequeue h).modTask h fun t => { t with priority := prio }).enqueueTail h).Linked := by
  have D := dequeue_ready e L
  have E := engages_modTask (s := s.dequeue h) (h := h) (u := u) (by rw [dequeue_of e]; exact e)
    fun t => { t with priority := prio }
  have e1 : ((s.dequeue h).modTask h fun t => { t with priority := prio }).task? h = some { u with priority := prio } :=
    task?_modTask_self _ _ (by rw [dequeue_of e]; exact e)
  have port (q : Port) : (s.dequeue h).port q = s.port q := by rw [dequeue_of e]; rfl
  have task (k : Handle) : (s.dequeue h).task? k = s.task? k := by rw [dequeue_of e]; rfl
  have tasks : (s.dequeue h).tasks = s.tasks := by rw [dequeue_of e]
  rw [enqueueTail_of e1]
  have get (q : Priority) : ({ (s.dequeue h).modTask h fun t => { t with priority := prio } with
      ready := ((s.dequeue h).modTask h fun t => { t with priority := prio }).ready.set prio
        (((s.dequeue h).modTask h fun t => { t with priority := prio }).ready[prio] ++ [h]) } : State).ready[q] =
      if q = prio then (s.dequeue h).ready[prio] ++ [h] else (s.dequeue h).ready[q] := by
    simp only [modTask_ready]; exact getElem_set_fin ..
  refine L.retask (v := { u with priority := prio }) e ⟨?_, fun k => ?_, fun k => ?_, fun k => ?_, fun q => ?_⟩ ?_
    ⟨fun q => ?_, fun q k => ?_⟩ (fun _ => Iff.rfl) (fun _ => Iff.rfl) rfl id
  · exact E.free.trans (s.dequeue_reacts h).freeSlots
  · exact (E.gen k).trans (by rw [tasks])
  · exact (E.none k).trans (by rw [tasks])
  · exact (E.task k).trans (by rw [task])
  · exact (E.post q).trans (by rw [port, port])
  · change ((s.dequeue h).modTask h _).awaitList = _
    rw [modTask_awaitList, dequeue_of e]
  · rw [get]; split
    · refine (D prio).1.append (List.nodup_singleton h) (List.disjoint_singleton.2 fun c => ?_)
      exact (((D prio).2 h).1 c).1 rfl
    · exact (D q).1
  · rw [get]
    by_cases hk : k = h
    · subst hk
      rw [if_pos rfl]
      split
      case isTrue hq => subst hq; simp [place]
      case isFalse hq =>
        refine iff_of_false (fun c => (((D q).2 k).1 c).1 rfl) fun c => hq c.2.symm
    · rw [if_neg hk]
      split
      case isTrue hq => subst hq; rw [List.mem_append, (D _).2]; simp [hk]
      case isFalse => rw [(D _).2]; simp [hk]

theorem setPrio_linked (L : s.Linked) (p : Port) : (s.setPrio p).Linked := by
  refine onNamed_linked L p fun h u e => ?_
  split
  case h_1 prio _ =>
    split
    · exact (setResult_moves _ _ _ _).linked L
    · refine (evalPreempt_moves _).linked ((setResult_moves _ _ _ _).linked ?_)
      unfold changePriority
      split
      case isTrue hst =>
        have place : u.state.place = .ready := by rw [hst]; rfl
        have e1 : ((s.dequeue h).modTask h fun t => { t with priority := prio }).task? h =
            some { u with priority := prio } := task?_modTask_self _ _ (by rw [dequeue_of e]; exact e)
        refine (offer_moves _ (t := { u with priority := prio }) ?_ place).linked (requeue_linked L e place prio)
        rw [enqueueTail_of e1]; exact e1
      case isFalse hst =>
        refine L.restate e rfl rfl (.inr fun c => hst ?_)
        cases hs : u.state <;> rw [hs] at c <;> first | rfl | cases c
  · exact (setResult_moves _ _ _ _).linked L

/-! ### Events and the sink -/

theorem bindEvent_linked (L : s.Linked) (p : Port) : (s.bindEvent p).Linked := by
  have r (c : ResultCode) : (s.setResult p c 0#16).Linked := (setResult_moves _ _ _ _).linked L
  unfold bindEvent
  dsimp only
  split
  · exact r _
  split
  · split
    · exact r _
    · refine (setResult_moves _ _ _ _).linked ((modLine_moves _ fun _ => by rfl).linked L)
  · exact r _

theorem unbindEvent_linked (L : s.Linked) (p : Port) : (s.unbindEvent p).Linked := by
  unfold unbindEvent
  split
  · refine (setResult_moves _ _ _ _).linked ((modLine_moves _ fun _ => by rfl).linked L)
  · exact (setResult_moves _ _ _ _).linked L

theorem setSink_linked (L : s.Linked) (p : Port) : (s.setSink p).Linked := by
  unfold setSink
  dsimp only
  split
  · exact (setResult_moves _ _ _ _).linked (L.same (t := { s with sink := some (s.handleArg p) }))
  · exact (setResult_moves _ _ _ _).linked L

/-! ### Frame streams -/

theorem readFrame_linked (L : s.Linked) (p : Port) : (s.readFrame p).Linked := by
  have r (w : Word) : (s.setReadData p w).Linked := L.onPort fun _ => rfl
  unfold readFrame
  split
  case h_1 h n pos hst =>
    split
    case h_1 u e =>
      dsimp only
      split
      · refine (r _).modPort ?_
        rw [setReadData_eq, modPort_port, if_pos rfl]; rw [hst]; rfl
      · unfold endCheckOut
        refine (evalPreempt_moves _).linked ((returnSlots_moves _ _).linked ?_)
        refine (modTask_moves _ fun _ => by rfl).linked ?_
        have L1 : (((s.setReadData p (s.streamWord h u pos)).setPortState p (.run h false)).presentResume p
            u.resume).Linked := by
          refine Linked.onPort ?_ fun _ => rfl
          refine (r _).modPort ?_
          rw [setReadData_eq, modPort_port, if_pos rfl]; rw [hst]; rfl
        unfold presentBound
        split
        · exact (presentSlot_moves _ p _ _ _).linked L1
        · exact L1.onPort fun _ => rfl
    case h_2 => exact r _
  all_goals exact r _

/-- A port lets its task go, which waits or is stopped. -/
theorem letGo_linked (L : s.Linked) (e : s.task? h = some u)
    (old : (s.port p).state.post = .holds h ∨ (s.port p).state.post = .saves h) {f : PortUnit → PortUnit}
    (new : (f (s.port p)).state.post = .none) {st : TaskState} (place : st.place = .stopped ∨ st.place = .waiting) :
    ((s.modPort p f).setTaskState h st).Linked := by
  have was : u.state.place ≠ .ready := by
    rcases old with o | o
    · obtain ⟨w, hw, hp⟩ := (L.held p h).1 o; rw [e] at hw; cases hw; rw [hp]; nofun
    · obtain ⟨w, hw, hp⟩ := (L.saved p h).1 o; rw [e] at hw; cases hw; rw [hp]; nofun
  have off : st.place ≠ .ready := by rcases place with c | c <;> rw [c] <;> nofun
  refine L.leave (v := { u with state := st }) e (.of ?_ (setTaskState_reacts (s.modPort p f) h st).identity
    (fun k => ?_) fun q => ?_) ?_ old (place.imp_right .inl) rfl (L.queuedOff e was off ?_)
  · simp
  · rw [setTaskState_eq, task?_modTask, modPort_task?, modPort_task?, e]; rfl
  · rw [setTaskState_eq, modTask_port, modPort_port]; split
    · exact new
    · rfl
  · simp
  · simp

/-- A port lets its task go, which becomes READY at one end of its queue. -/
theorem letGo_ready (L : s.Linked) (e : s.task? h = some u)
    (old : (s.port p).state.post = .holds h ∨ (s.port p).state.post = .saves h) {f : PortUnit → PortUnit}
    (new : (f (s.port p)).state.post = .none) :
    ((s.modPort p f).readyTail h).Linked ∧ ((s.modPort p f).readyHead h).Linked := by
  have was : u.state.place ≠ .ready := by
    rcases old with o | o
    · obtain ⟨w, hw, hp⟩ := (L.held p h).1 o; rw [e] at hw; cases hw; rw [hp]; nofun
    · obtain ⟨w, hw, hp⟩ := (L.saved p h).1 o; rw [e] at hw; cases hw; rw [hp]; nofun
  have e1 : ((s.modPort p f).setTaskState h .ready).task? h = some { u with state := .ready } := by
    rw [setTaskState_eq, task?_modTask, modPort_task?, e, if_pos rfl]; rfl
  have go (t : State) (q' : List Handle)
      (ends : q' = s.ready[u.priority] ++ [h] ∨ q' = h :: s.ready[u.priority])
      (ht : t = { (s.modPort p f).setTaskState h .ready with ready := s.ready.set u.priority q' }) : t.Linked := by
    subst ht
    refine L.leave (v := { u with state := .ready }) e (.of ?_
      (setTaskState_reacts (s.modPort p f) h .ready).identity (fun k => ?_) fun q => ?_) ?_ old (.inr (.inr rfl)) rfl
      (L.queuedOn e was rfl ends rfl)
    · simp
    · change ((s.modPort p f).setTaskState h .ready).task? k = _
      rw [setTaskState_eq, task?_modTask, modPort_task?, modPort_task?, e]; rfl
    · change (((s.modPort p f).setTaskState h .ready).port q).state.post = _
      rw [setTaskState_eq, modTask_port, modPort_port]; split
      · exact new
      · rfl
    · simp
  constructor
  · refine (offer_moves _ (t := { u with state := .ready }) ?_ rfl).linked (go _ _ (.inl rfl) ?_)
    · rw [enqueueTail_of e1]; exact e1
    · rw [enqueueTail_of e1]; simp
  · refine (offer_moves _ (t := { u with state := .ready }) ?_ rfl).linked (go _ _ (.inr rfl) ?_)
    · rw [enqueueHead_of e1]; exact e1
    · rw [enqueueHead_of e1]; simp

theorem commit_linked (L : s.Linked) {k : SaveKind} {ws : List Word} (hst : (s.port p).state = .saving k h ws)
    (e : s.task? h = some u) (x : Bool) (ws' : List Word) : (s.commit p k h u x ws').Linked := by
  have ef : ({ s with frames := s.frames.set h.slot (committedFrame s.frames[h.slot] u.frameLength x ws') } : State).task?
      h = some u := e
  have L1 : (s.storeFrame h u x ws').Linked :=
    Linked.restate (s := { s with frames := _ }) L.same ef rfl rfl (.inl rfl)
  have e1 : (s.storeFrame h u x ws').task? h = some { u with extension := x } := task?_modTask_self _ _ ef
  have hst1 : ((s.storeFrame h u x ws').port p).state = .saving k h ws := by
    unfold storeFrame; rw [modTask_port]; exact hst
  unfold commit
  generalize s.storeFrame h u x ws' = a at *
  rw [setResult_eq, setPortState_eq, modPort_modPort]
  dsimp only
  split
  case h_1 =>
    have old : (a.port p).state.post = .saves h := by rw [hst1]; rfl
    refine (evalPreempt_moves _).linked ?_
    have ready := letGo_ready L1 e1 (.inr old)
      (f := fun u => { { u with state := .idle } with result := resultWord .ok h.bits }) rfl
    have place := (L1.saved p h).1 old
    obtain ⟨w, hw, hp⟩ := place
    rw [e1] at hw; cases hw
    unfold applyDisposition
    rw [modPort_task?, e1]
    dsimp only
    cases hs : u.state <;> simp only [hs, TaskState.place, reduceCtorEq] at hp
    case saving p' d sat =>
      dsimp only
      split
      case h_1 => exact ready.2
      case h_2 => exact ready.1
      all_goals
        split
        · exact ready.1
        · exact letGo_linked L1 e1 (.inr old) rfl (.inr rfl)
  case h_2 =>
    refine L1.endSeed (v := { { u with extension := x } with seedPort := none }) e1 (.of ?_ ?_ (fun j => ?_) fun q => ?_)
      ?_ ?_ (by rw [hst1]; rfl) rfl rfl
    · simp
    · exact (modTask_reacts _ fun _ => by rfl).toSteady.identity
    · rw [task?_modTask, modPort_task?, modPort_task?, e1]; rfl
    · rw [modTask_port, modPort_port]; split <;> rfl
    · simp
    · simp

theorem writeFrame_linked (L : s.Linked) (p : Port) (w : Word) : (s.writeFrame p w).Linked := by
  unfold writeFrame
  split
  case h_1 k h ws hst =>
    have push (ws' : List Word) : (s.setPortState p (.saving k h ws')).Linked := L.modPort (by rw [hst]; cases k <;> rfl)
    unfold takeFrameWord
    split
    case h_1 u e =>
      split
      · split
        · exact push _
        · exact (setResult_moves _ _ _ _).linked L
      · split
        · exact push _
        · exact commit_linked L hst e _ _
    case h_2 => exact L
  all_goals exact L

/-! ### Ticks and the backing engine -/

theorem attemptError_linked (L : s.Linked) : s.attemptError.Linked :=
  s.attemptError_moves.linked (L.same (t := s.endAttempt))

theorem landWords_linked (L : s.Linked) (n : Taken) : (s.landWords n).Linked := by
  rw [landWords_eq]; exact L.same (t := { s with backing := _, pool := _ })

theorem burstError_linked (L : s.Linked) (n : Taken) : (s.burstError n).Linked := by
  unfold burstError; split
  · exact attemptError_linked (landWords_linked L n)
  · exact L

theorem takeTimeout_linked (L : s.Linked) (n : Taken) : (s.takeTimeout n).Linked := by
  unfold takeTimeout; split
  · split
    · exact burstError_linked L n
    · exact L
  · exact L

theorem startAttempt_linked (L : s.Linked) : s.startAttempt.Linked := by
  unfold startAttempt; split
  · exact L.same (t := { s with burst := _ })
  · exact L

theorem spillComplete_linked (L : s.Linked) : s.spillComplete.Linked := by
  unfold spillComplete
  split
  · split
    · dsimp only
      have L1 := (landWords_linked L ⟨8, .stored⟩).same (t := (s.landWords ⟨8, .stored⟩).endAttempt)
      split
      · exact (spillDone_moves _ _ _).linked L1
      · exact (endUnowned_moves _ _ _).linked L1
    · exact L
  · exact L

theorem refillComplete_linked (L : s.Linked) (d : ReadData) : (s.refillComplete d).Linked := by
  unfold refillComplete
  split
  case h_1 b j rest _ _ =>
    split
    · exact L
    · dsimp only
      have L1 := ((keepImage_moves _ j (s.readBurst b d)).linked L).same (t := (s.keepImage j (s.readBurst b d)).endAttempt)
      split
      · split
        · exact (refillDone_moves _ _ _).linked L1
        · exact attemptError_linked L1
      · exact (endUnowned_moves _ _ _).linked L1
  case h_2 => exact L

theorem settleDeadlines_linked (L : s.Linked) : s.settleDeadlines.Linked := by
  unfold settleDeadlines; split
  · exact ((expireDue_moves _ s).linked L).same (t := { expireDue s.deadlines.length s with expiring := false })
  · exact L

theorem finishExpiries_linked (L : s.Linked) : s.finishExpiries.Linked := by
  unfold finishExpiries; split
  · exact settleDeadlines_linked L
  · exact L

theorem countDown_state (u : PortUnit) (v : Nat) : (u.countDown v).state = u.state := by
  unfold PortUnit.countDown
  split
  · split <;> rfl
  · rfl

theorem takeOwed_state (u : PortUnit) (v : Nat) : (u.takeOwed v).state = u.state := by
  unfold PortUnit.takeOwed
  split
  · exact countDown_state u v
  all_goals rfl

theorem takeLeaseTick_linked (L : s.Linked) (p : Port) : (s.takeLeaseTick p).Linked := by
  have L1 : (s.modPort p fun u => u.takeOwed s.items.leases[p]).Linked := L.onPort fun u => takeOwed_state u _
  unfold takeLeaseTick
  split
  · exact L
  all_goals
    dsimp only
    split
    · exact losePort_linked L1 p _
    all_goals exact L1

theorem settle_linked (L : s.Linked) : s.settle.Linked :=
  takeTimeout_linked (takeLeaseTick_linked (takeLeaseTick_linked (takeLeaseTick_linked (takeLeaseTick_linked
    (settleDeadlines_linked L) 0) 1) 2) 3) .nothing

theorem deliverTick_linked (L : s.Linked) (late : BitVec 4) : (s.deliverTick late).Linked := by
  have one (a : State) (La : a.Linked) (p : Port) : (a.tickPort late p).Linked := by
    refine La.onPort fun u => ?_
    split
    · rfl
    · exact countDown_state u _
  unfold deliverTick
  exact one _ (one _ (one _ (one _ (L.same (t := { s with tickCounter := _, burst := _ })) 0) 1) 2) 3

theorem takeTick_linked (L : s.Linked) (late : BitVec 4) : (s.takeTick late).Linked :=
  deliverTick_linked (settle_linked L) late

theorem clockPeriod_linked (L : s.Linked) : s.clockPeriod.Linked := by
  unfold clockPeriod
  split
  · split
    · exact L.same (t := { s with dividerCount := _ })
    · exact takeTick_linked (L.same (t := { s with dividerCount := 0 })) _
  · exact L

/-! ### Commands taken, and resets -/

/-- A port that takes ATTACH, DETACH, DISPATCH or SEED does nothing for a task (R178). -/
theorem takenIn_none {c : Cmd} {st : PortState} (hc : c = .attach ∨ c = .detach ∨ c = .dispatch ∨ c = .seed)
    (taken : c.takenIn st = true) : st.post = .none := by
  rcases hc with rfl | rfl | rfl | rfl <;> cases st <;> first | rfl | cases taken

/-- A command taken keeps the links (R175, R178). -/
theorem commandEffect_linked (L : s.Linked) {c : Cmd} (taken : c.takenIn (s.port p).state = true) :
    (commandEffect c p s).Linked := by
  cases c
  case attach => exact attach_linked L (takenIn_none (.inl rfl) taken)
  case detach => exact detach_linked L (takenIn_none (.inr (.inl rfl)) taken)
  case dispatch => exact dispatch_linked L (takenIn_none (.inr (.inr (.inl rfl))) taken)
  case cancel => exact cancel_linked L p
  case yield => exact yield_linked L p
  case exit => exact exit_linked L p
  case sleep => exact sleep_linked L p
  case send => exact send_linked L p
  case receive => exact receive_linked L p
  case queryTask => exact queryTask_linked L p
  case queryInbox => exact queryInbox_linked L p
  case queryEvent => exact queryEvent_linked L p
  case queryPart => exact queryPart_linked L p
  case create => exact create_linked L p
  case seed => exact seed_linked L (takenIn_none (.inr (.inr (.inr rfl))) taken)
  case activate => exact activate_linked L p
  case halt => exact halt_linked L p
  case release => exact release_linked L p
  case destroy => exact destroy_linked L p
  case setPrio => exact setPrio_linked L p
  case setAffinity => exact setAffinity_linked L p
  case setInbox => exact setInbox_linked L p
  case resetInbox => exact resetInbox_linked L p
  case bindEvent => exact bindEvent_linked L p
  case unbindEvent => exact unbindEvent_linked L p
  case setSink => exact setSink_linked L p
  case revoke => exact revoke_linked L p
  case beginService => exact beginService_linked L p

/-- A command whose checks all pass is one the port's state takes (R177). -/
theorem gate_taken {c : Cmd} (e : s.gate c p = .taken) : c.takenIn (s.port p).state = true := by
  unfold gate at e
  dsimp only at e
  split at e
  · cases e
  split at e
  · cases e
  split at e
  · cases e
  split at e
  · cases e
  case isFalse h => simpa using h

/-- A command written to CMD keeps the links, whatever the checks decide. -/
theorem issue_linked (L : s.Linked) {c : Cmd} {f : State → State}
    (hf : ∀ a : State, a.Linked → c.takenIn (a.port p).state = true → (f a).Linked) : (s.issue c p f).Linked := by
  have L1 := settle_linked L
  unfold issue
  dsimp only
  split
  · exact L1
  · exact (setResult_moves _ _ _ _).linked L1
  · exact L1.onPort fun _ => rfl
  · refine hf _ (L1.onPort fun _ => rfl) ?_
    rw [reloadLease_eq, modPort_port, if_pos rfl]
    exact gate_taken ‹_›

theorem partReset_linked (s : State) (n : Taken) : (s.partReset n).Linked := by
  have port (q : Port) : (s.partReset n).port q = PortUnit.reset s.ports[q].prstLow := by
    simp [State.port, partReset]
  have slot (k : Slot) : (s.partReset n).tasks[k] = ⟨1#10, none⟩ := by
    simp [partReset, State.reset]
  have ready (q : Priority) : (s.partReset n).ready[q] = [] := by simp [partReset, State.reset]
  have task (k : Handle) : (s.partReset n).task? k = none := by
    rw [task?_slot, slot]; split <;> rfl
  refine ⟨List.nodup_finRange 64, fun k => ?_, fun k => ?_, List.nodup_nil, fun q => ?_, fun q k => ?_, fun q k => ?_,
    fun q k => ?_, fun k w hw => ?_, fun q => ?_, fun q k => ?_⟩
  · rw [slot]; exact iff_of_true (List.mem_finRange k) rfl
  · rw [slot]; decide
  · rw [port]; exact iff_of_false List.not_mem_nil nofun
  · rw [port, task]; exact iff_of_false nofun (by simp)
  · rw [port, task]; exact iff_of_false nofun (by simp)
  · rw [port, task]; exact iff_of_false nofun (by simp)
  · rw [task] at hw; cases hw
  · rw [ready]; exact List.nodup_nil
  · rw [ready, task]; simp

end State
end Sys2Proof.Machine
end

