-- ==== Sys2Proof/Laws/Flags.lean ====
section
/-! SUPPORT. `State.Flagged`: the re-evaluation makes every preempt flag as R72 states, and what does not re-evaluate
leaves the flags and their conditions alone. -/

namespace Sys2Proof.Machine

/-- The task a port in RUN runs. -/
def PortState.runTask : PortState → Option Handle
  | .run h _ => some h
  | .offline | .idle | .await | .loading _ _ _ | .saving _ _ _ | .lost => none

namespace State
variable {s t : State} {h : Handle} {u v : Task} {p : Port}

theorem preemptCondition_eq (s : State) (p : Port) : s.preemptCondition p =
    match (s.port p).state.runTask with
    | some h =>
      match s.task? h with
      | some t => (List.finRange 16).any fun q => decide (t.priority < q) && s.ready[q].any fun r => s.eligible r p
      | none => false
    | none => false := by
  unfold preemptCondition
  cases (s.port p).state <;> rfl

/-- The flags and all that their conditions speak of stand. -/
structure Unflagged (s t : State) : Prop where
  preempt : ∀ p, (t.port p).preempt = (s.port p).preempt
  run : ∀ p, (t.port p).state.runTask = (s.port p).state.runTask
  ready : t.ready = s.ready
  rank : ∀ h, ((∃ q : Priority, h ∈ s.ready[q]) ∨ ∃ p, (s.port p).state.runTask = some h) →
    (t.task? h).map (fun u => (u.priority, u.affinity)) = (s.task? h).map fun u => (u.priority, u.affinity)

theorem eligible_of_rank (p : Port)
    (e : (t.task? h).map (fun u => (u.priority, u.affinity)) = (s.task? h).map fun u => (u.priority, u.affinity)) :
    t.eligible h p = s.eligible h p := by
  unfold eligible Task.eligible
  cases ht : t.task? h <;> cases hs : s.task? h <;> rw [ht, hs] at e <;>
    simp only [Option.map_none, Option.map_some, reduceCtorEq, Option.some.injEq, Prod.mk.injEq] at e ⊢
  rw [e.2]

theorem Unflagged.condition (U : Unflagged s t) (p : Port) : t.preemptCondition p = s.preemptCondition p := by
  rw [preemptCondition_eq, preemptCondition_eq, U.run, U.ready]
  cases hr : (s.port p).state.runTask with
  | none => rfl
  | some h =>
    dsimp only
    have e := U.rank h (.inr ⟨p, hr⟩)
    have any (q : Priority) : (s.ready[q].any fun r => t.eligible r p) = s.ready[q].any fun r => s.eligible r p := by
      rw [Bool.eq_iff_iff, List.any_eq_true, List.any_eq_true]
      refine exists_congr fun r => and_congr_right fun hr => ?_
      rw [eligible_of_rank p (U.rank r (.inl ⟨q, hr⟩))]
    cases ht : t.task? h <;> cases hs : s.task? h <;> rw [ht, hs] at e <;>
      simp only [Option.map_none, Option.map_some, reduceCtorEq, Option.some.injEq, Prod.mk.injEq] at e ⊢
    simp only [any, e.1]

theorem Unflagged.flagged (U : Unflagged s t) (F : s.Flagged) : t.Flagged := fun p => by
  rw [U.preempt, U.condition]; exact F p

theorem Unflagged.refl (s : State) : Unflagged s s := ⟨fun _ => rfl, fun _ => rfl, rfl, fun _ _ => rfl⟩

theorem Unflagged.trans {r : State} (a : Unflagged s t) (b : Unflagged t r) : Unflagged s r where
  preempt p := (b.preempt p).trans (a.preempt p)
  run p := (b.run p).trans (a.run p)
  ready := b.ready.trans a.ready
  rank h hh := (b.rank h (by rw [a.ready]; simpa only [a.run] using hh)).trans (a.rank h hh)

/-- The tasks, the ports and the ready queues stand. -/
theorem Unflagged.same (tasks : t.tasks = s.tasks := by rfl) (ports : t.ports = s.ports := by rfl)
    (ready : t.ready = s.ready := by rfl) : Unflagged s t where
  preempt p := by rw [port_congr ports]
  run p := by rw [port_congr ports]
  ready := ready
  rank h _ := by rw [task?_congr tasks]

/-- A port unit changes, and neither its flag nor the task it runs does. -/
theorem Unflagged.onPort {f : PortUnit → PortUnit} (preempt : (f (s.port p)).preempt = (s.port p).preempt)
    (run : (f (s.port p)).state.runTask = (s.port p).state.runTask) : Unflagged s (s.modPort p f) where
  preempt q := by
    rw [modPort_port]; split
    · subst_vars; exact preempt
    · rfl
  run q := by
    rw [modPort_port]; split
    · subst_vars; exact run
    · rfl
  ready := rfl
  rank h _ := by rw [modPort_task?]

/-- A task record changes, and neither its priority nor its affinity does. -/
theorem Unflagged.onTask {g : Task → Task} (rank : ∀ w, ((g w).priority, (g w).affinity) = (w.priority, w.affinity)) :
    Unflagged s (s.modTask h g) where
  preempt q := by rw [modTask_port]
  run q := by rw [modTask_port]
  ready := by rw [modTask_ready]
  rank k _ := by
    rw [task?_modTask]; split
    · subst_vars; cases s.task? k <;> simp [rank]
    · rfl

/-! ### The re-evaluation (R73) -/

theorem modPort_condition (q : Port) {f : PortUnit → PortUnit} (state : ∀ u, (f u).state = u.state) :
    (s.modPort p f).preemptCondition q = s.preemptCondition q := by
  rw [preemptCondition_eq, preemptCondition_eq]
  have e : ((s.modPort p f).port q).state = (s.port q).state := by
    rw [modPort_port]; split
    · subst_vars; exact state _
    · rfl
  rw [e]
  rfl

/-- After the re-evaluation every flag is as R72 states, and every condition is what it was. -/
theorem evalPreempt_flagged (s : State) : s.evalPreempt.Flagged ∧ ∀ p, s.evalPreempt.preemptCondition p =
    s.preemptCondition p := by
  have cond (a : State) (q p : Port) : (a.evalPreemptAt q).preemptCondition p = a.preemptCondition p :=
    modPort_condition p fun _ => rfl
  have same (p : Port) : s.evalPreempt.preemptCondition p = s.preemptCondition p := by
    unfold evalPreempt; rw [cond, cond, cond, cond]
  refine ⟨fun p => ?_, same⟩
  rw [same]
  unfold evalPreempt
  simp only [evalPreemptAt_eq, modPort_port]
  fin_cases p <;> simp [modPort_condition]

/-- What re-evaluates and then leaves a result is as R72 states. -/
theorem evalPreempt_setResult_flagged (s : State) (p : Port) (c : ResultCode) (v : BitVec 16) :
    (s.evalPreempt.setResult p c v).Flagged :=
  Unflagged.flagged (.onPort rfl rfl) s.evalPreempt_flagged.1

theorem Flagged.setResult (F : s.Flagged) (p : Port) (c : ResultCode) (v : BitVec 16) : (s.setResult p c v).Flagged :=
  Unflagged.flagged (.onPort rfl rfl) F

/-- A port unit that runs no task has its flag clear. -/
theorem Flagged.clear (F : s.Flagged) {f : PortUnit → PortUnit} (preempt : (f (s.port p)).preempt = false)
    (run : (f (s.port p)).state.runTask = none) : (s.modPort p f).Flagged := fun q => by
  by_cases hq : q = p
  · subst hq
    rw [preemptCondition_eq, modPort_port, if_pos rfl, run, preempt]
  · have e : (s.modPort p f).preemptCondition q = s.preemptCondition q := by
      rw [preemptCondition_eq, preemptCondition_eq, modPort_port, if_neg hq]; rfl
    rw [e, modPort_port, if_neg hq]; exact F q

theorem runTask_of_none {st : PortState} (e : st.post = .none) : st.runTask = none := by
  cases st <;> first | rfl | cases e

/-! ### What moves messages but no task -/

theorem takeSlots_unflagged (n : Nat) : ∀ s : State, Unflagged s (takeSlots n s).2 := by
  induction n with
  | zero => exact fun s => .refl s
  | succ n ih =>
    intro s
    unfold takeSlots
    split
    case h_1 e =>
      refine .trans ?_ (ih _)
      rw [(s.takeSlot_eq e).2.2]; exact .same
    case h_2 => exact .refl s

theorem createRefill_unflagged (e : s.createRefill h = some t) : Unflagged s t := by
  unfold createRefill at e
  split at e
  case isFalse => cases e
  case isTrue =>
    simp only [] at e
    split at e
    case isTrue => cases e
    case isFalse =>
      cases e
      exact (takeSlots_unflagged _ s).trans .same

theorem refillCheck_unflagged (s : State) (h : Handle) : Unflagged s (s.refillCheck h) := by
  unfold refillCheck
  split
  · split
    case h_1 e => exact createRefill_unflagged e
    case h_2 => unfold defer; split <;> exact .same
  · exact .refl s

theorem retryEntries_unflagged (hs : List Handle) : ∀ s : State, Unflagged s (retryEntries hs s) := by
  induction hs with
  | nil => exact fun s => .same
  | cons h rest ih =>
    intro s
    unfold retryEntries
    split
    · split
      case h_1 e => exact (createRefill_unflagged e).trans (ih _)
      case h_2 => exact .same
    · exact ih s

theorem retryDeferred_unflagged (s : State) : Unflagged s s.retryDeferred := retryEntries_unflagged _ s

theorem endUnowned_unflagged (s : State) (j : Job) (rest : List Job) : Unflagged s (s.endUnowned j rest) :=
  .trans (t := { s with jobs := rest }.freeSlotList j.slots) .same (retryDeferred_unflagged _)

theorem spillDone_unflagged (s : State) (j : Job) (rest : List Job) : Unflagged s (s.spillDone j rest) := by
  unfold spillDone
  dsimp only
  refine .trans ?_ (retryDeferred_unflagged _)
  refine .trans ?_ (refillCheck_unflagged _ _)
  exact .same

/-! ### Commands -/

theorem onCurrent_flagged (F : s.Flagged) (p : Port) {f : Handle → Task → State}
    (hf : ∀ h r u, (s.port p).state = .run h r → s.task? h = some u → (f h u).Flagged) :
    (s.onCurrent p f).Flagged := by
  unfold onCurrent
  split
  case h_1 hst =>
    split
    · exact hf _ _ _ hst ‹_›
    · exact F
  all_goals exact F

theorem onNamed_flagged (F : s.Flagged) (p : Port) {f : Handle → Task → State}
    (hf : ∀ h u, s.task? h = some u → (f h u).Flagged) : (s.onNamed p f).Flagged := by
  unfold onNamed
  split
  · exact hf _ _ ‹_›
  · exact F.setResult p _ _

theorem cancel_flagged (F : s.Flagged) (p : Port) : (s.cancel p).Flagged := by
  unfold cancel
  split
  case h_1 hst =>
    refine Flagged.setResult ?_ p _ _
    have U : Unflagged s (s.leaveAwait p) := .same
    refine (U.trans (.onPort rfl ?_)).flagged F
    change PortState.runTask .idle = (s.port p).state.runTask
    rw [hst]; rfl
  case h_2 k hst =>
    refine Flagged.setResult ?_ p _ _
    have U : Unflagged s (s.clearReceivePending k) := .same
    refine (U.trans (.onPort rfl ?_)).flagged F
    change PortState.runTask (.run k false) = (s.port p).state.runTask
    rw [hst]; rfl
  all_goals exact F.setResult p _ _

theorem receive_flagged (F : s.Flagged) (p : Port) : (s.receive p).Flagged := by
  refine onCurrent_flagged F p fun h r u hst e => ?_
  dsimp only
  split
  · exact (evalPreempt_flagged _).1
  split
  · unfold beginReceivePending
    refine (refillCheck_unflagged _ h).flagged (Flagged.setResult ?_ p _ _)
    have U : Unflagged s (s.modInbox h fun ib => { ib with recvPending := true }) := .same
    refine (U.trans (.onPort rfl ?_)).flagged F
    change PortState.runTask (.run h true) = (s.port p).state.runTask
    rw [hst]; rfl
  split
  · exact F.setResult p _ _
  split
  · exact (evalPreempt_flagged _).1
  · exact F.setResult p _ _

theorem create_flagged (L : s.Linked) (F : s.Flagged) (p : Port) : (s.create p).Flagged := by
  unfold create
  dsimp only
  split
  case h_2 => exact F.setResult p _ _
  case h_1 prio aff len _ _ _ =>
    unfold createTask
    split
    case h_2 => exact F.setResult p _ _
    case h_1 slot rest hf =>
      refine Flagged.setResult (s := { s with freeSlots := rest }.makeTask slot (Task.new prio aff len))
        (Unflagged.flagged (s := s) ⟨fun _ => rfl, fun _ => rfl, rfl, fun k hk => ?_⟩ F) p _ _
      have live : ∃ w, s.task? k = some w := by
        rcases hk with ⟨q, hq⟩ | ⟨q, hq⟩
        · obtain ⟨w, hw, -⟩ := (L.ready q k).1 hq; exact ⟨w, hw⟩
        · have : (s.port q).state.post = .holds k := by
            cases hst : (s.port q).state <;> rw [hst] at hq <;> cases hq; rfl
          obtain ⟨w, hw, -⟩ := (L.held q k).1 this; exact ⟨w, hw⟩
      obtain ⟨w, hw⟩ := live
      have isfree : s.tasks[slot].task = none := (L.free slot).1 (by rw [hf]; exact List.mem_cons_self)
      have ne : k.slot ≠ slot := by
        intro c
        have e1 : s.tasks[k.slot] = s.tasks[slot] := congrArg (fun j : Slot => s.tasks[j]) c
        have := (s.task?_eq.1 hw).2
        rw [e1, isfree] at this; cases this
      have get : ({ s with freeSlots := rest }.makeTask slot (Task.new prio aff len)).tasks[k.slot] = s.tasks[k.slot] :=
        (getElem_set_fin ..).trans (if_neg ne)
      rw [task?_slot, task?_slot, get]

theorem seed_flagged (F : s.Flagged) (old : (s.port p).state.post = .none) : (s.seed p).Flagged := by
  refine onNamed_flagged F p fun h u e => ?_
  have go : (s.beginSeed p h).Flagged := by
    unfold beginSeed
    refine Flagged.setResult ?_ p _ _
    have U : Unflagged s (s.modTask h fun t => { t with seedPort := some p }) := .onTask fun _ => rfl
    refine (U.trans (.onPort rfl ?_)).flagged F
    change none = ((s.modTask h _).port p).state.runTask
    rw [modTask_port, runTask_of_none old]
  split
  · exact F.setResult p _ _
  split
  · exact go
  · exact go
  all_goals exact F.setResult p _ _

/-- A command taken leaves every preempt flag as R72 states. -/
theorem commandEffect_flagged (L : s.Linked) (F : s.Flagged) {c : Cmd} (taken : c.takenIn (s.port p).state = true) :
    (commandEffect c p s).Flagged := by
  have r (c : ResultCode) (v : BitVec 16) : (s.setResult p c v).Flagged := F.setResult p c v
  have args (a : Vector Word 4) : (s.setArgs p a).Flagged := Unflagged.flagged (.onPort rfl rfl) F
  have ev (a : State) : a.evalPreempt.Flagged := (evalPreempt_flagged a).1
  cases c
  case attach => exact Flagged.setResult (F.clear rfl rfl) p _ _
  case detach => exact Flagged.setResult (F.clear rfl rfl) p _ _
  case dispatch => exact ev _
  case cancel => exact cancel_flagged F p
  case yield =>
    refine onCurrent_flagged F p fun h _ u _ e => ?_
    split
    · exact ev _
    · exact r _ _
  case exit => exact onCurrent_flagged F p fun h _ u _ e => ev _
  case sleep =>
    refine onCurrent_flagged F p fun h _ u _ e => ?_
    dsimp only
    split
    · exact ev _
    · exact r _ _
  case send =>
    refine onCurrent_flagged F p fun h _ u _ e => ?_
    dsimp only
    split
    · exact r _ _
    split
    · exact r _ _
    split
    · exact ev _
    · exact ev _
  case receive => exact receive_flagged F p
  case queryTask =>
    change (s.queryTask p).Flagged
    unfold queryTask; split
    · exact (args _).setResult p _ _
    · exact r _ _
  case queryInbox =>
    change (s.queryInbox p).Flagged
    unfold queryInbox; split
    · exact (args _).setResult p _ _
    · exact r _ _
  case queryEvent =>
    change (s.queryEvent p).Flagged
    unfold queryEvent; split
    · exact (args _).setResult p _ _
    · exact r _ _
  case queryPart => exact (args _).setResult p _ _
  case create => exact create_flagged L F p
  case seed => exact seed_flagged F (takenIn_none (.inr (.inr (.inr rfl))) taken)
  case activate =>
    refine onNamed_flagged F p fun h u e => ?_
    split
    · exact r _ _
    split
    · exact ev _
    · exact r _ _
  case halt =>
    refine onNamed_flagged F p fun h u e => ?_
    split
    · exact r _ _
    all_goals exact ev _
  case release =>
    refine onNamed_flagged F p fun h u e => ?_
    split
    · exact r _ _
    split
    · exact Flagged.setResult (Unflagged.flagged (.onTask fun _ => by rfl) F) p _ _
    all_goals exact r _ _
  case destroy => exact onNamed_flagged F p fun h u e => ev _
  case setPrio =>
    refine onNamed_flagged F p fun h u e => ?_
    split
    · split
      · exact r _ _
      · exact ev _
    · exact r _ _
  case setAffinity =>
    refine onNamed_flagged F p fun h u e => ?_
    split
    · exact ev _
    · exact r _ _
  case setInbox =>
    change (s.setInbox p).Flagged
    unfold setInbox; dsimp only; split
    · exact r _ _
    split
    · exact r _ _
    split
    · exact r _ _
    · exact Flagged.setResult (Unflagged.flagged .same F) p _ _
  case resetInbox =>
    change (s.resetInbox p).Flagged
    unfold resetInbox; dsimp only; split
    · exact evalPreempt_setResult_flagged _ p _ _
    · exact r _ _
  case bindEvent =>
    change (s.bindEvent p).Flagged
    unfold bindEvent; dsimp only; split
    · exact r _ _
    split
    · split
      · exact r _ _
      · exact Flagged.setResult (Unflagged.flagged .same F) p _ _
    · exact r _ _
  case unbindEvent =>
    change (s.unbindEvent p).Flagged
    unfold unbindEvent; split
    · exact Flagged.setResult (Unflagged.flagged .same F) p _ _
    · exact r _ _
  case setSink =>
    change (s.setSink p).Flagged
    unfold setSink; dsimp only; split
    · exact Flagged.setResult (Unflagged.flagged .same F) p _ _
    · exact r _ _
  case revoke =>
    change (s.revoke p).Flagged
    unfold revoke; split
    · split
      · exact r _ _
      · split
        · exact evalPreempt_setResult_flagged _ p _ _
        · exact r _ _
    · exact r _ _
  case beginService =>
    change (s.beginService p).Flagged
    unfold beginService; split
    · exact r _ _
    · exact Flagged.setResult (Unflagged.flagged .same F) p _ _

/-! ### Frame streams, ticks and the backing engine -/

theorem readFrame_flagged (F : s.Flagged) (p : Port) : (s.readFrame p).Flagged := by
  have r (w : Word) : (s.setReadData p w).Flagged := Unflagged.flagged (.onPort rfl rfl) F
  unfold readFrame
  split
  case h_1 h n pos hst =>
    split
    · dsimp only
      split
      · refine Unflagged.flagged (.onPort rfl ?_) (r _)
        rw [setReadData_eq, modPort_port, if_pos rfl]
        change none = (s.port p).state.runTask
        rw [hst]; rfl
      · exact (evalPreempt_flagged _).1
    · exact r _
  all_goals exact r _

theorem writeFrame_flagged (F : s.Flagged) (p : Port) (w : Word) : (s.writeFrame p w).Flagged := by
  unfold writeFrame
  split
  case h_1 k h ws hst =>
    have run : (s.port p).state.runTask = none := by rw [hst]; rfl
    have push (ws' : List Word) : (s.setPortState p (.saving k h ws')).Flagged :=
      Unflagged.flagged (.onPort rfl run.symm) F
    unfold takeFrameWord
    split
    · split
      · split
        · exact push _
        · exact F.setResult p _ _
      · split
        · exact push _
        · unfold commit
          dsimp only
          split
          · exact (evalPreempt_flagged _).1
          · refine Unflagged.flagged (.onTask fun _ => rfl) (Flagged.setResult ?_ p _ _)
            have U (a : State) (ha : Unflagged s a) (hp : a.ports = s.ports) : (a.setPortState p .idle).Flagged := by
              refine Unflagged.flagged (.onPort rfl ?_) (ha.flagged F)
              rw [port_congr hp]; exact run.symm
            refine U _ ?_ ?_
            · unfold storeFrame
              exact Unflagged.trans (t := { s with frames := _ }) .same (.onTask fun _ => rfl)
            · unfold storeFrame; rw [modTask_ports]
    · exact F
  all_goals exact F

theorem attemptError_flagged (F : s.Flagged) : s.attemptError.Flagged := by
  have F1 : s.endAttempt.Flagged := Unflagged.flagged .same F
  unfold attemptError
  dsimp only
  split
  · split
    · split
      · exact Unflagged.flagged .same F1
      · exact (evalPreempt_flagged _).1
    · exact (endUnowned_unflagged _ _ _).flagged F1
  · exact F1

theorem landWords_flagged (F : s.Flagged) (n : Taken) : (s.landWords n).Flagged := by
  rw [landWords_eq]; exact Unflagged.flagged .same F

theorem burstError_flagged (F : s.Flagged) (n : Taken) : (s.burstError n).Flagged := by
  unfold burstError; split
  · exact attemptError_flagged (landWords_flagged F n)
  · exact F

theorem takeTimeout_flagged (F : s.Flagged) (n : Taken) : (s.takeTimeout n).Flagged := by
  unfold takeTimeout; split
  · split
    · exact burstError_flagged F n
    · exact F
  · exact F

theorem startAttempt_flagged (F : s.Flagged) : s.startAttempt.Flagged := by
  unfold startAttempt; split
  · exact Unflagged.flagged .same F
  · exact F

theorem spillComplete_flagged (F : s.Flagged) : s.spillComplete.Flagged := by
  unfold spillComplete
  split
  · split
    · dsimp only
      have F1 : (s.landWords ⟨8, .stored⟩).endAttempt.Flagged := Unflagged.flagged .same (landWords_flagged F _)
      split
      · exact (spillDone_unflagged _ _ _).flagged F1
      · exact (endUnowned_unflagged _ _ _).flagged F1
    · exact F
  · exact F

theorem refillComplete_flagged (F : s.Flagged) (d : ReadData) : (s.refillComplete d).Flagged := by
  unfold refillComplete
  split
  case h_1 b j rest _ _ =>
    split
    · exact F
    · dsimp only
      have F0 : (s.keepImage j (s.readBurst b d)).Flagged := by
        unfold keepImage; split
        · exact Unflagged.flagged .same F
        · exact F
      have F1 : (s.keepImage j (s.readBurst b d)).endAttempt.Flagged := Unflagged.flagged .same F0
      split
      · split
        · unfold refillDone
          split
          · exact (evalPreempt_flagged _).1
          · exact F1
        · exact attemptError_flagged F1
      · exact (endUnowned_unflagged _ _ _).flagged F1
  case h_2 => exact F

theorem expireDue_flagged (n : Nat) : ∀ {s : State}, s.Flagged → (expireDue n s).Flagged := by
  induction n with
  | zero => exact fun F => F
  | succ n ih =>
    intro s F
    unfold expireDue
    split
    · refine ih ?_
      unfold expireHead; split
      · exact (evalPreempt_flagged _).1
      · exact F
    · exact F

theorem settleDeadlines_flagged (F : s.Flagged) : s.settleDeadlines.Flagged := by
  unfold settleDeadlines; split
  · exact Unflagged.flagged (s := expireDue s.deadlines.length s) .same (expireDue_flagged _ F)
  · exact F

theorem finishExpiries_flagged (F : s.Flagged) : s.finishExpiries.Flagged := by
  unfold finishExpiries; split
  · exact settleDeadlines_flagged F
  · exact F

theorem countDown_preempt (u : PortUnit) (v : Nat) : (u.countDown v).preempt = u.preempt := by
  unfold PortUnit.countDown
  split
  · split <;> rfl
  · rfl

theorem takeOwed_preempt (u : PortUnit) (v : Nat) : (u.takeOwed v).preempt = u.preempt := by
  unfold PortUnit.takeOwed
  split
  · exact countDown_preempt u v
  all_goals rfl

theorem takeLeaseTick_flagged (F : s.Flagged) (p : Port) : (s.takeLeaseTick p).Flagged := by
  have F1 : (s.modPort p fun u => u.takeOwed s.items.leases[p]).Flagged :=
    Unflagged.flagged (.onPort (takeOwed_preempt _ _) (by rw [takeOwed_state])) F
  unfold takeLeaseTick
  split
  · exact F
  all_goals
    dsimp only
    split
    · exact (evalPreempt_flagged _).1
    all_goals exact F1

theorem settle_flagged (F : s.Flagged) : s.settle.Flagged :=
  takeTimeout_flagged (takeLeaseTick_flagged (takeLeaseTick_flagged (takeLeaseTick_flagged (takeLeaseTick_flagged
    (settleDeadlines_flagged F) 0) 1) 2) 3) .nothing

theorem deliverTick_flagged (F : s.Flagged) (late : BitVec 4) : (s.deliverTick late).Flagged := by
  have one (a : State) (Fa : a.Flagged) (p : Port) : (a.tickPort late p).Flagged := by
    refine Unflagged.flagged (.onPort ?_ ?_) Fa
    · split
      · rfl
      · exact countDown_preempt _ _
    · split
      · rfl
      · rw [countDown_state]
  unfold deliverTick
  exact one _ (one _ (one _ (one _ (Unflagged.flagged .same F) 0) 1) 2) 3

theorem takeTick_flagged (F : s.Flagged) (late : BitVec 4) : (s.takeTick late).Flagged :=
  deliverTick_flagged (settle_flagged F) late

theorem clockPeriod_flagged (F : s.Flagged) : s.clockPeriod.Flagged := by
  unfold clockPeriod
  split
  · split
    · exact Unflagged.flagged .same F
    · exact takeTick_flagged (Unflagged.flagged .same F) _
  · exact F

theorem takeEdge_flagged (F : s.Flagged) (l : Line) : (s.takeEdge l).Flagged := by
  unfold takeEdge
  split
  · split
    · exact Unflagged.flagged .same F
    · unfold postEvent
      split
      · dsimp only
        split
        · exact (evalPreempt_flagged _).1
        · exact Unflagged.flagged .same F
      · exact Unflagged.flagged .same F
  · exact F

/-- A command written to CMD leaves every preempt flag as R72 states, whatever the checks decide. -/
theorem issue_flagged (L : s.Linked) (F : s.Flagged) {c : Cmd} {f : State → State}
    (hf : ∀ a : State, a.Linked → a.Flagged → c.takenIn (a.port p).state = true → (f a).Flagged) :
    (s.issue c p f).Flagged := by
  have L1 := settle_linked L
  have F1 := settle_flagged F
  unfold issue
  dsimp only
  split
  · exact F1
  · exact F1.setResult p _ _
  · exact Unflagged.flagged (.onPort rfl rfl) F1
  · refine hf _ (L1.onPort fun _ => rfl) (Unflagged.flagged (.onPort rfl rfl) F1) ?_
    rw [reloadLease_eq, modPort_port, if_pos rfl]
    exact gate_taken ‹_›

theorem partReset_flagged (s : State) (n : Taken) : (s.partReset n).Flagged := fun p => by
  have port (q : Port) : (s.partReset n).port q = PortUnit.reset s.ports[q].prstLow := by
    simp [State.port, partReset]
  rw [preemptCondition_eq, port]; rfl

end State
end Sys2Proof.Machine
end

