-- ==== Sys2Proof/Laws/Deadlines.lean ====
section
/-! SUPPORT. The deadline list: insertion keeps its order, expiry leaves nothing due, a tick keeps the order. -/

namespace Sys2Proof.Machine

/-- The entries are ordered by remaining distance (R134). -/
def InOrder (counter : Word) (ds : List Deadline) : Prop :=
  ds.Pairwise fun a b => a.distance counter ≤ b.distance counter

theorem insertDeadlineEntry_mem (counter : Word) (e : Deadline) (ds : List Deadline) (x : Deadline) :
    x ∈ insertDeadlineEntry counter e ds ↔ x = e ∨ x ∈ ds := by
  induction ds with
  | nil => simp [insertDeadlineEntry]
  | cons d rest ih =>
    unfold insertDeadlineEntry
    split
    · simp only [List.mem_cons, ih]; tauto
    · simp only [List.mem_cons]

/-- Insertion keeps the order (R134, R135). -/
theorem insertDeadlineEntry_inOrder {counter : Word} {ds : List Deadline} (o : InOrder counter ds) (e : Deadline) :
    InOrder counter (insertDeadlineEntry counter e ds) := by
  induction ds with
  | nil => exact List.pairwise_singleton _ _
  | cons d rest ih =>
    obtain ⟨hd, hr⟩ := List.pairwise_cons.1 o
    unfold insertDeadlineEntry
    split
    case isTrue h =>
      refine List.pairwise_cons.2 ⟨fun x hx => ?_, ih hr⟩
      rcases (insertDeadlineEntry_mem ..).1 hx with rfl | hx
      · exact h
      · exact hd x hx
    case isFalse h =>
      have le : e.distance counter ≤ d.distance counter := BitVec.le_of_lt (BitVec.not_le.1 h)
      refine List.pairwise_cons.2 ⟨fun x hx => ?_, o⟩
      rcases List.mem_cons.1 hx with rfl | hx
      · exact le
      · exact BitVec.le_trans le (hd x hx)

/-- A tick brings every entry that is not due one tick nearer, in the same order (R136). -/
theorem inOrder_tick {counter : Word} {ds : List Deadline} (o : InOrder counter ds)
    (none : ∀ e ∈ ds, e.expiry ≠ counter) : InOrder (counter + 1#32) ds := by
  refine List.Pairwise.imp_of_mem (fun {a b} ha hb h => ?_) o
  have na := none a ha
  have nb := none b hb
  unfold Deadline.distance at *
  bv_omega

namespace State
variable {s t : State} {h : Handle}

theorem Steady.deadlinesOrdered (r : Steady s t) (o : s.DeadlinesOrdered) : t.DeadlinesOrdered := by
  refine ⟨?_, fun hp => ?_⟩
  · rw [r.tickCounter]; exact o.1.sublist r.deadlines
  · rw [r.phase] at hp
    exact List.sublist_nil.1 (o.2 hp ▸ r.deadlines)

theorem insertDeadline_ordered (o : s.DeadlinesOrdered) (hp : s.phase = .service) (n : BitVec 16) (k : DeadlineKind) :
    (s.insertDeadline h n k).DeadlinesOrdered :=
  ⟨insertDeadlineEntry_inOrder o.1 _, fun c => absurd (hp.symm.trans c) nofun⟩

/-- Nothing due at the head of an ordered list is nothing due in it. -/
theorem none_due (o : s.DeadlinesOrdered) (due : s.deadlineDue = false) : ∀ e ∈ s.deadlines, e.expiry ≠ s.tickCounter := by
  obtain ⟨o, -⟩ := o
  unfold deadlineDue at due
  cases hd : s.deadlines with
  | nil => simp
  | cons d rest =>
    rw [hd] at due o
    intro e he c
    have hne : d.expiry ≠ s.tickCounter := by simpa using due
    rcases List.mem_cons.1 he with rfl | he
    · exact hne c
    · have := (List.pairwise_cons.1 o).1 e he
      unfold Deadline.distance at this
      bv_omega

theorem due_false (none : ∀ e ∈ s.deadlines, e.expiry ≠ s.tickCounter) : s.deadlineDue = false := by
  unfold deadlineDue
  split
  case h_1 e rest hd => simpa using none e (by rw [hd]; exact List.mem_cons_self)
  case h_2 => rfl

/-- An expiry shortens the list. -/
theorem expireHead_length (due : s.deadlineDue = true) : s.expireHead.deadlines.length < s.deadlines.length := by
  unfold deadlineDue at due
  unfold expireHead
  split at due
  case h_2 => cases due
  case h_1 e rest hd =>
    have sub : ((s.endWait e.task e.kind.resume).evalPreempt).deadlines.Sublist
        (s.dropPendingSend e.task |>.removeDeadline e.task).deadlines :=
      ((wake_moves _ e.task _).trans (evalPreempt_moves _)).reacts.deadlines
    have sub1 := (dropPendingSend_moves s e.task).reacts.deadlines
    refine Nat.lt_of_le_of_lt sub.length_le ?_
    refine Nat.lt_of_le_of_lt (m := (s.deadlines.filter fun x => x.task ≠ e.task).length) ?_ ?_
    · exact (sub1.filter _).length_le
    · rw [hd]
      simp only [ne_eq, decide_not, List.filter_cons, decide_true, Bool.not_true, Bool.false_eq_true, if_false,
        List.length_cons]
      exact Nat.lt_succ_of_le (List.length_filter_le _ _)

theorem expireDue_settled (n : Nat) : ∀ s : State, s.deadlines.length ≤ n → (expireDue n s).deadlineDue = false := by
  induction n with
  | zero =>
    intro s hn
    have : s.deadlines = [] := List.length_eq_zero_iff.1 (Nat.le_zero.1 hn)
    unfold expireDue deadlineDue; rw [this]
  | succ n ih =>
    intro s hn
    unfold expireDue
    split
    case isTrue due => exact ih _ (by have := expireHead_length due; omega)
    case isFalse due => simpa using due

/-- Once the deadlines are settled no entry is due (R136). -/
theorem settleDeadlines_settled (s : State) : s.settleDeadlines.deadlineDue = false := by
  unfold settleDeadlines
  split
  · exact expireDue_settled _ s (Nat.le_refl _)
  case isFalse due => simpa using due

/-- A settled part has no entry due. -/
theorem settle_none_due (o : s.DeadlinesOrdered) : ∀ e ∈ s.settle.deadlines, e.expiry ≠ s.settle.tickCounter := by
  have r : Steady s.settleDeadlines s.settle := by
    unfold settle
    refine .trans ?_ (takeTimeout_zero_steady _)
    refine .trans ?_ (takeLeaseTick_steady _ 3)
    refine .trans ?_ (takeLeaseTick_steady _ 2)
    refine .trans ?_ (takeLeaseTick_steady _ 1)
    exact takeLeaseTick_steady _ 0
  intro e he
  rw [r.tickCounter]
  exact none_due (Steady.deadlinesOrdered s.settleDeadlines_steady o) s.settleDeadlines_settled e (r.deadlines.subset he)

/-- A tick delivered with nothing due keeps the order of the deadline list. -/
theorem deliverTick_ordered (o : s.DeadlinesOrdered) (none : ∀ e ∈ s.deadlines, e.expiry ≠ s.tickCounter)
    (hp : s.phase = .service) (late : BitVec 4) : (s.deliverTick late).DeadlinesOrdered := by
  unfold deliverTick tickPort
  refine ⟨?_, fun c => ?_⟩
  · simp only [modPort_deadlines, modPort_tickCounter]; exact inOrder_tick o.1 none
  · simp only [modPort_phase] at c; exact absurd (hp.symm.trans c) nofun

/-- A tick keeps the order of the deadline list. -/
theorem takeTick_ordered (o : s.DeadlinesOrdered) (hp : s.phase = .service) (late : BitVec 4) :
    (s.takeTick late).DeadlinesOrdered :=
  deliverTick_ordered (Steady.deadlinesOrdered s.settle_steady o) (settle_none_due o)
    (s.settle_steady.phase.trans hp) late

end State
end Sys2Proof.Machine
end

