-- ==== Sys2Proof/Laws/Answers.lean ====
section
/-! SUPPORT. A command written to CMD, from `exec` to its effect; and the re-evaluation of the preempt flags as
`State.Reevaluated`. -/

namespace Sys2Proof.Machine
namespace State
variable {s t u : State} {p : Port} {c : Cmd}

/-- Every command written to CMD is issued with its own effect. -/
theorem exec_cmd (c : Cmd) (p : Port) (s : State) :
    exec (cmdInstr c p) s = .next (s.issue c p (commandEffect c p)) := by
  cases c <;> rfl

/-- A command all of whose checks pass acts on the state in which the lease has been reloaded (R177). -/
theorem exec_taken (served : s.Served p) (phase : c.takenInPhase s.phase = true)
    (busy : (s.port p).state.busy = false ∨ c = .cancel) (state : c.takenIn (s.port p).state = true)
    (right : c.supervisor = false ∨ s.items.supervisors.getLsbD p.val = true) :
    exec (cmdInstr c p) s = .next (commandEffect c p (s.taken p)) := by
  obtain ⟨quiet, rst, prst⟩ := served
  have held : s.held p = false := by simp [State.held, rst, prst]
  have g : s.gate c p = .taken := by
    unfold gate
    rcases busy with b | rfl <;> rcases right with r | r <;> simp_all [isSupervisor]
  rw [exec_cmd, s.issue_of_quiet quiet, g]
  rfl

theorem free_iff {st : PortState} : st.Free ↔ st = .idle ∨ ∃ h, st = .run h false := by
  cases st <;> simp [PortState.Free, PortState.code, PortState.busy]

theorem free_busy {st : PortState} (f : st.Free) : st.busy = false := by
  rcases free_iff.1 f with rfl | ⟨h, rfl⟩ <;> rfl

/-- A query or supervisor command but SEED is taken from a free port (R178). -/
theorem exec_free (free : s.FreeAt p) (kind : c.query = true ∨ c.supervisor = true ∧ c ≠ .seed)
    (right : c.supervisor = false ∨ s.items.supervisors.getLsbD p.val = true) :
    exec (cmdInstr c p) s = .next (commandEffect c p (s.taken p)) := by
  obtain ⟨served, phase, f⟩ := free
  refine exec_taken served ?_ (.inl (free_busy f)) ?_ right
  · rw [phase]; rcases kind with k | ⟨k, -⟩ <;> cases c <;> first | rfl | cases k
  · rcases free_iff.1 f with e | ⟨h, e⟩ <;> rw [e] <;> rcases kind with k | ⟨k, n⟩ <;> cases c <;>
      first | exact absurd rfl n | rfl | cases k

/-- A task-level command is taken from a running port (R71, R178). -/
theorem exec_running {h : Handle} {t : Task} (run : s.RunningAt p h t)
    (kind : c = .yield ∨ c = .exit ∨ c = .sleep ∨ c = .send ∨ c = .receive) :
    exec (cmdInstr c p) s = .next (commandEffect c p (s.taken p)) := by
  obtain ⟨served, phase, e, -⟩ := run
  refine exec_taken served ?_ (.inl (by rw [e]; rfl)) ?_ (.inl ?_)
  · rw [phase]; rcases kind with rfl | rfl | rfl | rfl | rfl <;> rfl
  · rw [e]; rcases kind with rfl | rfl | rfl | rfl | rfl <;> rfl
  · rcases kind with rfl | rfl | rfl | rfl | rfl <;> rfl

/-! ### The state after the lease is reloaded -/

@[simp] theorem taken_port (q : Port) : (s.taken p).port q = if q = p then s.takenUnit p else s.port q :=
  s.modPort_port p q fun _ => s.takenUnit p

@[simp] theorem taken_task? (h : Handle) : (s.taken p).task? h = s.task? h := rfl
@[simp] theorem taken_live (h : Handle) : (s.taken p).live h = s.live h := rfl
@[simp] theorem taken_inbox (h : Handle) : (s.taken p).inbox h = s.inbox h := rfl
@[simp] theorem taken_eligible (h : Handle) (q : Port) : (s.taken p).eligible h q = s.eligible h q := rfl

theorem withPort_port (q : Port) (v : PortUnit) : (s.withPort p v).port q = if q = p then v else s.port q :=
  s.modPort_port p q fun _ => v

/-- Two changes of one port unit are the second. -/
theorem withPort_withPort (v w : PortUnit) : (s.withPort p v).withPort p w = s.withPort p w := by
  simp [withPort]

theorem modPort_withPort (f : PortUnit → PortUnit) : s.modPort p f = s.withPort p (f (s.port p)) := rfl

/-- A change of a port unit after its lease is reloaded. -/
theorem taken_modPort (f : PortUnit → PortUnit) : (s.taken p).modPort p f = s.withPort p (f (s.takenUnit p)) := by
  rw [modPort_withPort, taken_port, if_pos rfl]; exact withPort_withPort _ _

theorem taken_setResult (code : ResultCode) (v : BitVec 16) : (s.taken p).setResult p code v = s.answered p code v :=
  taken_modPort _

/-- A change of a live task's record. -/
theorem modTask_withTask {h : Handle} {w : Task} (e : s.task? h = some w) (f : Task → Task) :
    s.modTask h f = s.withTask h (f w) := by
  unfold modTask; rw [e]; rfl

/-! ### Re-evaluation -/

/-- The re-evaluation changes the preempt flags and nothing else, and leaves each as R72 states (R73). -/
theorem evalPreempt_reevaluated (s : State) : s.evalPreempt.Reevaluated s := by
  refine ⟨s.evalPreempt_flagged.1, rfl, fun q => ?_⟩
  unfold evalPreempt
  simp only [evalPreemptAt_eq, modPort_port]
  fin_cases q <;> simp

/-- RESULT written after the re-evaluation. -/
theorem evalPreempt_setResult_reevaluated (s : State) (p : Port) (c : ResultCode) (v : BitVec 16) :
    (s.evalPreempt.setResult p c v).Reevaluated (s.withPort p ((s.port p).answer c v)) := by
  obtain ⟨F, -, ports⟩ := s.evalPreempt_reevaluated
  refine ⟨F.setResult p c v, rfl, fun q => ?_⟩
  simp only [setResult, modPort_port, withPort_port]
  split
  case isTrue eq => subst eq; rw [ports q]; rfl
  case isFalse => exact ports q

end State
end Sys2Proof.Machine
end

