-- ==== Sys2Proof/Laws/Rounds.lean ====
section
/-! SUPPORT. The operations that go round a list keep what one round keeps: the retry of the deferred-refill list, sender
release, the release with GONE and the deadline expiries. With the slots that an allocation takes and the forms of a
REFILL job and of routing, one lemma each. -/

namespace Sys2Proof.Machine

namespace State

variable {s : State} {P : State → Prop}

/-! ### The slots an allocation takes -/

/-- How many of `n` slots an allocation gets under the ordinary slot rule (R107, R113). -/
def grant (s : State) (n : Nat) : Nat := min n (s.poolFree.length - s.items.reserve)

theorem takeSlots_eq (n : Nat) : ∀ s : State,
    takeSlots n s = (s.poolFree.take (s.grant n), { s with poolFree := s.poolFree.drop (s.grant n) }) := by
  induction n with
  | zero => intro s; simp [takeSlots, grant]
  | succ n ih =>
    intro s
    unfold takeSlots takeSlot mayAllocate freeCount
    by_cases a : s.items.reserve < s.poolFree.length
    · match e : s.poolFree with
      | [] => simp [e] at a
      | x :: rest =>
        rw [e] at a
        have g : s.grant (n + 1) = { s with poolFree := rest }.grant n + 1 := by
          simp only [grant, e, List.length_cons] at a ⊢
          omega
        have a' : s.items.reserve ≤ rest.length := by simpa using Nat.le_of_lt_succ a
        simp [a', ih, g]
    · have g : s.grant (n + 1) = 0 := by simp only [grant]; omega
      simp [a, g]

/-- A REFILL job is made for as many messages as are wanted and granted, and for one at least (R113). -/
theorem createRefill_eq {h : Handle} {t : State} (e : s.createRefill h = some t) :
    s.jobs.length < Config.jobQueueCapacity ∧
      let a := s.grant (min (s.inbox h).backed ((s.inbox h).limit - (s.inbox h).resident.length))
      0 < a ∧ a ≤ s.poolFree.length ∧
        t = { s with
          poolFree := s.poolFree.drop a
          jobs := s.jobs ++ [(s.inbox h).refillJob h (s.poolFree.take a)] }.modInbox h fun ib => ib.claim a := by
  unfold createRefill at e
  split at e
  case isTrue room =>
    refine ⟨room, ?_⟩
    simp only [takeSlots_eq] at e
    split at e
    · cases e
    case isFalse some =>
      intro a
      have le : a ≤ s.poolFree.length := by simp only [a, grant]; omega
      have len : (s.poolFree.take a).length = a := by simp [le]
      refine ⟨?_, le, ?_⟩
      · rcases Nat.eq_zero_or_pos a with z | pos
        · exact absurd (show (s.poolFree.take a).isEmpty = true by rw [z]; rfl) some
        · exact pos
      · rw [← Option.some.inj e, len]
  case isFalse => cases e

/-! ### Rounds -/

/-- What making a REFILL job and changing the deferred-refill list keep, a refill check keeps (R116). -/
theorem refillCheck_keeps (made : ∀ {s t h}, P s → s.refillNeeded h = true → s.createRefill h = some t → P t)
    (listed : ∀ {s : State} ds, P s → P { s with deferred := ds }) (h : Handle) (p : P s) : P (s.refillCheck h) := by
  unfold refillCheck
  split
  case isTrue need =>
    split
    case h_1 e => exact made p need e
    case h_2 =>
      unfold defer
      split
      · exact p
      · exact listed _ p
  case isFalse => exact p

theorem retryEntries_keeps (made : ∀ {s t h}, P s → s.refillNeeded h = true → s.createRefill h = some t → P t)
    (listed : ∀ {s : State} ds, P s → P { s with deferred := ds }) (hs : List Handle) :
    ∀ {s : State}, P s → P (retryEntries hs s) := by
  induction hs with
  | nil => exact fun p => listed _ p
  | cons h rest ih =>
    intro s p
    unfold retryEntries
    split
    case isTrue need =>
      split
      case h_1 e => exact ih (made p need e)
      case h_2 => exact listed _ p
    case isFalse => exact ih p

/-- What making a REFILL job and changing the deferred-refill list keep, a retry keeps (R118). -/
theorem retryDeferred_keeps (made : ∀ {s t h}, P s → s.refillNeeded h = true → s.createRefill h = some t → P t)
    (listed : ∀ {s : State} ds, P s → P { s with deferred := ds }) (p : P s) : P s.retryDeferred :=
  retryEntries_keeps made listed _ p

/-- What one released sender keeps, a sender release keeps (R93). -/
theorem releaseSenders_keeps (h : Handle)
    (one : ∀ {s : State} {k : Handle} {ps : PendingSend} {res : Resume}, P s → s.pendingSendOf k = some ps →
      (s.route .ordinary h (ps.message k)).1.resume = some res →
      P ((s.route .ordinary h (ps.message k)).2.endWait k res)) (p : P s) : P (s.releaseSenders h) := by
  have entries : ∀ (hs : List Handle) {s : State}, P s → P (releaseEntries h hs s) := by
    intro hs
    induction hs with
    | nil => exact fun p => p
    | cons k rest ih =>
      intro s p
      unfold releaseEntries
      split
      case h_1 e =>
        dsimp only
        split
        case h_1 er => exact ih (one p e er)
        case h_2 => exact p
      case h_2 => exact ih p
  exact entries _ p

/-- What the end of one wait with GONE keeps, the release of all senders keeps (R103). -/
theorem releaseAllGone_keeps (h : Handle) (one : ∀ {s : State} k, P s → P (s.endWait k .gone)) (p : P s) :
    P (s.releaseAllGone h) := by
  unfold releaseAllGone
  generalize (s.inbox h).senders = hs
  induction hs generalizing s with
  | nil => exact p
  | cons k rest ih => exact ih (one k p)

theorem expireDue_keeps (one : ∀ {s : State}, P s → s.deadlineDue = true → P s.expireHead) (n : Nat) :
    ∀ {s : State}, P s → P (expireDue n s) := by
  induction n with
  | zero => exact fun p => p
  | succ n ih =>
    intro s p
    unfold expireDue
    split
    case isTrue due => exact ih (one p due)
    case isFalse => exact p

/-- What one expiry and clearing the mark keep, the expiries of a tick keep (R136). -/
theorem settleDeadlines_keeps (one : ∀ {s : State}, P s → s.deadlineDue = true → P s.expireHead)
    (mark : ∀ {s : State} b, P s → P { s with expiring := b }) (p : P s) : P s.settleDeadlines := by
  unfold settleDeadlines
  split
  · exact mark _ (expireDue_keeps one _ p)
  · exact p

/-- What the expiries, a late tick at a port and an attempt's timeout keep, everything outstanding keeps (R131). -/
theorem settle_keeps (one : ∀ {s : State}, P s → s.deadlineDue = true → P s.expireHead)
    (mark : ∀ {s : State} b, P s → P { s with expiring := b }) (lease : ∀ {s : State} p, P s → P (s.takeLeaseTick p))
    (timeout : ∀ {s : State}, P s → P (s.takeTimeout .nothing)) (p : P s) : P s.settle :=
  timeout (lease _ (lease _ (lease _ (lease _ (settleDeadlines_keeps one mark p)))))

/-! ### Routing -/

/-- What each of the three acceptances keeps, routing keeps (R82): a refused message changes nothing (R78). -/
theorem route_keeps (rule : SlotRule) (h : Handle) (m : Message)
    (handOff : s.ownerWaits h = true → P (s.handOffMessage rule h m).2)
    (resident : (s.inbox h).occupancy = 0 → (s.inbox h).resident.length < (s.inbox h).limit →
      P (s.placeResident rule h m).2)
    (spill : (s.inbox h).occupancy < (s.inbox h).capacity → P (s.placeSpill rule h m).2) (p : P s) :
    P (s.route rule h m).2 := by
  unfold route
  dsimp only
  split
  · exact p
  split
  case isTrue w => exact handOff w
  split
  case isTrue r => exact resident r.1 r.2
  split
  case isTrue r => exact spill r
  case isFalse => exact p

end State
end Sys2Proof.Machine
end

