-- ==== Sys2Proof/Laws/Wakes.lean ====
section
/-! SUPPORT. What the dispatch unit and the end of a wait leave alone: messages, pool slots, jobs, line records, and every
field of an inbox but its sender list. -/

namespace Sys2Proof.Machine

/-- Nothing that holds a message, a pool slot or a line's count is changed, and no task's bound message. -/
structure Wakes (s t : State) : Prop where
  pool : t.pool = s.pool
  poolFree : t.poolFree = s.poolFree
  jobs : t.jobs = s.jobs
  burst : t.burst = s.burst
  deferred : t.deferred = s.deferred
  lines : t.lines = s.lines
  sink : t.sink = s.sink
  freeSlots : t.freeSlots = s.freeSlots
  inbox : ∀ k : Slot, t.inboxes[k] = { s.inboxes[k] with senders := t.inboxes[k].senders }
  bound : ∀ h, (t.task? h).map Task.bound = (s.task? h).map Task.bound

namespace Wakes

theorem refl (s : State) : Wakes s s := ⟨rfl, rfl, rfl, rfl, rfl, rfl, rfl, rfl, fun _ => rfl, fun _ => rfl⟩

theorem trans {s t u : State} (a : Wakes s t) (b : Wakes t u) : Wakes s u :=
  ⟨b.pool.trans a.pool, b.poolFree.trans a.poolFree, b.jobs.trans a.jobs, b.burst.trans a.burst,
   b.deferred.trans a.deferred, b.lines.trans a.lines, b.sink.trans a.sink, b.freeSlots.trans a.freeSlots,
   fun k => by rw [b.inbox k, a.inbox k], fun h => (b.bound h).trans (a.bound h)⟩

/-- The same tasks and inboxes, and what else `Wakes` names. -/
theorem same {s t : State} (tasks : t.tasks = s.tasks := by rfl) (inboxes : t.inboxes = s.inboxes := by rfl)
    (pool : t.pool = s.pool := by rfl) (poolFree : t.poolFree = s.poolFree := by rfl)
    (jobs : t.jobs = s.jobs := by rfl) (burst : t.burst = s.burst := by rfl)
    (deferred : t.deferred = s.deferred := by rfl) (lines : t.lines = s.lines := by rfl)
    (sink : t.sink = s.sink := by rfl) (freeSlots : t.freeSlots = s.freeSlots := by rfl) : Wakes s t :=
  ⟨pool, poolFree, jobs, burst, deferred, lines, sink, freeSlots, fun k => by rw [inboxes], fun h => by
    unfold State.task?; rw [tasks]⟩

end Wakes

namespace State

variable {s : State}

theorem modPort_wakes (p : Port) (f : PortUnit → PortUnit) : Wakes s (s.modPort p f) := .same

theorem modTask_wakes (h : Handle) {f : Task → Task} (bound : ∀ t, (f t).bound = t.bound) : Wakes s (s.modTask h f) := by
  have tasks (k : Handle) : ((s.modTask h f).task? k).map Task.bound = (s.task? k).map Task.bound := by
    rw [task?_modTask]
    split
    case isTrue e =>
      rw [e, Option.map_map]
      exact congrArg (Option.map · _) (funext bound)
    case isFalse => rfl
  unfold modTask at tasks ⊢
  split
  case h_1 e => simp only [e] at tasks; exact ⟨rfl, rfl, rfl, rfl, rfl, rfl, rfl, rfl, fun _ => rfl, tasks⟩
  case h_2 => exact .refl s

theorem setTaskState_wakes (h : Handle) (st : TaskState) : Wakes s (s.setTaskState h st) := modTask_wakes h fun _ => rfl

theorem enqueueTail_wakes (h : Handle) : Wakes s (s.enqueueTail h) := by unfold enqueueTail; split <;> exact .same

theorem enqueueHead_wakes (h : Handle) : Wakes s (s.enqueueHead h) := by unfold enqueueHead; split <;> exact .same

theorem dequeue_wakes (h : Handle) : Wakes s (s.dequeue h) := by unfold dequeue; split <;> exact .same

theorem leaveAwait_wakes (p : Port) : Wakes s (s.leaveAwait p) := .same

theorem beginCheckOut_wakes (p : Port) (h : Handle) : Wakes s (s.beginCheckOut p h) := by
  unfold beginCheckOut
  split
  · exact (setTaskState_wakes h _).trans (modPort_wakes p _)
  · exact .refl s

theorem handOff_wakes (p : Port) (h : Handle) : Wakes s (s.handOff p h) :=
  (leaveAwait_wakes p).trans ((dequeue_wakes h).trans (beginCheckOut_wakes p h))

theorem offer_wakes (h : Handle) : Wakes s (s.offer h) := by
  unfold offer
  split
  · exact (handOff_wakes _ h).trans (modPort_wakes _ _)
  · exact .refl s

theorem readyTail_wakes (h : Handle) : Wakes s (s.readyTail h) :=
  (setTaskState_wakes h _).trans ((enqueueTail_wakes h).trans (offer_wakes h))

theorem readyHead_wakes (h : Handle) : Wakes s (s.readyHead h) :=
  (setTaskState_wakes h _).trans ((enqueueHead_wakes h).trans (offer_wakes h))

/-! ### Waits -/

theorem senders_wakes (h : Handle) (f : List Handle → List Handle) :
    Wakes s (s.modInbox h fun ib => { ib with senders := f ib.senders }) := by
  refine ⟨rfl, rfl, rfl, rfl, rfl, rfl, rfl, rfl, fun k => ?_, fun _ => rfl⟩
  have get : (s.modInbox h fun ib => { ib with senders := f ib.senders }).inboxes[k] =
      if k = h.slot then { s.inbox h with senders := f (s.inbox h).senders } else s.inboxes[k] := getElem_set_fin ..
  rw [get]
  split
  case isTrue e => subst e; rfl
  case isFalse => rfl

theorem dropPendingSend_wakes (h : Handle) : Wakes s (s.dropPendingSend h) := by
  unfold dropPendingSend
  split
  · split
    case h_1 ps _ => exact (senders_wakes ps.target _).trans (modTask_wakes h fun _ => rfl)
    case h_2 => exact .refl s
  · exact .refl s

theorem removeDeadline_wakes (h : Handle) : Wakes s (s.removeDeadline h) := .same

theorem undoWait_wakes (h : Handle) : Wakes s (s.undoWait h) :=
  (dropPendingSend_wakes h).trans (removeDeadline_wakes h)

theorem wake_wakes (h : Handle) (res : Resume) : Wakes s (s.wake h res) := by
  unfold wake
  split
  · split
    case h_4 =>
      split
      · exact modTask_wakes h fun _ => rfl
      · exact .refl s
    case h_5 => exact .refl s
    all_goals
      refine .trans ?_ (readyTail_wakes h)
      exact modTask_wakes h fun _ => rfl
  · exact .refl s

/-- The end of a wait moves no message, whatever it does with the task (R93, R94, R137 to R139). -/
theorem endWait_wakes (h : Handle) (res : Resume) : Wakes s (s.endWait h res) :=
  (undoWait_wakes h).trans (wake_wakes h res)

end State
end Sys2Proof.Machine
end

