-- ==== Sys2Proof/Laws/Emptying.lean ====
section
/-! SUPPORT. The emptying of an inbox (R23, R103) as one change of the state, and what it and the release of the senders that
follows leave alone. -/

namespace Sys2Proof.Machine

theorem jobsWithout_eq (h : Handle) (js : List Job) :
    jobsWithout h js = js.take 1 ++ js.tail.filter fun k => k.inbox ≠ h := by
  cases js <;> rfl

theorem queuedSlots_eq (h : Handle) (js : List Job) :
    queuedSlots h js = (js.tail.filter fun k => k.inbox = h).flatMap Job.slots := by
  cases js <;> rfl

theorem markCurrent_eq (h : Handle) (js : List Job) : markCurrent h js =
    (js.take 1).map (fun j => if j.inbox = h then { j with resetMark := true } else j) ++ js.tail := by
  cases js <;> rfl

namespace State

variable {s : State}

theorem returnSlots_eq (xs : List PoolSlot) :
    s.returnSlots xs = if xs = [] then s else State.retryDeferred { s with poolFree := xs ++ s.poolFree } := by
  unfold returnSlots; cases xs <;> rfl

/-- The messages and queued jobs of the inbox go, their slots are free, and with a slot returned the deferred-refill list is
retried once (R23 step 1, R103). -/
theorem emptyInbox_eq (s : State) (h : Handle) :
    let freed := (s.inbox h).resident ++ (s.jobs.tail.filter fun k => k.inbox = h).flatMap Job.slots
    let w : State := { s.withInbox h { s.inbox h with
        resident := [], spilling := 0, backed := 0, refilling := 0, writeIndex := 0, readIndex := 0 } with
      jobs := s.jobs.take 1 ++ s.jobs.tail.filter fun k => k.inbox ≠ h
      deferred := s.deferred.filter fun k => k ≠ h
      poolFree := freed ++ s.poolFree }
    s.emptyInbox h = if freed = [] then w else w.retryDeferred := by
  intro freed w
  have slots : (s.inbox h).resident ++ queuedSlots h s.jobs = freed := by rw [queuedSlots_eq]
  unfold emptyInbox
  simp only [slots, returnSlots_eq, jobsWithout_eq]
  by_cases e : freed = []
  · have free : s.poolFree = w.poolFree := by show _ = freed ++ s.poolFree; rw [e]; rfl
    rw [if_pos e, if_pos e, show w = { w with poolFree := s.poolFree } by rw [free]]
    rfl
  · rw [if_neg e, if_neg e]; rfl

/-! ### The release of the senders, and the answer to a pending RECEIVE -/

theorem releaseAllGone_wakes (s : State) (h : Handle) : Wakes s (s.releaseAllGone h) :=
  releaseAllGone_keeps (P := Wakes s) h (fun k w => w.trans (endWait_wakes k _)) (.refl s)

theorem retryDeferred_lines : s.retryDeferred.lines = s.lines :=
  retryDeferred_keeps (P := fun t => t.lines = s.lines)
    (fun p _ e => by rw [(createRefill_eq e).2.2.2]; exact p) (fun _ p => p) rfl

theorem emptyInbox_lines (h : Handle) : (s.emptyInbox h).lines = s.lines := by
  rw [emptyInbox_eq]
  split
  · rfl
  · exact retryDeferred_lines

theorem completeReceive_lines (h : Handle) (code : ResultCode) : (s.completeReceive h code).lines = s.lines := by
  unfold completeReceive
  split
  · dsimp only
    split
    · split <;> rfl
    · rfl
  · rfl

end State
end Sys2Proof.Machine
end

