-- ==== Sys2Proof/Laws/LinkedCheck.lean ====
section
/-! SUPPORT. `State.Linked` of a given state, decided slot by slot: what the tests use to show that a state they build
meets it. -/

namespace Sys2Proof.Machine

/-- What a port's post and the record it names say of each other. -/
def State.postAgrees (s : State) (p : Port) : Bool :=
  match (s.port p).state.post with
  | .none => !s.awaitList.contains p
  | .waits => s.awaitList.contains p
  | .holds h => !s.awaitList.contains p && (s.task? h).any fun t => t.state.place == .held p
  | .saves h => !s.awaitList.contains p && (s.task? h).any fun t => t.state.place == .saved p
  | .seeds h => !s.awaitList.contains p && (s.task? h).any fun t => t.seedPort == some p

/-- What a task record and the lists and ports that hold the task say of each other. -/
def State.recordAgrees (s : State) (h : Handle) (t : Task) : Bool :=
  (match t.state.place with
    | .stopped => true
    | .waiting => true
    | .ready => s.ready[t.priority].contains h
    | .held p => (s.port p).state.post == .holds h
    | .saved p => (s.port p).state.post == .saves h) &&
  (match t.seedPort with
    | some p => (s.port p).state.post == .seeds h && t.state.place == .stopped
    | none => true)

/-- One slot of the task table. -/
def State.slotAgrees (s : State) (k : Slot) : Bool :=
  decide (s.tasks[k].gen ≠ 0#10) && (s.freeSlots.contains k == s.tasks[k].task.isNone) &&
    (match s.tasks[k].task with
      | some t => s.recordAgrees ⟨k, s.tasks[k].gen⟩ t
      | none => true)

/-- One ready queue. -/
def State.queueAgrees (s : State) (q : Priority) : Bool :=
  decide s.ready[q].Nodup &&
    s.ready[q].all fun h => (s.task? h).any fun t => t.state.place == .ready && t.priority == q

/-- The links of a state, slot by slot. -/
def State.linkedCheck (s : State) : Bool :=
  decide s.freeSlots.Nodup && decide s.awaitList.Nodup && (List.finRange 4).all s.postAgrees &&
    (List.finRange 64).all s.slotAgrees && (List.finRange 16).all s.queueAgrees

theorem Handle.eq_of_slot_gen {s : State} {h : Handle} {t : Task} (e : s.task? h = some t) :
    (⟨h.slot, s.tasks[h.slot].gen⟩ : Handle) = h := by
  have ⟨g, _⟩ := s.task?_eq.1 e
  cases h
  simp_all

theorem State.linked_of_check {s : State} (c : s.linkedCheck = true) : s.Linked := by
  simp only [State.linkedCheck, Bool.and_eq_true, decide_eq_true_eq, List.all_eq_true, List.mem_finRange,
    forall_const] at c
  obtain ⟨⟨⟨⟨free, await⟩, post⟩, slot⟩, queue⟩ := c
  have slot' : ∀ k : Slot, s.tasks[k].gen ≠ 0#10 ∧ (s.freeSlots.contains k = s.tasks[k].task.isNone) ∧
      ∀ t, s.tasks[k].task = some t → s.recordAgrees ⟨k, s.tasks[k].gen⟩ t = true := fun k => by
    have := slot k
    simp only [State.slotAgrees, Bool.and_eq_true, decide_eq_true_eq, beq_iff_eq] at this
    refine ⟨this.1.1, this.1.2, fun t e => ?_⟩
    have := this.2
    rw [e] at this
    exact this
  have record : ∀ h t, s.task? h = some t → s.recordAgrees h t = true := fun h t e => by
    have := (slot' h.slot).2.2 t (s.task?_eq.1 e).2
    rwa [Handle.eq_of_slot_gen e] at this
  have named : ∀ {o : Option Task} {f : Task → Bool}, o.any f = true → ∃ t, o = some t ∧ f t = true := by
    intro o f e
    cases o with
    | none => cases e
    | some t => exact ⟨t, rfl, e⟩
  refine ⟨free, fun k => ?_, fun k => (slot' k).1, await, fun p => ?_, fun p h => ⟨fun e => ?_, ?_⟩,
    fun p h => ⟨fun e => ?_, ?_⟩, fun p h => ⟨fun e => ?_, ?_⟩, fun h t e some' => ?_, fun q => ?_, fun q h => ⟨fun m => ?_, ?_⟩⟩
  · have := (slot' k).2.1
    rw [← List.contains_iff_mem, this]
    simp
  · have := post p
    unfold State.postAgrees at this
    cases e : (s.port p).state.post <;> simp_all
  · have := post p
    simp only [State.postAgrees, e, Bool.and_eq_true] at this
    obtain ⟨t, et, pl⟩ := named this.2
    exact ⟨t, et, by simpa using pl⟩
  · rintro ⟨t, et, pl⟩
    have := record h t et
    simp only [State.recordAgrees, pl, Bool.and_eq_true, beq_iff_eq] at this
    exact this.1
  · have := post p
    simp only [State.postAgrees, e, Bool.and_eq_true] at this
    obtain ⟨t, et, pl⟩ := named this.2
    exact ⟨t, et, by simpa using pl⟩
  · rintro ⟨t, et, pl⟩
    have := record h t et
    simp only [State.recordAgrees, pl, Bool.and_eq_true, beq_iff_eq] at this
    exact this.1
  · have := post p
    simp only [State.postAgrees, e, Bool.and_eq_true] at this
    obtain ⟨t, et, pl⟩ := named this.2
    exact ⟨t, et, by simpa using pl⟩
  · rintro ⟨t, et, pl⟩
    have := record h t et
    simp only [State.recordAgrees, pl, Bool.and_eq_true, beq_iff_eq] at this
    exact this.2.1
  · have := record h t e
    cases x : t.seedPort with
    | none => rw [x] at some'; cases some'
    | some q =>
      simp only [State.recordAgrees, x, Bool.and_eq_true, beq_iff_eq] at this
      exact this.2.2
  · have := queue q
    simp only [State.queueAgrees, Bool.and_eq_true, decide_eq_true_eq] at this
    exact this.1
  · have := queue q
    simp only [State.queueAgrees, Bool.and_eq_true, decide_eq_true_eq, List.all_eq_true] at this
    obtain ⟨t, et, pl⟩ := named (this.2 h m)
    simp only [Bool.and_eq_true, beq_iff_eq] at pl
    exact ⟨t, et, pl.1, pl.2⟩
  · rintro ⟨t, et, pl, rfl⟩
    have := record h t et
    simp only [State.recordAgrees, pl, Bool.and_eq_true] at this
    simpa using this.1

end Sys2Proof.Machine
end

