-- ==== Sys2Proof/Laws/Memory.lean ====
section
/-! SUPPORT. The external backing memory: a write keeps the canonical form and changes what is read at its own
address alone. -/

namespace Sys2Proof.Machine.Memory

/-- Every address listed is above `a`. -/
abbrev Above (a : Nat) (m : List Host.Cell) : Prop := ∀ c ∈ m, a < c.1

theorem wf_cons {a : Nat} {v : Byte} {m : List Host.Cell} :
    wf ((a, v) :: m) = true ↔ Above a m ∧ v ≠ Config.unwrittenByte ∧ wf m = true := by
  simp only [wf, Bool.and_eq_true, List.all_eq_true, decide_eq_true_eq, and_assoc]

theorem write_above {b a : Nat} {v : Byte} (hb : b < a) {m : List Host.Cell} (hm : Above b m) :
    Above b (write m a v) := by
  induction m with
  | nil =>
    unfold write
    split
    · exact hm
    · simpa [Above] using hb
  | cons c m ih =>
    obtain ⟨c, w⟩ := c
    have hc : b < c := hm _ (.head _)
    have hrest : Above b m := fun x hx => hm x (.tail _ hx)
    unfold write
    split
    · split
      · exact hm
      · simpa [Above, hb, hc] using hrest
    · split
      · split
        · exact hrest
        · simpa [Above, hb] using hrest
      · simpa [Above, hc] using ih hrest

/-- A write keeps the canonical form. -/
theorem write_wf {m : List Host.Cell} (hm : wf m = true) (a : Nat) (v : Byte) : wf (write m a v) = true := by
  induction m with
  | nil =>
    unfold write
    split
    · exact hm
    · exact wf_cons.2 ⟨nofun, ‹_›, rfl⟩
  | cons c m ih =>
    obtain ⟨b, w⟩ := c
    have ⟨hab, hw, hrest⟩ := wf_cons.1 hm
    unfold write
    split
    case isTrue hlt =>
      split
      · exact hm
      · refine wf_cons.2 ⟨fun x hx => ?_, ‹_›, hm⟩
        cases hx with
        | head => exact hlt
        | tail _ hx => exact Nat.lt_trans hlt (hab x hx)
    case isFalse hge =>
      split
      case isTrue he =>
        subst he
        split
        · exact hrest
        · exact wf_cons.2 ⟨hab, ‹_›, hrest⟩
      case isFalse hne => exact wf_cons.2 ⟨write_above (by omega) hab, hw, ih hrest⟩

theorem writeWord_wf {m : List Host.Cell} (hm : wf m = true) (a : Nat) (w : Word) : wf (writeWord m a w) = true :=
  write_wf (write_wf (write_wf (write_wf hm _ _) _ _) _ _) _ _

theorem writeWords_wf {ws : List Word} : ∀ {m : List Host.Cell}, wf m = true → ∀ a, wf (writeWords m a ws) = true := by
  induction ws with
  | nil => exact fun hm _ => hm
  | cons w ws ih => exact fun hm a => ih (writeWord_wf hm a w) _

/-- The reset memory has the canonical form. -/
theorem reset_wf : wf State.reset.backing = true := rfl

/-- An address below every listed one reads as unwritten. -/
theorem read_above {a : Nat} {m : List Host.Cell} (hm : Above a m) : read m a = Config.unwrittenByte := by
  induction m with
  | nil => rfl
  | cons c m ih =>
    obtain ⟨b, w⟩ := c
    have hb : a < b := hm _ (.head _)
    unfold read
    rw [if_neg (by omega)]
    exact ih fun x hx => hm x (.tail _ hx)

/-- What is read after a write: the byte at its own address, and elsewhere what was read before. -/
theorem read_write {m : List Host.Cell} (hm : wf m = true) (a b : Nat) (v : Byte) :
    read (write m a v) b = if b = a then v else read m b := by
  induction m with
  | nil =>
    unfold write
    split
    case isTrue hv => subst hv; simp [read]
    case isFalse => simp [read]
  | cons c m ih =>
    obtain ⟨d, w⟩ := c
    have ⟨habove, hw, hrest⟩ := wf_cons.1 hm
    unfold write
    split
    case isTrue hlt =>
      have hall : Above a ((d, w) :: m) := by
        intro x hx
        cases hx with
        | head => exact hlt
        | tail _ hx => exact Nat.lt_trans hlt (habove x hx)
      split
      case isTrue hv =>
        by_cases hb : b = a
        · subst hb; rw [if_pos rfl, hv, read_above hall]
        · rw [if_neg hb]
      case isFalse => simp only [read]
    case isFalse hge =>
      split
      case isTrue he =>
        subst he
        split
        case isTrue hv =>
          by_cases hb : b = a
          · subst hb; rw [if_pos rfl, hv, read_above habove]
          · simp only [read, if_neg hb]
        case isFalse =>
          by_cases hb : b = a
          · simp only [read, if_pos hb]
          · simp only [read, if_neg hb]
      case isFalse hne =>
        by_cases hb : b = d
        · subst hb
          rw [if_neg (Ne.symm hne)]
          simp only [read, if_true]
        · simp only [read, if_neg hb]
          exact ih hrest

/-- A word write is four byte writes, byte lane 0 at the lowest address (R110). -/
theorem read_writeWord {m : List Host.Cell} (hm : wf m = true) (a b : Nat) (w : Word) :
    read (writeWord m a w) b =
      if b = a + 3 then w.extractLsb' 24 8 else if b = a + 2 then w.extractLsb' 16 8
      else if b = a + 1 then w.extractLsb' 8 8 else if b = a then w.extractLsb' 0 8 else read m b := by
  unfold writeWord
  rw [read_write (write_wf (write_wf (write_wf hm _ _) _ _) _ _), read_write (write_wf (write_wf hm _ _) _ _),
    read_write (write_wf hm _ _), read_write hm]

/-- Words written at `a` leave every byte outside them as it was. -/
theorem read_writeWords_outside {ws : List Word} :
    ∀ {m : List Host.Cell}, wf m = true → ∀ {a b : Nat}, (b < a ∨ a + 4 * ws.length ≤ b) →
      read (writeWords m a ws) b = read m b := by
  induction ws with
  | nil => exact fun _ _ _ _ => rfl
  | cons w ws ih =>
    intro m hm a b hb
    simp only [List.length_cons] at hb
    unfold writeWords
    rw [ih (writeWord_wf hm a w) (by omega), read_writeWord hm, if_neg (by omega), if_neg (by omega),
      if_neg (by omega), if_neg (by omega)]

/-- The word read where it was written. -/
theorem readWord_writeWord {m : List Host.Cell} (hm : wf m = true) (a : Nat) (w : Word) :
    readWord (writeWord m a w) a = w := by
  unfold readWord
  rw [read_writeWord hm, read_writeWord hm, read_writeWord hm, read_writeWord hm]
  have e (n m : Nat) : (a + n = a + m) ↔ n = m := by omega
  have e0 (m : Nat) : (a = a + m) ↔ 0 = m := by omega
  simp only [e, e0, if_true]
  norm_num only [if_true, if_false]
  rw [BitVec.extractLsb'_append_extractLsb'_eq_extractLsb' (by rfl),
    BitVec.extractLsb'_append_extractLsb'_eq_extractLsb' (by rfl),
    BitVec.extractLsb'_append_extractLsb'_eq_extractLsb' (by rfl)]
  exact BitVec.extractLsb'_eq_self

/-- Word `k` of words written at `a` is read back at `a + 4k` (R119). -/
theorem readWord_writeWords {ws : List Word} :
    ∀ {m : List Host.Cell}, wf m = true → ∀ {a k : Nat} (hk : k < ws.length),
      readWord (writeWords m a ws) (a + 4 * k) = ws[k] := by
  induction ws with
  | nil => exact fun _ _ _ hk => absurd hk (Nat.not_lt_zero _)
  | cons w ws ih =>
    intro m hm a k hk
    unfold writeWords
    match k with
    | 0 =>
      unfold readWord
      rw [read_writeWords_outside (writeWord_wf hm a w) (by omega),
        read_writeWords_outside (writeWord_wf hm a w) (by omega),
        read_writeWords_outside (writeWord_wf hm a w) (by omega),
        read_writeWords_outside (writeWord_wf hm a w) (by omega)]
      exact readWord_writeWord hm a w
    | k + 1 =>
      have := ih (writeWord_wf hm a w) (a := a + 4) (k := k) (by simpa using hk)
      rw [show a + 4 * (k + 1) = a + 4 + 4 * k by omega, this]
      rfl

end Sys2Proof.Machine.Memory
end

