-- ==== Sys2Proof/Laws/PlacedCheck.lean ====
section
/-! SUPPORT. `State.SendersAgree`, `State.SlotsPlaced` and `State.CountsAgree` of a given state, decided slot by slot: what
shows that reset, or a state that a test builds, meets them. -/

namespace Sys2Proof.Machine

namespace State

variable {s : State}

/-- What is asked of every record of a live task is asked slot by slot. -/
theorem forall_task {P : Handle → Task → Prop}
    (c : ∀ k : Slot, ∀ t, s.tasks[k].task = some t → P ⟨k, s.tasks[k].gen⟩ t) :
    ∀ h t, s.task? h = some t → P h t := fun h t e =>
  Handle.eq_of_slot_gen e ▸ c h.slot t (s.task?_eq.1 e).2

/-! ### The sender lists -/

/-- What a task's pending send and its inbox's sender list say. -/
def senderAgrees (s : State) (h : Handle) (t : Task) : Bool :=
  (t.pendingSend.isSome == t.state.waitsToSend) &&
    (t.pendingSend.all fun ps => s.live ps.target && ps.target != h && (s.inbox ps.target).senders.contains h) &&
    decide (s.inbox h).senders.Nodup &&
    (s.inbox h).senders.all fun k => (s.task? k).any fun v => v.pendingSend.any fun ps => ps.target == h

/-- The sender lists of a state, slot by slot. -/
def sendersCheck (s : State) : Bool :=
  (List.finRange 64).all fun k => s.tasks[k].task.all fun t => s.senderAgrees ⟨k, s.tasks[k].gen⟩ t

theorem sendersAgree_of_check (c : s.sendersCheck = true) : s.SendersAgree := by
  simp only [sendersCheck, List.all_eq_true, List.mem_finRange, forall_const, Option.all_eq_true] at c
  have agree : ∀ h t, s.task? h = some t → s.senderAgrees h t = true := forall_task c
  simp only [senderAgrees, Bool.and_eq_true, beq_iff_eq, bne_iff_ne, decide_eq_true_eq, Option.all_eq_true,
    List.all_eq_true, Option.any_eq_true, List.contains_iff_mem] at agree
  have named : ∀ k, s.live k = true → ∃ t, s.task? k = some t := fun k e => Option.isSome_iff_exists.1 e
  refine ⟨fun h t e => (agree h t e).1.1.1, fun h t ps e m => ((agree h t e).1.1.2 ps m).1, ?_, ?_⟩
  · refine fun k h l => ⟨fun m => ?_, fun ⟨t, ps, e, m, eq⟩ => eq ▸ ((agree h t e).1.1.2 ps m).2⟩
    have ⟨t, e⟩ := named k l
    have ⟨v, ev, ps, m, eq⟩ := (agree k t e).2 h m
    exact ⟨v, ps, ev, m, eq⟩
  · intro k l
    have ⟨t, e⟩ := named k l
    exact (agree k t e).1.2

/-! ### The pool slots -/

/-- A task in this state holds no bound message. -/
def waitsUnbound : TaskState → Bool
  | .recvWait => true
  | .sendWait => true
  | .sleeping => true
  | .saving _ _ satisfied => !satisfied
  | _ => false

/-- A port runs task `h`, and `receiving` says if it is busy with a RECEIVE. -/
def runs (s : State) (h : Handle) (receiving : Bool) : Bool :=
  (List.finRange 4).any fun p => (s.port p).state == .run h receiving

/-- What a task's record says of its bound message and of its pending RECEIVE. -/
def boundAgrees (s : State) (h : Handle) (t : Task) : Bool :=
  (!(waitsUnbound t.state || s.runs h false || s.runs h true) || t.bound.isNone) &&
    ((s.inbox h).recvPending == s.runs h true)

/-- The holders of pool slots beside the slots themselves, job by job and slot by slot. -/
def holdersCheck (s : State) : Bool :=
  (s.jobs.all fun j => !j.slots.isEmpty && j.burstsDone + j.slots.length == j.count) &&
    (List.finRange 64).all fun k => match s.tasks[k].task with
      | some t => s.boundAgrees ⟨k, s.tasks[k].gen⟩ t
      | none => s.inboxes[k].resident.isEmpty

theorem runs_iff {h : Handle} {r : Bool} : s.runs h r = true ↔ ∃ p, (s.port p).state = .run h r := by
  simp [runs]

/-- The slots of a state in which the first `n` slots are held and the rest are free. -/
theorem slotsPlaced_of_check (n : Nat) (free : s.poolFree = (List.finRange 512).drop n)
    (held : s.heldSlots = (List.finRange 512).take n) (c : s.holdersCheck = true) : s.SlotsPlaced := by
  simp only [holdersCheck, Bool.and_eq_true, List.all_eq_true, List.mem_finRange, forall_const, beq_iff_eq,
    Bool.not_eq_true', List.isEmpty_eq_false_iff] at c
  obtain ⟨jobs, slot⟩ := c
  have bound : ∀ h t, s.task? h = some t → s.boundAgrees h t = true := forall_task fun k t e => by
    have := slot k
    rwa [e] at this
  have unbound : ∀ h t, s.task? h = some t →
      (waitsUnbound t.state = true ∨ s.runs h false = true ∨ s.runs h true = true) → t.bound = none := by
    intro h t e w
    have := (Bool.and_eq_true_iff.1 (bound h t e)).1
    rcases w with w | w | w <;> simpa [w] using this
  refine ⟨?_, jobs, fun k e => ?_, fun h t e w => unbound h t e (.inl ?_), fun p h r t e et => ?_, fun h l => ?_⟩
  · rw [free, held]
    exact List.perm_append_comm.trans (.of_eq (List.take_append_drop n _))
  · have := slot k
    rw [e] at this
    exact List.isEmpty_iff.1 this
  · rcases w with w | w | w | ⟨p, d, w⟩ <;> rw [w] <;> rfl
  · refine unbound h t et (.inr ?_)
    cases r
    · exact .inl (runs_iff.2 ⟨p, e⟩)
    · exact .inr (runs_iff.2 ⟨p, e⟩)
  · have ⟨t, e⟩ := Option.isSome_iff_exists.1 l
    rw [beq_iff_eq.1 (Bool.and_eq_true_iff.1 (bound h t e)).2, runs_iff]

/-! ### The counts of the inboxes -/

/-- The counts of a live task's inbox and the jobs that serve it. -/
def countAgrees (s : State) (h : Handle) : Bool :=
  ((s.inbox h).spilling == s.jobs.countP (Job.serves · .spill h)) &&
    ((s.inbox h).refilling == ((s.jobs.filter (Job.serves · .refill h)).flatMap Job.slots).length) &&
    decide (s.jobs.countP (Job.serves · .refill h) ≤ 1)

/-- The burst in progress and the current job. -/
def burstAgrees (s : State) : Bool :=
  s.burst.all fun b => s.jobs.head?.any fun j => b.write == (j.kind == .spill)

/-- The counts of a state, slot by slot. -/
def countsCheck (s : State) : Bool :=
  s.burstAgrees &&
  (List.finRange 64).all fun k =>
    decide (s.inboxes[k].resident.length + s.inboxes[k].refilling ≤ s.inboxes[k].limit) &&
      decide (s.inboxes[k].occupancy ≤ s.inboxes[k].capacity) &&
      (s.tasks[k].task.isNone || s.countAgrees ⟨k, s.tasks[k].gen⟩)

theorem countsAgree_of_check (c : s.countsCheck = true) : s.CountsAgree := by
  simp only [countsCheck, Bool.and_eq_true, decide_eq_true_eq, List.all_eq_true, List.mem_finRange, forall_const,
    Bool.or_eq_true] at c
  obtain ⟨burst, c⟩ := c
  have agree : ∀ h, s.live h = true → s.countAgrees h = true := fun h l => by
    have ⟨t, e⟩ := Option.isSome_iff_exists.1 l
    refine forall_task (P := fun h _ => s.countAgrees h = true) (fun k u e => ?_) h t e
    have := (c k).2
    rw [e] at this
    simpa using this
  simp only [countAgrees, Bool.and_eq_true, beq_iff_eq, decide_eq_true_eq] at agree
  refine ⟨fun k => (c k).1.1, fun k => (c k).1.2, fun h l => (agree h l).1.1, fun h l => (agree h l).1.2,
    fun h l => (agree h l).2, fun b e => ?_⟩
  simp only [burstAgrees, e, Option.all_some, Option.any_eq_true, List.head?_eq_some_iff, beq_iff_eq] at burst
  have ⟨j, ⟨rest, ej⟩, eb⟩ := burst
  exact ⟨j, rest, ej, eb⟩

end State
end Sys2Proof.Machine
end

