-- ==== Sys2Proof/Tests/Slice0.lean ====
section
/-! SUPPORT. The tests: which terms are well formed; small facts of the spec's own examples and layouts; and for every
obligation with hypotheses, states and operands that meet them, for each clause at the edge of its range. -/

namespace Sys2Proof.Tests

set_option Elab.async false

open Sys2Proof Sys2Proof.Machine

/-! ### Small states -/

def hA : Handle := ⟨0, 1#10⟩
def hB : Handle := ⟨1, 1#10⟩

/-- A task of priority 3 for every port, with L = 4. -/
def task (st : TaskState) : Task where
  state := st
  priority := 3
  affinity := 15#4
  frameLength := 4
  extension := false
  seedPort := none
  resume := .ok
  bound := none
  pendingSend := none

/-- What a port does for task `h` in state `st`, or else `rest`. -/
def portFor (h : Handle) (st : TaskState) (p : Port) (rest : PortState) : PortState :=
  match st with
  | .running q => if q = p then .run h false else rest
  | .saving q _ _ => if q = p then .saving .checkIn h [] else rest
  | _ => rest

/-- SERVICE with every port a supervisor's and IDLE but for what tasks `a` and `b` in slots 0 and 1 ask of it. -/
def scene (a b : Task) : State :=
  { State.reset with
    phase := .service
    items := { Config.Items.reset with supervisors := 15#4, backingEnable := true }
    tasks := (State.reset.tasks.set 0 ⟨1#10, some a⟩).set 1 ⟨1#10, some b⟩
    freeSlots := (List.finRange 64).drop 2
    ready := Vector.ofFn fun q =>
      (if a.state = .ready ∧ a.priority = q then [hA] else []) ++ if b.state = .ready ∧ b.priority = q then [hB] else []
    ports := Vector.ofFn fun p =>
      { PortUnit.reset false with state := portFor hA a.state p (portFor hB b.state p .idle) } }

/-- `s` with the unit of port `p` in state `st`. -/
def put (s : State) (p : Port) (st : PortState) : State := s.withPort p { s.port p with state := st }

/-- `s` with the first three arguments of port `p`. -/
def args (s : State) (p : Port) (a b c : Word) : State := s.withPort p { s.port p with args := #v[a, b, c, 0#32] }

/-- Tasks A, in `st`, and B, stopped. -/
def one (st : TaskState) : State := scene (task st) (task .dormant)

/-- A supervisor on P1, with the handle of task A, in `st`, in ARG0. -/
def overA (st : TaskState) : State := args (one st) 1 64#32 0#32 0#32

/-- A RUNNING task A on P0. -/
def busyPart : State := one (.running 0)

/-- `s` with the inbox of task A. -/
def inboxA (s : State) (ib : Inbox) : State := s.withInbox hA ib

/-- An inbox with ring capacity 2. -/
def ringed : Inbox := { Inbox.default with capacity := 2 }

/-- A backing job of task A's inbox with its burst attempt. -/
def working (s : State) (kind : JobKind) (attempt : Attempt) (mark : Bool) : State :=
  { s with
    poolFree := (List.finRange 512).drop 1
    jobs := [⟨kind, hA, mark, 0, 2, 0, 1, [0], 0, attempt⟩]
    burst := some ⟨kind == .spill, 0#32, 0, false⟩ }

/-! ### Well-formedness -/

theorem test_commandWordsAreNoInvalidCode :
    (∀ c ∈ Cmd.all, ∀ p, (Instr.cmdInvalidCode p 15#4 c.code).wellFormed = false) ∧
    (Instr.cmdInvalidCode 0 1#4 0xFFFFFF03#32).wellFormed = false := by decide

theorem test_otherWordsAreInvalidCodes :
    (Instr.cmdInvalidCode 0 15#4 0x0E#32).wellFormed = true ∧ (Instr.cmdInvalidCode 0 15#4 0x1E#32).wellFormed = true ∧
    (Instr.cmdInvalidCode 0 0#4 0x03#32).wellFormed = true ∧ (Instr.cmdInvalidCode 0 15#4 0x103#32).wellFormed = true := by
  decide

theorem test_registerWriteLeavesFourRegistersToTheirRows :
    ∀ a : BitVec 5, (Instr.registerWrite 0 a 15#4 0#32).wellFormed = false ↔ a ∈ [0x00#5, 0x07#5, 0x08#5, 0x19#5] := by
  decide

theorem test_everyOtherRowIsWellFormed :
    (Instr.dispatch 3).wellFormed = true ∧ (Instr.frameWrite 0 0#4 0#32).wellFormed = true ∧
    (Instr.partReset ⟨8, .stored⟩).wellFormed = true ∧ (Instr.eventEdge 15 true).wellFormed = true := by decide

/-! ### Facts of the spec -/

theorem test_noRowOfTheTableCarriesBits : ∀ n w, decodeTableWord n w = none := fun _ _ => rfl

theorem test_handleIsSlotAndGeneration :
    Handle.ofWord 67#32 = ⟨3, 1#10⟩ ∧ (⟨3, 1#10⟩ : Handle).bits = 67#16 ∧ Handle.null.bits = 0#16 := by decide

theorem test_descriptorPlaces : descriptorWord ⟨3, 1#10⟩ 16 true = 0x01100043#32 := by decide

theorem test_partinfoOfPort2AfterReset : State.reset.readWindow 2 0x17#5 = 0x46400002#32 := by decide +kernel

theorem test_resetConfiguration :
    itemWord State.reset.items 0x00#32 = 1#32 ∧ itemWord State.reset.items 0x01#32 = 8#32 ∧
    itemWord State.reset.items 0x03#32 = 1000#32 ∧ itemWord State.reset.items 0x09#32 = 4#32 := by decide

theorem test_attachFromReset : ∃ t, exec (.attach 2) State.reset = .next t ∧
    (t.port 2).state = .idle ∧ (t.port 2).result = 0x00020000#32 := ⟨_, rfl, by decide +kernel⟩

theorem test_firstCreatedTaskIsHandle64 :
    ∃ t, exec (.create 1) (args (scene (task .dormant) (task .dormant)) 1 5#32 15#32 4#32) = .next t ∧
      (t.port 1).result = 0x00420000#32 := ⟨_, rfl, by decide +kernel⟩

/-! ### What meets the hypotheses: the queue and the checks -/

theorem witness_EmptyQueueIsOneClockPeriod :
    State.reset.pending = [] ∧ State.reset.phase = .config ∧ busyPart.pending = [] ∧ busyPart.rstLow = false ∧
    busyPart.phase = .service ∧ busyPart.items.tickLine = false ∧
    { busyPart with dividerCount := 998 }.dividerCount + 1 < busyPart.items.divider ∧
    busyPart.items.divider ≤ { busyPart with dividerCount := 999 }.dividerCount + 1 := by decide +kernel

theorem witness_RefusedCommandsChangeOnlyTheirAnswer :
    (∀ c : Cmd, c.code ≠ maskBytes 15#4 0x1E#32) ∧
    (State.reset.quiet = true ∧ { State.reset with rstLow := true }.quiet = true ∧
      Cmd.dispatch.takenInPhase State.reset.phase = false) ∧
    (busyPart.quiet = true ∧ busyPart.rstLow = false ∧ (busyPart.port 0).prstLow = false ∧
      Cmd.beginService.takenInPhase busyPart.phase = false ∧ Cmd.seed.takenInPhase busyPart.phase = true ∧
      (busyPart.port 0).state.busy = false ∧ Cmd.seed.takenIn (busyPart.port 0).state = false ∧
      Cmd.halt.takenIn (busyPart.port 0).state = true ∧ Cmd.halt.supervisor = true) ∧
    (State.reset.items.supervisors.getLsbD 1 = false ∧ (put busyPart 1 .await).quiet = true ∧
      ((put busyPart 1 .await).port 1).state.busy = true ∧ Cmd.cancel.takenIn .await = true) := by
  refine ⟨fun c => ?_, ?_⟩
  · cases c <;> decide
  · decide +kernel

/-- A due deadline of task A, asleep. -/
def dueSleep : State := { one .sleeping with deadlines := [⟨hA, 0#32, .sleep⟩], expiring := true }

theorem witness_OutstandingExpiriesComeFirst :
    dueSleep.DeadlinesOrdered ∧ dueSleep.quiet = false ∧ dueSleep.rstLow = false ∧ (dueSleep.port 0).prstLow = false ∧
    dueSleep.deadlineDue = true ∧ { dueSleep with tickCounter := 5#32 }.deadlineDue = false ∧
    busyPart.deadlineDue = false ∧ busyPart.quiet = true := by decide +kernel

/-- A due sleep, a lease run out at P0 and an attempt that reached the timeout are settled together. -/
theorem test_settleMakesWhatIsOutstanding :
    let s := { working (dueSleep.withPort 0 { dueSleep.port 0 with leaseTick := .expired }) .spill .first false with
      burst := some ⟨true, 0#32, 4, true⟩ }
    s.settle.deadlines = [] ∧ (s.settle.task? hA).map (·.state) = some .ready ∧ (s.settle.port 0).state = .lost ∧
      s.settle.burst = none ∧ s.settle.jobs.map (·.attempt) = [.second] := by decide +kernel

/-! ### Ports -/

theorem witness_AttachAndDetachMoveThePort :
    (State.reset.Served 3 ∧ (State.reset.port 3).state = .offline) ∧
    ((put State.reset 0 .lost).Served 0 ∧ ((put State.reset 0 .lost).port 0).state = .lost) ∧
    (busyPart.Served 1 ∧ (busyPart.port 1).state = .idle) := by decide +kernel

theorem witness_BeginServiceEntersService :
    let s := put State.reset 1 .idle
    s.Served 1 ∧ s.phase = .config ∧ (s.port 1).state = .idle ∧ s.items.supervisors ≠ 0#4 ∧
    { s with items := { s.items with supervisors := 0#4 } }.items.supervisors = 0#4 := by decide +kernel

theorem witness_RevokeTakesAnotherPort :
    let s (w : Word) := args busyPart 1 w 0#32 0#32
    (s 4#32).SupervisorAt 1 ∧ 3 < (((s 4#32).port 1).args[0]).toNat ∧ (((s 1#32).port 1).args[0]).toNat = (1 : Port).val ∧
    (s 0#32).SupervisorAt 1 ∧ (((s 0#32).port 1).args[0]).toNat = (0 : Port).val ∧
    ((s 0#32).port 0).state ≠ .offline ∧ ((s 0#32).port 0).state ≠ .lost ∧
    (put (s 3#32) 3 .offline).SupervisorAt 1 ∧ ((put (s 3#32) 3 .offline).port 3).state = .offline ∧
    ((put (s 3#32) 3 .lost).port 3).state = .lost := by decide +kernel

/-- Port P1 waits for a task. -/
def waiting (s : State) : State := { put s 1 .await with awaitList := [1] }

/-- Port P0 seeds task A. -/
def seeding : State := put (scene { task .dormant with seedPort := some 0 } (task .dormant)) 0 (.saving .seed hA [])

theorem witness_LossOfAPortActsByItsState :
    (busyPart.Linked ∧ (busyPart.port 3).state = .idle) ∧
    ((waiting busyPart).Linked ∧ ((waiting busyPart).port 1).state = .await) ∧
    (∃ t, (put busyPart 0 (.loading hA 5 0)).Linked ∧
      ((put busyPart 0 (.loading hA 5 0)).port 0).state = .loading hA 5 0 ∧
      (put busyPart 0 (.loading hA 5 0)).task? hA = some t) ∧
    (∃ t, busyPart.Linked ∧ (busyPart.port 0).state = .run hA false ∧ busyPart.task? hA = some t) ∧
    (∃ t, (one (.saving 0 .recvWait false)).Linked ∧
      ((one (.saving 0 .recvWait false)).port 0).state = .saving .checkIn hA [] ∧
      (one (.saving 0 .recvWait false)).task? hA = some t) ∧
    ∃ t, seeding.Linked ∧ (seeding.port 0).state = .saving .seed hA [] ∧ seeding.task? hA = some t :=
  ⟨⟨State.linked_of_check (by decide +kernel), by decide +kernel⟩,
   ⟨State.linked_of_check (by decide +kernel), by decide +kernel⟩,
   ⟨_, State.linked_of_check (by decide +kernel), by decide +kernel, rfl⟩,
   ⟨_, State.linked_of_check (by decide +kernel), by decide +kernel, rfl⟩,
   ⟨_, State.linked_of_check (by decide +kernel), by decide +kernel, rfl⟩,
   ⟨_, State.linked_of_check (by decide +kernel), by decide +kernel, rfl⟩⟩

/-- P0 with PRST0# low, and the part with RST# low. -/
def lineLow : State := busyPart.withPort 0 (PortUnit.reset true)
def partLow : State := { busyPart with rstLow := true }

theorem witness_PortResetIsTheLossOfThePort :
    (lineLow.port 0).prstLow = true ∧ ((partLow.port 0).prstLow = false ∧ partLow.rstLow = true) ∧
    ((busyPart.port 0).prstLow = false ∧ busyPart.rstLow = false ∧ busyPart.quiet = true) := by decide +kernel

/-! ### Asking for a task and giving it up -/

theorem witness_DispatchHandsOutTheSelectedTaskOrWaits :
    ((one .ready).Served 0 ∧ (one .ready).phase = .service ∧ ((one .ready).port 0).state = .idle ∧
      (one .ready).select 0 = some hA ∧ (one .ready).task? hA = some (task .ready)) ∧
    ((one .dormant).Served 3 ∧ ((one .dormant).port 3).state = .idle ∧ (one .dormant).select 3 = none) := by
  decide +kernel

theorem witness_CancelEndsTheBusyState :
    ((waiting busyPart).Served 1 ∧ (waiting busyPart).phase = .service ∧ ((waiting busyPart).port 1).state = .await) ∧
    ((put busyPart 0 (.run hA true)).Served 0 ∧ ((put busyPart 0 (.run hA true)).port 0).state = .run hA true) ∧
    (busyPart.Served 0 ∧ (busyPart.port 0).state.Free ∧ (busyPart.port 2).state.Free) := by decide +kernel

theorem witness_YieldWithoutARivalReturnsAtOnce :
    let lower := scene (task (.running 0)) { task .ready with priority := 2 }
    lower.RunningAt 0 hA (task (.running 0)) ∧ lower.ready[(2 : Priority)] = [hB] ∧
    ∀ q : Priority, 3 ≤ q → ∀ r ∈ lower.ready[q], lower.eligible r 0 = false := by decide +kernel

theorem witness_YieldToARivalAndExitGiveTheTaskUp :
    let equal := scene (task (.running 0)) (task .ready)
    equal.RunningAt 0 hA (task (.running 0)) ∧ ∃ q : Priority, 3 ≤ q ∧ ∃ r ∈ equal.ready[q], equal.eligible r 0 = true := by
  decide +kernel

theorem witness_SleepBeginsATimedCheckIn :
    (args busyPart 0 0#32 0#32 0#32).RunningAt 0 hA (task (.running 0)) ∧
    (args busyPart 0 1#32 0#32 0#32).RunningAt 0 hA (task (.running 0)) ∧
    (args busyPart 0 65535#32 0#32 0#32).RunningAt 0 hA (task (.running 0)) ∧
    (args busyPart 0 65536#32 0#32 0#32).RunningAt 0 hA (task (.running 0)) := by decide +kernel

theorem witness_DeadlinesAreInsertedByDistance :
    [(⟨hA, 3#32, .sleep⟩ : Deadline), ⟨hB, 4#32, .recv⟩].Pairwise
      fun a b => a.distance 0xFFFFFFFF#32 ≤ b.distance 0xFFFFFFFF#32 := by decide

theorem witness_ReadyTasksAreOfferedToTheAwaitList :
    (waiting (one .dormant)).Linked ∧ (waiting (one .dormant)).task? hA = some (task .dormant) ∧
    (task .dormant).state ≠ .ready :=
  ⟨State.linked_of_check (by decide +kernel), by decide +kernel, by decide⟩

/-- Task A waits for room in the inbox of task B. -/
def sendWaiter (st : TaskState) : Task := { task st with pendingSend := some ⟨hB, 7#16, [1#32]⟩ }

/-- Task A on the sender list of task B. -/
def sending (st : TaskState) : State :=
  (scene (sendWaiter st) (task .dormant)).withInbox hB { Inbox.default with senders := [hA] }

theorem witness_EndOfAWaitWakesTheTask :
    (∀ st ∈ [TaskState.recvWait, .sleeping, .ready, .dormant, .running 3, .halted .portLost, .saving 2 .recvWait false,
        .saving 0 .sleeping false, .saving 0 .sleeping true, .saving 1 .readyTail false, .saving 1 .readyHead false],
      (one st).Linked ∧ (one st).task? hA = some (task st)) ∧
    ∀ st ∈ [TaskState.sendWait, .saving 3 .sendWait false],
      (sending st).Linked ∧ (sending st).task? hA = some (sendWaiter st) :=
  ⟨by intro st m; exact ⟨State.linked_of_check (by revert st; decide +kernel), rfl⟩,
   by intro st m; exact ⟨State.linked_of_check (by revert st; decide +kernel), rfl⟩⟩

/-! ### Messages -/

theorem witness_WordsCarryTheirFields : 63 < 64 ∧ (List.replicate 6 (1 : Word)).length ≤ 6 := by decide

/-- A message from task B. -/
def note : Message := ⟨.data, 7#16, hB, [1#32]⟩

/-- `s` with `n` pool slots free. -/
def free (s : State) (n : Nat) : State := { s with poolFree := (List.finRange 512).take n }

/-- `s` with `n` SPILL jobs of task B's inbox in the queue. -/
def queued (s : State) (n : Nat) : State :=
  { s with jobs := List.replicate n ⟨.spill, hB, false, 0, 2, 0, 1, [9], 0, .first⟩ }

/-- An inbox with as many resident messages as its limit allows. -/
def full : Inbox := { Inbox.default with limit := 2, resident := [20, 21] }

/-- What the ring of task A holds. -/
def ringOfA (s : State) : Nat := (s.inbox hA).spilling + (s.inbox hA).backed + (s.inbox hA).refilling

/-- A RUNNING task A with room for one more resident message; and with a ring beside its resident messages. -/
def roomA : State := inboxA busyPart { full with resident := [20] }
def ringA : State := inboxA busyPart { full with capacity := 2, backed := 1 }

theorem witness_RoutingTakesTheFirstStepThatApplies :
    (∀ s ∈ [one .recvWait, one (.saving 2 .recvWait false), inboxA busyPart { full with broken := true }, roomA, ringA],
      s.Linked ∧ (s.task? hA).isSome) ∧
    ((inboxA busyPart { full with broken := true }).inbox hA).broken = true ∧
    (((one .recvWait).inbox hA).broken = false ∧ (one .recvWait).task? hA = some (task .recvWait) ∧
      ¬ (free (one .recvWait) 8).items.reserve < (free (one .recvWait) 8).poolFree.length ∧
      (free (one .recvWait) 9).items.reserve < (free (one .recvWait) 9).poolFree.length ∧
      ¬ 0 < (free (one .recvWait) 0).poolFree.length ∧ 0 < (free (one .recvWait) 1).poolFree.length ∧
      (one (.saving 2 .recvWait false)).task? hA = some (task (.saving 2 .recvWait false))) ∧
    ((roomA.inbox hA).broken = false ∧ roomA.task? hA = some (task (.running 0)) ∧ ringOfA roomA = 0 ∧
      (roomA.inbox hA).resident.length + 1 = (roomA.inbox hA).limit ∧
      ¬ (free roomA 8).items.reserve < (free roomA 8).poolFree.length ∧
      (free roomA 9).items.reserve < (free roomA 9).poolFree.length) ∧
    ((ringA.inbox hA).broken = false ∧ ringA.task? hA = some (task (.running 0)) ∧ ringOfA ringA ≠ 0 ∧
      ringOfA ringA + 1 = (ringA.inbox hA).capacity ∧ (free ringA 8).poolFree.length ≤ ringA.items.reserve ∧
      (queued ringA 15).jobs.length < 16 ∧ 16 ≤ (queued ringA 16).jobs.length) ∧
    (((inboxA busyPart full).inbox hA).limit ≤ ((inboxA busyPart full).inbox hA).resident.length ∧
      ((inboxA busyPart full).inbox hA).capacity ≤ ringOfA (inboxA busyPart full)) :=
  ⟨fun s m => ⟨State.linked_of_check (by revert s; decide +kernel), by revert s; decide +kernel⟩, by decide +kernel⟩

/-- An EVENT image with sequence number 5. -/
def eventImage : Image := #v[0x00070202#32, 0x00050000#32, 0#32, 0#32, 0#32, 0#32, 0#32, 0#32]

/-- Line 15 with its pending message, number 5, in the inbox of task A. -/
def eventInA (s : State) : State :=
  { s with
    pool := s.pool.set 3 eventImage
    lines := s.lines.set 15 ⟨true, some ⟨hA, 7#16⟩, some ⟨hA, 5#16, .inbox⟩, 2, 1⟩ }

theorem witness_DeliveryShowsTheMessage :
    imageKind busyPart.pool[3] ≠ 2#8 ∧
    (imageKind (eventInA busyPart).pool[3] = 2#8 ∧
      (eventInA busyPart).lines[(15 : Line)].pending = some ⟨hA, imageSeq (eventInA busyPart).pool[3], .inbox⟩ ∧
      ∀ k < (15 : Line), (eventInA busyPart).lines[k].pending ≠ some ⟨hA, imageSeq (eventInA busyPart).pool[3], .inbox⟩) ∧
    ∀ l : Line, (eventInA busyPart).lines[l].pending ≠ some ⟨hA, imageSeq (eventInA busyPart).pool[3], .bound⟩ := by
  decide +kernel

/-- The outcome of the message that task A waits to send to task B. -/
def pendingOutcome (s : State) : RouteOutcome := (s.route .ordinary hB ⟨.data, 7#16, hA, [1#32]⟩).1

theorem witness_SenderReleaseTriesTheOldestFirst :
    let s (st : TaskState) (ib : Inbox) := (scene (sendWaiter .sendWait) (task st)).withInbox hB { ib with senders := [hA] }
    (s .dormant full).task? hA = some (sendWaiter .sendWait) ∧ (sendWaiter .sendWait).pendingSend = some ⟨hB, 7#16, [1#32]⟩ ∧
    pendingOutcome (s .dormant full) = .full ∧ pendingOutcome (s .recvWait Inbox.default) = .handedOff ∧
    pendingOutcome (s .dormant Inbox.default) = .resident ∧
    pendingOutcome (s .dormant { full with capacity := 1 }) = .spilled ∧
    pendingOutcome (free (s .dormant Inbox.default) 8) = .noSpace ∧
    pendingOutcome (s .dormant { full with broken := true }) = .broken := by decide +kernel

/-- Task A with a message in the ring. -/
def backedA : State := inboxA busyPart { ringed with backed := 1 }

/-- The count of the REFILL job that task A's inbox would get. -/
def wanted (s : State) : Nat :=
  min (min (s.inbox hA).backed ((s.inbox hA).limit - (s.inbox hA).resident.length)) (s.poolFree.length - s.items.reserve)

theorem witness_RefillCheckMakesOrDefersAJob :
    (backedA.task? hA).isSome ∧ (backedA.inbox hA).broken = false ∧ 0 < (backedA.inbox hA).backed ∧
    (∀ j ∈ (queued backedA 16).jobs, j.kind = .refill → j.inbox ≠ hA) ∧
    (backedA.inbox hA).resident.length = (backedA.inbox hA).mark ∧ (queued backedA 15).jobs.length < 16 ∧
    wanted (free backedA 9) = 1 ∧ wanted (free backedA 8) = 0 ∧ 16 ≤ (queued backedA 16).jobs.length ∧
    ¬ 0 < (busyPart.inbox hA).backed ∧ hA ∉ backedA.deferred ∧ hA ∈ { backedA with deferred := [hA] }.deferred := by
  decide +kernel

theorem witness_DeferredRefillsAreRetriedInOrder :
    let s (u : State) : State := { u with deferred := [hA] }
    backedA.deferred = [] ∧ (s busyPart).deferred = [hA] ∧ (s busyPart).refillNeeded hA = false ∧
    (s backedA).refillNeeded hA = true ∧ ((s backedA).createRefill hA).isSome = true ∧
    (free (s backedA) 8).refillNeeded hA = true ∧ (free (s backedA) 8).createRefill hA = none := by decide +kernel

/-- Task A on P0 sends to the task of handle `target`, with ARG1 and ARG2. -/
def sender (target arg1 arg2 : Word) (b : TaskState) (ib : Inbox) : State :=
  (args (scene (task (.running 0)) (task b)) 0 target arg1 arg2).withInbox (Handle.ofWord target) ib

/-- The outcome of the SEND of task A with six payload words. -/
def sendOutcome (s : State) : RouteOutcome :=
  ((s.taken 0).route .ordinary (Handle.ofWord (s.port 0).args[0])
    ⟨.data, 0#16, hA, (s.port 0).outData.toList.take 6⟩).1

theorem witness_SendIsRoutedOrWaits :
    (sender 66#32 0#32 0#32 .dormant full).RunningAt 0 hA (task (.running 0)) ∧
    (sender 66#32 0#32 0#32 .dormant full).live (Handle.ofWord 66#32) = false ∧
    (sender 65#32 0x70000#32 0#32 .dormant full).live hB = true ∧ 6 < ((0x70000#32 : Word).extractLsb' 16 8).toNat ∧
    ((0x60000#32 : Word).extractLsb' 16 8).toNat ≤ 6 ∧
    (sender 65#32 0x60000#32 0#32 .dormant full).RunningAt 0 hA (task (.running 0)) ∧
    sendOutcome (sender 65#32 0x60000#32 0#32 .recvWait full) = .handedOff ∧
    sendOutcome (sender 65#32 0x60000#32 0#32 .dormant Inbox.default) = .resident ∧
    sendOutcome (sender 65#32 0x60000#32 0#32 .dormant { full with capacity := 1 }) = .spilled ∧
    sendOutcome (sender 65#32 0x60000#32 0#32 .dormant { full with broken := true }) = .broken ∧
    sendOutcome (free (sender 65#32 0x60000#32 0#32 .dormant Inbox.default) 8) = .noSpace ∧
    sendOutcome (sender 65#32 0x60000#32 0#32 .dormant full) = .full ∧ (0#32 : Word).getLsbD 31 = false ∧
    sendOutcome (sender 64#32 0x60000#32 0x80000000#32 .dormant full) = .full ∧
    sendOutcome (sender 65#32 0x60000#32 0x80000001#32 .dormant full) = .full ∧
    (0x80000001#32 : Word).getLsbD 31 = true ∧ hB ≠ hA := by decide +kernel

/-- Task A on P0, about to receive, with ARG0 and an inbox. -/
def receiver (arg : Word) (ib : Inbox) : State := inboxA (args busyPart 0 arg 0#32 0#32) ib

theorem witness_ReceiveDeliversWaitsOrReturns :
    (receiver 0#32 full).RunningAt 0 hA (task (.running 0)) ∧ ((receiver 0#32 full).inbox hA).resident = 20 :: [21] ∧
    (receiver 0#32 { ringed with spilling := 1 }).RunningAt 0 hA (task (.running 0)) ∧
    ((receiver 0#32 { ringed with spilling := 1 }).inbox hA).resident = [] ∧ 0 < 1 + ringed.backed + ringed.refilling ∧
    (receiver 0#32 { ringed with broken := true }).RunningAt 0 hA (task (.running 0)) ∧
    ((receiver 0#32 { ringed with broken := true }).inbox hA).broken = true ∧ ringed.resident = [] ∧
    ringed.spilling + ringed.backed + ringed.refilling = 0 ∧ ringed.broken = false ∧
    (receiver 0#32 ringed).RunningAt 0 hA (task (.running 0)) ∧ ((receiver 0#32 ringed).port 0).args[0].getLsbD 31 = false ∧
    (receiver 0x80000000#32 ringed).RunningAt 0 hA (task (.running 0)) ∧
    ((receiver 0x80000000#32 ringed).port 0).args[0].getLsbD 31 = true := by decide +kernel

theorem witness_SetInboxWritesTheLimits :
    let s (arg1 page capacity : Word) : State :=
      put (busyPart.withPort 1 { busyPart.port 1 with args := #v[64#32, arg1, page, capacity] }) 1 .idle
    (s 1#32 0#32 0#32).SupervisorAt 1 ∧ (s 1#32 0#32 0#32).live hA = true ∧ (args busyPart 1 0#32 1#32 0#32).live Handle.null = false ∧
    ((0x1F20#32 : Word).extractLsb' 0 8).toNat = 32 ∧ ((0x1F20#32 : Word).extractLsb' 8 8).toNat = 32 - 1 ∧
    (s 0x1F20#32 1048575#32 128#32).SupervisorAt 1 ∧ 1048575 * 4096 + 128 * 32 ≤ 2 ^ 32 ∧
    ¬ 1048575 * 4096 + 129 * 32 ≤ 2 ^ 32 ∧ (s 0x1F20#32 1048575#32 129#32).SupervisorAt 1 ∧
    (s 1#32 0#32 4096#32).items.backingEnable = true ∧
    ((inboxA (s 1#32 0#32 0#32) full).inbox hA).resident ≠ [] ∧ ((s 1#32 0#32 0#32).inbox hA).resident = [] ∧
    (inboxA (s 1#32 0#32 0#32) { ringed with backed := 1 }).SupervisorAt 1 ∧
    (inboxA (s 1#32 0#32 0#32) { ringed with broken := true }).SupervisorAt 1 := by decide +kernel

/-! ### Queries and task commands -/

theorem witness_QueryTaskReportsTheRecord :
    (args busyPart 0 64#32 0#32 0#32).FreeAt 0 ∧
    (args busyPart 0 64#32 0#32 0#32).task? (Handle.ofWord 64#32) = some (task (.running 0)) ∧
    (args busyPart 2 66#32 0#32 0#32).FreeAt 2 ∧ (args busyPart 2 66#32 0#32 0#32).task? (Handle.ofWord 66#32) = none := by
  decide +kernel

theorem witness_QueriesReportInboxEventAndPart :
    let s (w : Word) := args busyPart 0 w 0#32 0#32
    (s 0#32).FreeAt 0 ∧ (s 0#32).live (Handle.ofWord 0#32) = false ∧ (0#32 : Word).toNat = (0 : Line).val ∧
    (s 64#32).FreeAt 0 ∧ (s 64#32).live (Handle.ofWord 64#32) = true ∧
    (s 15#32).FreeAt 0 ∧ (15#32 : Word).toNat = (15 : Line).val ∧ (s 16#32).FreeAt 0 ∧ 15 < (16#32 : Word).toNat := by
  decide +kernel

/-- `s` with every slot in use. -/
def noSlots (s : State) : State := { s with freeSlots := [] }

/-- P1 is about to create a task. -/
def creating (a b c : Word) : State := args busyPart 1 a b c

theorem witness_CreateMakesADormantTask :
    ((creating 15#32 15#32 32#32).SupervisorAt 1 ∧ (creating 0#32 1#32 4#32).SupervisorAt 1 ∧
      (creating 0#32 1#32 4#32).freeSlots = 2 :: (List.finRange 64).drop 3 ∧
      (noSlots (creating 0#32 1#32 4#32)).SupervisorAt 1) ∧
    ((creating 16#32 1#32 4#32).SupervisorAt 1 ∧ (creating 0#32 0#32 4#32).SupervisorAt 1 ∧
      (creating 0#32 16#32 4#32).SupervisorAt 1) ∧
    (creating 0#32 1#32 36#32).SupervisorAt 1 ∧ (creating 0#32 1#32 0#32).SupervisorAt 1 ∧
    (creating 0#32 1#32 6#32).SupervisorAt 1 :=
  ⟨by decide +kernel, by decide +kernel, by decide +kernel⟩

/-- P1 is about to name task A, which P0 seeds. -/
def seedingA : State := args seeding 1 64#32 0#32 0#32

theorem witness_SeedBeginsWritingAStoppedTask :
    (∀ st ∈ [TaskState.dormant, .halted .supervisor, .halted .portLost, .ready, .running 0],
      (overA st).SupervisorAt 1 ∧ ((overA st).port 1).state = .idle ∧ (overA st).task? hA = some (task st)) ∧
    (TaskState.ready.place ≠ .stopped ∧ seedingA.SupervisorAt 1 ∧ (seedingA.port 1).state = .idle ∧
      (seedingA.task? hA).any (fun t => t.seedPort ≠ none) = true) ∧
    (args busyPart 1 0#32 0#32 0#32).SupervisorAt 1 ∧
    (args busyPart 1 0#32 0#32 0#32).task? (Handle.ofWord 0#32) = none := by decide +kernel

theorem witness_ActivateAndReleaseMoveTheTask :
    (∀ st ∈ [TaskState.dormant, .ready, .halted .supervisor, .halted .portLost],
      (overA st).SupervisorAt 1 ∧ (overA st).Linked ∧ (overA st).task? hA = some (task st)) ∧
    (seedingA.SupervisorAt 1 ∧ seedingA.Linked ∧ (seedingA.task? hA).any (fun t => t.seedPort ≠ none) = true) ∧
    (args busyPart 1 0#32 0#32 0#32).Linked ∧ (args busyPart 1 0#32 0#32 0#32).task? (Handle.ofWord 0#32) = none :=
  ⟨fun st m => ⟨by revert st; decide +kernel, State.linked_of_check (by revert st; decide +kernel), rfl⟩,
   ⟨by decide +kernel, State.linked_of_check (by decide +kernel), by decide +kernel⟩,
   State.linked_of_check (by decide +kernel), by decide +kernel⟩

theorem witness_HaltStopsTheTask :
    ∀ st ∈ [TaskState.halted .supervisor, .halted .portLost, .dormant, .ready, .recvWait, .sendWait, .sleeping, .running 0,
        .running 1, .saving 2 .sleeping false],
      (overA st).SupervisorAt 1 ∧ (overA st).Linked ∧ (overA st).task? hA = some (task st) :=
  fun st m => ⟨by revert st; decide +kernel, State.linked_of_check (by revert st; decide +kernel), rfl⟩

/-- P1 is about to change a field of task A to `w`. -/
def changing (st : TaskState) (w : Word) : State := args (one st) 1 64#32 w 0#32

theorem witness_SetPrioAndSetAffinityChangeTheField :
    (∀ st ∈ [TaskState.ready, .sleeping], (changing st 15#32).Linked ∧ (changing st 15#32).task? hA = some (task st)) ∧
    (∀ w ∈ [0, 1, 3, 15, 16], (changing .ready (BitVec.ofNat 32 w)).SupervisorAt 1) ∧
    (changing .ready 0#32).awaitList.find? (fun q => { task .ready with affinity := 1#4 }.eligible q) = none ∧
    (waiting (put (changing .ready 2#32) 0 .idle)).awaitList.find?
      (fun q => { task .ready with affinity := 2#4 }.eligible q) ≠ none :=
  ⟨fun st m => ⟨State.linked_of_check (by revert st; decide +kernel), rfl⟩, by decide +kernel⟩

/-- Task B in `st`, whose pending send is for task A. -/
def senderB (st : TaskState) : Task := { task st with pendingSend := some ⟨hA, 7#16, []⟩ }

/-- P1 is about to reset the inbox of task A, or to destroy it: on its sender list task B stands, in `st`, and P0 runs it, with a
RECEIVE pending. -/
def emptyingA (st : TaskState) : State :=
  eventInA (inboxA (put (args (scene (task (.running 0)) (senderB st)) 1 64#32 0#32 0#32) 0 (.run hA true))
    { ringed with resident := [3], backed := 1, senders := [hB], recvPending := true })

/-- P1 is about to destroy task A, which waits to send to task B. -/
def sendingA : State :=
  (args (scene { task .sendWait with pendingSend := some ⟨hB, 7#16, []⟩ } (task .dormant)) 1 64#32 0#32 0#32).withInbox hB
    { Inbox.default with senders := [hA] }

/-- P1 is about to destroy task A, READY with a bound message. -/
def boundA : State := args (scene { task .ready with bound := some 3 } (task .dormant)) 1 64#32 0#32 0#32

theorem witness_ResetInboxAndDestroyEmptyTheInbox :
    ((args busyPart 1 0#32 0#32 0#32).SupervisorAt 1 ∧ (args busyPart 1 0#32 0#32 0#32).task? Handle.null = none) ∧
    (∀ st ∈ [TaskState.dormant, .halted .supervisor, .halted .portLost, .ready, .running 0, .running 1, .recvWait, .sendWait,
        .sleeping, .saving 2 .sleeping false], (overA st).SupervisorAt 1 ∧ (overA st).Linked ∧
      (overA st).task? hA = some (task st) ∧ (overA st).deferred = []) ∧
    (∀ st ∈ [TaskState.sendWait, .saving 2 .sendWait false], (emptyingA st).SupervisorAt 1 ∧ (emptyingA st).Linked ∧
      (emptyingA st).SendersAgree ∧ (emptyingA st).task? hA = some (task (.running 0)) ∧
      hB ∈ ((emptyingA st).inbox hA).senders ∧ (emptyingA st).task? hB = some (senderB st) ∧
      ((emptyingA st).inbox hA).recvPending = true ∧ ((emptyingA st).port 0).state = .run hA true) ∧
    (sendingA.SupervisorAt 1 ∧ sendingA.Linked ∧ sendingA.SendersAgree ∧
      (sendingA.task? hA).any (fun t => t.pendingSend = some ⟨hB, 7#16, []⟩) = true) ∧
    (seedingA.SupervisorAt 1 ∧ seedingA.Linked ∧ (seedingA.task? hA).any (fun t => t.seedPort = some 0) = true) ∧
    boundA.SupervisorAt 1 ∧ (boundA.task? hA).any (fun t => t.bound = some 3) = true :=
  ⟨by decide +kernel,
   fun st m => ⟨by revert st; decide +kernel, State.linked_of_check (by revert st; decide +kernel), rfl, rfl⟩,
   fun st m => ⟨by revert st; decide +kernel, State.linked_of_check (by revert st; decide +kernel),
     State.sendersAgree_of_check (by revert st; decide +kernel), by revert st; decide +kernel⟩,
   ⟨by decide +kernel, State.linked_of_check (by decide +kernel), State.sendersAgree_of_check (by decide +kernel),
     by decide +kernel⟩,
   ⟨by decide +kernel, State.linked_of_check (by decide +kernel), by decide +kernel⟩, by decide +kernel⟩

/-! ### Event lines and faults -/

theorem witness_BindAndUnbindWriteTheLine :
    let s (line tag : Word) := args busyPart 1 line 64#32 tag
    (s 0#32 65535#32).SupervisorAt 1 ∧ (s 15#32 0#32).SupervisorAt 1 ∧ (s 15#32 0#32).live hA = true ∧
    (s 16#32 0#32).SupervisorAt 1 ∧ (s 0#32 65536#32).SupervisorAt 1 ∧ (s 15#32 0#32).lines[(15 : Line)].pending = none ∧
    (eventInA (s 15#32 0#32)).SupervisorAt 1 ∧ (eventInA (s 15#32 0#32)).lines[(15 : Line)].pending ≠ none ∧
    (args busyPart 1 0#32 66#32 0#32).live (Handle.ofWord 66#32) = false := by decide +kernel

/-- Line 15 bound to task A, in `st` and with an inbox. -/
def boundLine (st : TaskState) (ib : Inbox) : State :=
  { inboxA (one st) ib with lines := State.reset.lines.set 15 ⟨false, some ⟨hA, 7#16⟩, none, 0, 65535⟩ }

/-- Line 15 low with its pending message in the inbox of task A and its count at the end of the range. -/
def countedLine : State := (eventInA busyPart).withLine 15 ⟨false, some ⟨hA, 7#16⟩, some ⟨hA, 5#16, .inbox⟩, 65535, 0⟩

/-- The outcome of the EVENT message of line 15. -/
def eventOutcome (s : State) : RouteOutcome := (s.route .ordinary hA ⟨.event, 7#16, ⟨0, 0#10⟩, [0#32, 0#32]⟩).1

theorem witness_EdgesActByTheLineRecord :
    partLow.rstLow = true ∧ (busyPart.rstLow = false ∧ busyPart.quiet = true) ∧
    (busyPart.lines[(0 : Line)].level ≠ true ∧ true = !busyPart.items.polarity.getLsbD 0 ∧
      busyPart.lines[(0 : Line)].binding = none) ∧
    (countedLine.quiet = true ∧ countedLine.lines[(15 : Line)].level ≠ true ∧
      countedLine.lines[(15 : Line)].binding = some ⟨hA, 7#16⟩ ∧ countedLine.lines[(15 : Line)].pending ≠ none) ∧
    ((boundLine .recvWait full).quiet = true ∧ (boundLine .recvWait full).lines[(15 : Line)].binding = some ⟨hA, 7#16⟩ ∧
      (boundLine .recvWait full).lines[(15 : Line)].pending = none ∧ (boundLine .recvWait full).live hA = true) ∧
    eventOutcome (boundLine .recvWait full) = .handedOff ∧
    eventOutcome (boundLine .dormant Inbox.default) = .resident ∧
    eventOutcome (boundLine .dormant ringA.inboxes[0]) = .spilled ∧
    eventOutcome (boundLine .dormant full) = .full ∧
    eventOutcome (free (boundLine .dormant Inbox.default) 8) = .noSpace ∧
    eventOutcome (boundLine .dormant { full with broken := true }) = .broken := by decide +kernel

/-- The outcome of a FAULT message for task A. -/
def faultOutcome (s : State) : RouteOutcome := (s.route .fault hA (FaultReport.portLost hB 3 .line).message).1

theorem witness_FaultsGoToTheSinkOrAreCounted :
    (overA .dormant).SupervisorAt 1 ∧ (overA .dormant).sink = none ∧ { overA .dormant with sink := some hB }.SupervisorAt 1 ∧
    (args busyPart 1 66#32 0#32 0#32).SupervisorAt 1 ∧ (args busyPart 1 66#32 0#32 0#32).live (Handle.ofWord 66#32) = false ∧
    { busyPart with sink := some ⟨2, 1#10⟩ }.live ⟨2, 1#10⟩ = false ∧ { busyPart with sink := some hA }.live hA = true ∧
    faultOutcome (one .recvWait) = .handedOff ∧ faultOutcome (free (one .dormant) 1) = .resident ∧ faultOutcome ringA = .spilled ∧
    faultOutcome (free (one .dormant) 0) = .noSpace ∧ faultOutcome (inboxA busyPart full) = .full ∧
    faultOutcome (inboxA busyPart { full with broken := true }) = .broken := by decide +kernel

/-! ### The frame stream and the window -/

/-- P0 loads task A: word `k` of five is next. -/
def loading (k : Nat) (bound : Option PoolSlot) : State :=
  put (scene { task (.running 0) with bound := bound } (task .dormant)) 0 (.loading hA 5 k)

theorem witness_FrameReadsStreamTheCheckOut :
    ((busyPart.quiet = true ∧ partLow.quiet = true ∧ partLow.rstLow = true) ∧
      lineLow.quiet = true ∧ (lineLow.port 0).prstLow = true) ∧
    (busyPart.Served 0 ∧ (busyPart.port 0).state.code ≠ 3#3) ∧
    (∀ k ∈ [0, 3, 4], (loading k none).Served 0 ∧ ((loading k none).port 0).state = .loading hA 5 k ∧
      (loading k none).task? hA = some (task (.running 0))) ∧
    (loading 4 (some 9)).Served 0 ∧ (loading 4 (some 9)).task? hA = some { task (.running 0) with bound := some 9 } := by
  decide +kernel

/-- P0 checks task A in: `words` stand in the staging buffer. -/
def checkingIn (words : List Word) : State := put (one (.saving 0 .sleeping false)) 0 (.saving .checkIn hA words)

theorem witness_FrameWritesFillTheStagingBuffer :
    (lineLow.quiet = true ∧ (lineLow.port 0).prstLow = true) ∧ (busyPart.Served 0 ∧ (busyPart.port 0).state.code ≠ 5#3) ∧
    ((checkingIn []).Served 0 ∧ ((checkingIn []).port 0).state = .saving .checkIn hA [] ∧
      ((checkingIn []).task? hA).isSome ∧ (maskBytes 15#4 0x00040040#32).extractLsb' 0 16 = hA.bits ∧
      ((maskBytes 15#4 0x00040040#32).extractLsb' 16 6).toNat = (task .ready).frameLength ∧
      ((maskBytes 3#4 0x00040040#32).extractLsb' 16 6).toNat ≠ (task .ready).frameLength ∧
      (maskBytes 15#4 0x00040041#32).extractLsb' 0 16 ≠ hA.bits) ∧
    ((0x00040040#32 : Word).getLsbD 24 = false ∧ (0x01040040#32 : Word).getLsbD 24 = true ∧
      ((checkingIn [0x00040040#32, 1#32, 2#32]).port 0).state = .saving .checkIn hA [0x00040040#32, 1#32, 2#32] ∧
      [0x00040040#32, 1#32, 2#32].length + 1 < 1 + 4 ∧ 1 + 4 ≤ [0x00040040#32, 1#32, 2#32, 3#32].length + 1 ∧
      (checkingIn [0x00040040#32, 1#32, 2#32, 3#32]).Served 0 ∧
      17 + 4 ≤ (0x01040040#32 :: List.replicate 19 (7#32 : Word)).length + 1) ∧
    (seeding.Served 0 ∧ (seeding.port 0).state = .saving .seed hA [] ∧ (seeding.task? hA).isSome) := by decide +kernel

theorem witness_CommitStoresTheFrame :
    ∀ st ∈ [TaskState.saving 0 .readyHead false, .saving 0 .readyHead true, .saving 0 .readyTail false,
        .saving 0 .readyTail true, .saving 0 .recvWait true, .saving 0 .sendWait true, .saving 0 .sleeping true,
        .saving 0 .recvWait false, .saving 0 .sendWait false, .saving 0 .sleeping false],
      (one st).Linked ∧ (one st).task? hA = some (task st) :=
  fun st m => ⟨State.linked_of_check (by revert st; decide +kernel), rfl⟩

theorem witness_RegisterWritesKeepTheWord :
    31 < 32 ∧ partLow.rstLow = true ∧ (lineLow.port 0).prstLow = true ∧
    (busyPart.rstLow = false ∧ (busyPart.port 0).prstLow = false) ∧ 0x10#5 ∉ [0x00#5, 0x07#5, 0x08#5, 0x19#5] ∧
    ((0x01#5).toNat = 0x01 + (0 : Fin 4).val ∧ (0x04#5).toNat = 0x01 + (3 : Fin 4).val) ∧
    ((0x11#5).toNat = 0x11 + (0 : Fin 6).val ∧ (0x16#5).toNat = 0x11 + (5 : Fin 6).val) ∧ (0x18#5).toNat = 0x18 ∧
    (0x05#5).toNat ∈ [0x05, 0x06] ∧ (0x09 ≤ (0x10#5).toNat ∧ (0x10#5).toNat ≤ 0x10) ∧ (0x17#5).toNat = 0x17 ∧
    0x1A ≤ (0x1F#5).toNat := by decide +kernel

/-- A write to CFGVAL from P0, IDLE in CONFIG, with `index` in CFGIDX. -/
def configuring (index : Nat) : State :=
  State.reset.withPort 0 { PortUnit.reset false with state := .idle, cfgIdx := BitVec.ofNat 32 index }

theorem witness_ConfigurationWritesAreJudgedByTheItem :
    (busyPart.phase = .service ∧ partLow.rstLow = true ∧ (State.reset.port 0).state ≠ .idle) ∧
    (∀ i ∈ [0x00, 0x01, 0x02, 0x03, 0x04, 0x07, 0x08, 0x09, 0x0A, 0x0B], (configuring i).rstLow = false ∧
      ((configuring i).port 0).prstLow = false ∧ (configuring i).phase = .config ∧ ((configuring i).port 0).state = .idle ∧
      ((configuring i).port 0).cfgIdx.toNat = i) ∧
    (maskBytes 15#4 65536#32).toNat = 65536 ∧ 65535 < (maskBytes 15#4 65536#32).toNat ∧
    (maskBytes 3#4 65536#32).toNat = 0 ∧ (maskBytes 15#4 32#32).toNat ≤ 32 ∧ 32 < (maskBytes 15#4 33#32).toNat ∧
    (maskBytes 15#4 255#32).toNat ≤ 255 ∧ 255 < (maskBytes 15#4 256#32).toNat := by decide +kernel

theorem witness_ConfigurationIsFrozenInService :
    busyPart.phase = .service ∧ busyPart.held 0 = false ∧ busyPart.pending = [] ∧
    (∃ t, exec (.dispatch 1) busyPart = .next t) ∧ ∃ t, step busyPart = .next t :=
  ⟨rfl, rfl, rfl, ⟨_, rfl⟩, _, rfl⟩

theorem witness_WindowReadsShowTheRegisters :
    partLow.rstLow = true ∧ (lineLow.port 0).prstLow = true ∧ (0x18#5 : BitVec 5) ≠ 0x17#5 ∧
    (busyPart.rstLow = false ∧ (busyPart.port 0).prstLow = false) ∧ 0x1A#5 < 0x1B#5 := by decide +kernel

theorem witness_PartResetClearsThePart : partLow.rstLow = true ∧ busyPart.rstLow = false := by decide

/-! ### Ticks, expiries and the backing engine -/

theorem witness_TicksReachTheirThreeHolders :
    (partLow.rstLow = true ∧ State.reset.phase = .config) ∧
    (busyPart.rstLow = false ∧ busyPart.phase = .service ∧ busyPart.items.tickLine = false ∧ busyPart.quiet = true) ∧
    ({ busyPart with items := { busyPart.items with tickLine := true } }.quiet = true ∧
      { busyPart with items := { busyPart.items with tickLine := true } }.items.tickLine = true) ∧
    dueSleep.DeadlinesOrdered := by decide +kernel

/-- P0, running, with a lease of 5 and `n` ticks left, after a tick. -/
def leased (n : Nat) (tick : LeaseTick) : State :=
  { busyPart.withPort 0 { busyPart.port 0 with lease := n, leaseTick := tick } with
    items := { busyPart.items with leases := #v[5, 0, 0, 0] } }

theorem witness_ExpiriesEndWhatTheTickLeft :
    (busyPart.deadlines = [] ∧ dueSleep.deadlines = [⟨hA, dueSleep.tickCounter, .sleep⟩] ∧ dueSleep.expiring = true) ∧
    ({ dueSleep with tickCounter := 5#32 }.deadlines = [⟨hA, 0#32, .sleep⟩] ∧ (0#32 : Word) ≠ 5#32) ∧
    (busyPart.expiring = false ∧ (busyPart.port 0).leaseTick = .none) ∧
    ((leased 0 .expired).expiring = false ∧ ((leased 0 .expired).port 0).leaseTick = .expired) ∧
    (((leased 2 .owed).port 0).leaseTick = .owed ∧ (leased 2 .owed).items.leases[(0 : Port)] ≠ 0 ∧
      ((leased 2 .owed).port 0).state.code ∈ [3#3, 4#3, 5#3] ∧ 1 < ((leased 2 .owed).port 0).lease) ∧
    (((leased 1 .owed).port 0).leaseTick = .owed ∧ ((leased 1 .owed).port 0).lease ≤ 1) ∧
    ((put (leased 1 .owed) 0 .idle).port 0).state.code ∉ [3#3, 4#3, 5#3] ∧
    (busyPart.burst = none ∧ (working busyPart .spill .first false).burst = some ⟨true, 0#32, 0, false⟩ ∧
      { working busyPart .spill .first false with burst := some ⟨true, 0#32, 4, true⟩ }.expiring = false) := by decide +kernel

theorem witness_BurstAttemptsDriveTheJobsPosition :
    (working busyPart .spill .first false).quiet = true ∧ (working busyPart .spill .first false).burst ≠ none ∧
    (busyPart.quiet = true ∧ busyPart.jobs = []) ∧
    { working busyPart .refill .second true with burst := none }.quiet = true ∧
    (working busyPart .refill .second true).jobs ≠ [] := by decide +kernel

/-- The second attempt of a read burst of task A's inbox has reached the timeout. -/
def timedOut : State :=
  { working busyPart .refill .second false with burst := some ⟨false, 0#32, 4, true⟩ }

theorem witness_FailedAttemptsAreRetriedOnceThenBreakTheInbox :
    (∀ kind ∈ [JobKind.spill, .refill], ∀ attempt ∈ [Attempt.first, .second], ∀ mark ∈ [true, false],
      (working busyPart kind attempt mark).quiet = true ∧ (working busyPart kind attempt mark).live hA = true ∧
      (working busyPart kind attempt mark).jobs = [⟨kind, hA, mark, 0, 2, 0, 1, [0], 0, attempt⟩] ∧
      (working busyPart kind attempt mark).burst = some ⟨kind == .spill, 0#32, 0, false⟩) ∧
    (busyPart.quiet = true ∧ busyPart.burst = none) ∧
    (timedOut.quiet = false ∧ timedOut.expiring = false ∧ timedOut.live hA = true ∧ timedOut.jobs ≠ []) ∧
    { working busyPart .spill .first false with tasks := State.reset.tasks }.live hA = false := by decide +kernel

theorem test_wordsOfAFailedReadStandInTheSlot :
    ∃ t, exec (.burstAttemptError ⟨3, .driven (Vector.replicate 8 7#32)⟩) (working busyPart .refill .first true) = .next t ∧
      t.pool[0] = #v[7#32, 7#32, 7#32, 0#32, 0#32, 0#32, 0#32, 0#32] ∧ t.jobs = [] := ⟨_, rfl, by decide +kernel⟩

/-- Task A on P0 with a RECEIVE pending. -/
def receiving : State := inboxA (put busyPart 0 (.run hA true)) { full with recvPending := true }

theorem witness_PendingReceivesAreCompleted :
    (busyPart.inbox hA).recvPending = false ∧ (receiving.inbox hA).recvPending = true ∧
    receiving.task? hA = some (task (.running 0)) ∧ (receiving.inbox hA).resident = 20 :: [21] := by decide +kernel

theorem witness_SpillCompletionBacksTheMessage :
    (busyPart.quiet = true ∧ busyPart.burst = none ∧ busyPart.jobs = []) ∧
    (∀ mark ∈ [true, false], (working busyPart .spill .first mark).quiet = true ∧
      (working busyPart .spill .first mark).jobs = [⟨.spill, hA, mark, 0, 2, 0, 1, [0], 0, .first⟩] ∧
      (working busyPart .spill .first mark).burst = some ⟨true, 0#32, 0, false⟩ ∧
      (working busyPart .spill .first mark).live hA = true ∧ (working busyPart .spill .first mark).BackingCanonical) ∧
    (working busyPart .refill .first false).burst = some ⟨false, 0#32, 0, false⟩ := by decide +kernel

theorem witness_RefillCompletionBringsTheMessageBack :
    (∀ mark ∈ [true, false], (working busyPart .refill .first mark).quiet = true ∧
      (working busyPart .refill .first mark).jobs = [⟨.refill, hA, mark, 0, 2, 0, 1, [0], 0, .first⟩] ∧
      (working busyPart .refill .first mark).burst = some ⟨false, 0#32, 0, false⟩ ∧
      (working busyPart .refill .first mark).live hA = true) ∧
    (eventImage[0].extractLsb' 0 8 = 2#8 ∧ (eventImage[0].extractLsb' 8 8).toNat ≤ 6) ∧
    (Memory.readImage busyPart.backing 0)[0].extractLsb' 0 8 = 0#8 ∧
    (working busyPart .spill .first false).burst = some ⟨true, 0#32, 0, false⟩ := by decide +kernel

/-! ### The invariants -/

/-- The first attempt of a write burst of task A's inbox has reached the timeout. -/
def lateWrite : State :=
  { working busyPart .spill .first false with
    pool := busyPart.pool.set 0 (Vector.replicate 8 7#32)
    burst := some ⟨true, 0#32, 4, true⟩ }

theorem witness_WhatEachCommandMayChange :
    ((Instr.partReset ⟨8, .stored⟩).wellFormed = true ∧ ∃ t, exec (.partReset ⟨8, .stored⟩) lateWrite = .next t) ∧
    ((Instr.create 1).wellFormed = true ∧ ∃ t, exec (.create 1) lateWrite = .next t) ∧
    ((Instr.dividerExpiry 0#4).wellFormed = true ∧ ∃ t, exec (.dividerExpiry 0#4) lateWrite = .next t) ∧
    ((Instr.backingTimeout ⟨8, .stored⟩).wellFormed = true ∧ ∃ t, exec (.backingTimeout ⟨8, .stored⟩) lateWrite = .next t) ∧
    ((Instr.dispatch 1).wellFormed = true ∧ ∃ t, exec (.dispatch 1) lateWrite = .next t) :=
  ⟨⟨rfl, _, rfl⟩, ⟨rfl, _, rfl⟩, ⟨rfl, _, rfl⟩, ⟨rfl, _, rfl⟩, rfl, _, rfl⟩

/-- The words of a timed-out write attempt stand in memory after BACKING_TIMEOUT with them, and do not after a DISPATCH
that makes the timeout first (log 7). -/
theorem test_timeoutBeforeACommandLeavesNoWords :
    (∃ t, exec (.backingTimeout ⟨8, .stored⟩) lateWrite = .next t ∧ t.burst = none ∧ t.backing ≠ lateWrite.backing) ∧
    ∃ t, exec (.dispatch 1) lateWrite = .next t ∧ t.burst = none ∧ t.backing = lateWrite.backing :=
  ⟨⟨_, rfl, by decide +kernel⟩, _, rfl, by decide +kernel⟩

theorem witness_EveryStepKeepsTheMemoryAndTheDeadlines :
    dueSleep.BackingCanonical ∧ dueSleep.DeadlinesOrdered ∧ ∃ t, step dueSleep = .next t :=
  ⟨by decide +kernel, by decide +kernel, _, rfl⟩

theorem witness_EveryStepKeepsTheLinks : busyPart.Linked ∧ ∃ t, step busyPart = .next t :=
  ⟨State.linked_of_check (by decide +kernel), _, rfl⟩

/-- Task A, with a pending RECEIVE on P0, one resident message and one on its way back, and task B on its sender list. -/
def placed : State :=
  { eventInA (inboxA (put (scene (task (.running 0)) (senderB .sendWait)) 0 (.run hA true))
      { ringed with resident := [0], refilling := 1, senders := [hB], recvPending := true }) with
    poolFree := (List.finRange 512).drop 2
    jobs := [⟨.refill, hA, false, 0, 2, 0, 1, [1], 0, .first⟩]
    burst := some ⟨false, 0#32, 0, false⟩ }

theorem witness_EveryStepKeepsThePoolAndTheLists :
    placed.Linked ∧ placed.LinesCounted ∧ placed.SendersAgree ∧ placed.SlotsPlaced ∧ placed.CountsAgree ∧
    placed.NoJobComesRound ∧ ∃ t, step placed = .next t :=
  ⟨State.linked_of_check (by decide +kernel), by decide +kernel, State.sendersAgree_of_check (by decide +kernel),
   State.slotsPlaced_of_check 2 (by decide +kernel) (by decide +kernel) (by decide +kernel), State.countsAgree_of_check (by decide +kernel),
   by decide +kernel, _, rfl⟩

/-- Task A runs on P0 while task B, of higher priority, is READY. -/
def rivalled : State := (scene (task (.running 0)) { task .ready with priority := 5 }).evalPreempt

theorem witness_EveryStepKeepsTheFlags :
    (busyPart.Linked ∧ busyPart.Flagged ∧ (∃ t, step busyPart = .next t) ∧ (busyPart.port 0).preempt = false) ∧
    rivalled.Linked ∧ rivalled.Flagged ∧ (rivalled.port 0).preempt = true ∧ rivalled.preemptCondition 0 = true ∧
    (rivalled.port 1).preempt = false :=
  ⟨⟨State.linked_of_check (by decide +kernel), by decide +kernel, ⟨_, rfl⟩, by decide +kernel⟩,
   State.linked_of_check (by decide +kernel), by decide +kernel⟩

end Sys2Proof.Tests
end

section
/-! ## Giving a task up: YIELD without a rival (R67) -/

namespace Sys2Proof.Machine
namespace State
variable {s : State} {p : Port} {h : Handle} {t : Task}

/-- A rival is an eligible task in a ready queue at or above the priority of the current task (R67). -/
theorem hasRival_iff :
    s.hasRival p t = true ↔ ∃ q : Priority, t.priority ≤ q ∧ ∃ r ∈ s.ready[q], s.eligible r p = true := by
  simp [hasRival]

theorem hasRival_eq_false
    (alone : ∀ q : Priority, t.priority ≤ q → ∀ r ∈ s.ready[q], s.eligible r p = false) :
    s.hasRival p t = false := by
  refine Bool.eq_false_iff.2 fun rival => ?_
  obtain ⟨q, above, r, mem, eligible⟩ := hasRival_iff.1 rival
  exact Bool.eq_false_iff.1 (alone q above r mem) eligible

/-- Rivalry does not read the port units, so the reloaded lease leaves it. -/
@[simp] theorem taken_hasRival (q : Port) : (s.taken p).hasRival q t = s.hasRival q t := rfl

/-- A task-level command acts on the task of the port in RUN (R71). -/
theorem onCurrent_of_run {receiving : Bool} (run : (s.port p).state = .run h receiving) (task : s.task? h = some t)
    (f : Handle → Task → State) : s.onCurrent p f = f h t := by
  simp only [onCurrent, run, task]

/-- The reloaded lease leaves the port in RUN with its task. -/
theorem taken_onCurrent (run : s.RunningAt p h t) (f : Handle → Task → State) :
    (s.taken p).onCurrent p f = f h t := by
  obtain ⟨-, -, state, task⟩ := run
  have taken : ((s.taken p).port p).state = .run h false := by rw [taken_port, if_pos rfl]; exact state
  exact onCurrent_of_run taken task f

/-- YIELD answers OK at once when the current task has no rival, and touches nothing else (R67). -/
theorem taken_yield (run : s.RunningAt p h t) (alone : s.hasRival p t = false) :
    (s.taken p).yield p = s.answered p .ok 0#16 := by
  rw [State.yield, taken_onCurrent run, taken_hasRival, alone]
  exact taken_setResult .ok 0#16

end State

/-- Settles O14: the gate takes YIELD from a running port, and the reloaded lease brings no rival. -/
theorem yieldWithoutARivalReturnsAtOnce : Obligations.YieldWithoutARivalReturnsAtOnce := by
  intro p h t s run alone
  have taken : exec (.yield p) s = .next ((s.taken p).yield p) := State.exec_running run (.inl rfl)
  rw [taken, State.taken_yield run (State.hasRival_eq_false alone)]

end Sys2Proof.Machine
end

section
/-! ## The configuration is frozen in SERVICE (R195)

Every operation but two keeps the configuration items: a write to CFGVAL, which SERVICE makes inert, and a part reset.
What the Laws say of an operation's reactions gives its lemma here. -/

namespace Sys2Proof.Machine
namespace State
variable (s : State) (p : Port)

/-! ### The tick and the engine -/

@[simp] theorem settle_items : s.settle.items = s.items := s.settle_steady.items

@[simp] theorem finishExpiries_items : s.finishExpiries.items = s.items := s.finishExpiries_steady.items

@[simp] theorem takeLeaseTick_items : (s.takeLeaseTick p).items = s.items := (s.takeLeaseTick_steady p).items

/-- A tick changes the counter, the burst's timer and the port units (R132). -/
@[simp] theorem deliverTick_items (late : BitVec 4) : (s.deliverTick late).items = s.items := by
  simp only [deliverTick, tickPort, modPort_items]

@[simp] theorem takeTick_items (late : BitVec 4) : (s.takeTick late).items = s.items := by
  rw [takeTick, deliverTick_items, settle_items]

@[simp] theorem clockPeriod_items : s.clockPeriod.items = s.items := by
  unfold clockPeriod
  split
  case isTrue =>
    split
    · rfl
    · rw [takeTick_items]
  case isFalse => rfl

@[simp] theorem expireHead_items : s.expireHead.items = s.items := s.expireHead_moves.reacts.items

@[simp] theorem landWords_items (taken : Taken) : (s.landWords taken).items = s.items := by rw [landWords_eq]

@[simp] theorem attemptError_items : s.attemptError.items = s.items :=
  s.attemptError_moves.reacts.items.trans s.endAttempt_steady.items

@[simp] theorem burstError_items (taken : Taken) : (s.burstError taken).items = s.items := by
  unfold burstError
  split
  · rw [attemptError_items, landWords_items]
  · rfl

@[simp] theorem takeTimeout_items (taken : Taken) : (s.takeTimeout taken).items = s.items := by
  unfold takeTimeout
  split
  · split
    · exact s.burstError_items taken
    · rfl
  · rfl

@[simp] theorem spillComplete_items : s.spillComplete.items = s.items := by
  unfold spillComplete
  split
  case h_1 b j rest _ _ =>
    split
    case isTrue =>
      have landed : (s.landWords ⟨8, .stored⟩).endAttempt.items = s.items :=
        (endAttempt_steady _).items.trans (s.landWords_items _)
      dsimp only
      split
      · exact (spillDone_moves _ j rest).reacts.items.trans landed
      · exact (endUnowned_moves _ j rest).reacts.items.trans landed
    case isFalse => rfl
  case h_2 => rfl

/-! ### Port loss and event lines -/

/-- A loss acts on the port unit and on its work; supervisor set and leases are items, and stay (R195). -/
@[simp] theorem losePort_items (cause : LossCause) : (s.losePort p cause).items = s.items :=
  (s.losePort_reacts p cause).items

@[simp] theorem changeLevel_items (l : Line) (level : Bool) : (s.changeLevel l level).items = s.items := by
  unfold changeLevel
  dsimp only
  split
  · exact (takeEdge_moves _ l).reacts.items
  · rfl

/-! ### The port window -/

/-- BEGIN_SERVICE changes the phase and the tick source (R196). -/
theorem beginService_items : (s.beginService p).items = s.items := by
  simp only [beginService, setResult, enterService]
  split <;> rw [modPort_items]

theorem commandEffect_items (c : Cmd) : (commandEffect c p s).items = s.items := by
  by_cases begins : c = .beginService
  · subst begins
    exact s.beginService_items p
  · exact (s.effect_keeps begins p).items

@[simp] theorem issue_items (c : Cmd) : (s.issue c p (commandEffect c p)).items = s.items := by
  unfold issue
  dsimp only
  split
  · exact s.settle_items
  · exact (setResult_moves _ p _ _).reacts.items.trans s.settle_items
  · exact (setOverrun_steady _ p).items.trans s.settle_items
  · exact (commandEffect_items _ p c).trans ((reloadLease_steady _ p).items.trans s.settle_items)

@[simp] theorem writeCmd_items (w : Word) : (s.writeCmd p w).items = s.items := by
  unfold writeCmd
  split
  case h_1 c _ => exact s.issue_items p c
  case h_2 =>
    unfold refuseCode
    dsimp only
    split
    · exact s.settle_items
    · exact (setResult_moves _ p _ _).reacts.items.trans s.settle_items

/-- An access to FRAME keeps the items when its effect does. -/
theorem accessFrame_items {f : State → State} (keeps : ∀ t, (f t).items = t.items) :
    (s.accessFrame p f).items = s.items := by
  unfold accessFrame
  dsimp only
  split
  · exact s.settle_items
  · exact (keeps _).trans ((reloadLease_steady _ p).items.trans s.settle_items)

@[simp] theorem frameRead_items : (s.accessFrame p fun t => t.readFrame p).items = s.items :=
  s.accessFrame_items p fun t => (t.readFrame_steady p).items

@[simp] theorem frameWrite_items (w : Word) : (s.accessFrame p fun t => t.writeFrame p w).items = s.items :=
  s.accessFrame_items p fun t => (t.writeFrame_keeps p w).items

@[simp] theorem heldRead_items : (s.heldRead p).items = s.items := by
  unfold heldRead
  split <;> rfl

@[simp] theorem writeAttn_items (w : Word) : (s.writeAttn p w).items = s.items := by
  unfold writeAttn
  split <;> rfl

@[simp] theorem storeRegister_items (a : BitVec 5) (w : Word) : (s.storeRegister p a w).items = s.items := by
  unfold storeRegister
  split <;> rfl

variable {s}

/-- In SERVICE a write to CFGVAL is none (R195). -/
theorem writeCfgVal_of_service (service : s.phase = .service) (w : Word) : s.writeCfgVal p w = s :=
  if_pos (.inr (.inl service))

/-- A register write reaches CFGVAL too, by its address (R170). -/
theorem writeWindow_items (service : s.phase = .service) (a : BitVec 5) (w : Word) :
    (s.writeWindow p a w).items = s.items := by
  unfold writeWindow
  split
  · exact s.writeCmd_items p w
  · exact s.writeAttn_items p w
  · exact s.frameWrite_items p w
  · rw [writeCfgVal_of_service p service]
  · exact s.storeRegister_items p a w

/-- CFGVAL of a port that is not held shows the item selected (R193). -/
theorem readWindow_cfgVal (free : s.held p = false) :
    s.readWindow p 0x19#5 = itemWord s.items (s.port p).cfgIdx := by
  have shown : ¬(s.held p ∧ (0x19#5 : BitVec 5) ≠ 0x17#5) := by simp [free]
  exact if_neg shown

end State

/-- In SERVICE every command but a part reset keeps the items: one case per constructor, the commands of CMD together. -/
theorem exec_items {s t : State} (service : s.phase = .service) {c : Instr} (stays : ∀ n, c ≠ .partReset n)
    (run : exec c s = .next t) : t.items = s.items := by
  cases c <;> cases run
  case partReset n => exact absurd rfl (stays n)
  case cmdInvalidCode p be w => exact s.writeCmd_items p _
  case frameRead p be => exact (State.heldRead_items _ p).trans (s.frameRead_items p)
  case frameWrite p be w => exact s.frameWrite_items p _
  case attnWrite p be w => exact s.writeAttn_items p _
  case cfgvalWrite p be w => rw [State.writeCfgVal_of_service p service]
  case registerWrite p a be w => exact State.writeWindow_items p service a _
  case portReset p =>
    split
    · rfl
    · split
      · rfl
      · exact (State.losePort_items _ p .line).trans s.settle_items
  case portResetRelease p => rfl
  case eventEdge l level => split <;> simp
  case tickLineEdge late => split <;> simp
  case dividerExpiry late => split <;> simp
  case deadlineExpiry => split <;> simp
  case leaseExpiry p => simp
  case backingTimeout taken => simp
  case burstAttemptStart => exact s.settle.startAttempt_steady.items.trans s.settle_items
  case spillBurstComplete => simp
  case refillBurstComplete data => exact (s.settle.refillComplete_steady data).items.trans s.settle_items
  case burstAttemptError taken => simp
  case partResetRelease levels => split <;> rfl
  all_goals exact State.issue_items s _ _

/-- On an empty queue a step is one CLK period, which keeps the items (R130, log 2). -/
theorem step_items_of_idle {s t : State} (idle : s.pending = []) (run : step s = .next t) : t.items = s.items := by
  rw [step, idle] at run
  cases run
  exact s.clockPeriod_items

/-- Settles O46: of the two writers of the items, SERVICE makes CFGVAL inert, and a part reset is excepted. -/
theorem configurationIsFrozenInService : Obligations.ConfigurationIsFrozenInService := by
  intro s service
  refine ⟨fun p e w => ?_, fun p => State.readWindow_cfgVal p, fun c t => exec_items service, fun t => step_items_of_idle,
    s.losePort_items⟩
  exact congrArg Host.Outcome.next (State.writeCfgVal_of_service p service _)

end Sys2Proof.Machine
end

section
/-! ## What every step keeps

An invariant is shown of a step by showing it of the pieces of which the meanings of the commands are made. -/

namespace Sys2Proof.Machine
namespace State
variable {s t : State} {p : Port} {c : Cmd}

/-- Each piece of a step, begun where `P` holds, ends where `Q` holds; what comes before a piece within one step (the
expiries that a tick left, the reloaded lease, the divider count) keeps `P`. For most invariants `P` is `Q`. -/
structure Keeps (P Q : State → Prop) : Prop where
  relax : ∀ {s : State}, P s → Q s
  settle : ∀ {s : State}, P s → P s.settle
  finish : ∀ {s : State}, P s → P s.finishExpiries
  lease : ∀ {s : State} p, P s → P (s.reloadLease p)
  divider : ∀ {s : State} n, P s → P { s with dividerCount := n }
  register : ∀ {s : State} {p : Port} {f : PortUnit → PortUnit},
    (∀ u, (f u).state = u.state ∧ (f u).preempt = u.preempt) → Q s → Q (s.modPort p f)
  items : ∀ {s : State} it, Q s → Q { s with items := it }
  expiring : ∀ {s : State} b, Q s → Q { s with expiring := b }
  release : ∀ {s : State} (levels : BitVec 16), Q s → Q { s with
    rstLow := false, lines := Vector.ofFn fun l => { s.lines[l] with level := levels.getLsbD l.val } }
  effect : ∀ {s : State} {c : Cmd} {p : Port}, P s → s.gate c p = .taken → Q (commandEffect c p s)
  readFrame : ∀ {s : State} p, P s → Q (s.readFrame p)
  writeFrame : ∀ {s : State} p w, P s → Q (s.writeFrame p w)
  partReset : ∀ {s : State} n, P s → Q (s.partReset n)
  losePort : ∀ {s : State} p cause, P s → Q (s.losePort p cause)
  changeLevel : ∀ {s : State} l level, P s → Q (s.changeLevel l level)
  tick : ∀ {s : State} source late, P s → s.ticking source = true → Q (s.takeTick late)
  expireHead : ∀ {s : State}, P s → s.deadlineDue = true → Q s.expireHead
  takeLeaseTick : ∀ {s : State} p, P s → Q (s.takeLeaseTick p)
  takeTimeout : ∀ {s : State} n, P s → Q (s.takeTimeout n)
  startAttempt : ∀ {s : State}, P s → Q s.startAttempt
  spillComplete : ∀ {s : State}, P s → Q s.spillComplete
  refillComplete : ∀ {s : State} d, P s → Q (s.refillComplete d)
  burstError : ∀ {s : State} n, P s → Q (s.burstError n)

/-- The reloaded lease decides no check of R177. -/
theorem gate_reloadLease (c : Cmd) (p : Port) : (s.reloadLease p).gate c p = s.gate c p := by
  simp only [gate, held, isSupervisor, reloadLease_eq, modPort_port, modPort_rstLow, modPort_phase, modPort_items,
    if_pos]
  rfl

section
variable {P Q : State → Prop} (K : Keeps P Q)
include K

theorem Keeps.issue (h : P s) (c : Cmd) (p : Port) : Q (s.issue c p (commandEffect c p)) := by
  have h1 := K.settle h
  unfold State.issue
  dsimp only
  split
  · exact K.relax h1
  · exact K.register (fun _ => ⟨rfl, rfl⟩) (K.relax h1)
  · exact K.register (fun _ => ⟨rfl, rfl⟩) (K.relax h1)
  case h_4 taken => exact K.effect (K.lease p h1) ((gate_reloadLease c p).trans taken)

theorem Keeps.writeCmd (h : P s) (p : Port) (w : Word) : Q (s.writeCmd p w) := by
  unfold State.writeCmd
  split
  case h_1 c _ => exact K.issue h c p
  case h_2 =>
    unfold refuseCode
    dsimp only
    split
    · exact K.relax (K.settle h)
    · exact K.register (fun _ => ⟨rfl, rfl⟩) (K.relax (K.settle h))

theorem Keeps.accessFrame (h : P s) (p : Port) {f : State → State} (hf : ∀ {u : State}, P u → Q (f u)) :
    Q (s.accessFrame p f) := by
  unfold State.accessFrame
  dsimp only
  split
  · exact K.relax (K.settle h)
  · exact hf (K.lease p (K.settle h))

theorem Keeps.writeAttn (h : P s) (p : Port) (w : Word) : Q (s.writeAttn p w) := by
  unfold State.writeAttn
  split
  · exact K.relax h
  · exact K.register (fun _ => ⟨rfl, rfl⟩) (K.relax h)

theorem Keeps.writeCfgVal (h : P s) (p : Port) (w : Word) : Q (s.writeCfgVal p w) := by
  unfold State.writeCfgVal
  split
  · exact K.relax h
  · exact K.items _ (K.relax h)

theorem Keeps.storeRegister (h : P s) (p : Port) (a : BitVec 5) (w : Word) : Q (s.storeRegister p a w) := by
  unfold State.storeRegister
  split
  · exact K.relax h
  · refine K.register (fun u => ?_) (K.relax h)
    unfold PortUnit.store
    split <;> exact ⟨rfl, rfl⟩

theorem Keeps.writeWindow (h : P s) (p : Port) (a : BitVec 5) (w : Word) : Q (s.writeWindow p a w) := by
  unfold State.writeWindow
  split
  · exact K.writeCmd h p w
  · exact K.writeAttn h p w
  · exact K.accessFrame h p fun h => K.writeFrame p w h
  · exact K.writeCfgVal h p w
  · exact K.storeRegister h p a w

/-- A part that takes no tick stays as it is. -/
theorem Keeps.tickIf (h : P s) {u : State} (hu : P u) {source : Bool} (same : u.ticking source = s.ticking source)
    (late : BitVec 4) : Q (if s.ticking source then u.takeTick late else s) := by
  split
  case isTrue on => exact K.tick source late hu (same.trans on)
  case isFalse => exact K.relax h

/-- Every command leaves `Q`: one case per constructor, the commands of CMD together. -/
theorem Keeps.exec (h : P s) (c : Instr) (run : exec c s = .next t) : Q t := by
  cases c <;> cases run
  case cmdInvalidCode p be w => exact K.writeCmd h p _
  case frameRead p be =>
    have read := K.accessFrame h p fun h => K.readFrame p h
    unfold heldRead
    split
    · exact K.register (fun _ => ⟨rfl, rfl⟩) read
    · exact read
  case frameWrite p be w => exact K.accessFrame h p fun h => K.writeFrame p _ h
  case attnWrite p be w => exact K.writeAttn h p _
  case cfgvalWrite p be w => exact K.writeCfgVal h p _
  case registerWrite p a be w => exact K.writeWindow h p a _
  case partReset n =>
    split
    · exact K.relax h
    · exact K.partReset n h
  case portReset p =>
    split
    · exact K.relax h
    · split
      · exact K.register (fun _ => ⟨rfl, rfl⟩) (K.relax h)
      · exact K.losePort p .line (K.settle h)
  case portResetRelease p => exact K.register (fun _ => ⟨rfl, rfl⟩) (K.relax h)
  case eventEdge l level =>
    split
    · exact K.relax h
    · exact K.changeLevel l level (K.settle h)
  case tickLineEdge late => exact K.tickIf h h rfl late
  case dividerExpiry late => exact K.tickIf h (K.divider 0 h) rfl late
  case deadlineExpiry =>
    split
    case isTrue due => exact K.expiring _ (K.expireHead h due)
    case isFalse => exact K.relax h
  case leaseExpiry p => exact K.takeLeaseTick p (K.finish h)
  case backingTimeout n => exact K.takeTimeout n (K.finish h)
  case burstAttemptStart => exact K.startAttempt (K.settle h)
  case spillBurstComplete => exact K.spillComplete (K.settle h)
  case refillBurstComplete d => exact K.refillComplete d (K.settle h)
  case burstAttemptError n => exact K.burstError n (K.settle h)
  case partResetRelease levels =>
    split
    · exact K.release levels (K.relax h)
    · exact K.relax h
  all_goals exact K.issue h _ _

theorem Keeps.clockPeriod (h : P s) : Q s.clockPeriod := by
  unfold State.clockPeriod
  split
  case isTrue on =>
    split
    · exact K.relax (K.divider _ h)
    · exact K.tick false _ (K.divider 0 h) on
  case isFalse => exact K.relax h

/-- Every step leaves `Q`, where `P` does not read the queue. -/
theorem Keeps.step (queue : ∀ {s : State} cs, P s → P { s with pending := cs }) (h : P s)
    (run : Machine.step s = .next t) : Q t := by
  unfold Machine.step at run
  split at run
  · cases run; exact K.clockPeriod h
  · exact K.exec (queue _ h) _ run

end

/-! ### Links and flags -/

theorem changeLevel_linked (L : s.Linked) (l : Line) (level : Bool) : (s.changeLevel l level).Linked := by
  have L1 : (s.modLine l fun r => { r with level := level }).Linked := L.same
  unfold changeLevel
  dsimp only
  split
  · exact (takeEdge_moves _ l).linked L1
  · exact L1

theorem changeLevel_flagged (F : s.Flagged) (l : Line) (level : Bool) : (s.changeLevel l level).Flagged := by
  have F1 : (s.modLine l fun r => { r with level := level }).Flagged := Unflagged.flagged .same F
  unfold changeLevel
  dsimp only
  split
  · exact takeEdge_flagged F1 l
  · exact F1

theorem expireHead_flagged (due : s.deadlineDue = true) : s.expireHead.Flagged := by
  unfold expireHead
  split
  · exact (evalPreempt_flagged _).1
  case h_2 none => simp [deadlineDue, none] at due

/-- Every piece of a step keeps the links. -/
theorem linked_keeps : Keeps Linked Linked where
  relax L := L
  settle := settle_linked
  finish := finishExpiries_linked
  lease _ L := L.onPort fun _ => rfl
  divider _ L := L.same
  register keeps L := L.onPort fun u => (keeps u).1
  items _ L := L.same
  expiring _ L := L.same
  release _ L := L.same
  effect L taken := commandEffect_linked L (gate_taken taken)
  readFrame p L := readFrame_linked L p
  writeFrame p w L := writeFrame_linked L p w
  partReset n _ := partReset_linked _ n
  losePort p cause L := losePort_linked L p cause
  changeLevel l level L := changeLevel_linked L l level
  tick _ late L _ := takeTick_linked L late
  expireHead L _ := (expireHead_moves _).linked L
  takeLeaseTick p L := takeLeaseTick_linked L p
  takeTimeout n L := takeTimeout_linked L n
  startAttempt := startAttempt_linked
  spillComplete := spillComplete_linked
  refillComplete d L := refillComplete_linked L d
  burstError n L := burstError_linked L n

/-- Every piece of a step leaves the flags as R72 states, where the links agree. -/
theorem flagged_keeps : Keeps (fun s => s.Linked ∧ s.Flagged) Flagged where
  relax h := h.2
  settle h := ⟨settle_linked h.1, settle_flagged h.2⟩
  finish h := ⟨finishExpiries_linked h.1, finishExpiries_flagged h.2⟩
  lease _ h := ⟨h.1.onPort fun _ => rfl, Unflagged.flagged (.onPort rfl rfl) h.2⟩
  divider _ h := ⟨h.1.same, Unflagged.flagged .same h.2⟩
  register {s p f} keeps F :=
    Unflagged.flagged (.onPort (keeps _).2 (congrArg PortState.runTask (keeps _).1)) F
  items _ F := Unflagged.flagged .same F
  expiring _ F := Unflagged.flagged .same F
  release _ F := Unflagged.flagged .same F
  effect h taken := commandEffect_flagged h.1 h.2 (gate_taken taken)
  readFrame p h := readFrame_flagged h.2 p
  writeFrame p w h := writeFrame_flagged h.2 p w
  partReset n _ := partReset_flagged _ n
  losePort p _ _ := (evalPreempt_flagged _).1
  changeLevel l level h := changeLevel_flagged h.2 l level
  tick _ late h _ := takeTick_flagged h.2 late
  expireHead _ due := expireHead_flagged due
  takeLeaseTick p h := takeLeaseTick_flagged h.2 p
  takeTimeout n h := takeTimeout_flagged h.2 n
  startAttempt h := startAttempt_flagged h.2
  spillComplete h := spillComplete_flagged h.2
  refillComplete d h := refillComplete_flagged h.2 d
  burstError n h := burstError_flagged h.2 n

/-! ### What the preempt condition says (R72) -/

theorem eligible_iff {h : Handle} : s.eligible h p = true ↔ ∃ v, s.task? h = some v ∧ v.affinity.getLsbD p.val = true := by
  unfold eligible
  split <;> simp_all [Task.eligible]

/-- The flag's condition, over the handles in the ready queues above the current task's priority. -/
theorem preemptCondition_iff : s.preemptCondition p = true ↔
    ∃ h r t, (s.port p).state = .run h r ∧ s.task? h = some t ∧
      ∃ q : Priority, t.priority < q ∧ ∃ k ∈ s.ready[q], s.eligible k p = true := by
  unfold preemptCondition
  split
  case h_1 h r run =>
    rw [run]
    split
    case h_1 t task => simp [task]
    case h_2 none => simp [none]
  case h_2 other =>
    refine ⟨fun e => absurd e Bool.false_ne_true, ?_⟩
    rintro ⟨h, r, t, run, -⟩
    exact absurd run (other h r)

/-- In a state whose records agree, the handles in the ready queues are those of the READY tasks (R52). -/
theorem Linked.mem_ready_iff (L : s.Linked) {q : Priority} {k : Handle} :
    k ∈ s.ready[q] ↔ ∃ v, s.task? k = some v ∧ v.state = .ready ∧ v.priority = q := by
  have place (st : TaskState) : st.place = .ready ↔ st = .ready := by cases st <;> simp [TaskState.place]
  simp only [L.ready q k, place]

end State

/-- Settles O58: every piece of a step keeps the links. -/
theorem everyStepKeepsTheLinks : Obligations.EveryStepKeepsTheLinks := fun _ _ L run =>
  State.linked_keeps.step (fun _ L => L.same) L run

/-- Settles O59: the condition read off the ready queues, which name the READY tasks, and every piece of a step, which
either re-evaluates the flags or leaves them and what they depend on alone. -/
theorem everyStepKeepsTheFlags : Obligations.EveryStepKeepsTheFlags := by
  refine ⟨fun s p => ?_, fun s L F p => ?_, fun s t L F run => ?_⟩
  · simp only [State.preemptCondition_iff, State.eligible_iff]
  · rw [F p, State.preemptCondition_iff]
    simp only [State.eligible_iff, L.mem_ready_iff]
    constructor
    · rintro ⟨h, r, t, port, task, q, above, k, ⟨v, kv, ready, rfl⟩, w, kw, eligible⟩
      obtain rfl := Option.some.inj (kv.symm.trans kw)
      exact ⟨h, r, t, port, task, k, v, kv, ready, above, eligible⟩
    · rintro ⟨h, r, t, port, task, k, v, kv, ready, above, eligible⟩
      exact ⟨h, r, t, port, task, v.priority, above, k, ⟨v, kv, ready, rfl⟩, v, kv, eligible⟩
  · exact State.flagged_keeps.step (fun _ h => ⟨h.1.same, State.Unflagged.flagged .same h.2⟩) ⟨L, F⟩ run

end Sys2Proof.Machine
end

section
/-! ## The backing memory and the deadline list along every step -/

namespace Sys2Proof.Machine
namespace State
variable {s t : State} {p : Port} {c : Cmd} {h : Handle}

/-! ### The backing memory -/

theorem beginService_backing (s : State) (p : Port) : (s.beginService p).backing = s.backing := by
  simp only [beginService, setResult, enterService]
  split <;> rw [modPort_backing]

theorem commandEffect_backing (s : State) (p : Port) (c : Cmd) : (commandEffect c p s).backing = s.backing := by
  by_cases begins : c = .beginService
  · subst begins
    exact s.beginService_backing p
  · exact (s.effect_keeps begins p).backing

theorem deliverTick_backing (s : State) (late : BitVec 4) : (s.deliverTick late).backing = s.backing := by
  simp only [deliverTick, tickPort, modPort_backing]

theorem changeLevel_backing (s : State) (l : Line) (level : Bool) : (s.changeLevel l level).backing = s.backing := by
  unfold changeLevel
  dsimp only
  split
  · exact (takeEdge_moves _ l).reacts.backing
  · rfl

/-- Words that land in memory are written in its canonical form. -/
theorem landWords_canonical (canonical : s.BackingCanonical) (n : Taken) : (s.landWords n).BackingCanonical := by
  unfold landWords
  split
  · split
    · split
      · exact Memory.writeWords_wf canonical _
      · exact canonical
    · exact canonical
  · exact canonical

theorem burstError_canonical (canonical : s.BackingCanonical) (n : Taken) : (s.burstError n).BackingCanonical := by
  unfold burstError
  split
  · have kept := (attemptError_moves (s.landWords n)).reacts.backing.trans (endAttempt_steady _).backing
    unfold BackingCanonical
    rw [kept]
    exact landWords_canonical canonical n
  · exact canonical

theorem takeTimeout_canonical (canonical : s.BackingCanonical) (n : Taken) : (s.takeTimeout n).BackingCanonical := by
  unfold takeTimeout
  split
  · split
    · exact burstError_canonical canonical n
    · exact canonical
  · exact canonical

theorem spillComplete_canonical (canonical : s.BackingCanonical) : s.spillComplete.BackingCanonical := by
  have landed := landWords_canonical canonical ⟨8, .stored⟩
  unfold spillComplete
  split
  case h_1 b j rest _ _ =>
    split
    · dsimp only
      unfold BackingCanonical
      split
      · rw [(spillDone_moves _ j rest).reacts.backing]; exact landed
      · rw [(endUnowned_moves _ j rest).reacts.backing]; exact landed
    · exact canonical
  case h_2 => exact canonical

/-- What leaves the memory as it is leaves its form. -/
theorem canonical_of_backing (same : t.backing = s.backing) (canonical : s.BackingCanonical) : t.BackingCanonical := by
  unfold BackingCanonical; rw [same]; exact canonical

/-- Every piece of a step keeps the canonical form; those of the engine write words. -/
theorem canonical_keeps : Keeps BackingCanonical BackingCanonical where
  relax h := h
  settle h := canonical_of_backing (settle_steady _).backing h
  finish h := canonical_of_backing (finishExpiries_steady _).backing h
  lease _ h := h
  divider _ h := h
  register _ h := h
  items _ h := h
  expiring _ h := h
  release _ h := h
  effect h _ := canonical_of_backing (commandEffect_backing ..) h
  readFrame p h := canonical_of_backing (readFrame_steady _ p).backing h
  writeFrame p w h := canonical_of_backing (writeFrame_keeps _ p w).backing h
  partReset n h := landWords_canonical h n
  losePort p cause h := canonical_of_backing (losePort_reacts _ p cause).backing h
  changeLevel l level h := canonical_of_backing (changeLevel_backing _ l level) h
  tick _ late h _ := canonical_of_backing ((deliverTick_backing _ late).trans (settle_steady _).backing) h
  expireHead h _ := canonical_of_backing (expireHead_moves _).reacts.backing h
  takeLeaseTick p h := canonical_of_backing (takeLeaseTick_steady _ p).backing h
  takeTimeout n h := takeTimeout_canonical h n
  startAttempt h := canonical_of_backing (startAttempt_steady _).backing h
  spillComplete := spillComplete_canonical
  refillComplete d h := canonical_of_backing (refillComplete_steady _ d).backing h
  burstError n h := burstError_canonical h n

/-! ### The deadline list -/

/-- Deadlines that only go leave the order, with the counter and the phase kept. -/
theorem ordered_of_sublist (part : KeepsPart s t) (deadlines : t.deadlines.Sublist s.deadlines)
    (o : s.DeadlinesOrdered) : t.DeadlinesOrdered := by
  obtain ⟨order, empty⟩ := o
  refine ⟨?_, fun config => ?_⟩
  · rw [part.tickCounter]; exact order.sublist deadlines
  · rw [part.phase] at config
    exact List.sublist_nil.1 (empty config ▸ deadlines)

theorem ordered_of_reacts (r : Reacts s t) (o : s.DeadlinesOrdered) : t.DeadlinesOrdered :=
  Steady.deadlinesOrdered r.toSteady o

theorem armTimeout_ordered (o : s.DeadlinesOrdered) (service : s.phase = .service) (n : BitVec 16) (k : DeadlineKind) :
    (s.armTimeout h n k).DeadlinesOrdered := by
  unfold armTimeout
  split
  · exact o
  · exact insertDeadline_ordered o service n k

/-- Acting on the current task keeps what the action keeps. -/
theorem onCurrent_ordered (o : s.DeadlinesOrdered) (p : Port) {f : Handle → Task → State}
    (acts : ∀ h t, (f h t).DeadlinesOrdered) : (s.onCurrent p f).DeadlinesOrdered := by
  unfold onCurrent
  split
  · split
    · exact acts _ _
    · exact o
  all_goals exact o

theorem sleep_ordered (o : s.DeadlinesOrdered) (service : s.phase = .service) (p : Port) :
    (s.sleep p).DeadlinesOrdered := by
  refine onCurrent_ordered o p fun h t => ?_
  dsimp only
  split
  · exact ordered_of_reacts ((beginCheckIn_reacts _ p h _ _).trans (evalPreempt_moves _).reacts)
      (insertDeadline_ordered o service _ _)
  · exact ordered_of_reacts (setResult_moves s p _ _).reacts o

theorem beginSendWait_ordered (o : s.DeadlinesOrdered) (service : s.phase = .service) (p : Port) (h : Handle)
    (ps : PendingSend) (n : BitVec 16) : (s.beginSendWait p h ps n).DeadlinesOrdered := by
  unfold beginSendWait
  refine ordered_of_reacts ((beginCheckIn_reacts _ p h _ _).trans (evalPreempt_moves _).reacts)
    (armTimeout_ordered ?_ ?_ n .send)
  · exact ordered_of_reacts (.trans (s.modInbox_reacts fun _ => by rfl) (modTask_reacts _ fun _ => by rfl)) o
  · rw [modTask_phase, modInbox_phase]; exact service

theorem send_ordered (o : s.DeadlinesOrdered) (service : s.phase = .service) (p : Port) :
    (s.send p).DeadlinesOrdered := by
  refine onCurrent_ordered o p fun h t => ?_
  dsimp only
  split
  · exact ordered_of_reacts (setResult_moves s p _ _).reacts o
  split
  · exact ordered_of_reacts (setResult_moves s p _ _).reacts o
  split
  · exact beginSendWait_ordered o service p h _ _
  · exact ordered_of_reacts (((s.route_moves _ _ _).reacts.trans (setResult_moves _ p _ _).reacts).trans
      (evalPreempt_moves _).reacts) o

theorem receive_ordered (o : s.DeadlinesOrdered) (service : s.phase = .service) (p : Port) :
    (s.receive p).DeadlinesOrdered := by
  refine onCurrent_ordered o p fun h t => ?_
  dsimp only
  split
  · exact ordered_of_reacts ((((s.deliverHead_moves p h).reacts.trans (setResult_moves _ p _ _).reacts).trans
      (afterDelivery_moves _ h).reacts).trans (evalPreempt_moves _).reacts) o
  split
  · unfold beginReceivePending
    exact ordered_of_reacts ((((s.modInbox_reacts fun _ => by rfl).trans (setPortState_reacts _ p _)).trans
      (setResult_moves _ p _ _).reacts).trans (refillCheck_moves _ h).reacts) o
  split
  · exact ordered_of_reacts (setResult_moves s p _ _).reacts o
  split
  · exact ordered_of_reacts ((beginCheckIn_reacts _ p h _ _).trans (evalPreempt_moves _).reacts)
      (armTimeout_ordered o service _ _)
  · exact ordered_of_reacts (setResult_moves s p _ _).reacts o

theorem create_deadlines (s : State) (p : Port) : (s.create p).deadlines.Sublist s.deadlines := by
  unfold create
  dsimp only
  split
  · unfold createTask; split <;> exact .refl _
  · exact .refl _

theorem setInbox_deadlines (s : State) (p : Port) : (s.setInbox p).deadlines.Sublist s.deadlines := by
  unfold setInbox
  dsimp only
  split
  · exact .refl _
  split
  · exact .refl _
  split <;> exact .refl _

theorem setSink_deadlines (s : State) (p : Port) : (s.setSink p).deadlines.Sublist s.deadlines := by
  unfold setSink; dsimp only; split <;> exact .refl _

/-- Acting on the task that ARG0 names leaves of the deadlines what the action leaves. -/
theorem onNamed_deadlines (s : State) (p : Port) {f : Handle → Task → State}
    (acts : ∀ h t, (f h t).deadlines.Sublist s.deadlines) : (s.onNamed p f).deadlines.Sublist s.deadlines := by
  unfold onNamed
  split
  · exact acts _ _
  · exact .refl _

theorem changePriority_deadlines (s : State) (h : Handle) (t : Task) (prio : Priority) :
    (s.changePriority h t prio).deadlines.Sublist s.deadlines := by
  unfold changePriority
  split
  · refine ((enqueueTail_reacts _ h).trans (offer_reacts _ h)).deadlines.trans ?_
    rw [modTask_deadlines]
    exact (s.dequeue_reacts h).deadlines
  · rw [modTask_deadlines]

theorem changeAffinity_deadlines (s : State) (h : Handle) (t : Task) (aff : BitVec 4) :
    (s.changeAffinity h t aff).deadlines.Sublist s.deadlines := by
  have kept : (s.modTask h fun t => { t with affinity := aff }).deadlines = s.deadlines := s.modTask_deadlines h _
  unfold changeAffinity
  dsimp only
  split
  · exact kept ▸ (offer_reacts _ h).deadlines
  · rw [kept]

theorem setPrio_deadlines (s : State) (p : Port) : (s.setPrio p).deadlines.Sublist s.deadlines := by
  refine s.onNamed_deadlines p fun h t => ?_
  split
  · split
    · exact .refl _
    · exact ((setResult_moves _ p _ _).reacts.trans (evalPreempt_moves _).reacts).deadlines.trans
        (s.changePriority_deadlines h t _)
  · exact .refl _

theorem setAffinity_deadlines (s : State) (p : Port) : (s.setAffinity p).deadlines.Sublist s.deadlines := by
  refine s.onNamed_deadlines p fun h t => ?_
  split
  · exact ((setResult_moves _ p _ _).reacts.trans (evalPreempt_moves _).reacts).deadlines.trans
      (s.changeAffinity_deadlines h t _)
  · exact .refl _

theorem destroy_deadlines (s : State) (p : Port) : (s.destroy p).deadlines.Sublist s.deadlines := by
  refine s.onNamed_deadlines p fun h t => ?_
  obtain ⟨u, disposed, e⟩ := (s.removeTask h t).disposeInbox_reacts h
  rw [e]
  refine ((answerEvicter_reacts _ p _).trans (evalPreempt_moves _).reacts).deadlines.trans ?_
  exact disposed.deadlines.trans (s.removeTask_steady h t).deadlines

/-- BEGIN_SERVICE from CONFIG, where the list is empty, starts the counter from 0 (R143, R196). -/
theorem beginService_ordered (o : s.DeadlinesOrdered) (config : s.phase = .config) (p : Port) :
    (s.beginService p).DeadlinesOrdered := by
  have none : s.deadlines = [] := o.2 config
  unfold beginService
  split
  · exact o
  · exact ⟨by simp [enterService, none], fun _ => none⟩

/-- A command taken passed the check of the phase (R177). -/
theorem gate_taken_phase (taken : s.gate c p = .taken) : c.takenInPhase s.phase = true := by
  unfold gate at taken
  dsimp only at taken
  split at taken
  · cases taken
  split at taken
  · cases taken
  case isFalse phase => simpa using phase

theorem commandEffect_ordered (o : s.DeadlinesOrdered) (taken : s.gate c p = .taken) :
    (commandEffect c p s).DeadlinesOrdered := by
  have phase := gate_taken_phase taken
  have service (timed : c.takenInPhase .config = false) : s.phase = .service := by
    cases e : s.phase
    · rw [e, timed] at phase; cases phase
    · rfl
  have steady {t : State} (r : Steady s t) : t.DeadlinesOrdered := Steady.deadlinesOrdered r o
  cases c
  case sleep => exact sleep_ordered o (service rfl) p
  case send => exact send_ordered o (service rfl) p
  case receive => exact receive_ordered o (service rfl) p
  case beginService =>
    refine beginService_ordered o ?_ p
    cases e : s.phase
    · rfl
    · rw [e] at phase; cases phase
  case create => exact ordered_of_sublist (s.create_keeps p) (s.create_deadlines p) o
  case destroy => exact ordered_of_sublist (s.destroy_keeps p) (s.destroy_deadlines p) o
  case setPrio => exact ordered_of_sublist (s.setPrio_keeps p) (s.setPrio_deadlines p) o
  case setAffinity => exact ordered_of_sublist (s.setAffinity_keeps p) (s.setAffinity_deadlines p) o
  case setInbox => exact ordered_of_sublist (s.setInbox_keeps p) (s.setInbox_deadlines p) o
  case setSink => exact ordered_of_sublist (s.setSink_keeps p) (s.setSink_deadlines p) o
  case attach => exact steady (s.attach_steady p)
  case detach => exact steady (s.detach_steady p)
  case dispatch => exact steady (s.dispatch_steady p)
  case cancel => exact steady (s.cancel_steady p)
  case yield => exact steady (s.yield_steady p)
  case exit => exact steady (s.exit_steady p)
  case queryTask => exact steady (s.queryTask_steady p)
  case queryInbox => exact steady (s.queryInbox_steady p)
  case queryEvent => exact steady (s.queryEvent_steady p)
  case queryPart => exact steady (s.queryPart_steady p)
  case seed => exact steady (s.seed_steady p)
  case activate => exact steady (s.activate_steady p)
  case halt => exact steady (s.halt_steady p)
  case release => exact steady (s.release_steady p)
  case resetInbox => exact steady (s.resetInbox_steady p)
  case bindEvent => exact steady (s.bindEvent_steady p)
  case unbindEvent => exact steady (s.unbindEvent_steady p)
  case revoke => exact steady (s.revoke_steady p)

/-- The tick falls due only after what the last one left is made, and then reaches every entry of the list. -/
theorem takeTick_keeps_order (o : s.DeadlinesOrdered) {source : Bool} (on : s.ticking source = true) (late : BitVec 4) :
    (s.takeTick late).DeadlinesOrdered := by
  refine takeTick_ordered o ?_ late
  simp only [ticking, Bool.and_eq_true, beq_iff_eq] at on
  exact on.1.2

theorem losePort_ordered (o : s.DeadlinesOrdered) (p : Port) (cause : LossCause) :
    (s.losePort p cause).DeadlinesOrdered :=
  ordered_of_reacts (t := s.losePort p cause) (s.losePort_reacts p cause) o

theorem commit_ordered (o : s.DeadlinesOrdered) (p : Port) (k : SaveKind) (h : Handle) (t : Task) (e : Bool)
    (ws : List Word) : (s.commit p k h t e ws).DeadlinesOrdered := by
  refine ordered_of_reacts (s.commit_reacts p k h t e ws) ?_
  refine ordered_of_sublist (s.storeFrame_keeps h t e ws) ?_ o
  rw [storeFrame, modTask_deadlines]

theorem writeFrame_ordered (o : s.DeadlinesOrdered) (p : Port) (w : Word) : (s.writeFrame p w).DeadlinesOrdered := by
  unfold writeFrame
  split
  · unfold takeFrameWord
    split
    · split
      · split <;> exact o
      · split
        · exact o
        · exact commit_ordered o p _ _ _ _ _
    · exact o
  all_goals exact o

theorem changeLevel_ordered (o : s.DeadlinesOrdered) (l : Line) (level : Bool) :
    (s.changeLevel l level).DeadlinesOrdered := by
  have kept : (s.modLine l fun r => { r with level := level }).DeadlinesOrdered := o
  unfold changeLevel
  dsimp only
  split
  · exact ordered_of_reacts (takeEdge_moves _ l).reacts kept
  · exact kept

theorem landWords_ordered (o : s.DeadlinesOrdered) (n : Taken) : (s.landWords n).DeadlinesOrdered := by
  rw [landWords_eq]; exact o

theorem burstError_ordered (o : s.DeadlinesOrdered) (n : Taken) : (s.burstError n).DeadlinesOrdered := by
  unfold burstError
  split
  · exact Steady.deadlinesOrdered ((endAttempt_steady _).trans (attemptError_moves _).reacts.toSteady)
      (landWords_ordered o n)
  · exact o

theorem takeTimeout_ordered (o : s.DeadlinesOrdered) (n : Taken) : (s.takeTimeout n).DeadlinesOrdered := by
  unfold takeTimeout
  split
  · split
    · exact burstError_ordered o n
    · exact o
  · exact o

theorem spillComplete_ordered (o : s.DeadlinesOrdered) : s.spillComplete.DeadlinesOrdered := by
  have landed : (s.landWords ⟨8, .stored⟩).endAttempt.DeadlinesOrdered :=
    Steady.deadlinesOrdered (endAttempt_steady _) (landWords_ordered o _)
  unfold spillComplete
  split
  case h_1 b j rest _ _ =>
    split
    · dsimp only
      split
      · exact ordered_of_reacts (spillDone_moves _ j rest).reacts landed
      · exact ordered_of_reacts (endUnowned_moves _ j rest).reacts landed
    · exact o
  case h_2 => exact o

/-- Every piece of a step keeps the order of the deadline list; only the timed waits insert. -/
theorem ordered_keeps : Keeps DeadlinesOrdered DeadlinesOrdered where
  relax o := o
  settle o := Steady.deadlinesOrdered (settle_steady _) o
  finish o := Steady.deadlinesOrdered (finishExpiries_steady _) o
  lease _ o := o
  divider _ o := o
  register _ o := o
  items _ o := o
  expiring _ o := o
  release _ o := o
  effect o taken := commandEffect_ordered o taken
  readFrame p o := Steady.deadlinesOrdered (readFrame_steady _ p) o
  writeFrame p w o := writeFrame_ordered o p w
  partReset _ _ := ⟨.nil, fun _ => rfl⟩
  losePort p cause o := losePort_ordered o p cause
  changeLevel l level o := changeLevel_ordered o l level
  tick _ late o on := takeTick_keeps_order o on late
  expireHead o _ := ordered_of_reacts (expireHead_moves _).reacts o
  takeLeaseTick p o := Steady.deadlinesOrdered (takeLeaseTick_steady _ p) o
  takeTimeout n o := takeTimeout_ordered o n
  startAttempt o := Steady.deadlinesOrdered (startAttempt_steady _) o
  spillComplete := spillComplete_ordered
  refillComplete d o := Steady.deadlinesOrdered (refillComplete_steady _ d) o
  burstError n o := burstError_ordered o n

end State

/-- Settles O57: every piece of a step keeps the form of the memory and the order of the deadlines. -/
theorem everyStepKeepsTheMemoryAndTheDeadlines : Obligations.EveryStepKeepsTheMemoryAndTheDeadlines :=
  ⟨fun _ _ canonical run => State.canonical_keeps.step (fun _ h => h) canonical run,
   fun _ _ o run => State.ordered_keeps.step (fun _ h => h) o run⟩

end Sys2Proof.Machine
end

section
/-! ## The state after reset, and the queue -/

namespace Sys2Proof.Machine

namespace State

theorem reset_linked : reset.Linked := linked_of_check (by decide +kernel)

theorem reset_flagged : reset.Flagged := by decide +kernel

theorem reset_linesCounted : reset.LinesCounted := by decide +kernel

theorem reset_sendersAgree : reset.SendersAgree := sendersAgree_of_check (by decide +kernel)

theorem reset_slotsPlaced : reset.SlotsPlaced :=
  slotsPlaced_of_check 0 (by decide +kernel) (by decide +kernel) (by decide +kernel)

theorem reset_countsAgree : reset.CountsAgree := countsAgree_of_check (by decide +kernel)

end State

/-- Settles O60: every invariant of the state after reset is decided slot by slot. -/
theorem resetSatisfiesTheInvariants : Obligations.ResetSatisfiesTheInvariants :=
  ⟨State.reset_linked, State.reset_flagged, Memory.reset_wf, ⟨.nil, fun _ => rfl⟩, State.reset_linesCounted,
   State.reset_sendersAgree, State.reset_slotsPlaced, State.reset_countsAgree⟩

/-- Settles O1: the front command's outcome is that of `exec` on the rest. -/
theorem stepRunsTheFrontCommand : Obligations.StepRunsTheFrontCommand := fun _ _ => rfl

namespace State
variable {s t : State}

theorem step_of_idle (idle : s.pending = []) : step s = .next s.clockPeriod := by
  rw [step, idle]

theorem ticking_iff {source : Bool} :
    s.ticking source = true ↔ s.rstLow = false ∧ s.phase = .service ∧ s.items.tickLine = source := by
  simp [ticking, and_assoc]

end State

/-- Settles O2: the divider counts, or delivers its tick as DIVIDER_EXPIRY does with no port late. -/
theorem emptyQueueIsOneClockPeriod : Obligations.EmptyQueueIsOneClockPeriod := by
  intro s idle
  rw [State.step_of_idle idle]
  refine ⟨fun still => ?_, fun rst service divider => ?_⟩
  · have off : ¬ s.ticking false = true := by
      rw [State.ticking_iff]
      rintro ⟨rst, service, source⟩
      rcases still with low | config | line
      · exact absurd (rst.symm.trans low) nofun
      · exact absurd (service.symm.trans config) nofun
      · exact absurd (source.symm.trans line) nofun
    rw [State.clockPeriod, if_neg off]
  · have on : s.ticking false = true := State.ticking_iff.2 ⟨rst, service, divider⟩
    rw [State.clockPeriod, if_pos on]
    refine ⟨fun counts => by rw [if_pos counts], fun expires => ?_⟩
    rw [if_neg (by omega)]
    have taken : exec (.dividerExpiry 0#4) s = .next (if s.ticking false then _ else s) := rfl
    rw [taken, if_pos on]

/-! ### Every command answers, and leaves the queue -/

namespace State
variable {s t : State} {p : Port}

theorem beginService_pending (s : State) (p : Port) : (s.beginService p).pending = s.pending := by
  unfold beginService; split <;> rfl

theorem commandEffect_pending (s : State) (p : Port) (c : Cmd) : (commandEffect c p s).pending = s.pending := by
  by_cases begins : c = .beginService
  · subst begins
    exact s.beginService_pending p
  · exact (s.effect_keeps begins p).pending

theorem changeLevel_pending (s : State) (l : Line) (level : Bool) : (s.changeLevel l level).pending = s.pending := by
  unfold changeLevel
  dsimp only
  split
  · exact (takeEdge_moves _ l).reacts.pending
  · rfl

theorem landWords_pending (s : State) (n : Taken) : (s.landWords n).pending = s.pending := by rw [landWords_eq]

theorem attemptError_pending (s : State) : s.attemptError.pending = s.pending :=
  s.attemptError_moves.reacts.pending.trans s.endAttempt_steady.pending

theorem burstError_pending (s : State) (n : Taken) : (s.burstError n).pending = s.pending := by
  unfold burstError
  split
  · rw [attemptError_pending, landWords_pending]
  · rfl

theorem takeTimeout_pending (s : State) (n : Taken) : (s.takeTimeout n).pending = s.pending := by
  unfold takeTimeout
  split
  · split
    · exact s.burstError_pending n
    · rfl
  · rfl

theorem spillComplete_pending (s : State) : s.spillComplete.pending = s.pending := by
  have landed : (s.landWords ⟨8, .stored⟩).endAttempt.pending = s.pending :=
    (endAttempt_steady _).pending.trans (s.landWords_pending _)
  unfold spillComplete
  split
  case h_1 b j rest _ _ =>
    split
    · dsimp only
      split
      · exact (spillDone_moves _ j rest).reacts.pending.trans landed
      · exact (endUnowned_moves _ j rest).reacts.pending.trans landed
    · rfl
  case h_2 => rfl

theorem takeTick_pending (s : State) (late : BitVec 4) : (s.takeTick late).pending = s.pending := by
  simp only [takeTick, deliverTick, tickPort, modPort_pending]
  exact s.settle_steady.pending

/-- Every piece of a command leaves a given queue. -/
theorem pending_keeps (q : List Instr) : Keeps (·.pending = q) (·.pending = q) where
  relax h := h
  settle h := (settle_steady _).pending.trans h
  finish h := (finishExpiries_steady _).pending.trans h
  lease _ h := h
  divider _ h := h
  register _ h := h
  items _ h := h
  expiring _ h := h
  release _ h := h
  effect h _ := (commandEffect_pending _ _ _).trans h
  readFrame p h := (readFrame_steady _ p).pending.trans h
  writeFrame p w h := (writeFrame_keeps _ p w).pending.trans h
  partReset _ h := h
  losePort p cause h := (losePort_reacts _ p cause).pending.trans h
  changeLevel l level h := (changeLevel_pending _ l level).trans h
  tick _ late h _ := (takeTick_pending _ late).trans h
  expireHead h _ := (expireHead_moves _).reacts.pending.trans h
  takeLeaseTick p h := (takeLeaseTick_steady _ p).pending.trans h
  takeTimeout n h := (takeTimeout_pending _ n).trans h
  startAttempt h := (startAttempt_steady _).pending.trans h
  spillComplete h := (spillComplete_pending _).trans h
  refillComplete d h := (refillComplete_steady _ d).pending.trans h
  burstError n h := (burstError_pending _ n).trans h

end State

/-- No arm of `exec` faults or refuses (R172). -/
theorem exec_answers (c : Instr) (s : State) : ∃ t, exec c s = .next t := by
  cases c <;> exact ⟨_, rfl⟩

/-- Settles O3: no arm faults, and every piece of a command leaves the queue. -/
theorem everyCommandAnswersANextState : Obligations.EveryCommandAnswersANextState := by
  intro c s
  obtain ⟨t, run⟩ := exec_answers c s
  exact ⟨t, run, (State.pending_keeps s.pending).exec rfl c run⟩

end Sys2Proof.Machine
end

section
/-! ## The command table and the layouts of words -/

namespace Sys2Proof.Machine

/-! ### Command codes (R175) -/

theorem ofWord_code (c : Cmd) : Cmd.ofWord c.code = some c := by cases c <;> decide

theorem mem_all (c : Cmd) : c ∈ Cmd.all := by cases c <;> decide

theorem ofWord_eq_some_iff {w : Word} {c : Cmd} : Cmd.ofWord w = some c ↔ c.code = w := by
  refine ⟨fun found => ?_, fun e => e ▸ ofWord_code c⟩
  simpa using List.find?_some found

/-- A word is no command code exactly when no command has it (R177, check 1). -/
theorem ofWord_eq_none_iff {w : Word} : Cmd.ofWord w = none ↔ ∀ c : Cmd, c.code ≠ w := by
  simp [Cmd.ofWord, List.find?_eq_none, mem_all]

/-- Settles O4: the code of a word is read by a search of the table; the rights are tables over the commands. -/
theorem commandTableIsTheSpecs : Obligations.CommandTableIsTheSpecs := by
  refine ⟨fun w c => ?_, fun c => ?_⟩
  · have table : Cmd.ofWord w = some c ↔ (w, c) ∈ Cmd.all.map fun k => (k.code, k) := by
      rw [ofWord_eq_some_iff]
      simp [mem_all]
    exact table
  · cases c <;> refine ⟨?_, ?_, ?_, ?_, ?_, ?_, fun _ _ _ => rfl, fun h r => ?_, fun _ _ _ => rfl, ?_⟩ <;>
      simp [Cmd.supervisor, Cmd.takenInPhase, Cmd.takenIn, Cmd.query]

/-! ### Fields in their bits -/

section
open BitVec

/-- The low part of two joined words. -/
theorem extract_append_low {v w : Nat} (x : BitVec v) (y : BitVec w) : (x ++ y).extractLsb' 0 w = y := by
  rw [extractLsb'_append_eq_of_add_le (by omega), extractLsb'_eq_self]

theorem ofWord_append (hi : BitVec 16) (lo : BitVec 16) : Handle.ofWord (hi ++ lo) =
    ⟨⟨(lo.extractLsb' 0 6).toNat, (lo.extractLsb' 0 6).isLt⟩, lo.extractLsb' 6 10⟩ := by
  have slot : (hi ++ lo).extractLsb' 0 6 = lo.extractLsb' 0 6 := extractLsb'_append_eq_of_add_le (by omega)
  have gen : (hi ++ lo).extractLsb' 6 10 = lo.extractLsb' 6 10 := extractLsb'_append_eq_of_add_le (by omega)
  simp only [Handle.ofWord, slot, gen]

theorem bits_slot (h : Handle) : h.bits.extractLsb' 0 6 = BitVec.ofNat 6 h.slot.val := extract_append_low ..

theorem bits_gen (h : Handle) : h.bits.extractLsb' 6 10 = h.gen := by
  rw [Handle.bits, extractLsb'_append_eq_of_le (by omega), extractLsb'_eq_self]

/-- The low 16 bits of a word that are those of a handle name it (R1). -/
theorem ofWord_bits (hi : BitVec 16) (h : Handle) : Handle.ofWord (hi ++ h.bits) = h := by
  obtain ⟨slot, gen⟩ := h
  rw [ofWord_append, bits_gen]
  simp only [bits_slot, toNat_ofNat]
  congr 1
  exact Fin.ext (Nat.mod_eq_of_lt slot.isLt)

theorem word_halves (w : Word) : w.extractLsb' 16 16 ++ w.extractLsb' 0 16 = w :=
  extractLsb'_append_extractLsb'

theorem ofWord_low (hi : BitVec 16) (w : Word) : Handle.ofWord (hi ++ w.extractLsb' 0 16) = Handle.ofWord w := by
  rw [ofWord_append, ← ofWord_append (w.extractLsb' 16 16), word_halves]

theorem setWidth_append_zero (x : BitVec 16) : x.setWidth 32 = 0#16 ++ x := by
  rw [setWidth_eq_append (by omega)]; rfl

theorem resultWord_fields (code : ResultCode) (v : BitVec 16) :
    (resultWord code v).extractLsb' 0 8 = code.code ∧ (resultWord code v).extractLsb' 8 8 = 0#8 ∧
      (resultWord code v).extractLsb' 16 16 = v := by
  refine ⟨?_, ?_, ?_⟩ <;> unfold resultWord <;> simp (disch := omega) only [extractLsb'_append_eq_of_add_le,
    extractLsb'_append_eq_of_le, extractLsb'_eq_self, Nat.reduceSub]

theorem descriptorWord_fields (h : Handle) {n : Nat} (e : Bool) (hn : n < 64) :
    let d := descriptorWord h n e
    Handle.ofWord d = h ∧ descriptorLength d = n ∧ descriptorExtension d = e ∧ d.extractLsb' 22 2 = 0#2 ∧
      d.extractLsb' 25 7 = 0#7 := by
  refine ⟨?_, ?_, ?_, ?_, ?_⟩
  · exact ofWord_bits _ h
  · unfold descriptorLength descriptorWord
    simp (disch := omega) only [extractLsb'_append_eq_of_add_le, extractLsb'_append_eq_of_le, extractLsb'_eq_self,
      Nat.reduceSub, toNat_ofNat]
    exact Nat.mod_eq_of_lt hn
  · unfold descriptorExtension descriptorWord
    simp only [getLsbD_append]
    simp
  · unfold descriptorWord
    simp (disch := omega) only [extractLsb'_append_eq_of_add_le, extractLsb'_append_eq_of_le, extractLsb'_eq_self,
      Nat.reduceSub]
  · unfold descriptorWord
    simp (disch := omega) only [extractLsb'_append_eq_of_le, extractLsb'_eq_self, Nat.reduceSub]

theorem image_fields (m : Message) (seq : BitVec 16) (short : m.payload.length ≤ 6) :
    let i := m.image seq
    imageKind i = m.kind.code ∧ imageLength i = m.payload.length ∧ i[0].extractLsb' 16 16 = m.tag ∧
      i[1].extractLsb' 0 16 = m.sender.bits ∧ imageSeq i = seq := by
  have head : (m.image seq)[0] = m.tag ++ BitVec.ofNat 8 m.payload.length ++ m.kind.code := rfl
  have second : (m.image seq)[1] = seq ++ m.sender.bits := rfl
  have length : m.payload.length % 2 ^ 8 = m.payload.length := Nat.mod_eq_of_lt (by omega)
  simp (disch := omega) only [imageKind, imageLength, imageSeq, head, second, extractLsb'_append_eq_of_add_le,
    extractLsb'_append_eq_of_le, extractLsb'_eq_self, Nat.reduceSub, toNat_ofNat, length, true_and]

/-- The image of a message that is not too long passes the check of R120. -/
theorem image_valid (m : Message) (seq : BitVec 16) (short : m.payload.length ≤ 6) :
    imageValid (m.image seq) = true := by
  obtain ⟨kind, length, -⟩ := image_fields m seq short
  rw [imageValid, kind, length, decide_eq_true short]
  cases m.kind <;> rfl

theorem image_payload (m : Message) (seq : BitVec 16) (n : Fin 6) :
    (m.image seq)[n.val + 2] = m.payload.getD n.val 0#32 := by
  fin_cases n <;> rfl

end

/-- Settles O20: the tables by their cases, the layouts by the bits of joined words. -/
theorem wordsCarryTheirFields : Obligations.WordsCarryTheirFields := by
  refine ⟨fun c => ?_, fun r => ?_, fun k => ?_, fun h => ⟨?_, bits_slot h, bits_gen h⟩, fun w hi => ofWord_low hi w,
    resultWord_fields, fun h n e => descriptorWord_fields h e, fun m seq short => ?_⟩
  · cases c <;> decide
  · cases r <;> decide
  · cases k <;> decide
  · rw [setWidth_append_zero, ofWord_bits]
  · obtain ⟨kind, length, tag, sender, sequence⟩ := image_fields m seq short
    exact ⟨kind, length, tag, sender, sequence, image_valid m seq short, image_payload m seq⟩

end Sys2Proof.Machine
end

section
/-! ## Becoming READY, and the end of a wait -/

namespace Sys2Proof.Machine
namespace State
variable {s t : State} {p : Port} {h : Handle} {v w : Task}

/-! ### One record written -/

theorem withTask_task? (h k : Handle) (v : Task) : (s.withTask h v).task? k =
    if k = h then some v else if k.slot = h.slot then none else s.task? k := by
  obtain ⟨hs, hg⟩ := h
  obtain ⟨ks, kg⟩ := k
  simp only [task?, withTask, getElem_set_fin, Handle.mk.injEq]
  by_cases slot : ks = hs
  · by_cases gen : hg = kg
    · simp [slot, gen]
    · simp [slot, gen, Ne.symm gen]
  · simp [slot]

@[simp] theorem withTask_task?_self (h : Handle) (v : Task) : (s.withTask h v).task? h = some v := by
  rw [withTask_task?, if_pos rfl]

/-- Another record is left alone when the record written was there. -/
theorem withTask_task?_of_live (e : s.task? h = some w) (k : Handle) (v : Task) :
    (s.withTask h v).task? k = if k = h then some v else s.task? k := by
  rw [← modTask_withTask e fun _ => v, task?_modTask, e]; rfl

@[simp] theorem withTask_withTask (h : Handle) (v w : Task) : (s.withTask h v).withTask h w = s.withTask h w := by
  simp [withTask]

/-- Writing a record as it stands changes nothing. -/
theorem withTask_self (e : s.task? h = some v) : s.withTask h v = s := by
  obtain ⟨gen, task⟩ := s.task?_eq.1 e
  have same : (⟨h.gen, some v⟩ : TaskSlot) = s.tasks[h.slot] := by rw [← gen, ← task]
  rw [withTask, same]
  simp

/-- A record of a live task read after a change elsewhere. -/
theorem task?_of_tasks (same : t.tasks = s.tasks) : t.task? h = s.task? h := task?_congr same h

theorem eligible_of_task (e : s.task? h = some v) (p : Port) : s.eligible h p = v.eligible p := by
  unfold eligible; rw [e]

/-! ### Other fields written -/

def withReady (s : State) (queues : Vector (List Handle) 16) : State := { s with ready := queues }

def withAwait (s : State) (ports : List Port) : State := { s with awaitList := ports }

def withDeadlines (s : State) (ds : List Deadline) : State := { s with deadlines := ds }

@[simp] theorem withReady_task? (queues : Vector (List Handle) 16) (k : Handle) :
    (s.withReady queues).task? k = s.task? k := rfl

@[simp] theorem withReady_withReady (a b : Vector (List Handle) 16) : (s.withReady a).withReady b = s.withReady b := rfl

theorem withReady_self : s.withReady s.ready = s := rfl

/-! ### The offer (R58) -/

/-- What an offer makes of the state, read with named changes. -/
theorem offered_eq (v : Task) (queue : List Handle) : s.offered h v queue =
    match s.awaitList.find? fun r => v.eligible r with
    | none => (s.withTask h { v with state := .ready }).withReady (s.ready.set v.priority queue)
    | some r => ((s.withTask h { v with state := .running r }).withAwait (s.awaitList.filter fun x => x ≠ r)).withPort r
        { s.port r with
          state := .loading h (streamLength v.frameLength v.extension) 0
          result := resultWord .ok h.bits
          done := true } := rfl

/-- A hand-off of a READY task, step by step (R58). -/
theorem handOff_of_task (e : s.task? h = some v) (r : Port) : s.handOff r h =
    (((s.withAwait (s.awaitList.filter fun x => x ≠ r)).withReady
      (s.ready.set v.priority (s.ready[v.priority].filter fun x => x ≠ h))).withTask h
        { v with state := .running r }).withPort r
          { s.port r with state := .loading h (streamLength v.frameLength v.extension) 0 } := by
  have left : (s.leaveAwait r).task? h = some v := e
  have out : ((s.leaveAwait r).dequeue h).task? h = some v := by rw [dequeue_of left]; exact e
  have record := modTask_withTask out fun t => { t with state := .running r }
  rw [handOff, beginCheckOut, out]
  simp only [setTaskState, record]
  rw [dequeue_of left]
  rfl

/-- The offer of a READY task to the await list: the first eligible port takes it. -/
theorem offer_of_task (e : s.task? h = some v) : s.offer h =
    match s.awaitList.find? fun r => v.eligible r with
    | none => s
    | some r => (((s.withAwait (s.awaitList.filter fun x => x ≠ r)).withReady
        (s.ready.set v.priority (s.ready[v.priority].filter fun x => x ≠ h))).withTask h
          { v with state := .running r }).withPort r
            { s.port r with
              state := .loading h (streamLength v.frameLength v.extension) 0
              result := resultWord .ok h.bits
              done := true } := by
  unfold offer
  simp only [eligible_of_task e]
  split
  case h_2 none => rw [none]
  case h_1 r found =>
    rw [found]
    simp only [handOff_of_task e, announce_eq, modPort_withPort, withPort_port, withPort_withPort, if_pos]

/-- A task that stands once in the queue of its priority and is offered: it stays, or goes to the port that takes it. -/
theorem offer_eq_offered {queue : List Handle} (v : Task)
    (removed : (queue.filter fun x => x ≠ h) = s.ready[v.priority]) :
    ((s.withTask h { v with state := .ready }).withReady (s.ready.set v.priority queue)).offer h =
      s.offered h v queue := by
  have e : ((s.withTask h { v with state := .ready }).withReady (s.ready.set v.priority queue)).task? h =
    some { v with state := .ready } := withTask_task?_self h _
  have back : (s.ready.set v.priority queue).set v.priority
      ((s.ready.set v.priority queue)[v.priority].filter fun x => x ≠ h) = s.ready := by
    simp only [Vector.getElem_set_self, Fin.getElem_fin, removed, Vector.set_set]
    exact Vector.set_getElem_self ..
  rw [offer_of_task e, offered_eq]
  have awaiting : ((s.withTask h { v with state := .ready }).withReady (s.ready.set v.priority queue)).awaitList =
    s.awaitList := rfl
  have same (r : Port) : ({ v with state := .ready } : Task).eligible r = v.eligible r := rfl
  simp only [awaiting, same]
  split
  · rfl
  case h_2 r _ =>
    have restored : (((((s.withTask h { v with state := .ready }).withReady (s.ready.set v.priority queue)).withAwait
        (s.awaitList.filter fun x => x ≠ r)).withReady s.ready).withTask h { v with state := .running r }) =
        (s.withTask h { v with state := .running r }).withAwait (s.awaitList.filter fun x => x ≠ r) := by
      have twice := withTask_withTask (s := s.withAwait (s.awaitList.filter fun x => x ≠ r)) h
        { v with state := .ready } { v with state := .running r }
      exact twice
    have queues : ((s.withTask h { v with state := .ready }).withReady (s.ready.set v.priority queue)).ready =
      s.ready.set v.priority queue := rfl
    simp only [queues, back, restored]
    rfl

/-- The queue of a priority without a handle that is not in it. -/
theorem filter_of_not_mem {queue : List Handle} (out : h ∉ queue) : (queue.filter fun x => x ≠ h) = queue :=
  List.filter_eq_self.2 fun x mem => by simpa using fun same : x = h => out (same ▸ mem)

theorem filter_tail {queue : List Handle} (out : h ∉ queue) : ((queue ++ [h]).filter fun x => x ≠ h) = queue := by
  rw [List.filter_append, filter_of_not_mem out]; simp

theorem filter_head {queue : List Handle} (out : h ∉ queue) : ((h :: queue).filter fun x => x ≠ h) = queue := by
  rw [List.filter_cons_of_neg (by simp), filter_of_not_mem out]

/-- A task that is not in the queue of its priority becomes READY at the tail (R53, R59). -/
theorem readyTail_eq_offered (e : s.task? h = some v) (out : h ∉ s.ready[v.priority]) :
    s.readyTail h = s.offered h v (s.ready[v.priority] ++ [h]) := by
  rw [← offer_eq_offered v (filter_tail out), readyTail, setTaskState, modTask_withTask e,
    enqueueTail_of (withTask_task?_self h _)]
  exact congrArg (offer · h) rfl

/-- A task that is not in the queue of its priority becomes READY at the head (R54, R59). -/
theorem readyHead_eq_offered (e : s.task? h = some v) (out : h ∉ s.ready[v.priority]) :
    s.readyHead h = s.offered h v (h :: s.ready[v.priority]) := by
  rw [← offer_eq_offered v (filter_head out), readyHead, setTaskState, modTask_withTask e,
    enqueueHead_of (withTask_task?_self h _)]
  exact congrArg (offer · h) rfl

theorem place_ready_iff {st : TaskState} : st.place = .ready ↔ st = .ready := by cases st <;> simp [TaskState.place]

/-- In a state whose records agree, a task that is not READY is in no ready queue. -/
theorem Linked.not_mem_ready (L : s.Linked) (e : s.task? h = some v) (state : v.state ≠ .ready) (q : Priority) :
    h ∉ s.ready[q] :=
  L.notReady e (fun place => state (place_ready_iff.1 place)) q

/-! ### The end of a wait -/

/-- Undoing a wait, written out: the sender list, the pending send and the deadline entry. -/
theorem undoWait_of_task (e : s.task? h = some v) : s.undoWait h =
    { (match v.pendingSend with
      | some ps => (s.withInbox ps.target { s.inbox ps.target with
          senders := (s.inbox ps.target).senders.filter fun r => r ≠ h }).withTask h { v with pendingSend := none }
      | none => s) with deadlines := s.deadlines.filter fun e => e.task ≠ h } := by
  unfold undoWait dropPendingSend
  cases found : v.pendingSend with
  | none => simp only [e, found]; rfl
  | some ps =>
    have record := modTask_withTask (s := s.modInbox ps.target fun ib => { ib with senders := ib.senders.filter fun r => r ≠ h })
      (h := h) ((modInbox_task? ..).trans e) fun u => { u with pendingSend := none }
    simp only [e, found, record]
    rfl

/-- The record after a wait is undone. -/
theorem undoWait_task?_self (e : s.task? h = some v) : (s.undoWait h).task? h = some { v with pendingSend := none } := by
  rw [undoWait_task?, if_pos rfl, e]; rfl

/-- A waiting task wakes at the tail of its queue with the resume result. -/
theorem wake_of_waiting (e : s.task? h = some v) (waits : v.state = .recvWait ∨ v.state = .sendWait ∨ v.state = .sleeping)
    (res : Resume) : s.wake h res = (s.withTask h { v with resume := res }).readyTail h := by
  have record := modTask_withTask e fun u => { u with resume := res }
  unfold wake
  rcases waits with st | st | st <;> simp only [e, st, record]

/-- A SAVING task's wait disposition is satisfied with the resume result. -/
theorem wake_of_saving (e : s.task? h = some v) {d : Disposition} (saving : v.state = .saving p d false)
    (waits : d.waits = true) (res : Resume) :
    s.wake h res = s.withTask h { v with state := .saving p d true, resume := res } := by
  have record := modTask_withTask e fun u => { u with state := .saving p d true, resume := res }
  unfold wake
  simp only [e, saving, waits, if_true, record]

/-- A task that no longer waits is left as it is. -/
theorem wake_of_other (e : s.task? h = some v)
    (other : v.state = .dormant ∨ v.state = .ready ∨ (∃ p, v.state = .running p) ∨ (∃ reason, v.state = .halted reason) ∨
      (∃ p d, v.state = .saving p d true) ∨ (∃ p, v.state = .saving p .readyTail false) ∨
      (∃ p, v.state = .saving p .readyHead false)) (res : Resume) : s.wake h res = s := by
  unfold wake
  rcases other with st | st | ⟨q, st⟩ | ⟨reason, st⟩ | ⟨q, d, st⟩ | ⟨q, st⟩ | ⟨q, st⟩ <;> simp [e, st, Disposition.waits]

theorem offered_withTask (v w : Task) (queue : List Handle) :
    (s.withTask h v).offered h w queue = s.offered h w queue := by
  unfold offered
  have awaiting : (s.withTask h v).awaitList = s.awaitList := rfl
  rw [awaiting]
  split <;> simp only [withTask_withTask] <;> rfl

end State

/-- Settles O18: the queue of a task's priority does not hold it before it becomes READY, so the queue it leaves on a
hand-off is the one it found. -/
theorem readyTasksAreOfferedToTheAwaitList : Obligations.ReadyTasksAreOfferedToTheAwaitList := by
  intro s h t L e state
  have out := L.not_mem_ready e state t.priority
  exact ⟨State.readyTail_eq_offered e out, State.readyHead_eq_offered e out⟩

/-- Settles O19: the wait is undone, and then the task wakes by its state. -/
theorem endOfAWaitWakesTheTask : Obligations.EndOfAWaitWakesTheTask := by
  intro s h t res L e u
  have undone : s.undoWait h = u := State.undoWait_of_task e
  have woken : s.endWait h res = u.wake h res := congrArg (·.wake h res) undone
  have record : u.task? h = some { t with pendingSend := none } := undone ▸ State.undoWait_task?_self e
  have ready : u.ready = s.ready := undone ▸ State.undoWait_ready
  refine ⟨undone, fun waits => ?_, fun p d saving kinds => ?_, fun other => ?_⟩
  · have state : t.state ≠ .ready := by rcases waits with st | st | st <;> rw [st] <;> nofun
    have out : h ∉ u.ready[t.priority] := by rw [ready]; exact L.not_mem_ready e state t.priority
    have renewed : (u.withTask h { t with pendingSend := none, resume := res }).task? h = _ := State.withTask_task?_self h _
    rw [woken, State.wake_of_waiting record waits, State.readyTail_eq_offered renewed out, State.offered_withTask]
    exact congrArg (fun queues : Vector (List Handle) 16 => u.offered h _ (queues[t.priority] ++ [h])) ready
  · have waits : d.waits = true := by rcases kinds with rfl | rfl | rfl <;> rfl
    rw [woken, State.wake_of_saving record saving waits]
  · rw [woken, State.wake_of_other record other]

end Sys2Proof.Machine
end

section
/-! ## The port unit's checks, and the commands of the port units -/

namespace Sys2Proof.Machine
namespace State
variable {s t : State} {p q : Port} {c : Cmd} {h : Handle} {v : Task}

/-! ### What the gate decides (R177) -/

theorem held_iff : s.held p = true ↔ s.rstLow = true ∨ (s.port p).prstLow = true := by simp [held]

theorem not_held (rst : s.rstLow = false) (prst : (s.port p).prstLow = false) : s.held p = false := by
  simp [held, rst, prst]

/-- What a decision of the gate makes of the state (R177). -/
def decided (s : State) (p : Port) (c : Cmd) : Gate → State
  | .ignored => s
  | .refused code => s.refused p code
  | .overrun => s.withPort p { s.port p with overrun := true }
  | .taken => commandEffect c p (s.taken p)

/-- With nothing outstanding a command written to CMD does what the gate decides. -/
theorem exec_of_gate (quiet : s.quiet = true) {g : Gate} (decides : s.gate c p = g) :
    exec (cmdInstr c p) s = .next (s.decided p c g) := by
  subst decides
  rw [exec_cmd, s.issue_of_quiet quiet]
  cases s.gate c p <;> rfl

/-- A word that is no command code, on a port that is not held, changes RESULT alone (R177, check 1). -/
theorem exec_invalidCode (quiet : s.quiet = true) {e : ByteEnables} {w : Word}
    (none : ∀ c : Cmd, c.code ≠ maskBytes e w) :
    exec (.cmdInvalidCode p e w) s = .next (if s.held p then s else s.refused p .badCmd) := by
  have written : exec (.cmdInvalidCode p e w) s = .next (s.writeCmd p (maskBytes e w)) := rfl
  rw [written, writeCmd, ofWord_eq_none_iff.2 none]
  simp only [refuseCode, s.settle_eq_self quiet]
  rfl

/-! ### The state after a command is taken -/

@[simp] theorem takenUnit_state : (s.takenUnit p).state = (s.port p).state := rfl

@[simp] theorem takenUnit_args : (s.takenUnit p).args = (s.port p).args := rfl

theorem taken_self : (s.taken p).port p = s.takenUnit p := by rw [taken_port, if_pos rfl]

theorem taken_handleArg : (s.taken p).handleArg p = Handle.ofWord (s.port p).args[0] := by
  rw [handleArg, taken_self, takenUnit_args]

end State

/-- Settles O5: the checks are tried in their order, and the first that fails decides. -/
theorem refusedCommandsChangeOnlyTheirAnswer : Obligations.RefusedCommandsChangeOnlyTheirAnswer := by
  intro p s quiet
  refine ⟨fun low => ?_, fun rst prst => ?_⟩
  · have held := State.held_iff.2 low
    refine ⟨fun c => State.exec_of_gate (g := .ignored) quiet (by simp [State.gate, held]), fun e w none => ?_⟩
    rw [State.exec_invalidCode quiet none, if_pos held]
  · have free := State.not_held rst prst
    refine ⟨fun e w none => ?_, fun c => ⟨fun phase => ?_, fun phase => ⟨fun busy => ?_, fun ready => ?_⟩⟩⟩
    · rw [State.exec_invalidCode quiet none, free]; rfl
    · exact State.exec_of_gate (g := .refused .phase) quiet (by simp [State.gate, free, phase])
    · exact State.exec_of_gate (g := .overrun) quiet (by simp [State.gate, free, phase, busy])
    · have notBusy : ((s.port p).state.busy && c != .cancel) = false := by
        rcases ready with idle | rfl
        · rw [idle]; rfl
        · exact Bool.and_false _
      refine ⟨fun state => ?_, fun state supervisor right => ?_⟩
      · exact State.exec_of_gate (g := .refused .badState) quiet
          (by rw [State.gate]; simp only [free, phase, notBusy, state]; rfl)
      · exact State.exec_of_gate (g := .refused .notSupv) quiet
          (by rw [State.gate, State.isSupervisor]; simp only [free, phase, notBusy, state, supervisor, right]; rfl)

/-! ### ATTACH, DETACH, BEGIN_SERVICE, REVOKE and the port's reset line -/

namespace State
variable {s t : State} {p q : Port} {c : Cmd} {h : Handle} {v : Task}

theorem taken_attach (p : Port) : (s.taken p).attach p =
    s.withPort p { (s.takenUnit p).answer .ok (BitVec.ofNat 16 p.val) with
      state := .idle, done := false, preempt := false, evicted := false, overrun := false, lost := false } := by
  rw [attach, setResult_eq, modPort_modPort, taken_modPort]; rfl

theorem taken_detach (p : Port) : (s.taken p).detach p =
    s.withPort p { (s.takenUnit p).answer .ok 0#16 with
      state := .offline, done := false, preempt := false, evicted := false, overrun := false, lost := false } := by
  rw [detach, setResult_eq, modPort_modPort, taken_modPort]; rfl

theorem taken_beginService (p : Port) : (s.taken p).beginService p =
    if s.items.supervisors = 0#4 then s.answered p .badArg 0#16
    else { s.answered p .ok 0#16 with phase := .service, tickCounter := 0#32, dividerCount := 0 } := by
  have entered : (s.taken p).enterService.setResult p .ok 0#16 =
      { (s.taken p).setResult p .ok 0#16 with phase := .service, tickCounter := 0#32, dividerCount := 0 } := rfl
  rw [beginService, entered, taken_setResult, taken_setResult]
  rfl

theorem portOfWord_eq {w : Word} {q : Port} : portOfWord w = some q ↔ w.toNat = q.val := by
  unfold portOfWord
  split
  · simp [Fin.ext_iff]
  case isFalse out => simp; omega

theorem portOfWord_none {w : Word} : portOfWord w = none ↔ 3 < w.toNat := by
  unfold portOfWord
  split <;> simp <;> omega

theorem attached_iff {st : PortState} : st.attached = true ↔ st ≠ .offline ∧ st ≠ .lost := by
  cases st <;> simp [PortState.attached]

/-- A supervisor command but SEED, in SERVICE (R178, R179). -/
theorem exec_supervisor (free : s.SupervisorAt p) (kind : c.supervisor = true) (seed : c ≠ .seed) :
    exec (cmdInstr c p) s = .next (commandEffect c p (s.taken p)) :=
  exec_free free.1 (.inr ⟨kind, seed⟩) (.inr free.2)

/-- REVOKE by its argument (R186). -/
theorem taken_revoke (p : Port) : (s.taken p).revoke p = match portOfWord (s.port p).args[0] with
    | some q =>
      if q = p then s.answered p .badArg 0#16
      else if (s.port q).state.attached then ((s.taken p).losePort q .revoke).setResult p .ok 0#16
      else s.answered p .badState 0#16
    | none => s.answered p .badArg 0#16 := by
  simp only [revoke, taken_self, takenUnit_args, taken_setResult]
  cases portOfWord (s.port p).args[0] with
  | none => rfl
  | some q =>
    by_cases self : q = p
    · simp only [self, if_true]
    · simp only [self, if_false, taken_port]

end State

/-- Settles O7: both commands are taken in either phase, and each writes one port unit. -/
theorem attachAndDetachMoveThePort : Obligations.AttachAndDetachMoveThePort := by
  intro p s served
  refine ⟨fun out => ?_, fun out => ?_⟩
  · have taken : exec (.attach p) s = .next ((s.taken p).attach p) :=
      State.exec_taken (c := .attach) served (by cases s.phase <;> rfl) (.inl (by rcases out with e | e <;> rw [e] <;> rfl))
        (by rcases out with e | e <;> rw [e] <;> rfl) (.inl rfl)
    rw [taken, State.taken_attach]
  · have taken : exec (.detach p) s = .next ((s.taken p).detach p) :=
      State.exec_taken (c := .detach) served (by cases s.phase <;> rfl) (.inl (by rcases out with e | e <;> rw [e] <;> rfl))
        (by rcases out with e | e <;> rw [e] <;> rfl) (.inl rfl)
    rw [taken, State.taken_detach]

/-- Settles O8: an IDLE port in CONFIG passes every check, and the supervisor set decides. -/
theorem beginServiceEntersService : Obligations.BeginServiceEntersService := by
  intro p s served config idle
  have taken : exec (.beginService p) s = .next ((s.taken p).beginService p) :=
    State.exec_taken (c := .beginService) served (by rw [config]; rfl) (.inl (by rw [idle]; rfl)) (by rw [idle]; rfl) (.inl rfl)
  rw [taken, State.taken_beginService]
  exact ⟨fun none => by rw [if_pos none], fun some => by rw [if_neg some]⟩

/-- Settles O9: the argument names a port or none, and the target's state decides. -/
theorem revokeTakesAnotherPort : Obligations.RevokeTakesAnotherPort := by
  intro p s free
  have taken : exec (.revoke p) s = .next ((s.taken p).revoke p) := State.exec_supervisor (c := .revoke) free rfl nofun
  rw [taken, State.taken_revoke]
  refine ⟨fun bad => ?_, fun q arg other => ?_⟩
  · rcases bad with none | self
    · rw [State.portOfWord_none.2 none]
    · rw [State.portOfWord_eq.2 self]; simp only [if_true]
  · rw [State.portOfWord_eq.2 arg]
    simp only [if_neg other]
    refine ⟨fun away => ?_, fun offline lost => ?_⟩
    · have detached : ¬ (s.port q).state.attached = true := by rcases away with e | e <;> rw [e] <;> nofun
      rw [if_neg detached]
    · rw [if_pos (State.attached_iff.2 ⟨offline, lost⟩)]
      rfl

/-- Settles O11: the fall of the line is no edge when it is low, only a level while RST# is low, and else the loss. -/
theorem portResetIsTheLossOfThePort : Obligations.PortResetIsTheLossOfThePort := by
  intro p s
  have fall : exec (.portReset p) s = .next (if (s.port p).prstLow then s
    else if s.rstLow then s.setPrst p true else s.settle.losePort p .line) := rfl
  rw [fall]
  refine ⟨fun low => by rw [if_pos low], fun high rst => ?_, fun high rst quiet => ?_, rfl⟩
  · rw [high, rst]; rfl
  · rw [high, rst, s.settle_eq_self quiet]; rfl

end Sys2Proof.Machine
end

section
/-! ## Asking for a task and giving it up -/

namespace Sys2Proof.Machine
namespace State
variable {s t : State} {p q : Port} {c : Cmd} {h : Handle} {v : Task}

/-! ### Selection (R56) -/

/-- The queues from priority 15 down. -/
theorem priorities_descend : (List.finRange 16).reverse.Pairwise (· > ·) := by decide

/-- The first queue from the top in which a search succeeds. -/
theorem findSome?_priorities {α : Type} (f : Priority → Option α) (a : α) :
    (List.finRange 16).reverse.findSome? f = some a ↔ ∃ q, f q = some a ∧ ∀ q', q < q' → f q' = none := by
  have every (q : Priority) : q ∈ (List.finRange 16).reverse := by simp
  rw [List.findSome?_eq_some_iff]
  constructor
  · rintro ⟨above, q, below, split, found, none⟩
    refine ⟨q, found, fun q' higher => none q' ?_⟩
    have order := priorities_descend
    rw [split, List.pairwise_append, List.pairwise_cons] at order
    obtain ⟨-, ⟨lower, -⟩, -⟩ := order
    have mem := every q'
    rw [split, List.mem_append, List.mem_cons] at mem
    rcases mem with up | rfl | down
    · exact up
    · exact absurd higher (lt_irrefl _)
    · exact absurd (lower q' down) (not_lt.2 (le_of_lt higher))
  · rintro ⟨q, found, none⟩
    obtain ⟨above, below, split⟩ := List.append_of_mem (every q)
    refine ⟨above, q, below, split, found, fun q' up => none q' ?_⟩
    have order := priorities_descend
    rw [split, List.pairwise_append] at order
    exact order.2.2 q' up q List.mem_cons_self

theorem find?_eligible_none {queue : List Handle} :
    (queue.find? fun r => s.eligible r p) = none ↔ ∀ r ∈ queue, s.eligible r p = false := by
  simp [List.find?_eq_none]

theorem select_eq_some : s.select p = some h ↔ ∃ (q : Priority) (front back : List Handle),
    s.ready[q] = front ++ h :: back ∧ s.eligible h p = true ∧ (∀ r ∈ front, s.eligible r p = false) ∧
      ∀ q' : Priority, q < q' → ∀ r ∈ s.ready[q'], s.eligible r p = false := by
  rw [select, findSome?_priorities]
  simp only [List.find?_eq_some_iff_append, find?_eligible_none, Bool.not_eq_true']
  constructor
  · rintro ⟨q, ⟨eligible, front, back, queue, none⟩, above⟩
    exact ⟨q, front, back, queue, eligible, none, above⟩
  · rintro ⟨q, front, back, queue, eligible, none, above⟩
    exact ⟨q, ⟨eligible, front, back, queue, none⟩, above⟩

theorem select_eq_none : s.select p = none ↔ ∀ q : Priority, ∀ r ∈ s.ready[q], s.eligible r p = false := by
  simp [select, List.findSome?_eq_none_iff]

/-! ### DISPATCH and CANCEL -/

/-- DISPATCH with a task selected (R61). -/
theorem taken_dispatch_some (selected : s.select p = some h) (e : s.task? h = some v) : (s.taken p).dispatch p =
    ({ s.withTask h { v with state := .running p } with
      ready := s.ready.set v.priority (s.ready[v.priority].filter fun x => x ≠ h)
      awaitList := s.awaitList.filter fun x => x ≠ p }.withPort p
        { (s.takenUnit p).answer .ok h.bits with
          state := .loading h (streamLength v.frameLength v.extension) 0 }).evalPreempt := by
  have same : (s.taken p).select p = some h := selected
  have given : (s.taken p).handOff p h = _ := handOff_of_task (s := s.taken p) e p
  simp only [dispatch, same, given, setResult_eq, modPort_withPort, withPort_port, withPort_withPort, if_pos, taken_self]
  refine congrArg evalPreempt ?_
  exact withPort_withPort (s := { s.withTask h { v with state := .running p } with
    ready := s.ready.set v.priority (s.ready[v.priority].filter fun x => x ≠ h)
    awaitList := s.awaitList.filter fun x => x ≠ p }) (s.takenUnit p) _

/-- DISPATCH with none selected (R61). -/
theorem taken_dispatch_none (selected : s.select p = none) : (s.taken p).dispatch p =
    ({ s with awaitList := s.awaitList ++ [p] }.withPort p
      { (s.takenUnit p).answer .pending 0#16 with state := .await }).evalPreempt := by
  have same : (s.taken p).select p = none := selected
  have joined : { s.taken p with awaitList := (s.taken p).awaitList ++ [p] } =
    { s with awaitList := s.awaitList ++ [p] }.taken p := rfl
  simp only [dispatch, same, setResult_eq, setPortState_eq, modPort_modPort]
  rw [joined, taken_modPort]
  rfl

theorem taken_cancel_await (await : (s.port p).state = .await) : (s.taken p).cancel p =
    { s with awaitList := s.awaitList.filter fun x => x ≠ p }.withPort p
      { (s.takenUnit p).answer .ok 0#16 with state := .idle } := by
  have left : (s.taken p).leaveAwait p = (s.leaveAwait p).taken p := rfl
  simp only [cancel, taken_self, takenUnit_state, await, setResult_eq, setPortState_eq, modPort_modPort]
  rw [left, taken_modPort]
  rfl

theorem taken_cancel_receive (run : (s.port p).state = .run h true) : (s.taken p).cancel p =
    (s.withInbox h { s.inbox h with recvPending := false }).withPort p
      { (s.takenUnit p).answer .empty 0#16 with state := .run h false } := by
  have cleared : (s.taken p).clearReceivePending h = (s.clearReceivePending h).taken p := rfl
  simp only [cancel, taken_self, takenUnit_state, run, setResult_eq, setPortState_eq, modPort_modPort]
  rw [cleared, taken_modPort]
  rfl

theorem taken_cancel_none (free : (s.port p).state.Free) : (s.taken p).cancel p = s.answered p .badState 0#16 := by
  unfold cancel
  rw [taken_self, takenUnit_state]
  rcases free_iff.1 free with idle | ⟨h, run⟩
  · rw [idle]; exact taken_setResult ..
  · rw [run]; exact taken_setResult ..

/-! ### Giving the task up -/

/-- The beginning of a check-in (R38). -/
theorem beginCheckIn_of_task (e : s.task? h = some v) (p : Port) (d : Disposition) (code : ResultCode) :
    s.beginCheckIn p h d code = (s.withTask h { v with state := .saving p d false }).withPort p
      { (s.port p).answer code h.bits with state := .saving .checkIn h [] } := by
  have record := modTask_withTask e fun t => { t with state := .saving p d false }
  simp only [beginCheckIn, setTaskState, record, setResult_eq, setPortState_eq, modPort_modPort]
  rfl

/-- The beginning of a check-in by a command taken. -/
theorem taken_beginCheckIn (e : s.task? h = some v) (p : Port) (d : Disposition) (code : ResultCode) :
    (s.taken p).beginCheckIn p h d code = (s.withTask h { v with state := .saving p d false }).withPort p
      { (s.takenUnit p).answer code h.bits with state := .saving .checkIn h [] } := by
  have taken : (s.taken p).task? h = some v := e
  rw [beginCheckIn_of_task taken, taken_self]
  exact withPort_withPort (s := s.withTask h { v with state := .saving p d false }) (s.takenUnit p) _

theorem taken_exit (run : s.RunningAt p h v) : (s.taken p).exit p =
    ((s.withTask h { v with state := .dormant }).withPort p
      { (s.takenUnit p).answer .ok 0#16 with state := .idle }).evalPreempt := by
  have record : (s.taken p).setTaskState h .dormant = (s.withTask h { v with state := .dormant }).taken p :=
    modTask_withTask (s := s.taken p) run.2.2.2 fun t => { t with state := .dormant }
  rw [exit, taken_onCurrent run]
  simp only [setResult_eq, setPortState_eq, modPort_modPort]
  rw [record, taken_modPort]
  rfl

/-- A word of at most 16 bits is its low half. -/
theorem lowHalf_setWidth {w : Word} (small : w.toNat ≤ 65535) : (lowHalf w).setWidth 32 = w := by
  apply BitVec.eq_of_toNat_eq
  simp only [lowHalf, BitVec.toNat_setWidth, BitVec.extractLsb'_toNat, Nat.shiftRight_zero]
  omega

theorem taken_sleep_timed (run : s.RunningAt p h v) (low : 1 ≤ ((s.port p).args[0]).toNat)
    (high : ((s.port p).args[0]).toNat ≤ 65535) : (s.taken p).sleep p =
    ({ s.withTask h { v with state := .saving p .sleeping false } with
      deadlines := insertDeadlineEntry s.tickCounter ⟨h, s.tickCounter + (s.port p).args[0], .sleep⟩ s.deadlines }.withPort p
        { (s.takenUnit p).answer .ok h.bits with state := .saving .checkIn h [] }).evalPreempt := by
  have timed : (s.taken p).insertDeadline h (lowHalf (s.port p).args[0]) .sleep = (s.withDeadlines
      (insertDeadlineEntry s.tickCounter ⟨h, s.tickCounter + (s.port p).args[0], .sleep⟩ s.deadlines)).taken p := by
    rw [insertDeadline, lowHalf_setWidth high]; rfl
  rw [State.sleep, taken_onCurrent run]
  simp only [taken_self, takenUnit_args, low, high, and_self, if_true]
  rw [timed, taken_beginCheckIn (s := s.withDeadlines (insertDeadlineEntry ..)) (v := v) run.2.2.2]
  rfl

theorem taken_sleep_refused (run : s.RunningAt p h v)
    (out : ((s.port p).args[0]).toNat = 0 ∨ 65535 < ((s.port p).args[0]).toNat) :
    (s.taken p).sleep p = s.answered p .badArg 0#16 := by
  have bad : ¬ (1 ≤ ((s.port p).args[0]).toNat ∧ ((s.port p).args[0]).toNat ≤ 65535) := by omega
  rw [State.sleep, taken_onCurrent run]
  simp only [taken_self, takenUnit_args, bad, if_false]
  exact taken_setResult ..

end State

/-- Settles O12: the search runs from the highest queue down, and each from its head. -/
theorem dispatchHandsOutTheSelectedTaskOrWaits : Obligations.DispatchHandsOutTheSelectedTaskOrWaits := by
  intro p s
  refine ⟨fun h => State.select_eq_some, State.select_eq_none, fun served service idle => ?_⟩
  have taken : exec (.dispatch p) s = .next ((s.taken p).dispatch p) :=
    State.exec_taken (c := .dispatch) served (by rw [service]; rfl) (.inl (by rw [idle]; rfl)) (by rw [idle]; rfl) (.inl rfl)
  refine ⟨fun h t selected e => ⟨_, taken, ?_⟩, fun none => ⟨_, taken, ?_⟩⟩
  · rw [State.taken_dispatch_some selected e]; exact State.evalPreempt_reevaluated _
  · rw [State.taken_dispatch_none none]; exact State.evalPreempt_reevaluated _

/-- Settles O13: CANCEL is the one command that a busy port takes, and the port's state decides what it ends. -/
theorem cancelEndsTheBusyState : Obligations.CancelEndsTheBusyState := by
  intro p s served service
  have taken (state : Cmd.cancel.takenIn (s.port p).state = true) : exec (.cancel p) s = .next ((s.taken p).cancel p) :=
    State.exec_taken (c := .cancel) served (by rw [service]; rfl) (.inr rfl) state (.inl rfl)
  refine ⟨fun await => ?_, fun h run => ?_, fun free => ?_⟩
  · rw [taken (by rw [await]; rfl), State.taken_cancel_await await]
  · rw [taken (by rw [run]; rfl), State.taken_cancel_receive run]
  · have state : Cmd.cancel.takenIn (s.port p).state = true := by
      rcases State.free_iff.1 free with e | ⟨h, e⟩ <;> rw [e] <;> rfl
    rw [taken state, State.taken_cancel_none free]

/-- Settles O15: a rival in the queues at or above the task's priority begins the check-in; EXIT needs none. -/
theorem yieldToARivalAndExitGiveTheTaskUp : Obligations.YieldToARivalAndExitGiveTheTaskUp := by
  intro p h t s run
  refine ⟨fun rival => ?_, ?_⟩
  · have taken : exec (.yield p) s = .next ((s.taken p).yield p) := State.exec_running run (.inl rfl)
    refine ⟨_, taken, ?_⟩
    have preempt : ((s.taken p).port p).preempt = (s.port p).preempt := by rw [State.taken_self]; rfl
    rw [State.yield, State.taken_onCurrent run, State.taken_hasRival, State.hasRival_iff.2 rival, preempt, if_pos rfl,
      State.taken_beginCheckIn run.2.2.2]
    exact State.evalPreempt_reevaluated _
  · have taken : exec (.exit p) s = .next ((s.taken p).exit p) := State.exec_running run (.inr (.inl rfl))
    refine ⟨_, taken, ?_⟩
    rw [State.taken_exit run]
    exact State.evalPreempt_reevaluated _

/-- Settles O16: the argument is in range, and its low half is the whole of it, or it is not. -/
theorem sleepBeginsATimedCheckIn : Obligations.SleepBeginsATimedCheckIn := by
  intro p h t s run n
  have taken : exec (.sleep p) s = .next ((s.taken p).sleep p) := State.exec_running run (.inr (.inr (.inl rfl)))
  refine ⟨fun low high => ⟨_, taken, ?_⟩, fun out => ?_⟩
  · rw [State.taken_sleep_timed run low high]; exact State.evalPreempt_reevaluated _
  · rw [taken, State.taken_sleep_refused run out]

/-- Settles O17, by induction on the list: the entry goes past the heads of no greater distance, and before a head of a
greater one, behind which the order leaves only greater ones. -/
theorem deadlinesAreInsertedByDistance : Obligations.DeadlinesAreInsertedByDistance := by
  intro counter e ds order
  induction ds with
  | nil => exact ⟨[], [], rfl, rfl, nofun, nofun⟩
  | cons x rest ih =>
    obtain ⟨behind, order⟩ := List.pairwise_cons.1 order
    by_cases passes : x.distance counter ≤ e.distance counter
    · obtain ⟨front, back, split, inserted, before, after⟩ := ih order
      refine ⟨x :: front, back, by rw [split]; rfl, ?_, ?_, after⟩
      · rw [insertDeadlineEntry, if_pos passes, inserted]; rfl
      · exact List.forall_mem_cons.2 ⟨passes, before⟩
    · have less : e.distance counter < x.distance counter := BitVec.not_le.1 passes
      refine ⟨[], x :: rest, rfl, by rw [insertDeadlineEntry, if_neg passes]; rfl, nofun, ?_⟩
      exact List.forall_mem_cons.2 ⟨less, fun y mem => by have := behind y mem; bv_omega⟩

end Sys2Proof.Machine
end

section
/-! ## Messages: routing, delivery, sender release and refills -/

namespace Sys2Proof.Machine
namespace State
variable {s t : State} {p q : Port} {h : Handle} {v : Task} {rule : SlotRule} {m : Message} {x : PoolSlot}
  {rest : List PoolSlot}

/-! ### The slot rules (R107) -/

theorem mayAllocate_iff : s.mayAllocate rule = true ↔
    match rule with
    | .ordinary => s.items.reserve < s.poolFree.length
    | .fault => 0 < s.poolFree.length := by
  cases rule <;> exact decide_eq_true_iff

theorem takeSlot_refused (refused : ¬ s.mayAllocate rule = true) : s.takeSlot rule = none := by
  rw [takeSlot, if_neg refused]

theorem takeSlot_head (allowed : s.mayAllocate rule = true) (free : s.poolFree = x :: rest) :
    s.takeSlot rule = some (x, { s with poolFree := rest }) := by
  rw [takeSlot, if_pos allowed, free]

/-! ### Routing, step by step (R82) -/

theorem ownerWaits_iff (e : s.task? h = some v) :
    s.ownerWaits h = true ↔ v.state = .recvWait ∨ ∃ p, v.state = .saving p .recvWait false := by
  simp only [ownerWaits, e]
  cases v.state with
  | saving p d satisfied => cases d <;> cases satisfied <;> simp [TaskState.waitsToReceive]
  | _ => simp [TaskState.waitsToReceive]

theorem route_broken (broken : (s.inbox h).broken = true) : s.route rule h m = (.broken, s) := by
  simp [route, broken]

theorem route_waits (whole : (s.inbox h).broken = false) (waits : s.ownerWaits h = true) :
    s.route rule h m = s.handOffMessage rule h m := by
  simp [route, whole, waits]

theorem route_placed (whole : (s.inbox h).broken = false) (awake : s.ownerWaits h = false)
    (empty : (s.inbox h).occupancy = 0) (room : (s.inbox h).resident.length < (s.inbox h).limit) :
    s.route rule h m = s.placeResident rule h m := by
  simp [route, whole, awake, empty, room]

theorem route_ring (whole : (s.inbox h).broken = false) (awake : s.ownerWaits h = false)
    (past : (s.inbox h).occupancy ≠ 0 ∨ (s.inbox h).limit ≤ (s.inbox h).resident.length) : s.route rule h m =
    if (s.inbox h).occupancy < (s.inbox h).capacity then s.placeSpill rule h m else (.full, s) := by
  have none : ¬ ((s.inbox h).occupancy = 0 ∧ (s.inbox h).resident.length < (s.inbox h).limit) := by omega
  simp [route, whole, awake, none]

theorem handOffMessage_refused (refused : ¬ s.mayAllocate rule = true) : s.handOffMessage rule h m = (.noSpace, s) := by
  rw [handOffMessage, takeSlot_refused refused]

theorem placeResident_refused (refused : ¬ s.mayAllocate rule = true) : s.placeResident rule h m = (.noSpace, s) := by
  rw [placeResident, takeSlot_refused refused]

theorem placeSpill_refused (refused : ¬ s.mayAllocate rule = true ∨ 16 ≤ s.jobs.length) :
    s.placeSpill rule h m = (.noSpace, s) := by
  unfold placeSpill Config.jobQueueCapacity
  rcases refused with none | full
  · rw [takeSlot_refused none, ite_self]
  · rw [if_neg (by omega)]

/-- A message in the slot that an allocation takes. -/
def withMessage (s : State) (x : PoolSlot) (rest : List PoolSlot) (i : Image) : State :=
  { s with pool := s.pool.set x i, poolFree := rest }

theorem placeResident_head (allowed : s.mayAllocate rule = true) (free : s.poolFree = x :: rest) :
    s.placeResident rule h m = (.resident,
      (s.withMessage x rest (m.image (s.inbox h).nextSeq)).withInbox h { s.inbox h with
        nextSeq := (s.inbox h).nextSeq + 1#16
        resident := (s.inbox h).resident ++ [x] }) := by
  rw [placeResident, takeSlot_head allowed free]; rfl

theorem placeSpill_head (allowed : s.mayAllocate rule = true) (room : s.jobs.length < 16) (free : s.poolFree = x :: rest) :
    s.placeSpill rule h m = (.spilled,
      { (s.withMessage x rest (m.image (s.inbox h).nextSeq)).withInbox h { s.inbox h with
          nextSeq := (s.inbox h).nextSeq + 1#16
          writeIndex := ringAdvance (s.inbox h).writeIndex 1 (s.inbox h).capacity
          spilling := (s.inbox h).spilling + 1 } with
        jobs := s.jobs ++ [(s.inbox h).spillJob h x] }) := by
  unfold placeSpill Config.jobQueueCapacity
  rw [if_pos room, takeSlot_head allowed free]; rfl

/-- The state in which a hand-off of a message wakes the owner. -/
def handed (s : State) (x : PoolSlot) (rest : List PoolSlot) (h : Handle) (m : Message) : State :=
  ((s.withMessage x rest (m.image (s.inbox h).nextSeq)).withInbox h { s.inbox h with
    nextSeq := (s.inbox h).nextSeq + 1#16 }).withDeadlines (s.deadlines.filter fun e => e.task ≠ h)

/-- The record that holds the message, before it wakes. -/
theorem handOffMessage_head (e : s.task? h = some v) (allowed : s.mayAllocate rule = true) (free : s.poolFree = x :: rest) :
    s.handOffMessage rule h m =
      (.handedOff, ((s.handed x rest h m).withTask h { v with bound := some x }).wake h .ok) := by
  have record := modTask_withTask (s := (s.withMessage x rest (m.image (s.inbox h).nextSeq)).withInbox h { s.inbox h with
    nextSeq := (s.inbox h).nextSeq + 1#16 }) (h := h) e fun t => { t with bound := some x }
  rw [handOffMessage, takeSlot_head allowed free]
  refine congrArg (RouteOutcome.handedOff, ·) (congrArg (State.wake · h .ok) ?_)
  exact congrArg (State.removeDeadline · h) record

theorem handOffMessage_waiting (L : s.Linked) (e : s.task? h = some v) (state : v.state = .recvWait)
    (allowed : s.mayAllocate rule = true) (free : s.poolFree = x :: rest) : s.handOffMessage rule h m = (.handedOff,
      (s.handed x rest h m).offered h { v with resume := .ok, bound := some x } (s.ready[v.priority] ++ [h])) := by
  have record := withTask_task?_self (s := s.handed x rest h m) h { v with bound := some x }
  have woken := withTask_task?_self (s := s.handed x rest h m) h { v with bound := some x, resume := .ok }
  have out : h ∉ s.ready[v.priority] := L.not_mem_ready e (by rw [state]; nofun) v.priority
  rw [handOffMessage_head e allowed free, wake_of_waiting record (.inl state), withTask_withTask,
    readyTail_eq_offered woken out, offered_withTask]
  rfl

theorem handOffMessage_saving (e : s.task? h = some v) (state : v.state = .saving p .recvWait false)
    (allowed : s.mayAllocate rule = true) (free : s.poolFree = x :: rest) : s.handOffMessage rule h m = (.handedOff,
      (s.handed x rest h m).withTask h
        { v with resume := .ok, bound := some x, state := .saving p .recvWait true }) := by
  have record := withTask_task?_self (s := s.handed x rest h m) h { v with bound := some x }
  rw [handOffMessage_head e allowed free, wake_of_saving record state rfl, withTask_withTask]

end State

/-- Settles O21: the steps of routing in their order, each with the slot that its rule allows or refuses. -/
theorem routingTakesTheFirstStepThatApplies : Obligations.RoutingTakesTheFirstStepThatApplies := by
  intro s rule h t m L e ib ring waits allowed stored
  have may : allowed ↔ s.mayAllocate rule = true := State.mayAllocate_iff.symm
  have owner : waits ↔ s.ownerWaits h = true := (State.ownerWaits_iff e).symm
  refine ⟨State.route_broken, fun whole => ⟨fun wait => ?_, fun awake => ?_⟩⟩
  · rw [State.route_waits whole (owner.1 wait)]
    refine ⟨fun refused => State.handOffMessage_refused (may.not.1 refused), fun x rest ok free => ⟨fun state => ?_,
      fun p state => ?_⟩⟩
    · exact State.handOffMessage_waiting L e state (may.1 ok) free
    · exact State.handOffMessage_saving e state (may.1 ok) free
  · have asleep : s.ownerWaits h = false := Bool.eq_false_iff.2 (owner.not.1 awake)
    refine ⟨fun empty room => ?_, fun past => ?_⟩
    · rw [State.route_placed whole asleep empty room]
      exact ⟨fun refused => State.placeResident_refused (may.not.1 refused),
        fun x rest ok free => State.placeResident_head (may.1 ok) free⟩
    · rw [State.route_ring whole asleep past]
      refine ⟨fun room => ?_, fun full => if_neg (Nat.not_lt.2 full)⟩
      have capacity : (s.inbox h).capacity ≠ 0 := Nat.ne_of_gt (Nat.zero_lt_of_lt room)
      have spills : (if (s.inbox h).occupancy < (s.inbox h).capacity then s.placeSpill rule h m else (.full, s)) =
        s.placeSpill rule h m := if_pos room
      rw [spills]
      refine ⟨fun refused => State.placeSpill_refused (refused.imp_left may.not.1), fun x rest ok queue free => ?_⟩
      rw [State.placeSpill_head (may.1 ok) queue free, ringAdvance, if_neg capacity]
      rfl

/-! ### Delivery (R97, R149) -/

namespace State
variable {s t : State} {p q : Port} {h : Handle} {x : PoolSlot} {place : Place} {i : Image}

theorem lineOf_eq_some {seq : BitVec 16} {l : Line} : s.lineOf place h seq = some l ↔
    s.lines[l].pending = some ⟨h, seq, place⟩ ∧ ∀ k < l, s.lines[k].pending ≠ some ⟨h, seq, place⟩ := by
  rw [lineOf, ← Fin.find?_eq_find?_finRange, Fin.find?_eq_some_iff]
  simp

theorem lineOf_eq_none {seq : BitVec 16} : s.lineOf place h seq = none ↔
    ∀ l : Line, s.lines[l].pending ≠ some ⟨h, seq, place⟩ := by
  simp [lineOf]

/-- The message registers show the header words of the image and the payload as completed. -/
theorem present_completed (u : PortUnit) (i : Image) (a b : Word) : u.present ((i.set 2 a).set 3 b) =
    { u with msgHdr := i[0], msgSrc := i[1], msgData := deliveredData ((i.set 2 a).set 3 b) } := by
  simp [PortUnit.present]

end State

/-- Settles O22: an image that is no EVENT message is shown as it is; an EVENT message is completed by its line, if it has
one. -/
theorem deliveryShowsTheMessage : Obligations.DeliveryShowsTheMessage := by
  intro s p place h x i shown
  refine ⟨fun j n => by fin_cases n <;> rfl, fun other => ?_, fun l event line first => ?_, fun event none => ?_⟩
  · have kind : imageKind i ≠ MessageKind.event.code := other
    rw [State.presentSlot, State.completeLine, State.completeImage, if_neg kind, if_neg kind]
    rfl
  · have kind : imageKind i = MessageKind.event.code := event
    have found := State.lineOf_eq_some.2 ⟨line, first⟩
    simp only [State.presentSlot, State.completeLine, State.completeImage]
    rw [if_pos kind, if_pos kind, found, State.modPort_withPort]
    exact congrArg _ (State.present_completed ..)
  · have kind : imageKind i = MessageKind.event.code := event
    have found := State.lineOf_eq_none.2 none
    simp only [State.presentSlot, State.completeLine, State.completeImage]
    rw [if_pos kind, if_pos kind, found, State.modPort_withPort]
    exact congrArg _ (State.present_completed ..)

/-! ### Sender release (R92 to R94) -/

namespace State
variable {s t : State} {h k : Handle} {v : Task}

/-- One sender of the release: FULL ends it, any other outcome ends the sender's wait. -/
theorem releaseEntries_cons (e : s.task? k = some v) {ps : PendingSend} (pending : v.pendingSend = some ps)
    (rest : List Handle) : releaseEntries h (k :: rest) s =
    match (s.route .ordinary h (ps.message k)).1.resume with
    | some res => releaseEntries h rest ((s.route .ordinary h (ps.message k)).2.endWait k res)
    | none => s := by
  have send : s.pendingSendOf k = some ps := by rw [pendingSendOf, e]; exact pending
  simp only [releaseEntries, send] <;> rfl

end State

/-- Settles O23: one round of the release, by the outcome of the routing. -/
theorem senderReleaseTriesTheOldestFirst : Obligations.SenderReleaseTriesTheOldestFirst := by
  refine ⟨fun _ _ => rfl, fun _ _ => rfl, ?_⟩
  intro s h k rest t ps e pending r
  have round := State.releaseEntries_cons (h := h) e pending rest
  have same : r = s.route .ordinary h (ps.message k) := rfl
  rw [← same] at round
  rw [round]
  refine ⟨fun o => ?_, fun o => ?_, fun o => ?_, fun o => ?_, fun o => ?_⟩
  · rw [o]; rfl
  · rcases o with o | o <;> rw [o] <;> rfl
  · rw [o]; rfl
  · rw [o]; rfl
  · rw [o]; rfl

/-! ### Refills (R113, R116 to R118) -/

namespace State
variable {s t : State} {h : Handle}

theorem refillNeeded_iff : s.refillNeeded h = true ↔ (s.task? h).isSome ∧ (s.inbox h).broken = false ∧
    0 < (s.inbox h).backed ∧ (∀ j ∈ s.jobs, j.kind = .refill → j.inbox ≠ h) ∧
      ((s.inbox h).resident.length ≤ (s.inbox h).mark ∨ (s.inbox h).recvPending = true) := by
  simp [refillNeeded, live, and_assoc]

/-- The messages that a REFILL job would bring, by what is wanted and what the ordinary slot rule allows (R113). -/
def refillCount (s : State) (h : Handle) : Nat :=
  s.grant (min (s.inbox h).backed ((s.inbox h).limit - (s.inbox h).resident.length))

/-- The state with the REFILL job of an inbox made. -/
def refilled (s : State) (h : Handle) : State :=
  { s.withInbox h ((s.inbox h).claim (s.refillCount h)) with
    poolFree := s.poolFree.drop (s.refillCount h)
    jobs := s.jobs ++
      [{ (s.inbox h).refillJob h (s.poolFree.take (s.refillCount h)) with count := s.refillCount h }] }

theorem refillCount_le : s.refillCount h ≤ s.poolFree.length := by
  unfold refillCount grant; omega

theorem createRefill_def (s : State) (h : Handle) : s.createRefill h =
    if s.jobs.length < 16 ∧ 0 < s.refillCount h then some (s.refilled h) else none := by
  have length : (s.poolFree.take (s.refillCount h)).length = s.refillCount h := by simp [refillCount_le]
  have job : (s.inbox h).refillJob h (s.poolFree.take (s.refillCount h)) =
      { (s.inbox h).refillJob h (s.poolFree.take (s.refillCount h)) with count := s.refillCount h } := by
    rw [Inbox.refillJob, length]
  unfold createRefill
  simp only [takeSlots_eq, Config.jobQueueCapacity]
  change (if _ then if (s.poolFree.take (s.refillCount h)).isEmpty then none else some _ else none) = _
  by_cases room : s.jobs.length < 16
  · by_cases none : s.refillCount h = 0
    · simp [none]
    · have some : ¬ (s.poolFree.take (s.refillCount h)).isEmpty = true := by
        rw [List.isEmpty_iff_length_eq_zero, length]; exact none
      rw [if_pos room, if_neg some, if_pos ⟨room, Nat.pos_of_ne_zero none⟩]
      change Option.some (modInbox _ h fun ib => ib.claim (s.poolFree.take (s.refillCount h)).length) = _
      rw [length, refilled, ← job]
      rfl
  · rw [if_neg room, if_neg (fun both => room both.1)]

theorem refillCheck_idle (idle : ¬ s.refillNeeded h = true) : s.refillCheck h = s := by rw [refillCheck, if_neg idle]

theorem refillCheck_made (needed : s.refillNeeded h = true) (made : s.createRefill h = some t) : s.refillCheck h = t := by
  rw [refillCheck, if_pos needed, made]

theorem refillCheck_deferred (needed : s.refillNeeded h = true) (none : s.createRefill h = none) :
    s.refillCheck h = s.defer h := by
  rw [refillCheck, if_pos needed, none]

end State

/-- Settles O24: the four conditions are the check's own, and the job takes the slots the ordinary rule grants. -/
theorem refillCheckMakesOrDefersAJob : Obligations.RefillCheckMakesOrDefersAJob := by
  intro s h ib needed a made
  have need : s.refillNeeded h = true ↔ needed := State.refillNeeded_iff
  have create : s.createRefill h = if s.jobs.length < 16 ∧ 0 < a then some made else none := s.createRefill_def h
  have some (room : s.jobs.length < 16) (slots : 0 < a) : s.createRefill h = some made := by
    rw [create, if_pos ⟨room, slots⟩]
  have none (out : 16 ≤ s.jobs.length ∨ a = 0) : s.createRefill h = none := by
    rw [create, if_neg (by omega)]
  refine ⟨need, some, none, fun idle => State.refillCheck_idle (need.not.2 idle),
    fun wants room slots => State.refillCheck_made (need.2 wants) (some room slots), fun wants out => ?_⟩
  have deferred := State.refillCheck_deferred (need.2 wants) (none out)
  refine ⟨fun new => ?_, fun listed => ?_⟩
  · rw [deferred, State.defer, if_neg (by simpa using new)]
  · rw [deferred, State.defer, if_pos (by simpa using listed)]

namespace State
variable {s t : State} {h : Handle}

/-- The creation of a job does not read the deferred-refill list. -/
theorem createRefill_deferred (ds : List Handle) : ({ s with deferred := ds } : State).createRefill h =
    (s.createRefill h).map fun u => { u with deferred := ds } := by
  have count : ({ s with deferred := ds } : State).refillCount h = s.refillCount h := rfl
  rw [createRefill_def, createRefill_def, count]
  by_cases ok : s.jobs.length < 16 ∧ 0 < s.refillCount h
  · rw [if_pos ok, if_pos ok]; rfl
  · rw [if_neg ok, if_neg ok]; rfl

/-- The retry replaces the deferred-refill list, whatever it was. -/
theorem retryEntries_deferred (ds : List Handle) (hs : List Handle) :
    ∀ s : State, retryEntries hs { s with deferred := ds } = retryEntries hs s := by
  induction hs with
  | nil => exact fun s => rfl
  | cons h rest ih =>
    intro s
    have needed : ({ s with deferred := ds } : State).refillNeeded h = s.refillNeeded h := rfl
    rw [retryEntries, retryEntries, needed, createRefill_deferred]
    cases s.refillNeeded h
    · exact ih s
    · cases s.createRefill h with
      | none => rfl
      | some u => exact ih u

theorem withDeferred_self {ds : List Handle} (same : s.deferred = ds) : { s with deferred := ds } = s := by
  subst same; rfl

end State

/-- Settles O25: one round of the retry, which does not read the list it replaces. -/
theorem deferredRefillsAreRetriedInOrder : Obligations.DeferredRefillsAreRetriedInOrder := by
  intro s
  refine ⟨fun empty => ?_, fun h rest listed => ?_⟩
  · rw [State.retryDeferred, empty]
    exact State.withDeferred_self empty
  · have again (u : State) : { u with deferred := rest }.retryDeferred = retryEntries rest u :=
      State.retryEntries_deferred rest rest u
    rw [State.retryDeferred, listed]
    refine ⟨fun idle => ?_, fun needed => ⟨fun u made => ?_, fun none => ?_⟩⟩
    · rw [again, retryEntries, idle]; rfl
    · rw [again, retryEntries, needed, made]; rfl
    · rw [retryEntries, needed, none]
      exact State.withDeferred_self listed

end Sys2Proof.Machine
end

section
/-! ## SEND, RECEIVE and the limits of an inbox -/

namespace Sys2Proof.Machine
namespace State
variable {s t : State} {p q : Port} {h k : Handle} {v : Task} {rule : SlotRule} {m : Message} {x : PoolSlot}
  {rest : List PoolSlot}

/-! ### What a refusal and a routing leave -/

theorem handOffMessage_cases (s : State) (rule : SlotRule) (h : Handle) (m : Message) :
    (s.handOffMessage rule h m).1 = .handedOff ∨ s.handOffMessage rule h m = (.noSpace, s) := by
  unfold handOffMessage; split
  · exact .inl rfl
  · exact .inr rfl

theorem placeResident_cases (s : State) (rule : SlotRule) (h : Handle) (m : Message) :
    (s.placeResident rule h m).1 = .resident ∨ s.placeResident rule h m = (.noSpace, s) := by
  unfold placeResident; split
  · exact .inl rfl
  · exact .inr rfl

theorem placeSpill_cases (s : State) (rule : SlotRule) (h : Handle) (m : Message) :
    (s.placeSpill rule h m).1 = .spilled ∨ s.placeSpill rule h m = (.noSpace, s) := by
  unfold placeSpill; split
  · split
    · exact .inl rfl
    · exact .inr rfl
  · exact .inr rfl

/-- A refused message changes nothing (R78). -/
theorem route_refused (refused : (s.route rule h m).1.accepted = false) : (s.route rule h m).2 = s := by
  have refusal {r : RouteOutcome × State} {o : RouteOutcome} (accepts : o.accepted = true)
      (cases : r.1 = o ∨ r = (.noSpace, s)) (refused : r.1.accepted = false) : r.2 = s := by
    rcases cases with e | e
    · rw [e, accepts] at refused; nomatch refused
    · rw [e]
  revert refused
  unfold route
  dsimp only
  split
  · exact fun _ => rfl
  split
  · exact refusal rfl (s.handOffMessage_cases rule h m)
  split
  · exact refusal rfl (s.placeResident_cases rule h m)
  split
  · exact refusal rfl (s.placeSpill_cases rule h m)
  · exact fun _ => rfl

/-- Routing reads and writes no line record. -/
theorem route_lines (s : State) (rule : SlotRule) (h : Handle) (m : Message) : (s.route rule h m).2.lines = s.lines := by
  refine route_keeps (P := fun u => u.lines = s.lines) rule h m (fun _ => ?_) (fun _ _ => ?_) (fun _ => ?_) rfl
  · unfold handOffMessage; split
    case h_1 taken => rw [(wake_wakes ..).lines, (s.takeSlot_eq taken).2.2]; simp [removeDeadline]
    case h_2 => rfl
  · unfold placeResident; split
    case h_1 taken => rw [(s.takeSlot_eq taken).2.2]; rfl
    case h_2 => rfl
  · unfold placeSpill; split
    · split
      case h_1 taken => rw [(s.takeSlot_eq taken).2.2]; rfl
      case h_2 => rfl
    · rfl

/-! ### Timed check-ins -/

theorem armTimeout_eq (s : State) (h : Handle) (n : BitVec 16) (kind : DeadlineKind) : s.armTimeout h n kind =
    s.withDeadlines (if n = 0#16 then s.deadlines else
      insertDeadlineEntry s.tickCounter ⟨h, s.tickCounter + n.setWidth 32, kind⟩ s.deadlines) := by
  unfold armTimeout; split <;> rfl

/-- The beginning of a check-in with a timed wait, by a command taken. -/
theorem taken_beginTimedCheckIn (e : s.task? h = some v) (p : Port) (n : BitVec 16) (kind : DeadlineKind) (d : Disposition)
    (code : ResultCode) : ((s.taken p).armTimeout h n kind).beginCheckIn p h d code =
    ((s.withTask h { v with state := .saving p d false }).withDeadlines (if n = 0#16 then s.deadlines else
      insertDeadlineEntry s.tickCounter ⟨h, s.tickCounter + n.setWidth 32, kind⟩ s.deadlines)).withPort p
        { (s.takenUnit p).answer code h.bits with state := .saving .checkIn h [] } := by
  rw [armTimeout_eq]
  exact taken_beginCheckIn (s := s.withDeadlines (if n = 0#16 then s.deadlines else
    insertDeadlineEntry s.tickCounter ⟨h, s.tickCounter + n.setWidth 32, kind⟩ s.deadlines)) e p d code

/-! ### SEND (R88 to R90) -/

/-- SEND by the checks of its arguments and the outcome of the routing. -/
theorem taken_send (run : s.RunningAt p h v) : (s.taken p).send p =
    let ps := (s.port p).pendingSend
    let r := (s.taken p).route .ordinary ps.target (ps.message h)
    if !s.live ps.target then s.answered p .badHandle 0#16
    else if 6 < sendLength (s.port p).args[1] then s.answered p .badArg 0#16
    else if r.1 = .full ∧ waitFlag (s.port p).args[2] ∧ ps.target ≠ h then
      (s.taken p).beginSendWait p h ps (lowHalf (s.port p).args[2])
    else (r.2.setResult p r.1.result 0#16).evalPreempt := by
  rw [send, taken_onCurrent run, taken_self]
  simp only [taken_setResult, takenUnit_args]
  rfl

theorem taken_beginSendWait (e : s.task? h = some v) (p : Port) (ps : PendingSend) (n : BitVec 16) :
    (s.taken p).beginSendWait p h ps n =
      ((((s.withInbox ps.target { s.inbox ps.target with senders := (s.inbox ps.target).senders ++ [h] }).withTask h
        { v with state := .saving p .sendWait false, pendingSend := some ps }).withDeadlines (if n = 0#16 then s.deadlines else
          insertDeadlineEntry s.tickCounter ⟨h, s.tickCounter + n.setWidth 32, .send⟩ s.deadlines)).withPort p
            { (s.takenUnit p).answer .full h.bits with state := .saving .checkIn h [] }).evalPreempt := by
  have listed : (s.taken p).modInbox ps.target (fun ib => { ib with senders := ib.senders ++ [h] }) =
    (s.withInbox ps.target { s.inbox ps.target with senders := (s.inbox ps.target).senders ++ [h] }).taken p := rfl
  have record := modTask_withTask (s := (s.withInbox ps.target { s.inbox ps.target with
    senders := (s.inbox ps.target).senders ++ [h] }).taken p) (h := h) e fun t => { t with pendingSend := some ps }
  have timed := taken_beginTimedCheckIn (s := (s.withInbox ps.target { s.inbox ps.target with
    senders := (s.inbox ps.target).senders ++ [h] }).withTask h { v with pendingSend := some ps })
    (withTask_task?_self h _) p n .send .sendWait .full
  rw [withTask_withTask] at timed
  rw [beginSendWait, listed, record]
  exact congrArg evalPreempt timed

end State

/-- Settles O26: the checks, the routing, and what its outcome gives the sender; a message refused with FULL left the state as
it was. -/
theorem sendIsRoutedOrWaits : Obligations.SendIsRoutedOrWaits := by
  intro p h t s run u target tag length timeout payload r
  have taken : exec (.send p) s = .next ((s.taken p).send p) :=
    State.exec_running (c := .send) run (.inr (.inr (.inr (.inl rfl))))
  have cases := State.taken_send run
  have alive (live : s.live target = true) : ¬ (!s.live (s.port p).pendingSend.target) = true := by
    rw [Bool.not_eq_true', Bool.not_eq_false]; exact live
  have fits (short : length ≤ 6) : ¬ 6 < sendLength (s.port p).args[1] := Nat.not_lt.2 short
  refine ⟨fun stale => ?_, fun live long => ?_, fun live short => ⟨fun code outcome => ?_, fun full noWait => ?_,
    fun full wait other => ?_⟩⟩
  · have dead : (!s.live (s.port p).pendingSend.target) = true := by rw [Bool.not_eq_true']; exact stale
    rw [taken, cases]
    exact congrArg _ (if_pos dead)
  · rw [taken, cases]
    exact congrArg _ ((if_neg (alive live)).trans (if_pos long))
  · have routed : ¬ (r.1 = .full ∧ waitFlag (s.port p).args[2] = true ∧ (s.port p).pendingSend.target ≠ h) := by
      rintro ⟨full, -, -⟩; rw [full] at outcome; simp at outcome
    have result : r.1.result = code := by
      simp only [List.mem_cons, Prod.mk.injEq, List.not_mem_nil, or_false] at outcome
      rcases outcome with ⟨o, c⟩ | ⟨o, c⟩ | ⟨o, c⟩ | ⟨o, c⟩ | ⟨o, c⟩ <;> rw [o, c] <;> rfl
    refine ⟨_, taken.trans (congrArg _ (cases.trans ((if_neg (alive live)).trans ((if_neg (fits short)).trans
      (if_neg routed))))), ?_⟩
    rw [← result]
    exact State.evalPreempt_reevaluated _
  · have routed : ¬ (r.1 = .full ∧ waitFlag (s.port p).args[2] = true ∧ (s.port p).pendingSend.target ≠ h) := by
      rintro ⟨-, wait, other⟩
      rcases noWait with flag | same
      · exact Bool.false_ne_true (flag.symm.trans wait)
      · exact other same
    have same : r.2 = s.taken p := State.route_refused (show r.1.accepted = false by rw [full]; rfl)
    refine ⟨_, taken.trans (congrArg _ (cases.trans ((if_neg (alive live)).trans ((if_neg (fits short)).trans
      (if_neg routed))))), ?_⟩
    change ((r.2.setResult p r.1.result 0#16).evalPreempt).Reevaluated _
    rw [same, full, State.taken_setResult]
    exact State.evalPreempt_reevaluated _
  · refine ⟨_, taken.trans (congrArg _ (cases.trans ((if_neg (alive live)).trans ((if_neg (fits short)).trans
      (if_pos ⟨full, wait, other⟩))))), ?_⟩
    rw [State.taken_beginSendWait run.2.2.2]
    exact State.evalPreempt_reevaluated _

/-! ### Delivery, and the answer to a pending RECEIVE -/

namespace State
variable {s t : State} {p q : Port} {h k : Handle} {v : Task} {x : PoolSlot} {rest : List PoolSlot} {place : Place}

/-- A delivery writes line records and the port's message registers, and nothing else. -/
theorem completeLine_eq (s : State) (place : Place) (h : Handle) (i : Image) :
    s.completeLine place h i = { s with lines := (s.completeLine place h i).lines } := by
  unfold completeLine
  split
  · split <;> rfl
  · rfl

theorem presentSlot_inbox (k : Handle) : (s.presentSlot p place h x).inbox k = s.inbox k := by
  rw [presentSlot, modPort_inbox, completeLine_eq]; rfl

theorem presentSlot_poolFree : (s.presentSlot p place h x).poolFree = s.poolFree := by
  rw [presentSlot, modPort_poolFree, completeLine_eq]

/-- The head of the resident list is shown and leaves the list, and its slot is freed with one retry (R97, R108). -/
theorem deliverHead_head (resident : (s.inbox h).resident = x :: rest) (p : Port) : s.deliverHead p h =
    State.retryDeferred { (s.presentSlot p .inbox h x).withInbox h { s.inbox h with resident := rest } with
      poolFree := x :: s.poolFree } := by
  rw [deliverHead, resident]
  simp only [returnSlots, List.isEmpty_cons, Bool.false_eq_true, if_false, modInbox, presentSlot_inbox, freeSlotList,
    presentSlot_poolFree]
  rfl

theorem completeReceive_idle (idle : (s.inbox h).recvPending = false) (code : ResultCode) :
    s.completeReceive h code = s := by simp [completeReceive, idle]

theorem answerReceive_idle (idle : (s.inbox h).recvPending = false) : s.answerReceive h = s := by
  simp [answerReceive, idle]

theorem completeReceive_running (pending : (s.inbox h).recvPending = true) (e : s.task? h = some v)
    (state : v.state = .running q) (code : ResultCode) : s.completeReceive h code =
    (s.withInbox h { s.inbox h with recvPending := false }).withPort q
      { (s.port q).answer code 0#16 with state := .run h false, done := true } := by
  have record : (s.clearReceivePending h).task? h = some v := e
  rw [completeReceive, if_pos pending]
  simp only [record, state]
  rfl

theorem answerReceive_running (pending : (s.inbox h).recvPending = true) (e : s.task? h = some v)
    (state : v.state = .running q) :
    s.answerReceive h = ((s.deliverHead q h).completeReceive h .ok).afterDelivery h := by
  rw [answerReceive, if_pos pending]
  simp only [e, state]

/-! ### RECEIVE (R96 to R101) -/

/-- RECEIVE by the cases of R96. -/
theorem taken_receive (run : s.RunningAt p h v) : (s.taken p).receive p =
    if 0 < (s.inbox h).resident.length then
      (((((s.taken p).deliverHead p h).setResult p .ok 0#16).afterDelivery h)).evalPreempt
    else if 0 < (s.inbox h).occupancy then (s.taken p).beginReceivePending p h
    else if (s.inbox h).broken then s.answered p .broken 0#16
    else if waitFlag (s.port p).args[0] then
      (((s.taken p).armTimeout h (lowHalf (s.port p).args[0]) .recv).beginCheckIn p h .recvWait .empty).evalPreempt
    else s.answered p .empty 0#16 := by
  rw [receive, taken_onCurrent run, taken_self]
  simp only [taken_setResult, takenUnit_args]
  rfl

theorem taken_beginReceivePending (p : Port) (h : Handle) : (s.taken p).beginReceivePending p h =
    ((s.withInbox h { s.inbox h with recvPending := true }).withPort p
      { (s.takenUnit p).answer .pending 0#16 with state := .run h true }).refillCheck h := by
  have marked : (s.taken p).modInbox h (fun ib => { ib with recvPending := true }) =
    (s.withInbox h { s.inbox h with recvPending := true }).taken p := rfl
  rw [beginReceivePending, marked, setPortState_eq, setResult_eq, modPort_modPort, taken_modPort]
  rfl

end State

/-- Settles O27: the cases of R96 in their order. -/
theorem receiveDeliversWaitsOrReturns : Obligations.ReceiveDeliversWaitsOrReturns := by
  intro p h t s run ib ring arg timeout
  have taken : exec (.receive p) s = .next ((s.taken p).receive p) :=
    State.exec_running (c := .receive) run (.inr (.inr (.inr (.inr rfl))))
  have cases := State.taken_receive run
  have none (empty : ib.resident = []) : ¬ 0 < (s.inbox h).resident.length := by
    change ¬ 0 < ib.resident.length; rw [empty]; exact lt_irrefl 0
  have nothing (zero : ring = 0) : ¬ 0 < (s.inbox h).occupancy := by
    change ¬ 0 < ring; rw [zero]; exact lt_irrefl 0
  refine ⟨fun x rest resident => ?_, fun empty some => ?_, fun empty zero broken => ?_, fun empty zero whole =>
    ⟨fun flag => ?_, fun flag => ?_⟩⟩
  · have some : 0 < (s.inbox h).resident.length := by
      change 0 < ib.resident.length; rw [resident]; exact Nat.succ_pos _
    refine ⟨_, taken.trans (congrArg _ (cases.trans (if_pos some))), ?_⟩
    rw [State.deliverHead_head (s := s.taken p) resident]
    exact State.evalPreempt_reevaluated _
  · exact taken.trans (congrArg _ (cases.trans ((if_neg (none empty)).trans ((if_pos some).trans
      (State.taken_beginReceivePending p h)))))
  · exact taken.trans (congrArg _ (cases.trans ((if_neg (none empty)).trans ((if_neg (nothing zero)).trans (if_pos broken)))))
  · exact taken.trans (congrArg _ (cases.trans ((if_neg (none empty)).trans ((if_neg (nothing zero)).trans
      ((if_neg (Bool.eq_false_iff.1 whole)).trans (if_neg (Bool.eq_false_iff.1 flag)))))))
  · refine ⟨_, taken.trans (congrArg _ (cases.trans ((if_neg (none empty)).trans ((if_neg (nothing zero)).trans
      ((if_neg (Bool.eq_false_iff.1 whole)).trans (if_pos flag)))))), ?_⟩
    rw [State.taken_beginTimedCheckIn run.2.2.2]
    exact State.evalPreempt_reevaluated _

/-- Settles O53: a pending RECEIVE belongs to the port that runs the task. -/
theorem pendingReceivesAreCompleted : Obligations.PendingReceivesAreCompleted := by
  intro s h code
  refine ⟨fun idle => ⟨State.completeReceive_idle idle code, State.answerReceive_idle idle⟩, fun q t pending e state => ?_⟩
  refine ⟨State.completeReceive_running pending e state code, fun x rest resident => ?_⟩
  rw [State.answerReceive_running pending e state, State.deliverHead_head resident]
  rfl

/-! ### SETINBOX (R102) -/

namespace State
variable {s t : State} {p q : Port} {h k : Handle} {v : Task}

theorem inboxLimits_valid_iff (a : InboxLimits) (enable : Bool) : a.valid enable = true ↔
    1 ≤ a.limit ∧ a.limit ≤ 32 ∧ a.mark ≤ a.limit - 1 ∧ a.basePage ≤ 1048575 ∧ a.capacity ≤ 4096 ∧
      (0 < a.capacity → enable = true) ∧ a.basePage * 4096 + a.capacity * 32 ≤ 2 ^ 32 := by
  simp only [InboxLimits.valid, Bool.and_eq_true, Bool.or_eq_true, decide_eq_true_eq, beq_iff_eq]
  cases enable <;> simp <;> omega

/-- SETINBOX by its checks. -/
theorem taken_setInbox (s : State) (p : Port) : (s.taken p).setInbox p =
    let h := s.handleArg p
    let a := (s.port p).inboxLimits
    if !s.live h then s.answered p .badHandle 0#16
    else if !a.valid s.items.backingEnable then s.answered p .badArg 0#16
    else if (s.inbox h).total ≠ 0 ∨ (s.inbox h).broken then s.answered p .badState 0#16
    else (s.answered p .ok 0#16).withInbox h ((s.inbox h).setLimits a) := by
  have written (h : Handle) (a : InboxLimits) : ((s.taken p).modInbox h fun ib => ib.setLimits a).setResult p .ok 0#16 =
      (s.answered p .ok 0#16).withInbox h ((s.inbox h).setLimits a) :=
    congrArg (withInbox · h ((s.inbox h).setLimits a)) (s.taken_setResult .ok 0#16)
  rw [setInbox]
  simp only [taken_setResult, taken_handleArg, taken_self, written]
  rfl

end State

/-- Settles O28: the five checks are SETINBOX's own, with its argument fields. -/
theorem setInboxWritesTheLimits : Obligations.SetInboxWritesTheLimits := by
  intro p s free args h limit mark page capacity ib valid
  have taken : exec (.setInbox p) s = .next ((s.taken p).setInbox p) := State.exec_supervisor (c := .setInbox) free rfl nofun
  have cases := s.taken_setInbox p
  have judged : (s.port p).inboxLimits.valid s.items.backingEnable = true ↔ valid := State.inboxLimits_valid_iff ..
  refine ⟨fun stale => ?_, fun live => ?_⟩
  · have dead : (!s.live (s.handleArg p)) = true := by rw [Bool.not_eq_true']; exact stale
    rw [taken, cases]
    exact congrArg _ (if_pos dead)
  have alive : ¬ (!s.live (s.handleArg p)) = true := by rw [Bool.not_eq_true', Bool.not_eq_false]; exact live
  refine ⟨fun bad => ?_, fun good => ?_⟩
  · have refused : (!(s.port p).inboxLimits.valid s.items.backingEnable) = true := by
      rw [Bool.not_eq_true', Bool.eq_false_iff]; exact judged.not.2 bad
    rw [taken, cases]
    exact congrArg _ ((if_neg alive).trans (if_pos refused))
  have passed : ¬ (!(s.port p).inboxLimits.valid s.items.backingEnable) = true := by
    rw [Bool.not_eq_true', Bool.not_eq_false]; exact judged.2 good
  have total : (s.inbox (s.handleArg p)).total = ib.resident.length + (ib.spilling + ib.backed + ib.refilling) := rfl
  refine ⟨fun used => ?_, fun empty zero whole => ?_⟩
  · have busy : (s.inbox (s.handleArg p)).total ≠ 0 ∨ (s.inbox (s.handleArg p)).broken = true := by
      rw [total]
      rcases used with some | some | broken
      · exact .inl (by have := List.length_pos_iff.2 some; omega)
      · exact .inl (by omega)
      · exact .inr broken
    rw [taken, cases]
    exact congrArg _ ((if_neg alive).trans ((if_neg passed).trans (if_pos busy)))
  · have idle : ¬ ((s.inbox (s.handleArg p)).total ≠ 0 ∨ (s.inbox (s.handleArg p)).broken = true) := by
      rw [total, empty, zero]
      rintro (some | broken)
      · exact some rfl
      · exact Bool.false_ne_true (whole.symm.trans broken)
    rw [taken, cases]
    exact congrArg _ ((if_neg alive).trans ((if_neg passed).trans (if_neg idle)))

end Sys2Proof.Machine
end

section
/-! ## Event lines and faults -/

namespace Sys2Proof.Machine
namespace State
variable {s t : State} {p q : Port} {h k : Handle} {v : Task} {l : Line}

/-! ### BIND_EVENT and UNBIND_EVENT (R152, R153) -/

theorem lineOfWord_eq {w : Word} : lineOfWord w = some l ↔ w.toNat = l.val := by
  unfold lineOfWord
  split
  · simp [Fin.ext_iff]
  case isFalse out => simp; omega

theorem lineOfWord_none {w : Word} : lineOfWord w = none ↔ 15 < w.toNat := by
  unfold lineOfWord
  split <;> simp <;> omega

theorem tagOfWord_some {w : Word} (small : w.toNat ≤ 65535) : tagOfWord w = some (lowHalf w) := if_pos small

theorem tagOfWord_none {w : Word} (large : 65535 < w.toNat) : tagOfWord w = none := if_neg (Nat.not_le.2 large)

/-- BIND_EVENT by its checks. -/
theorem taken_bindEvent (s : State) (p : Port) : (s.taken p).bindEvent p =
    if !s.live (Handle.ofWord (s.port p).args[1]) then s.answered p .badHandle 0#16
    else match lineOfWord (s.port p).args[0], tagOfWord (s.port p).args[2] with
      | some l, some tag =>
        if s.lines[l].pending.isSome then s.answered p .badState 0#16
        else (s.answered p .ok 0#16).withLine l (s.lines[l].bind ⟨Handle.ofWord (s.port p).args[1], tag⟩)
      | _, _ => s.answered p .badArg 0#16 := by
  have written (l : Line) (b : Binding) : ((s.taken p).modLine l fun r => r.bind b).setResult p .ok 0#16 =
      (s.answered p .ok 0#16).withLine l (s.lines[l].bind b) :=
    congrArg (withLine · l (s.lines[l].bind b)) (s.taken_setResult .ok 0#16)
  rw [bindEvent]
  simp only [taken_setResult, taken_self, takenUnit_args, written, taken_live]
  rfl

theorem taken_unbindEvent (s : State) (p : Port) : (s.taken p).unbindEvent p =
    match lineOfWord (s.port p).args[0] with
    | some l => (s.answered p .ok 0#16).withLine l { s.lines[l] with binding := none }
    | none => s.answered p .badArg 0#16 := by
  have written (l : Line) : ((s.taken p).modLine l fun r => { r with binding := none }).setResult p .ok 0#16 =
      (s.answered p .ok 0#16).withLine l { s.lines[l] with binding := none } :=
    congrArg (withLine · l { s.lines[l] with binding := none }) (s.taken_setResult .ok 0#16)
  rw [unbindEvent]
  simp only [taken_setResult, taken_self, takenUnit_args, written] <;>
    cases lineOfWord (s.port p).args[0] <;> rfl

end State

/-- Settles O38: the handle, the words and the line's pending mark are judged in this order. -/
theorem bindAndUnbindWriteTheLine : Obligations.BindAndUnbindWriteTheLine := by
  intro p s free args h
  have bind : exec (.bindEvent p) s = .next ((s.taken p).bindEvent p) := State.exec_supervisor (c := .bindEvent) free rfl nofun
  have unbind : exec (.unbindEvent p) s = .next ((s.taken p).unbindEvent p) :=
    State.exec_supervisor (c := .unbindEvent) free rfl nofun
  rw [bind, unbind, State.taken_bindEvent, State.taken_unbindEvent]
  have alive (live : s.live h = true) : ¬ (!s.live (Handle.ofWord (s.port p).args[1])) = true := by
    rw [Bool.not_eq_true', Bool.not_eq_false]; exact live
  refine ⟨fun stale => ?_, fun live bad => ?_, fun out => ?_, fun l arg => ⟨fun live small => ⟨fun pending => ?_,
    fun clear => ?_⟩, ?_⟩⟩
  · exact congrArg _ (if_pos (by rw [Bool.not_eq_true']; exact stale))
  · rw [if_neg (alive live)]
    rcases bad with out | large
    · rw [State.lineOfWord_none.2 out]
    · rw [State.tagOfWord_none large]
      cases lineOfWord (s.port p).args[0] <;> rfl
  · rw [State.lineOfWord_none.2 out]
  · rw [if_neg (alive live), State.lineOfWord_eq.2 arg, State.tagOfWord_some small]
    exact congrArg _ (if_pos (Option.isSome_iff_ne_none.2 pending))
  · rw [if_neg (alive live), State.lineOfWord_eq.2 arg, State.tagOfWord_some small]
    exact congrArg _ (if_neg (by rw [clear]; nofun))
  · rw [State.lineOfWord_eq.2 arg]

/-! ### Edges (R145 to R148) -/

namespace State
variable {s t : State} {p q : Port} {h k : Handle} {v : Task} {l : Line}

theorem modLine_withLine (s : State) (l : Line) (f : LineRec → LineRec) : s.modLine l f = s.withLine l (f s.lines[l]) := rfl

@[simp] theorem withLine_line (s : State) (l : Line) (r : LineRec) : (s.withLine l r).lines[l] = r :=
  Vector.getElem_set_self ..

@[simp] theorem withLine_withLine (s : State) (l : Line) (r r' : LineRec) :
    (s.withLine l r).withLine l r' = s.withLine l r' := by
  simp only [withLine, Vector.set_set]

theorem edgeDetected_iff {level : Bool} : s.edgeDetected l level = true ↔
    s.lines[l].level ≠ level ∧ level = !s.items.polarity.getLsbD l.val := by
  cases level <;> simp [edgeDetected, falling]

/-- An edge that posts (R147), or whose message is refused (R148). -/
theorem postEvent_eq (s : State) (l : Line) (b : Binding) : s.postEvent l b =
    let r := s.route .ordinary b.target b.message
    if s.live b.target = true ∧ r.1.accepted = true then
      (r.2.withLine l (s.lines[l].posted ⟨b.target, (s.inbox b.target).nextSeq, r.1.place⟩)).evalPreempt
    else s.withLine l s.lines[l].refused := by
  have kept : (s.route .ordinary b.target b.message).2.lines[l] = s.lines[l] := by rw [route_lines]
  simp only [postEvent, modLine_withLine, kept]
  by_cases live : s.live b.target = true
  · by_cases accepted : (s.route .ordinary b.target b.message).1.accepted = true
    · rw [if_pos live, if_pos accepted, if_pos ⟨live, accepted⟩]
    · rw [if_pos live, if_neg accepted, if_neg fun both => accepted both.2]
  · rw [if_neg live, if_neg fun both => live both.1]

/-- An edge by the record of the line (R146). -/
theorem takeEdge_unbound (unbound : s.lines[l].binding = none) : s.takeEdge l = s := by rw [takeEdge, unbound]

theorem takeEdge_bound {b : Binding} (bound : s.lines[l].binding = some b) : s.takeEdge l =
    if s.lines[l].pending.isSome then
      s.withLine l { s.lines[l] with count := saturate16 (s.lines[l].count + 1) }
    else s.postEvent l b := by
  rw [takeEdge, bound]; rfl

end State

/-- Settles O39: the change is an edge or not, and the record decides; the routing of the message leaves the record alone. -/
theorem edgesActByTheLineRecord : Obligations.EdgesActByTheLineRecord := by
  intro l level s r0 u edge
  have acts : exec (.eventEdge l level) s = .next (if s.rstLow then s else s.settle.changeLevel l level) := rfl
  have line : u.lines[l] = r0 := State.withLine_line ..
  refine ⟨fun low => by rw [acts, if_pos low], fun high quiet => ?_⟩
  have changed : exec (.eventEdge l level) s = .next (if s.edgeDetected l level then u.takeEdge l else u) := by
    rw [acts, high, s.settle_eq_self quiet]; rfl
  refine ⟨fun none => ?_, fun some => ?_⟩
  · rw [changed, if_neg (State.edgeDetected_iff.not.2 none)]
  have taken : exec (.eventEdge l level) s = .next (u.takeEdge l) := by
    rw [changed, if_pos (State.edgeDetected_iff.2 some)]
  refine ⟨fun unbound => ?_, fun b bound => ⟨fun pending => ?_, fun clear => ?_⟩⟩
  · rw [taken, State.takeEdge_unbound (by rw [line]; exact unbound)]
  · rw [taken, State.takeEdge_bound (b := b) (by rw [line]; exact bound), line,
      if_pos (Option.isSome_iff_ne_none.2 pending), State.withLine_withLine]
    rfl
  · intro r posted
    have post : exec (.eventEdge l level) s = .next (if s.live b.target = true ∧ r.1.accepted = true then
        (posted r.1.place).evalPreempt else s.withLine l r0.refused) := by
      rw [taken, State.takeEdge_bound (b := b) (by rw [line]; exact bound), line, if_neg (by rw [clear]; nofun),
        State.postEvent_eq, line, State.withLine_withLine]
      rfl
    refine ⟨fun live o => ?_, fun live o => ?_, fun refused => ?_⟩
    · refine ⟨_, post.trans (congrArg _ (if_pos ⟨live, by rw [o]; rfl⟩)), ?_⟩
      rw [o]; exact State.evalPreempt_reevaluated _
    · refine ⟨_, post.trans (congrArg _ (if_pos ⟨live, by rcases o with o | o <;> rw [o] <;> rfl⟩)), ?_⟩
      rcases o with o | o <;> rw [o] <;> exact State.evalPreempt_reevaluated _
    · have out : ¬ (s.live b.target = true ∧ r.1.accepted = true) := by
        rintro ⟨live, accepted⟩
        rcases refused with stale | o | o | o
        · exact Bool.false_ne_true (stale.symm.trans live)
        · rw [o] at accepted; nomatch accepted
        · rw [o] at accepted; nomatch accepted
        · rw [o] at accepted; nomatch accepted
      exact post.trans (congrArg _ (if_neg out))

/-! ### The sink and the faults (R158, R162 to R164) -/

namespace State
variable {s t : State} {p q : Port} {h k : Handle} {v : Task} {l : Line}

theorem taken_setSink (s : State) (p : Port) : (s.taken p).setSink p =
    if s.live (s.handleArg p) then { s.answered p .ok s.sinkBits with sink := some (s.handleArg p) }
    else s.answered p .badHandle 0#16 := by
  have written : ({ s.taken p with sink := some (s.handleArg p) } : State).setResult p .ok s.sinkBits =
      { s.answered p .ok s.sinkBits with sink := some (s.handleArg p) } :=
    congrArg (fun u : State => { u with sink := some (s.handleArg p) }) (s.taken_setResult .ok s.sinkBits)
  rw [setSink]
  simp only [taken_setResult, taken_handleArg]
  exact congrArg (ite _ · _) written

/-- Where a fault goes. -/
theorem raiseFault_unset (unset : s.sink = none) (f : FaultReport) : s.raiseFault f = s.countUnreported := by
  rw [raiseFault, unset]

theorem raiseFault_stale (set : s.sink = some k) (stale : s.live k = false) (f : FaultReport) :
    s.raiseFault f = s.countUnreported := by
  rw [raiseFault, set]; simp [stale]

theorem raiseFault_live (set : s.sink = some k) (live : s.live k = true) (f : FaultReport) : s.raiseFault f =
    if (s.route .fault k f.message).1.accepted then (s.route .fault k f.message).2 else s.countUnreported := by
  rw [raiseFault, set]
  simp only [live, if_true]
  cases outcome : (s.route .fault k f.message).1.accepted
  · simp only [Bool.false_eq_true, if_false, route_refused outcome]
  · rfl

end State

/-- Settles O40: SETSINK checks its handle; a fault is routed to a live sink, and counted when there is none or it refuses. -/
theorem faultsGoToTheSinkOrAreCounted : Obligations.FaultsGoToTheSinkOrAreCounted := by
  have word (h : Handle) : h.bits.setWidth 32 = 0#16 ++ h.bits := setWidth_append_zero _
  refine ⟨fun p s free => ?_, fun h p => ?_, fun h d => ?_, fun s f => ?_⟩
  · intro h
    have taken : exec (.setSink p) s = .next ((s.taken p).setSink p) := State.exec_supervisor (c := .setSink) free rfl nofun
    have cases := s.taken_setSink p
    refine ⟨fun stale => ?_, fun live => ?_⟩
    · rw [taken, cases]; exact congrArg _ (if_neg (Bool.eq_false_iff.1 stale))
    · have set := taken.trans (congrArg _ (cases.trans (if_pos live)))
      refine ⟨fun unset => set.trans ?_, fun k previous => set.trans ?_⟩
      · rw [State.sinkBits, unset]; rfl
      · rw [State.sinkBits, previous]; rfl
  · simp only [FaultReport.message, word]
    exact ⟨rfl, rfl, rfl⟩
  · simp only [FaultReport.message, word]
    rfl
  · intro counted
    have count : s.countUnreported = counted := rfl
    refine ⟨fun unset => State.raiseFault_unset unset f, fun k set => ⟨fun stale => State.raiseFault_stale set stale f,
      fun live => ?_⟩⟩
    intro r
    have fault : s.raiseFault f = if r.1.accepted then r.2 else counted := State.raiseFault_live set live f
    refine ⟨fun o => ?_, fun o => ?_⟩
    · rw [fault]; rcases o with o | o | o <;> rw [o] <;> rfl
    · rw [fault]; rcases o with o | o | o <;> rw [o] <;> rfl

end Sys2Proof.Machine
end

section
/-! ## Task commands -/

namespace Sys2Proof.Machine
namespace State
variable {s t : State} {p q : Port} {h k : Handle} {v : Task}

/-! ### Acting on the named task -/

theorem taken_onNamed_some (e : s.task? (s.handleArg p) = some v) (f : Handle → Task → State) :
    (s.taken p).onNamed p f = f (s.handleArg p) v := by
  have record : (s.taken p).task? (s.handleArg p) = some v := e
  rw [onNamed, taken_handleArg]
  exact congrArg (fun r : Option Task => match r with
    | some t => f (s.handleArg p) t
    | none => (s.taken p).setResult p .badHandle 0#16) record

theorem taken_onNamed_none (e : s.task? (s.handleArg p) = none) (f : Handle → Task → State) :
    (s.taken p).onNamed p f = s.answered p .badHandle 0#16 := by
  have record : (s.taken p).task? (s.handleArg p) = none := e
  rw [onNamed, taken_handleArg]
  exact (congrArg (fun r : Option Task => match r with
    | some t => f (s.handleArg p) t
    | none => (s.taken p).setResult p .badHandle 0#16) record).trans (taken_setResult ..)

/-- The record of the task is written, and the command is answered. -/
theorem taken_setTaskState (e : s.task? h = some v) (p : Port) (st : TaskState) :
    (s.taken p).setTaskState h st = (s.withTask h { v with state := st }).taken p :=
  modTask_withTask (s := s.taken p) e fun t => { t with state := st }

theorem taken_linked (L : s.Linked) (p : Port) : (s.taken p).Linked :=
  L.modPort (p := p) (f := fun u => { u with lease := s.items.leases[p] }) rfl

/-! ### CREATE (R10 to R12) -/

theorem priorityOfWord_eq {w : Word} {prio : Priority} : priorityOfWord w = some prio ↔ w.toNat = prio.val := by
  unfold priorityOfWord
  split
  · simp [Fin.ext_iff]
  case isFalse out => simp; omega

theorem priorityOfWord_none {w : Word} : priorityOfWord w = none ↔ 15 < w.toNat := by
  unfold priorityOfWord
  split <;> simp <;> omega

theorem affinityOfWord_some {w : Word} (low : 1 ≤ w.toNat) (high : w.toNat ≤ 15) :
    affinityOfWord w = some (w.extractLsb' 0 4) := if_pos ⟨low, high⟩

theorem affinityOfWord_none {w : Word} (out : w.toNat = 0 ∨ 15 < w.toNat) : affinityOfWord w = none :=
  if_neg (by omega)

theorem frameLengthOfWord_some {w : Word} (low : 4 ≤ w.toNat) (high : w.toNat ≤ 32) (step : w.toNat % 4 = 0) :
    frameLengthOfWord w = some w.toNat := if_pos ⟨low, high, step⟩

theorem frameLengthOfWord_none {w : Word} (out : w.toNat < 4 ∨ 32 < w.toNat ∨ w.toNat % 4 ≠ 0) :
    frameLengthOfWord w = none := if_neg (by omega)

theorem taken_create (s : State) (p : Port) : (s.taken p).create p =
    match priorityOfWord (s.port p).args[0], affinityOfWord (s.port p).args[1], frameLengthOfWord (s.port p).args[2] with
    | some prio, some aff, some len => (s.taken p).createTask p (Task.new prio aff len)
    | _, _, _ => s.answered p .badArg 0#16 := by
  rw [create]
  simp only [taken_setResult, taken_self, takenUnit_args] <;> rfl

theorem taken_createTask_full (full : s.freeSlots = []) (p : Port) (v : Task) :
    (s.taken p).createTask p v = s.answered p .noSpace 0#16 := by
  have none : (s.taken p).freeSlots = [] := full
  rw [createTask, none]
  exact taken_setResult ..

theorem taken_createTask_top {slot : Slot} {rest : List Slot} (top : s.freeSlots = slot :: rest) (p : Port) (v : Task) :
    (s.taken p).createTask p v =
      { (s.answered p .ok (Handle.mk slot s.tasks[slot].gen).bits).withTask ⟨slot, s.tasks[slot].gen⟩ v with
        freeSlots := rest
        frames := s.frames.set slot (Vector.replicate 48 0#32)
        inboxes := s.inboxes.set slot Inbox.default } := by
  have some : (s.taken p).freeSlots = slot :: rest := top
  rw [createTask, some]
  exact congrArg (fun u : State => { u.withTask ⟨slot, s.tasks[slot].gen⟩ v with
    freeSlots := rest
    frames := s.frames.set slot (Vector.replicate 48 0#32)
    inboxes := s.inboxes.set slot Inbox.default }) (s.taken_setResult .ok (Handle.mk slot s.tasks[slot].gen).bits)

end State

/-- Settles O32: the three words are in range or not, and the free-slot list has a top or not. -/
theorem createMakesADormantTask : Obligations.CreateMakesADormantTask := by
  intro p s free a0 a1 a2
  have taken : exec (.create p) s = .next ((s.taken p).create p) := State.exec_supervisor (c := .create) free rfl nofun
  have cases := s.taken_create p
  refine ⟨fun bad => ?_, fun prio low high least most step => ?_⟩
  · rw [taken, cases]
    have length (out : a2.toNat < 4 ∨ 32 < a2.toNat ∨ a2.toNat % 4 ≠ 0) : Host.Outcome.next (match priorityOfWord
        (s.port p).args[0], affinityOfWord (s.port p).args[1], frameLengthOfWord (s.port p).args[2] with
        | some prio, some aff, some len => (s.taken p).createTask p (Task.new prio aff len)
        | _, _, _ => s.answered p .badArg 0#16) = (.next (s.answered p .badArg 0#16) : Result) := by
      rw [State.frameLengthOfWord_none out]
      cases priorityOfWord (s.port p).args[0] <;> cases affinityOfWord (s.port p).args[1] <;> rfl
    rcases bad with prio | zero | high | short | long | step
    · rw [State.priorityOfWord_none.2 prio]
    · rw [State.affinityOfWord_none (.inl zero)]
      cases priorityOfWord (s.port p).args[0] <;> rfl
    · rw [State.affinityOfWord_none (.inr high)]
      cases priorityOfWord (s.port p).args[0] <;> rfl
    · exact length (.inl short)
    · exact length (.inr (.inl long))
    · exact length (.inr (.inr step))
  · have prioWord : priorityOfWord (s.port p).args[0] = some (Fin.ofNat 16 a0.toNat) :=
      State.priorityOfWord_eq.2 (Nat.mod_eq_of_lt (Nat.lt_succ_of_le prio)).symm
    have made : exec (.create p) s = .next ((s.taken p).createTask p
        (Task.new (Fin.ofNat 16 a0.toNat) (a1.extractLsb' 0 4) a2.toNat)) := by
      rw [taken, cases, prioWord, State.affinityOfWord_some low high, State.frameLengthOfWord_some least most step]
    refine ⟨fun full => ?_, fun slot rest top => ?_⟩
    · rw [made, State.taken_createTask_full full]
    · rw [made, State.taken_createTask_top top]; rfl

/-! ### SEED (R47) -/

namespace State
variable {s t : State} {p q : Port} {h k : Handle} {v : Task}

/-- SEED of a live task by its seeding port and its state. -/
theorem taken_seed (e : s.task? (s.handleArg p) = some v) : (s.taken p).seed p =
    if v.seedPort.isSome then s.answered p .busy 0#16
    else if v.state.place = .stopped then (s.withTask (s.handleArg p) { v with seedPort := some p }).withPort p
      { (s.takenUnit p).answer .ok 0#16 with state := .saving .seed (s.handleArg p) [] }
    else s.answered p .badState 0#16 := by
  have record : (s.taken p).modTask (s.handleArg p) (fun t => { t with seedPort := some p }) =
    (s.withTask (s.handleArg p) { v with seedPort := some p }).taken p :=
      modTask_withTask (s := s.taken p) e fun t => { t with seedPort := some p }
  have begins : (s.taken p).beginSeed p (s.handleArg p) = (s.withTask (s.handleArg p) { v with seedPort := some p }).withPort p
      { (s.takenUnit p).answer .ok 0#16 with state := .saving .seed (s.handleArg p) [] } := by
    rw [beginSeed, record, setPortState_eq, setResult_eq, modPort_modPort, taken_modPort]
    rfl
  rw [seed, taken_onNamed_some e]
  simp only [begins, taken_setResult]
  split
  · rfl
  · cases v.state <;> rfl

end State

theorem place_stopped_iff {st : TaskState} : st.place = .stopped ↔
    st = .dormant ∨ st = .halted .supervisor ∨ st = .halted .portLost := by
  cases st with
  | halted reason => cases reason <;> simp [TaskState.place]
  | _ => simp [TaskState.place]

/-- Settles O33: the record's seeding port and its state are judged in this order. -/
theorem seedBeginsWritingAStoppedTask : Obligations.SeedBeginsWritingAStoppedTask := by
  intro p s free idle h
  have taken : exec (.seed p) s = .next ((s.taken p).seed p) :=
    State.exec_taken (c := .seed) free.1.1 (by rw [free.1.2.1]; rfl) (.inl (by rw [idle]; rfl)) (by rw [idle]; rfl)
      (.inr free.2)
  refine ⟨fun stale => ?_, fun t e => ?_⟩
  · rw [taken, State.seed, State.taken_onNamed_none stale]
  rw [taken, State.taken_seed e]
  refine ⟨fun seeding => ?_, fun unseeded => ⟨fun stopped => ?_, fun active => ?_⟩⟩
  · exact congrArg _ (if_pos (Option.isSome_iff_ne_none.2 seeding))
  · exact congrArg _ ((if_neg (by rw [unseeded]; nofun)).trans (if_pos (place_stopped_iff.2 stopped)))
  · exact congrArg _ ((if_neg (by rw [unseeded]; nofun)).trans (if_neg active))

/-! ### ACTIVATE and RELEASE (R13, R14) -/

namespace State
variable {s t : State} {p q : Port} {h k : Handle} {v : Task}

theorem withPort_comm (other : q ≠ p) (u w : PortUnit) : (s.withPort p u).withPort q w = (s.withPort q w).withPort p u := by
  have apart : p.val ≠ q.val := fun same => other (Fin.ext same.symm)
  simp only [withPort]
  rw [Vector.set_comm _ _ apart]

/-- An offer passes by a port that does not wait. -/
theorem offered_withPort (out : p ∉ s.awaitList) (h : Handle) (v : Task) (queue : List Handle) (u : PortUnit) :
    (s.withPort p u).offered h v queue = (s.offered h v queue).withPort p u := by
  rw [offered_eq, offered_eq]
  change (match s.awaitList.find? fun r => v.eligible r with
    | none => _
    | some r => _) = _
  cases found : s.awaitList.find? fun r => v.eligible r with
  | none => rfl
  | some r =>
    have other : r ≠ p := fun same => out (same ▸ List.mem_of_find?_eq_some found)
    have unit : (s.withPort p u).port r = s.port r := by rw [withPort_port, if_neg other]
    simp only [unit]
    exact withPort_comm (s := (s.withTask h { v with state := .running r }).withAwait
      (s.awaitList.filter fun x => x ≠ r)) other u _

/-- A free port is not on the await list. -/
theorem Linked.free_not_waiting (L : s.Linked) (free : (s.port p).state.Free) : p ∉ s.awaitList := by
  rw [L.await]
  rcases free_iff.1 free with idle | ⟨h, run⟩
  · rw [idle]; nofun
  · rw [run]; nofun

/-- The answer to a command and the offer of a task to the ports that wait do not touch each other. -/
theorem offered_answered (out : p ∉ s.awaitList) (h : Handle) (v : Task) (queue : List Handle) (u : PortUnit) :
    ((s.withPort p u).offered h v queue).setResult p .ok 0#16 =
      (s.withPort p (u.answer .ok 0#16)).offered h v queue := by
  rw [offered_withPort out, offered_withPort out, setResult_eq, modPort_withPort, withPort_port, if_pos rfl,
    withPort_withPort]
  rfl

theorem taken_readyTail (L : s.Linked) (e : s.task? h = some v) (state : v.state ≠ .ready) (out : p ∉ s.awaitList) :
    ((s.taken p).readyTail h).setResult p .ok 0#16 =
      (s.answered p .ok 0#16).offered h v (s.ready[v.priority] ++ [h]) := by
  have ready := readyTail_eq_offered (s := s.taken p) e (L.not_mem_ready e state v.priority)
  rw [ready]
  exact offered_answered out h v (s.ready[v.priority] ++ [h]) (s.takenUnit p)

/-- ACTIVATE of a live task. -/
theorem taken_activate (e : s.task? (s.handleArg p) = some v) : (s.taken p).activate p =
    if v.seedPort.isSome then s.answered p .busy 0#16
    else if v.state = .dormant then ((((s.taken p).readyTail (s.handleArg p)).setResult p .ok 0#16)).evalPreempt
    else s.answered p .badState 0#16 := by
  rw [activate, taken_onNamed_some e]
  simp only [taken_setResult]

/-- RELEASE of a live task. -/
theorem taken_release (e : s.task? (s.handleArg p) = some v) : (s.taken p).release p =
    if v.seedPort.isSome then s.answered p .busy 0#16
    else if v.state = .halted .supervisor ∨ v.state = .halted .portLost then
      (s.answered p .ok 0#16).withTask (s.handleArg p) { v with state := .dormant }
    else s.answered p .badState 0#16 := by
  have released : ((s.taken p).setTaskState (s.handleArg p) .dormant).setResult p .ok 0#16 =
      (s.answered p .ok 0#16).withTask (s.handleArg p) { v with state := .dormant } := by
    rw [taken_setTaskState e, taken_setResult]; rfl
  rw [release, taken_onNamed_some e]
  simp only [taken_setResult, released]
  split
  · rfl
  · cases v.state with
    | halted reason => cases reason <;> rfl
    | _ => simp

end State

/-- Settles O34: the seeding port and the state are judged in this order; a port that issues a command waits for no task. -/
theorem activateAndReleaseMoveTheTask : Obligations.ActivateAndReleaseMoveTheTask := by
  intro p s free L h
  have activate : exec (.activate p) s = .next ((s.taken p).activate p) := State.exec_supervisor (c := .activate) free rfl nofun
  have release : exec (.release p) s = .next ((s.taken p).release p) := State.exec_supervisor (c := .release) free rfl nofun
  refine ⟨fun stale => ⟨?_, ?_⟩, fun t e => ?_⟩
  · rw [activate, State.activate, State.taken_onNamed_none stale]
  · rw [release, State.release, State.taken_onNamed_none stale]
  rw [activate, release, State.taken_activate e, State.taken_release e]
  refine ⟨fun seeding => ?_, fun unseeded => ?_⟩
  · have busy := Option.isSome_iff_ne_none.2 seeding
    exact ⟨congrArg _ (if_pos busy), congrArg _ (if_pos busy)⟩
  have clear : ¬ t.seedPort.isSome = true := by rw [unseeded]; nofun
  refine ⟨fun other => ?_, fun dormant => ⟨_, congrArg _ ((if_neg clear).trans (if_pos dormant)), ?_⟩, fun halted => ?_,
    fun supervisor lost => ?_⟩
  · exact congrArg _ ((if_neg clear).trans (if_neg other))
  · have ready := State.taken_readyTail L e (by rw [dormant]; nofun) (L.free_not_waiting free.1.2.2)
    change (((s.taken p).readyTail h).setResult p .ok 0#16).evalPreempt.Reevaluated _
    rw [ready]
    exact State.evalPreempt_reevaluated _
  · exact congrArg _ ((if_neg clear).trans (if_pos halted))
  · exact congrArg _ ((if_neg clear).trans (if_neg (not_or.2 ⟨supervisor, lost⟩)))

end Sys2Proof.Machine
end

section
/-! ## HALT, the fields of a task, and the loss of a port -/

namespace Sys2Proof.Machine
namespace State
variable {s t : State} {p q : Port} {h k : Handle} {v : Task}

/-! ### A task taken out of what holds it -/

theorem withPort_undoWait (e : s.task? h = some v) (p : Port) (u : PortUnit) :
    (s.withPort p u).undoWait h = (s.undoWait h).withPort p u := by
  rw [undoWait_of_task e, undoWait_of_task (s := s.withPort p u) e]
  cases v.pendingSend <;> rfl

/-- The task on a port, and a pending RECEIVE there: its inbox's mark is cleared. -/
def receiveAbandoned (s : State) (q : Port) (h : Handle) : State :=
  if (s.port q).state = .run h true then s.withInbox h { s.inbox h with recvPending := false } else s

/-- The port that holds a task does a RECEIVE for that task only. -/
theorem abandonReceive_of_current (L : s.Linked) (e : s.task? h = some v) (current : v.state.currentPort = some q) :
    s.abandonReceive q = s.receiveAbandoned q h := by
  have post : (s.port q).state.post = .holds h ∨ (s.port q).state.post = .saves h := by
    cases state : v.state with
    | running r =>
      rw [state] at current
      exact .inl ((L.held q h).2 ⟨v, e, by rw [state, ← Option.some.inj current]; rfl⟩)
    | saving r d satisfied =>
      rw [state] at current
      exact .inr ((L.saved q h).2 ⟨v, e, by rw [state, ← Option.some.inj current]; rfl⟩)
    | _ => rw [state] at current; nomatch current
  unfold abandonReceive receiveAbandoned
  cases state : (s.port q).state with
  | run k receiving =>
    rw [state] at post
    obtain rfl : k = h := by rcases post with same | same <;> injection same
    cases receiving
    · simp
    · simp; rfl
  | _ => simp

/-- The eviction of a task from the port that holds it (R15 to R17). -/
theorem evict_of_current (L : s.Linked) (e : s.task? h = some v) (current : v.state.currentPort = some q)
    (code : ResultCode) : s.evict q h code = ((s.receiveAbandoned q h).undoWait h).withPort q
      { (s.port q).answer code 0#16 with state := .idle, evicted := true } := by
  have unit : ((s.receiveAbandoned q h).undoWait h).port q = s.port q := by
    rw [undoWait_port]; unfold receiveAbandoned; split <;> rfl
  rw [evict, abandonReceive_of_current L e current, evictPort_eq, modPort_withPort, unit]
  rfl

theorem receiveAbandoned_task? (k : Handle) : (s.receiveAbandoned q h).task? k = s.task? k := by
  unfold receiveAbandoned; split <;> rfl

/-! ### HALT (R19 to R21) -/

theorem taken_halt (e : s.task? (s.handleArg p) = some v) : (s.taken p).halt p =
    if v.state = .halted .supervisor ∨ v.state = .halted .portLost then s.answered p .badState 0#16
    else (s.taken p).haltTask p (s.handleArg p) v := by
  rw [halt, taken_onNamed_some e]
  simp only [taken_setResult]
  cases v.state with
  | halted reason => cases reason <;> rfl
  | _ => simp

/-- The end of HALT at a task that the issuing port does not hold: the record, and OK in RESULT. -/
theorem halted_answered {u : State} (e : u.task? h = some v) (p : Port) (unit : PortUnit) (st : TaskState) :
    ((u.withPort p unit).setTaskState h st).setResult p .ok 0#16 =
      (u.withTask h { v with state := st }).withPort p (unit.answer .ok 0#16) := by
  have record := modTask_withTask (s := u.withPort p unit) (h := h) e fun t => { t with state := st }
  have written : (u.withPort p unit).withTask h { v with state := st } =
    (u.withTask h { v with state := st }).withPort p unit := rfl
  rw [setTaskState, record, written, setResult_eq, modPort_withPort, withPort_port, if_pos rfl, withPort_withPort]
  rfl

/-- HALT of a task that no port holds. -/
theorem taken_haltTask_off (off : v.state.currentPort = none) : (s.taken p).haltTask p h v =
    ((((s.taken p).detachTask h v.state .halted).setTaskState h (.halted .supervisor)).setResult p .ok 0#16).evalPreempt := by
  rw [haltTask, answerEvicter, off, if_neg nofun]

/-- The state in which a task is evicted from port `q` with a code, by a command taken at port `p`. -/
def evictedFrom (s : State) (p q : Port) (h : Handle) (code : ResultCode) : State :=
  ((if (s.port q).state = .run h true then ((s.taken p).withPort q
      { ((s.taken p).port q).answer code 0#16 with state := .idle, evicted := true }).withInbox h
        { s.inbox h with recvPending := false }
    else (s.taken p).withPort q
      { ((s.taken p).port q).answer code 0#16 with state := .idle, evicted := true })).undoWait h

theorem taken_evict (L : s.Linked) (e : s.task? h = some v) (current : v.state.currentPort = some q) (p : Port)
    (code : ResultCode) : (s.taken p).evict q h code = s.evictedFrom p q h code := by
  have state : ((s.taken p).port q).state = (s.port q).state := by rw [taken_port]; split <;> simp_all
  have record : ((s.taken p).receiveAbandoned q h).task? h = some v := (receiveAbandoned_task? h).trans e
  rw [evict_of_current (taken_linked L p) e current, ← withPort_undoWait record]
  refine congrArg (undoWait · h) ?_
  unfold receiveAbandoned
  rw [state]
  split <;> rfl

/-- The record of an evicted task. -/
theorem evictedFrom_task? (e : s.task? h = some v) (p q : Port) (code : ResultCode) :
    (s.evictedFrom p q h code).task? h = some { v with pendingSend := none } := by
  refine undoWait_task?_self ?_
  split <;> exact e

theorem evictedFrom_port {r : Port} (other : r ≠ q) (p : Port) (code : ResultCode) :
    (s.evictedFrom p q h code).port r = (s.taken p).port r := by
  rw [evictedFrom, undoWait_port]
  split
  · exact (withPort_port r _).trans (if_neg other)
  · exact (withPort_port r _).trans (if_neg other)

/-- The task halted, with the port that held it evicted. -/
def haltedFrom (s : State) (p q : Port) (h : Handle) (v : Task) : State :=
  (s.evictedFrom p q h .halted).withTask h { v with state := .halted .supervisor, pendingSend := none }

/-- HALT of a task that a port holds. -/
theorem taken_haltTask_on (L : s.Linked) (e : s.task? h = some v) (current : v.state.currentPort = some q) (p : Port) :
    (s.taken p).haltTask p h v = (if q = p then s.haltedFrom p q h v else
      (s.haltedFrom p q h v).withPort p ((s.takenUnit p).answer .ok 0#16)).evalPreempt := by
  have detached : (s.taken p).detachTask h v.state .halted = s.evictedFrom p q h .halted := by
    rw [← taken_evict L e current p .halted]
    cases state : v.state with
    | running r => rw [state] at current; rw [← Option.some.inj current]; rfl
    | saving r d satisfied => rw [state] at current; rw [← Option.some.inj current]; rfl
    | _ => rw [state] at current; nomatch current
  have record : (s.evictedFrom p q h .halted).setTaskState h (.halted .supervisor) = s.haltedFrom p q h v :=
    modTask_withTask (evictedFrom_task? e p q .halted) fun t => { t with state := .halted .supervisor }
  rw [haltTask, detached, record, answerEvicter, current]
  refine congrArg evalPreempt ?_
  by_cases same : q = p
  · rw [if_pos (congrArg some same), if_pos same]
  · have unit : (s.haltedFrom p q h v).port p = s.takenUnit p :=
      (evictedFrom_port (fun e => same e.symm) p .halted).trans taken_self
    rw [if_neg (fun e => same (Option.some.inj e)), if_neg same, setResult_eq, modPort_withPort, unit]
    rfl

end State

/-- Settles O35: the task leaves what its state says holds it, and is HALTED. -/
theorem haltStopsTheTask : Obligations.HaltStopsTheTask := by
  intro p s free L h ok
  have taken : exec (.halt p) s = .next ((s.taken p).halt p) := State.exec_supervisor (c := .halt) free rfl nofun
  refine ⟨fun stale => ?_, fun t e => ?_⟩
  · rw [taken, State.halt, State.taken_onNamed_none stale]
  intro stopped
  have cases := State.taken_halt e
  have halts (state : t.state ≠ .halted .supervisor ∧ t.state ≠ .halted .portLost) :
      exec (.halt p) s = .next ((s.taken p).haltTask p h t) := by
    rw [taken, cases]; exact congrArg _ (if_neg (not_or.2 state))
  refine ⟨fun halted => ?_, fun dormant => ?_, fun ready => ?_, fun waits => ?_, fun q current => ?_⟩
  · rw [taken, cases]; exact congrArg _ (if_pos halted)
  · refine ⟨_, halts ⟨by rw [dormant]; nofun, by rw [dormant]; nofun⟩, ?_⟩
    have ended := State.halted_answered e p (s.takenUnit p) (.halted .supervisor)
    rw [State.taken_haltTask_off (by rw [dormant]; rfl), dormant]
    change (State.evalPreempt (((s.withPort p (s.takenUnit p)).setTaskState h _).setResult p .ok 0#16)).Reevaluated _
    rw [ended]
    exact State.evalPreempt_reevaluated _
  · refine ⟨_, halts ⟨by rw [ready]; nofun, by rw [ready]; nofun⟩, ?_⟩
    have queue : (s.taken p).detachTask h .ready .halted = (s.withReady (s.ready.set t.priority
        (s.ready[t.priority].filter fun x => x ≠ h))).withPort p (s.takenUnit p) := State.dequeue_of (s := s.taken p) e
    have ended := State.halted_answered (u := s.withReady (s.ready.set t.priority
      (s.ready[t.priority].filter fun x => x ≠ h))) e p (s.takenUnit p) (.halted .supervisor)
    rw [State.taken_haltTask_off (by rw [ready]; rfl), ready, queue, ended]
    exact State.evalPreempt_reevaluated _
  · have off : t.state.currentPort = none ∧ (s.taken p).detachTask h t.state .halted = (s.taken p).undoWait h ∧
        t.state ≠ .halted .supervisor ∧ t.state ≠ .halted .portLost := by
      rcases waits with st | st | st <;> rw [st] <;> exact ⟨rfl, rfl, nofun, nofun⟩
    obtain ⟨off, detach, state⟩ := off
    refine ⟨_, halts state, ?_⟩
    have ended := State.halted_answered (State.undoWait_task?_self e) p (s.takenUnit p) (.halted .supervisor)
    rw [State.taken_haltTask_off off, detach, State.taken, State.withPort_undoWait e, ended]
    have undone : ok.undoWait h = (s.undoWait h).withPort p ((s.takenUnit p).answer .ok 0#16) := State.withPort_undoWait e ..
    rw [undone]
    exact State.evalPreempt_reevaluated _
  · have on : t.state.currentPort = some q ∧ t.state ≠ .halted .supervisor ∧ t.state ≠ .halted .portLost := by
      rcases current with st | ⟨d, satisfied, st⟩ <;> rw [st] <;> exact ⟨rfl, nofun, nofun⟩
    refine ⟨_, halts on.2, ?_⟩
    rw [State.taken_haltTask_on L e on.1]
    exact State.evalPreempt_reevaluated _

/-! ### SETPRIO and SETAFFINITY (R26, R27) -/

namespace State
variable {s t : State} {p q : Port} {h k : Handle} {v : Task}

/-- A READY task moves to the tail of the queue of another priority and is offered. -/
theorem changePriority_ready (L : s.Linked) (e : s.task? h = some v) (ready : v.state = .ready) {prio : Priority}
    (other : prio ≠ v.priority) : s.changePriority h v prio =
      (s.withReady (s.ready.set v.priority (s.ready[v.priority].filter fun x => x ≠ h))).offered h
        { v with priority := prio } (s.ready[prio] ++ [h]) := by
  have out : h ∉ s.ready[prio] := by
    rw [L.mem_ready_iff]
    rintro ⟨w, same, -, prio'⟩
    exact other (by rw [← prio', ← Option.some.inj (e.symm.trans same)])
  have queue : (s.ready.set v.priority (s.ready[v.priority].filter fun x => x ≠ h))[prio] = s.ready[prio] :=
    Vector.getElem_set_ne _ _ (fun same => other (Fin.ext same.symm))
  have left : s.dequeue h = s.withReady (s.ready.set v.priority (s.ready[v.priority].filter fun x => x ≠ h)) :=
    dequeue_of e
  have moved := offer_eq_offered (s := s.withReady (s.ready.set v.priority (s.ready[v.priority].filter fun x => x ≠ h)))
    (h := h) { v with priority := prio } (queue := s.ready[prio] ++ [h]) ((filter_tail out).trans queue.symm)
  have record := modTask_withTask (s := s.withReady (s.ready.set v.priority (s.ready[v.priority].filter fun x => x ≠ h)))
    (h := h) e fun t => { t with priority := prio }
  rw [changePriority, if_pos ready, left, record, enqueueTail_of (withTask_task?_self h _), ← moved]
  refine congrArg (offer · h) ?_
  have same : ({ v with state := .ready, priority := prio } : Task) = { v with priority := prio } := by rw [← ready]
  simp only [same]
  exact congrArg (fun ready' : List Handle => ((s.withReady (s.ready.set v.priority
    (s.ready[v.priority].filter fun x => x ≠ h))).withTask h { v with priority := prio }).withReady
      ((s.ready.set v.priority (s.ready[v.priority].filter fun x => x ≠ h)).set prio (ready' ++ [h]))) queue

end State

end Sys2Proof.Machine
end

section
/-! ## The fields of a task, and the loss of a port -/

namespace Sys2Proof.Machine
namespace State
variable {s t : State} {p q : Port} {h k : Handle} {v : Task}

/-- The record is written, and the command is answered. -/
theorem taken_record_answered (e : s.task? h = some v) (p : Port) (f : Task → Task) :
    ((s.taken p).modTask h f).setResult p .ok 0#16 = (s.answered p .ok 0#16).withTask h (f v) := by
  have record : (s.taken p).modTask h f = (s.withTask h (f v)).taken p := modTask_withTask (s := s.taken p) e f
  rw [record, taken_setResult]
  rfl

/-! ### SETPRIO (R26) -/

theorem taken_setPrio (e : s.task? (s.handleArg p) = some v) : (s.taken p).setPrio p =
    match priorityOfWord (s.port p).args[1] with
    | some prio => if prio = v.priority then s.answered p .ok 0#16
      else (((s.taken p).changePriority (s.handleArg p) v prio).setResult p .ok 0#16).evalPreempt
    | none => s.answered p .badArg 0#16 := by
  rw [setPrio, taken_onNamed_some e]
  simp only [taken_setResult, taken_self, takenUnit_args] <;>
    cases priorityOfWord (s.port p).args[1] <;> rfl

theorem changePriority_other (state : v.state ≠ .ready) (prio : Priority) :
    s.changePriority h v prio = s.modTask h fun t => { t with priority := prio } := by
  rw [changePriority, if_neg state]

theorem taken_changePriority_ready (L : s.Linked) (e : s.task? h = some v) (ready : v.state = .ready) {prio : Priority}
    (other : prio ≠ v.priority) (out : p ∉ s.awaitList) :
    ((s.taken p).changePriority h v prio).setResult p .ok 0#16 =
      ((s.answered p .ok 0#16).withReady (s.ready.set v.priority (s.ready[v.priority].filter fun x => x ≠ h))).offered h
        { v with priority := prio } (s.ready[prio] ++ [h]) := by
  rw [changePriority_ready (taken_linked L p) e ready other]
  exact offered_answered (s := s.withReady (s.ready.set v.priority (s.ready[v.priority].filter fun x => x ≠ h))) out h
    { v with priority := prio } (s.ready[prio] ++ [h]) (s.takenUnit p)

/-! ### SETAFFINITY (R27) -/

theorem taken_setAffinity (e : s.task? (s.handleArg p) = some v) : (s.taken p).setAffinity p =
    match affinityOfWord (s.port p).args[1] with
    | some aff => (((s.taken p).changeAffinity (s.handleArg p) v aff).setResult p .ok 0#16).evalPreempt
    | none => s.answered p .badArg 0#16 := by
  rw [setAffinity, taken_onNamed_some e]
  simp only [taken_setResult, taken_self, takenUnit_args] <;>
    cases affinityOfWord (s.port p).args[1] <;> rfl

theorem changeAffinity_other (state : v.state ≠ .ready) (aff : BitVec 4) :
    s.changeAffinity h v aff = s.modTask h fun t => { t with affinity := aff } := by
  rw [changeAffinity, if_neg state]

/-- A READY task offered again with its new affinity: it stays where it stands, or a port takes it. -/
theorem changeAffinity_ready (e : s.task? h = some v) (ready : v.state = .ready) (aff : BitVec 4) :
    s.changeAffinity h v aff = match s.awaitList.find? fun r => ({ v with affinity := aff } : Task).eligible r with
      | none => s.modTask h fun t => { t with affinity := aff }
      | some _ => (s.withReady (s.ready.set v.priority (s.ready[v.priority].filter fun x => x ≠ h))).offered h
          { v with affinity := aff } [] := by
  have record := modTask_withTask e fun t => { t with affinity := aff }
  have awaiting : (s.withTask h { v with affinity := aff }).awaitList = s.awaitList := rfl
  rw [changeAffinity, if_pos ready, record, offer_of_task (withTask_task?_self h _), awaiting]
  cases found : s.awaitList.find? fun r => ({ v with affinity := aff } : Task).eligible r with
  | none => rfl
  | some r =>
    have same : (s.withReady (s.ready.set v.priority (s.ready[v.priority].filter fun x => x ≠ h))).awaitList.find?
      (fun r => ({ v with affinity := aff } : Task).eligible r) = some r := found
    rw [offered_eq, same]
    exact congrArg (fun u : State => ((u.withAwait (s.awaitList.filter fun x => x ≠ r)).withReady
      (s.ready.set v.priority (s.ready[v.priority].filter fun x => x ≠ h))).withPort r
        { s.port r with
          state := .loading h (streamLength v.frameLength v.extension) 0
          result := resultWord .ok h.bits
          done := true }) (withTask_withTask h { v with affinity := aff } { v with state := .running r, affinity := aff })

end State

/-- Settles O36: the word is in range or not, and a READY task moves or is offered again. -/
theorem setPrioAndSetAffinityChangeTheField : Obligations.SetPrioAndSetAffinityChangeTheField := by
  intro p s free L h w ok
  have setPrio : exec (.setPrio p) s = .next ((s.taken p).setPrio p) := State.exec_supervisor (c := .setPrio) free rfl nofun
  have setAffinity : exec (.setAffinity p) s = .next ((s.taken p).setAffinity p) :=
    State.exec_supervisor (c := .setAffinity) free rfl nofun
  have out := L.free_not_waiting free.1.2.2
  refine ⟨fun stale => ⟨?_, ?_⟩, fun t e => ?_⟩
  · rw [setPrio, State.setPrio, State.taken_onNamed_none stale]
  · rw [setAffinity, State.setAffinity, State.taken_onNamed_none stale]
  rw [setPrio, State.taken_setPrio e]
  refine ⟨fun large => ?_, fun prio arg => ?_, fun bad => ?_, fun low high => ?_⟩
  · rw [State.priorityOfWord_none.2 large]
  · rw [State.priorityOfWord_eq.2 arg]
    refine ⟨fun same => congrArg _ (if_pos same), fun other => ⟨fun state => ⟨_, congrArg _ (if_neg other), ?_⟩,
      fun ready => ⟨_, congrArg _ (if_neg other), ?_⟩⟩⟩
    · have written := State.taken_record_answered e p fun t => { t with priority := prio }
      rw [State.changePriority_other state]
      exact written ▸ State.evalPreempt_reevaluated _
    · have moved := State.taken_changePriority_ready L e ready other out
      exact moved ▸ State.evalPreempt_reevaluated _
  · rw [setAffinity, State.taken_setAffinity e, State.affinityOfWord_none bad]
  · intro changed
    have acts : exec (.setAffinity p) s =
        .next (((s.taken p).changeAffinity h t (w.extractLsb' 0 4)).setResult p .ok 0#16).evalPreempt := by
      rw [setAffinity, State.taken_setAffinity e, State.affinityOfWord_some low high]; rfl
    have written := State.taken_record_answered e p fun t => { t with affinity := w.extractLsb' 0 4 }
    refine ⟨fun state => ⟨_, acts, ?_⟩, fun ready => ?_⟩
    · rw [State.changeAffinity_other state, written]
      exact State.evalPreempt_reevaluated _
    have offer := State.changeAffinity_ready (s := s.taken p) e ready (w.extractLsb' 0 4)
    have awaiting : (s.taken p).awaitList = s.awaitList := rfl
    rw [awaiting] at offer
    refine ⟨fun none => ⟨_, acts, ?_⟩, fun some => ⟨_, acts, ?_⟩⟩
    · rw [none] at offer
      rw [offer, written]
      exact State.evalPreempt_reevaluated _
    · obtain ⟨r, found⟩ := Option.ne_none_iff_exists'.1 some
      rw [found] at offer
      have answered := State.offered_answered (s := s.withReady (s.ready.set t.priority
        (s.ready[t.priority].filter fun x => x ≠ h))) out h changed [] (s.takenUnit p)
      rw [offer]
      exact answered ▸ State.evalPreempt_reevaluated _

/-! ### The loss of a port (R187, R188) -/

namespace State
variable {s t : State} {p q : Port} {h k : Handle} {v : Task}

theorem losePort_eq (s : State) (q : Port) (cause : LossCause) : s.losePort q cause =
    ((s.withPort q ((s.port q).lose cause)).loseWork q (s.port q).state cause).evalPreempt := rfl

/-- A task that a port holds or checks in is in no ready queue. -/
theorem Linked.held_not_ready (L : s.Linked) {n k : Nat} (loading : (s.port q).state = .loading h n k)
    (e : s.task? h = some v) : h ∉ s.ready[v.priority] := by
  obtain ⟨w, same, place⟩ := (L.held q h).1 (by rw [loading]; rfl)
  have held : v.state.place = .held q := by rw [Option.some.inj (e.symm.trans same)]; exact place
  exact L.notReady e (by rw [held]; nofun) v.priority

end State

/-- Settles O10: the port's state decides what becomes of its work. -/
theorem lossOfAPortActsByItsState : Obligations.LossOfAPortActsByItsState := by
  intro s q cause L gone u
  have unit : gone = (s.port q).lose cause := by cases cause <;> rfl
  have lost : s.losePort q cause = (u.loseWork q (s.port q).state cause).evalPreempt := by
    rw [State.losePort_eq, ← unit]
  have halt {x : State} {t : Task} {h : Handle} (e : x.task? h = some t) :
      x.setTaskState h (.halted .portLost) = x.withTask h { t with state := .halted .portLost } :=
    State.modTask_withTask e fun t => { t with state := .halted .portLost }
  rw [lost]
  refine ⟨fun idle => ?_, fun await => ?_, fun h n k t loading e => ?_, fun h r t run e => ?_, fun h ws t saving e => ?_,
    fun h ws t seeding e => ?_⟩
  · have kept : u.loseWork q (s.port q).state cause = u := by rcases idle with st | st | st <;> rw [st] <;> rfl
    rw [kept]; exact State.evalPreempt_reevaluated _
  · rw [await]; exact State.evalPreempt_reevaluated _
  · have ready := State.readyHead_eq_offered (s := u) e (L.held_not_ready loading e)
    rw [loading]
    exact ready ▸ State.evalPreempt_reevaluated (u.readyHead h)
  · rw [run]
    cases r
    · exact (halt (x := u) e) ▸ State.evalPreempt_reevaluated ((u.setTaskState h _).raiseFault _)
    · exact (halt (x := u.clearReceivePending h) e) ▸
        State.evalPreempt_reevaluated (((u.clearReceivePending h).setTaskState h _).raiseFault _)
  · rw [saving]
    exact (halt (State.undoWait_task?_self (s := u) e)) ▸
      State.evalPreempt_reevaluated (((u.undoWait h).setTaskState h _).raiseFault _)
  · rw [seeding]
    exact (State.modTask_withTask (s := u) e fun t => { t with seedPort := none }) ▸
      State.evalPreempt_reevaluated (u.modTask h _)

end Sys2Proof.Machine
end

section
/-! ## The queries -/

namespace Sys2Proof.Machine

/-! ### Words of fields -/

/-- The layouts of the words of QUERY_TASK (R176). -/
theorem stateWord_fields (a : BitVec 8) (b c : BitVec 4) (d : BitVec 16) :
    (a ++ b ++ c ++ d).extractLsb' 0 16 = d ∧ (a ++ b ++ c ++ d).extractLsb' 16 4 = c ∧
      (a ++ b ++ c ++ d).extractLsb' 20 4 = b ∧ (a ++ b ++ c ++ d).extractLsb' 24 8 = a := by
  simp (disch := omega) only [BitVec.extractLsb'_append_eq_of_add_le, BitVec.extractLsb'_append_eq_of_le,
    BitVec.extractLsb'_eq_self, Nat.reduceSub, and_self]

theorem rankWord_fields (a : BitVec 15) (x : Bool) (b : BitVec 2) (c : BitVec 6) (d f : BitVec 4) :
    let w := a ++ BitVec.ofBool x ++ b ++ c ++ d ++ f
    w.extractLsb' 0 4 = f ∧ w.extractLsb' 4 4 = d ∧ w.extractLsb' 8 6 = c ∧ w.extractLsb' 14 2 = b ∧
      w.getLsbD 16 = x ∧ w.extractLsb' 17 15 = a := by
  refine ⟨?_, ?_, ?_, ?_, ?_, ?_⟩
  case refine_5 => simp only [BitVec.getLsbD_append]; simp
  all_goals simp (disch := omega) only [BitVec.extractLsb'_append_eq_of_add_le, BitVec.extractLsb'_append_eq_of_le,
    BitVec.extractLsb'_eq_self, Nat.reduceSub]

theorem waitWord_fields (a : BitVec 5) (x y z : Bool) (b : BitVec 8) (c : BitVec 3) (u : Bool) (d f g : BitVec 4) :
    let w := a ++ BitVec.ofBool x ++ BitVec.ofBool y ++ BitVec.ofBool z ++ b ++ c ++ BitVec.ofBool u ++ d ++ f ++ g
    w.extractLsb' 0 4 = g ∧ w.extractLsb' 4 4 = f ∧ w.extractLsb' 8 4 = d ∧ w.getLsbD 12 = u ∧ w.extractLsb' 13 3 = c ∧
      w.extractLsb' 16 8 = b ∧ w.getLsbD 24 = z ∧ w.getLsbD 25 = y ∧ w.getLsbD 26 = x ∧ w.extractLsb' 27 5 = a := by
  refine ⟨?_, ?_, ?_, ?_, ?_, ?_, ?_, ?_, ?_, ?_⟩
  case refine_4 => simp only [BitVec.getLsbD_append]; simp
  case refine_7 => simp only [BitVec.getLsbD_append]; simp
  case refine_8 => simp only [BitVec.getLsbD_append]; simp
  case refine_9 => simp only [BitVec.getLsbD_append]; simp
  all_goals simp (disch := omega) only [BitVec.extractLsb'_append_eq_of_add_le, BitVec.extractLsb'_append_eq_of_le,
    BitVec.extractLsb'_eq_self, Nat.reduceSub]

namespace State
variable {s t : State} {p q : Port} {h k : Handle} {v : Task}

theorem taken_setArgs_answered (s : State) (p : Port) (a : Vector Word 4) : ((s.taken p).setArgs p a).setResult p .ok 0#16 =
    s.withPort p { (s.takenUnit p).answer .ok 0#16 with args := a } := by
  rw [setArgs_eq, setResult_eq, modPort_modPort, taken_modPort]
  rfl

theorem deadlineExpiryOf_eq (s : State) (h : Handle) : s.deadlineExpiryOf h =
    match s.deadlines.find? fun e => e.task = h with
    | some e => e.expiry
    | none => 0#32 := rfl

theorem taken_queryTask_some (e : s.task? (s.handleArg p) = some v) : (s.taken p).queryTask p =
    s.withPort p { (s.takenUnit p).answer .ok 0#16 with args := s.taskRecord (s.handleArg p) v } := by
  have record : (s.taken p).task? (s.handleArg p) = some v := e
  rw [queryTask, taken_handleArg]
  change (match (s.taken p).task? (s.handleArg p) with
    | some t => ((s.taken p).setArgs p ((s.taken p).taskRecord (s.handleArg p) t)).setResult p .ok 0#16
    | none => (s.taken p).setResult p .badHandle 0#16) = _
  rw [record]
  exact taken_setArgs_answered ..

theorem taken_queryTask_none (e : s.task? (s.handleArg p) = none) :
    (s.taken p).queryTask p = s.answered p .badHandle 0#16 := by
  have record : (s.taken p).task? (s.handleArg p) = none := e
  rw [queryTask, taken_handleArg]
  change (match (s.taken p).task? (s.handleArg p) with
    | some t => ((s.taken p).setArgs p ((s.taken p).taskRecord (s.handleArg p) t)).setResult p .ok 0#16
    | none => (s.taken p).setResult p .badHandle 0#16) = _
  rw [record]
  exact taken_setResult ..

end State

theorem dispositionCode_eq (st : TaskState) : st.dispositionCode = match st with
    | .saving _ .readyTail _ => 1#4
    | .saving _ .readyHead _ => 2#4
    | .saving _ .recvWait _ => 3#4
    | .saving _ .sendWait _ => 4#4
    | .saving _ .sleeping _ => 5#4
    | _ => 0#4 := by
  cases st with
  | saving q d satisfied => cases d <;> rfl
  | _ => rfl

/-- Settles O30: the four words of the record are made of its fields in the layout of R176. -/
theorem queryTaskReportsTheRecord : Obligations.QueryTaskReportsTheRecord := by
  intro p s free h
  have taken : exec (.queryTask p) s = .next ((s.taken p).queryTask p) :=
    State.exec_free (c := .queryTask) free (.inl rfl) (.inl rfl)
  refine ⟨fun stale => ?_, fun t e => ⟨s.taskRecord h t, ?_, ?_⟩⟩
  · rw [taken, State.taken_queryTask_none stale]
  · exact taken.trans (congrArg _ (State.taken_queryTask_some e))
  obtain ⟨handle, code, halt, zero⟩ := stateWord_fields 0#8 t.state.haltCode t.state.code h.bits
  obtain ⟨prio, affinity, length, gap, extension, rest⟩ := rankWord_fields 0#15 t.extension 0#2 (BitVec.ofNat 6 t.frameLength)
    t.affinity (BitVec.ofNat 4 t.priority.val)
  obtain ⟨port, seed, disposition, satisfied, pad, resume, bound, pending, deadline, top⟩ := waitWord_fields 0#5
    (s.deadlinePresent h) t.pendingSend.isSome t.bound.isSome t.resume.result.code 0#3 t.state.satisfied
    t.state.dispositionCode (portField t.seedPort) (portField t.state.currentPort)
  refine ⟨handle, code.trans ?_, halt.trans ?_, zero, prio, affinity, length, gap, extension, rest, port.trans ?_,
    seed.trans ?_, disposition.trans (dispositionCode_eq _), satisfied.trans ?_, pad, resume, bound, pending, deadline.trans ?_,
    top, ?_⟩
  · cases t.state <;> rfl
  · cases t.state with
    | halted reason => cases reason <;> rfl
    | _ => rfl
  · cases t.state <;> rfl
  · cases t.seedPort <;> rfl
  · cases t.state <;> rfl
  · rfl
  · exact (s.deadlineExpiryOf_eq h)

/-! ### QUERY_INBOX, QUERY_EVENT and QUERY_PART (R104, R128, R155) -/

theorem countWord_fields (a b c : BitVec 8) (d : BitVec 6) (x y : Bool) :
    let w := a ++ b ++ c ++ d ++ BitVec.ofBool x ++ BitVec.ofBool y
    w.getLsbD 0 = y ∧ w.getLsbD 1 = x ∧ w.extractLsb' 2 6 = d ∧ w.extractLsb' 8 8 = c ∧ w.extractLsb' 16 8 = b ∧
      w.extractLsb' 24 8 = a := by
  refine ⟨?_, ?_, ?_, ?_, ?_, ?_⟩
  case refine_1 => simp only [BitVec.getLsbD_append]; simp
  case refine_2 => simp only [BitVec.getLsbD_append]; simp
  all_goals simp (disch := omega) only [BitVec.extractLsb'_append_eq_of_add_le, BitVec.extractLsb'_append_eq_of_le,
    BitVec.extractLsb'_eq_self, Nat.reduceSub]

/-- A word of three fields. -/
theorem threeFields {l m n : Nat} (a : BitVec l) (b : BitVec m) (c : BitVec n) :
    (a ++ b ++ c).extractLsb' 0 n = c ∧ (a ++ b ++ c).extractLsb' n m = b ∧ (a ++ b ++ c).extractLsb' (n + m) l = a := by
  refine ⟨?_, ?_, ?_⟩
  all_goals simp (disch := omega) only [BitVec.extractLsb'_append_eq_of_add_le, BitVec.extractLsb'_append_eq_of_le,
    BitVec.extractLsb'_eq_self, Nat.sub_self, Nat.add_sub_cancel_left]

/-- A word of two halves. -/
theorem twoHalves (a b : BitVec 16) : (a ++ b).extractLsb' 0 16 = b ∧ (a ++ b).extractLsb' 16 16 = a := by
  simp (disch := omega) only [BitVec.extractLsb'_append_eq_of_add_le, BitVec.extractLsb'_append_eq_of_le,
    BitVec.extractLsb'_eq_self, Nat.reduceSub, and_self]

theorem lineWord_fields (a : BitVec 24) (x y z u : Bool) (b : BitVec 4) :
    let w := a ++ BitVec.ofBool x ++ BitVec.ofBool y ++ BitVec.ofBool z ++ BitVec.ofBool u ++ b
    w.extractLsb' 0 4 = b ∧ w.getLsbD 4 = u ∧ w.getLsbD 5 = z ∧ w.getLsbD 6 = y ∧ w.getLsbD 7 = x ∧
      w.extractLsb' 8 24 = a := by
  refine ⟨?_, ?_, ?_, ?_, ?_, ?_⟩
  case refine_2 => simp only [BitVec.getLsbD_append]; simp
  case refine_3 => simp only [BitVec.getLsbD_append]; simp
  case refine_4 => simp only [BitVec.getLsbD_append]; simp
  case refine_5 => simp only [BitVec.getLsbD_append]; simp
  all_goals simp (disch := omega) only [BitVec.extractLsb'_append_eq_of_add_le, BitVec.extractLsb'_append_eq_of_le,
    BitVec.extractLsb'_eq_self, Nat.reduceSub]

namespace State
variable {s t : State} {p q : Port} {h k : Handle} {v : Task} {l : Line}

theorem taken_queryInbox (s : State) (p : Port) : (s.taken p).queryInbox p =
    if s.live (s.handleArg p) then s.withPort p { (s.takenUnit p).answer .ok 0#16 with
      args := (s.inbox (s.handleArg p)).record }
    else s.answered p .badHandle 0#16 := by
  rw [queryInbox, taken_handleArg, taken_setArgs_answered, taken_setResult]
  rfl

theorem taken_queryEvent_some (arg : lineOfWord (s.port p).args[0] = some l) : (s.taken p).queryEvent p =
    s.withPort p { (s.takenUnit p).answer .ok 0#16 with args := s.lineRecord l } := by
  rw [queryEvent, taken_self, takenUnit_args, arg]
  exact taken_setArgs_answered ..

theorem taken_queryEvent_none (arg : lineOfWord (s.port p).args[0] = none) :
    (s.taken p).queryEvent p = s.answered p .badArg 0#16 := by
  rw [queryEvent, taken_self, takenUnit_args, arg]
  exact taken_setResult ..

end State

/-- Settles O31: the words of the three records are made of their fields in the layouts of R176. -/
theorem queriesReportInboxEventAndPart : Obligations.QueriesReportInboxEventAndPart := by
  intro p s free w h ib
  have inbox : exec (.queryInbox p) s = .next ((s.taken p).queryInbox p) :=
    State.exec_free (c := .queryInbox) free (.inl rfl) (.inl rfl)
  have event : exec (.queryEvent p) s = .next ((s.taken p).queryEvent p) :=
    State.exec_free (c := .queryEvent) free (.inl rfl) (.inl rfl)
  have part : exec (.queryPart p) s = .next ((s.taken p).queryPart p) :=
    State.exec_free (c := .queryPart) free (.inl rfl) (.inl rfl)
  refine ⟨fun stale => ?_, fun live => ⟨ib.record, ?_, ?_⟩, ?_, fun out => ?_, fun l arg => ⟨s.lineRecord l, ?_, ?_⟩⟩
  · rw [inbox, State.taken_queryInbox]
    exact congrArg _ (if_neg (Bool.eq_false_iff.1 stale))
  · rw [inbox, State.taken_queryInbox]
    exact congrArg _ (if_pos live)
  · obtain ⟨broken, pending, gap, resident, spilling, senders⟩ := countWord_fields (BitVec.ofNat 8 ib.senders.length)
      (BitVec.ofNat 8 ib.spilling) (BitVec.ofNat 8 ib.resident.length) 0#6 ib.recvPending ib.broken
    obtain ⟨page, limit, mark⟩ := threeFields (BitVec.ofNat 6 ib.mark) (BitVec.ofNat 6 ib.limit) (BitVec.ofNat 20 ib.basePage)
    obtain ⟨capacity, backed, refilling⟩ := threeFields (BitVec.ofNat 6 ib.refilling) (BitVec.ofNat 13 ib.backed)
      (BitVec.ofNat 13 ib.capacity)
    obtain ⟨seq, lost⟩ := twoHalves (BitVec.ofNat 16 ib.lostCount) ib.nextSeq
    exact ⟨broken, pending, gap, resident, spilling, senders, page, limit, mark, capacity, backed, refilling, seq, lost⟩
  · exact part.trans (congrArg _ (State.taken_setArgs_answered ..))
  · rw [event, State.taken_queryEvent_none (State.lineOfWord_none.2 out)]
  · exact event.trans (congrArg _ (State.taken_queryEvent_some (State.lineOfWord_eq.2 arg)))
  · obtain ⟨number, bound, edge, pending, place, rest⟩ := lineWord_fields 0#24 s.lines[l].placeBit s.lines[l].pending.isSome
      (s.falling l) s.lines[l].binding.isSome (BitVec.ofNat 4 l.val)
    obtain ⟨count, missed⟩ := twoHalves (BitVec.ofNat 16 s.lines[l].missed) (BitVec.ofNat 16 s.lines[l].count)
    exact ⟨number, bound, edge, pending, place.trans rfl, rest, rfl, count, missed, rfl⟩

end Sys2Proof.Machine
end

section
/-! ## The window registers -/

namespace Sys2Proof.Machine

/-! ### Byte enables (R171) -/

theorem lane_bit (b : Bool) (i : Nat) (low : i < 8) : (if b then 0xFF#8 else 0#8).getLsbD i = b := by
  have ones : (0xFF#8).getLsbD i = true := by
    have all : ∀ k : Fin 8, (0xFF#8).getLsbD k = true := by decide
    exact all ⟨i, low⟩
  cases b
  · simp
  · exact ones

theorem maskBytes_bit (e : ByteEnables) (word : Word) {i : Nat} (range : i < 32) :
    (maskBytes e word).getLsbD i = (e.getLsbD (i / 8) && word.getLsbD i) := by
  have lanes : ∀ a b c d : BitVec 8, (a ++ b ++ c ++ d).getLsbD i =
      if i < 8 then d.getLsbD i else if i < 16 then c.getLsbD (i - 8) else if i < 24 then b.getLsbD (i - 16)
        else a.getLsbD (i - 24) := by
    intro a b c d
    simp only [BitVec.getLsbD_append]
    by_cases first : i < 8
    · simp [first]
    by_cases second : i < 16
    · simp [first, second, show i - 8 < 8 by omega]
    by_cases third : i < 24
    · simp [first, second, third, show ¬ i - 8 < 8 by omega, show i - 8 - 8 = i - 16 by omega, show i - 16 < 8 by omega]
    · simp [first, second, third, show ¬ i - 8 < 8 by omega, show ¬ i - 8 - 8 < 8 by omega,
        show i - 8 - 8 - 8 = i - 24 by omega]
  rw [maskBytes, BitVec.getLsbD_and, Bool.and_comm, lanes]
  refine congrArg (· && word.getLsbD i) ?_
  split
  case isTrue first => rw [lane_bit _ _ first, show i / 8 = 0 by omega]
  split
  case isTrue second => rw [lane_bit _ _ (by omega), show i / 8 = 1 by omega]
  split
  · rw [lane_bit _ _ (by omega), show i / 8 = 2 by omega]
  · rw [lane_bit _ _ (by omega), show i / 8 = 3 by omega]

/-! ### Writes of ATTN and the plain registers -/

namespace State
variable {s t : State} {p q : Port} {a : BitVec 5} {w : Word}

theorem writeWindow_plain (plain : a ∉ [0x00#5, 0x07#5, 0x08#5, 0x19#5]) :
    s.writeWindow p a w = s.storeRegister p a w := by
  have other (n : BitVec 5) (mem : n ∈ [0x00#5, 0x07#5, 0x08#5, 0x19#5]) : a.toNat ≠ n.toNat :=
    fun same => plain (BitVec.eq_of_toNat_eq same ▸ mem)
  unfold writeWindow
  split
  case h_1 e => exact absurd e (other 0x00#5 (by decide))
  case h_2 e => exact absurd e (other 0x07#5 (by decide))
  case h_3 e => exact absurd e (other 0x08#5 (by decide))
  case h_4 e => exact absurd e (other 0x19#5 (by decide))
  case h_5 => rfl

theorem storeRegister_held (held : s.held p = true) : s.storeRegister p a w = s := by rw [storeRegister, held]; rfl

theorem storeRegister_free (free : s.held p = false) :
    s.storeRegister p a w = s.withPort p ((s.port p).store a w) := by rw [storeRegister, free]; rfl

/-- A word address that no register with a word of its own has. -/
theorem store_other (u : PortUnit) (args : a.toNat = 0 ∨ 5 ≤ a.toNat) (out : a.toNat < 0x11 ∨ 0x17 ≤ a.toNat)
    (index : a.toNat ≠ 0x18) : u.store a w = u := by
  unfold PortUnit.store
  split
  case h_12 => rfl
  all_goals omega

theorem withPort_self (s : State) (p : Port) : s.withPort p (s.port p) = s := by
  have same : s.ports.set p (s.port p) = s.ports := Vector.set_getElem_self ..
  rw [withPort, same]

end State

/-- Settles O44: the address selects the register, and a held port takes no write. -/
theorem registerWritesKeepTheWord : Obligations.RegisterWritesKeepTheWord := by
  refine ⟨fun e word i range => maskBytes_bit e word range, fun p a e word s => ?_⟩
  intro w u
  have attn : exec (.attnWrite p e word) s = .next (if s.held p then s else s.withPort p (u.clearWritten w)) := rfl
  have plain (out : a ∉ [0x00#5, 0x07#5, 0x08#5, 0x19#5]) : exec (.registerWrite p a e word) s = .next (s.storeRegister p a w) :=
    congrArg Host.Outcome.next (State.writeWindow_plain out)
  refine ⟨fun low => ?_, fun rst prst => ?_⟩
  · have held := State.held_iff.2 low
    exact ⟨by rw [attn, if_pos held], fun out => by rw [plain out, State.storeRegister_held held]⟩
  have free := State.not_held rst prst
  have stored (out : a ∉ [0x00#5, 0x07#5, 0x08#5, 0x19#5]) :
      exec (.registerWrite p a e word) s = .next (s.withPort p (u.store a w)) := by
    rw [plain out, State.storeRegister_free free]
  refine ⟨by rw [attn, free]; rfl, fun n address => ?_, fun n address => ?_, fun address => ?_, fun out => ?_⟩
  · have cell : a = BitVec.ofNat 5 (1 + n.val) := by apply BitVec.eq_of_toNat_eq; simp; omega
    subst cell
    fin_cases n <;> exact stored (by decide)
  · have cell : a = BitVec.ofNat 5 (0x11 + n.val) := by apply BitVec.eq_of_toNat_eq; simp; omega
    subst cell
    fin_cases n <;> exact stored (by decide)
  · obtain rfl : a = 0x18#5 := BitVec.eq_of_toNat_eq address
    exact stored (by decide)
  · have small : a.toNat = 5 ∨ a.toNat = 6 ∨ (9 ≤ a.toNat ∧ a.toNat ≤ 0x10) ∨ a.toNat = 0x17 ∨ 0x1A ≤ a.toNat := by
      rcases out with mem | rest
      · simp only [List.mem_cons, List.not_mem_nil, or_false] at mem; omega
      · exact .inr (.inr rest)
    have own : a ∉ [0x00#5, 0x07#5, 0x08#5, 0x19#5] := by
      simp only [List.mem_cons, List.not_mem_nil, or_false]
      rintro (rfl | rfl | rfl | rfl) <;> simp at small
    rw [stored own, State.store_other u (by omega) (by omega) (by omega)]
    exact congrArg _ (s.withPort_self p)

/-! ### CFGVAL (R194, R195) -/

namespace State
variable {s t : State} {p q : Port} {w : Word}

theorem writeCfgVal_config (free : s.held p = false) (config : s.phase = .config) (idle : (s.port p).state = .idle) :
    s.writeCfgVal p w = { s with items := writeItem s.items (s.port p).cfgIdx w } := by
  rw [writeCfgVal, if_neg]
  rintro (held | service | busy)
  · exact Bool.false_ne_true (free.symm.trans held)
  · rw [config] at service; nomatch service
  · exact busy idle

theorem writeCfgVal_refused (refused : s.held p = true ∨ s.phase = .service ∨ (s.port p).state ≠ .idle) :
    s.writeCfgVal p w = s := if_pos refused

end State

theorem writeItem_lease (it : Config.Items) {index : Word} (q : Port) (select : index.toNat = 4 + q.val) (w : Word) :
    writeItem it index w = writeLease it q w := by
  unfold writeItem
  fin_cases q
  · rw [show index.toNat = 4 from select]; rfl
  · rw [show index.toNat = 5 from select]; rfl
  · rw [show index.toNat = 6 from select]; rfl
  · rw [show index.toNat = 7 from select]; rfl

/-- A word that its item does not take, or an index that selects nothing. -/
theorem writeItem_refused (it : Config.Items) {index w : Word}
    (out : (index.toNat = 0x01 ∧ 32 < w.toNat) ∨ (index.toNat = 0x03 ∧ (w.toNat = 0 ∨ 65536 < w.toNat)) ∨
      (4 ≤ index.toNat ∧ index.toNat ≤ 7 ∧ 65535 < w.toNat) ∨ (index.toNat = 0x09 ∧ (w.toNat = 0 ∨ 255 < w.toNat)) ∨
      0x0A < index.toNat) : writeItem it index w = it := by
  have lease (q : Port) (large : 65535 < w.toNat) : writeLease it q w = it := if_neg (by omega)
  unfold writeItem
  split
  case h_2 => exact if_neg (by omega)
  case h_4 => exact if_neg (by omega)
  case h_5 => exact lease 0 (by omega)
  case h_6 => exact lease 1 (by omega)
  case h_7 => exact lease 2 (by omega)
  case h_8 => exact lease 3 (by omega)
  case h_10 => exact if_neg (by omega)
  case h_12 => rfl
  all_goals omega

/-- Settles O45: the port's state and the phase admit the write, and the item judges the word. -/
theorem configurationWritesAreJudgedByTheItem : Obligations.ConfigurationWritesAreJudgedByTheItem := by
  intro p e word s w index
  have write : exec (.cfgvalWrite p e word) s = .next (s.writeCfgVal p w) := rfl
  refine ⟨fun out => ?_, fun rst prst config idle => ?_⟩
  · have refused : s.held p = true ∨ s.phase = .service ∨ (s.port p).state ≠ .idle := by
      rcases out with low | low | rest
      · exact .inl (State.held_iff.2 (.inl low))
      · exact .inl (State.held_iff.2 (.inr low))
      · exact .inr rest
    rw [write, State.writeCfgVal_refused refused]
  have written {it : Config.Items} (item : writeItem s.items (s.port p).cfgIdx w = it) :
      exec (.cfgvalWrite p e word) s = .next { s with items := it } := by
    rw [write, State.writeCfgVal_config (State.not_held rst prst) config idle, item]
  have at_ {n : Nat} (select : index = n) : (s.port p).cfgIdx.toNat = n := select
  refine ⟨fun select => written ?_, fun select range => written ?_, fun select => written ?_, fun select low high => written ?_,
    fun q select range => written ?_, fun select => written ?_, fun select low high => written ?_, fun select => written ?_,
    fun out => written (writeItem_refused _ out)⟩
  · unfold writeItem; rw [at_ select]; rfl
  · unfold writeItem; rw [at_ select]; exact if_pos range
  · unfold writeItem; rw [at_ select]; rfl
  · unfold writeItem; rw [at_ select]; exact if_pos ⟨low, high⟩
  · rw [writeItem_lease s.items q select]; exact if_pos range
  · unfold writeItem; rw [at_ select]; rfl
  · unfold writeItem; rw [at_ select]; exact if_pos ⟨low, high⟩
  · unfold writeItem; rw [at_ select]; rfl

end Sys2Proof.Machine
end

section
/-! ## Window reads and the resets -/

namespace Sys2Proof.Machine

/-! ### Words of the window (R173, R176) -/

theorem infoWord_fields (a : BitVec 16) (b : BitVec 7) (x : Bool) (c : BitVec 6) (d : BitVec 2) :
    let w := a ++ b ++ BitVec.ofBool x ++ c ++ d
    w.extractLsb' 0 2 = d ∧ w.extractLsb' 2 6 = c ∧ w.getLsbD 8 = x ∧ w.extractLsb' 9 7 = b ∧ w.extractLsb' 16 16 = a := by
  refine ⟨?_, ?_, ?_, ?_, ?_⟩
  case refine_3 => simp only [BitVec.getLsbD_append]; simp
  all_goals simp (disch := omega) only [BitVec.extractLsb'_append_eq_of_add_le, BitVec.extractLsb'_append_eq_of_le,
    BitVec.extractLsb'_eq_self, Nat.reduceSub]

theorem pstateWord_fields (a : BitVec 16) (b : BitVec 11) (x y : Bool) (c : BitVec 3) :
    let w := a ++ b ++ BitVec.ofBool x ++ BitVec.ofBool y ++ c
    w.extractLsb' 0 3 = c ∧ w.getLsbD 3 = y ∧ w.getLsbD 4 = x ∧ w.extractLsb' 5 11 = b ∧ w.extractLsb' 16 16 = a := by
  refine ⟨?_, ?_, ?_, ?_, ?_⟩
  case refine_2 => simp only [BitVec.getLsbD_append]; simp
  case refine_3 => simp only [BitVec.getLsbD_append]; simp
  all_goals simp (disch := omega) only [BitVec.extractLsb'_append_eq_of_add_le, BitVec.extractLsb'_append_eq_of_le,
    BitVec.extractLsb'_eq_self, Nat.reduceSub]

theorem attnWord_fields (a : BitVec 27) (x y z u v : Bool) :
    let w := a ++ BitVec.ofBool x ++ BitVec.ofBool y ++ BitVec.ofBool z ++ BitVec.ofBool u ++ BitVec.ofBool v
    w.getLsbD 0 = v ∧ w.getLsbD 1 = u ∧ w.getLsbD 2 = z ∧ w.getLsbD 3 = y ∧ w.getLsbD 4 = x ∧ w.extractLsb' 5 27 = a := by
  refine ⟨?_, ?_, ?_, ?_, ?_, ?_⟩
  case refine_6 =>
    simp (disch := omega) only [BitVec.extractLsb'_append_eq_of_le, BitVec.extractLsb'_eq_self, Nat.reduceSub]
  all_goals simp only [BitVec.getLsbD_append]; simp

/-- CFGVAL by the selected item (R176, R193). -/
theorem itemWord_eq (it : Config.Items) (index : Word) : itemWord it index = match index.toNat with
    | 0x00 => 0#28 ++ it.supervisors
    | 0x01 => BitVec.ofNat 32 it.reserve
    | 0x02 => if it.tickLine then 1#32 else 0#32
    | 0x03 => BitVec.ofNat 32 it.divider
    | 0x04 => BitVec.ofNat 32 it.leases[0]
    | 0x05 => BitVec.ofNat 32 it.leases[1]
    | 0x06 => BitVec.ofNat 32 it.leases[2]
    | 0x07 => BitVec.ofNat 32 it.leases[3]
    | 0x08 => if it.backingEnable then 1#32 else 0#32
    | 0x09 => BitVec.ofNat 32 it.backingTimeout
    | 0x0A => 0#16 ++ it.polarity
    | _ => 0#32 := by
  have bit (b : Bool) : (0#31 ++ BitVec.ofBool b : Word) = if b then 1#32 else 0#32 := by cases b <;> rfl
  unfold itemWord
  generalize index.toNat = n
  match n with
  | 0 => rfl
  | 1 => rfl
  | 2 => exact bit _
  | 3 => rfl
  | 4 => rfl
  | 5 => rfl
  | 6 => rfl
  | 7 => rfl
  | 8 => exact bit _
  | 9 => rfl
  | 10 => rfl
  | _ + 11 => rfl

namespace State
variable {s t : State} {p q : Port} {a : BitVec 5}

theorem readWindow_free (free : s.held p = false) (a : BitVec 5) : s.readWindow p a = s.windowWord p a := by
  rw [readWindow, if_neg]
  exact fun both => Bool.false_ne_true (free.symm.trans both.1)

theorem readWindow_held (held : s.held p = true) (other : a ≠ 0x17#5) : s.readWindow p a = 0#32 := if_pos ⟨held, other⟩

/-- PARTINFO is read at a held port too. -/
theorem readWindow_info (s : State) (p : Port) : s.readWindow p 0x17#5 = s.partInfo p := if_neg fun both => both.2 rfl

theorem windowWord_beyond (beyond : 0x1A#5 < a) : s.windowWord p a = 0#32 := by
  have large : 0x1A < a.toNat := beyond
  unfold windowWord
  dsimp only
  split
  case h_26 => rfl
  all_goals omega

end State

/-- Settles O47: a read returns the register's word, whose fields stand in the layout of R173 and R176. -/
theorem windowReadsShowTheRegisters : Obligations.WindowReadsShowTheRegisters := by
  intro p s u info
  refine ⟨?_, rfl, fun low a other => State.readWindow_held (State.held_iff.2 low) other, fun rst prst => ?_⟩
  · have word : info = s.partInfo p := s.readWindow_info p
    obtain ⟨port, gap, phase, pad, part⟩ := infoWord_fields Config.partCode 0#7 (s.phase == .service) 0#6 (BitVec.ofNat 2 p.val)
    rw [word]
    exact ⟨port, gap, phase.trans (by cases s.phase <;> rfl), pad, part⟩
  · have free := State.not_held rst prst
    intro pstate attn
    have state : pstate = u.state.pstate := State.readWindow_free free _
    have causes : attn = u.attn := State.readWindow_free free _
    obtain ⟨code, busy, seeding, gap, handle⟩ := pstateWord_fields u.state.shownHandle 0#11 (match u.state with
      | .saving .seed _ _ => true
      | _ => false) u.state.busy u.state.code
    obtain ⟨done, preempt, evicted, overrun, lost, pad⟩ := attnWord_fields 0#27 u.lost u.overrun u.evicted u.preempt u.done
    have read (a : BitVec 5) : s.readWindow p a = s.windowWord p a := State.readWindow_free free a
    rw [state, causes]
    refine ⟨code.trans ?_, busy.trans ?_, seeding, gap, handle.trans ?_, done, preempt, evicted, overrun, lost, pad,
      read _, read _, read _, read _, read _, read _, fun n => ?_, fun n => ?_, fun n => ?_, fun a beyond => ?_, ?_⟩
    · cases u.state <;> rfl
    · cases u.state <;> rfl
    · cases u.state <;> rfl
    · rw [read]; fin_cases n <;> rfl
    · rw [read]; fin_cases n <;> rfl
    · rw [read]; fin_cases n <;> rfl
    · rw [read]; exact State.windowWord_beyond beyond
    · rw [read]; exact itemWord_eq s.items u.cfgIdx

/-- Settles O48: the reset values are those of the state after reset. -/
theorem partResetClearsThePart : Obligations.PartResetClearsThePart := by
  intro s
  have fall (n : Taken) : exec (.partReset n) s = .next (if s.rstLow then s else s.partReset n) := rfl
  have rise (levels : BitVec 16) : exec (.partResetRelease levels) s = .next (if s.rstLow then
    { s with rstLow := false, lines := Vector.ofFn fun l => { s.lines[l] with level := levels.getLsbD l.val } } else s) := rfl
  refine ⟨fun n low => ?_, fun n high => ?_, fun levels => ⟨fun high => ?_, fun low => ?_⟩⟩
  · rw [fall, if_pos low]
  · rw [fall, high, if_neg Bool.false_ne_true]
    simp only [State.partReset, State.reset, Config.Items.reset, LineRec.reset, PortUnit.reset]
    rfl
  · rw [rise, high]; rfl
  · rw [rise, if_pos low]

end Sys2Proof.Machine
end

section
/-! ## The frame stream -/

namespace Sys2Proof.Machine

theorem bits_ofWord (w : Word) : (Handle.ofWord w).bits = w.extractLsb' 0 16 := by
  have slot : BitVec.ofNat 6 (w.extractLsb' 0 6).toNat = w.extractLsb' 0 6 :=
    (BitVec.ofNat_toNat ..).trans (BitVec.setWidth_eq _)
  have halves : w.extractLsb' 6 10 ++ w.extractLsb' 0 6 = w.extractLsb' 0 16 := by
    exact BitVec.extractLsb'_append_extractLsb'_eq_extractLsb' rfl
  exact (congrArg (w.extractLsb' 6 10 ++ ·) slot).trans halves

theorem ofWord_eq_iff {w : Word} {h : Handle} : Handle.ofWord w = h ↔ w.extractLsb' 0 16 = h.bits := by
  constructor
  · rintro rfl; exact (bits_ofWord w).symm
  · intro low
    have word := ofWord_low 0#16 w
    rw [low, ofWord_bits] at word
    exact word.symm

namespace State
variable {s t : State} {p q : Port} {h k : Handle} {v : Task} {x : PoolSlot}

/-! ### An access of FRAME -/

theorem accessFrame_held (quiet : s.quiet = true) (held : s.held p = true) (f : State → State) :
    s.accessFrame p f = s := by
  simp only [accessFrame, s.settle_eq_self quiet, held, if_true]

theorem accessFrame_free (quiet : s.quiet = true) (free : s.held p = false) (f : State → State) :
    s.accessFrame p f = f (s.taken p) := by
  simp only [accessFrame, s.settle_eq_self quiet, free, Bool.false_eq_true, if_false]
  rfl

theorem exec_frameRead_held (quiet : s.quiet = true) (held : s.held p = true) (e : ByteEnables) :
    exec (.frameRead p e) s = .next (s.withPort p { s.port p with readData := 0#32 }) := by
  have read : exec (.frameRead p e) s = .next ((s.accessFrame p fun s => s.readFrame p).heldRead p) := rfl
  rw [read, accessFrame_held quiet held, heldRead, if_pos held]
  rfl

theorem exec_frameRead_free (quiet : s.quiet = true) (free : s.held p = false) (e : ByteEnables) :
    exec (.frameRead p e) s = .next ((s.taken p).readFrame p) := by
  have read : exec (.frameRead p e) s = .next ((s.accessFrame p fun s => s.readFrame p).heldRead p) := rfl
  have kept := (s.taken p).readFrame_steady p
  have unit : ((s.taken p).port p).prstLow = (s.port p).prstLow := by rw [taken_self]; rfl
  have open_ : ((s.taken p).readFrame p).held p = false := by
    have same : ((s.taken p).readFrame p).held p = s.held p := by
      rw [held, held, kept.rstLow, kept.prstLow, unit]; rfl
    rw [same, free]
  rw [read, accessFrame_free quiet free, heldRead, open_]
  rfl

/-! ### FRAME_READ (R33 to R35) -/

theorem taken_readFrame_other (other : (s.port p).state.code ≠ 3#3) :
    (s.taken p).readFrame p = s.withPort p { s.takenUnit p with readData := 0#32 } := by
  rw [readFrame, taken_self, takenUnit_state]
  cases state : (s.port p).state with
  | loading h n k => rw [state] at other; exact absurd rfl other
  | _ => exact taken_modPort ..

/-- The word of a check-out by its position. -/
theorem streamWord_eq (s : State) (h : Handle) (v : Task) (k : Nat) : s.streamWord h v k =
    if k = 0 then descriptorWord h v.frameLength v.extension
    else if k ≤ v.frameLength then s.frames[h.slot][k - 1]?.getD 0#32
    else s.frames[h.slot][32 + (k - v.frameLength - 1)]?.getD 0#32 := by
  unfold streamWord frameIndex
  split
  · rfl
  · split <;> rfl

theorem taken_readFrame_next {n i : Nat} (state : (s.port p).state = .loading h n i) (e : s.task? h = some v)
    (more : i + 1 < n) : (s.taken p).readFrame p =
    s.withPort p { s.takenUnit p with readData := s.streamWord h v i, state := .loading h n (i + 1) } := by
  have record : (s.taken p).task? h = some v := e
  rw [readFrame, taken_self, takenUnit_state, state]
  simp only [record, more, if_true]
  rw [setReadData_eq, setPortState_eq, modPort_modPort, taken_modPort]
  rfl

theorem taken_readFrame_last {n i : Nat} (state : (s.port p).state = .loading h n i) (e : s.task? h = some v)
    (last : n ≤ i + 1) : (s.taken p).readFrame p =
    (s.withPort p { s.takenUnit p with readData := s.streamWord h v i }).endCheckOut p h v := by
  have record : (s.taken p).task? h = some v := e
  rw [readFrame, taken_self, takenUnit_state, state]
  simp only [record, Nat.not_lt.2 last, if_false]
  rw [setReadData_eq, taken_modPort]
  rfl

/-- The port in RUN with the resume result shown, as the check-out ends. -/
theorem endCheckOut_eq (s : State) (p : Port) (h : Handle) (v : Task) (u : PortUnit) :
    (s.withPort p u).endCheckOut p h v = (((((s.withPort p { u with
      state := .run h false
      resume := 0#24 ++ v.resume.result.code }).presentBound p h v.bound).modTask h
        fun t => { t with resume := .ok, bound := none }).returnSlots v.bound.toList)).evalPreempt := by
  have shown : ((s.withPort p u).setPortState p (.run h false)).presentResume p v.resume = s.withPort p { u with
      state := .run h false
      resume := 0#24 ++ v.resume.result.code } := by
    rw [setPortState_eq, presentResume_eq, modPort_modPort, modPort_withPort, withPort_withPort, withPort_port, if_pos rfl]
  rw [endCheckOut, shown]

/-- The end of a check-out without a bound message. -/
theorem endCheckOut_unbound (e : s.task? h = some v) (unbound : v.bound = none) (p : Port) (u : PortUnit) :
    (s.withPort p u).endCheckOut p h v = ((s.withTask h { v with resume := .ok }).withPort p { u with
      state := .run h false
      resume := 0#24 ++ v.resume.result.code
      msgHdr := 0#32
      msgSrc := 0#32
      msgData := Vector.replicate 6 0#32 }).evalPreempt := by
  have silent : (s.withPort p { u with state := .run h false, resume := 0#24 ++ v.resume.result.code }).presentBound p h none =
      s.withPort p { u with
        state := .run h false
        resume := 0#24 ++ v.resume.result.code
        msgHdr := 0#32
        msgSrc := 0#32
        msgData := Vector.replicate 6 0#32 } := by
    rw [presentBound, modPort_withPort, withPort_withPort, withPort_port, if_pos rfl]; rfl
  have record := modTask_withTask (s := s.withPort p { u with
        state := .run h false
        resume := 0#24 ++ v.resume.result.code
        msgHdr := 0#32
        msgSrc := 0#32
        msgData := Vector.replicate 6 0#32 }) (h := h) e fun t => { t with resume := .ok, bound := none }
  have same : ({ v with resume := .ok, bound := none } : Task) = { v with resume := .ok } := by rw [← unbound]
  rw [endCheckOut_eq, unbound, silent, record, same]
  rfl

/-- The end of a check-out that shows the bound message and returns its slot. -/
theorem endCheckOut_bound (e : s.task? h = some v) (bound : v.bound = some x) (p : Port) (u : PortUnit) :
    (s.withPort p u).endCheckOut p h v = (State.retryDeferred { ((s.withPort p { u with
      state := .run h false
      resume := 0#24 ++ v.resume.result.code }).presentSlot p .bound h x).withTask h
        { v with resume := .ok, bound := none } with poolFree := x :: s.poolFree }).evalPreempt := by
  have live : ((s.withPort p { u with state := .run h false, resume := 0#24 ++ v.resume.result.code }).presentSlot p
      .bound h x).task? h = some v := by
    rw [presentSlot, modPort_task?, completeLine_eq]; exact e
  have free : ((s.withPort p { u with state := .run h false, resume := 0#24 ++ v.resume.result.code }).presentSlot p
      .bound h x).poolFree = s.poolFree := presentSlot_poolFree
  have record := modTask_withTask live fun t => { t with resume := .ok, bound := none }
  have some : (some x : Option PoolSlot).toList ≠ [] := List.cons_ne_nil _ _
  rw [endCheckOut_eq, bound, presentBound, record, returnSlots_eq, if_neg some]
  refine congrArg (fun xs : List PoolSlot => (State.retryDeferred { ((s.withPort p { u with
      state := .run h false
      resume := 0#24 ++ v.resume.result.code }).presentSlot p .bound h x).withTask h
        { v with resume := .ok, bound := none } with poolFree := x :: xs }).evalPreempt) free

end State

/-- Settles O41: the port's state, the position in the stream and the bound message decide what a read does. -/
theorem frameReadsStreamTheCheckOut : Obligations.FrameReadsStreamTheCheckOut := by
  intro p e s quiet
  refine ⟨fun low => State.exec_frameRead_held quiet (State.held_iff.2 low) e, fun served => ?_⟩
  rw [State.exec_frameRead_free quiet (State.not_held served.2.1 served.2.2) e]
  refine ⟨fun other => by rw [State.taken_readFrame_other other], fun h n k t state task => ?_⟩
  intro word w u
  have drives : s.streamWord h t k = w := s.streamWord_eq h t k
  refine ⟨fun more => ?_, fun last => ⟨fun unbound => ⟨_, rfl, ?_⟩, fun x bound => ⟨_, rfl, ?_⟩⟩⟩
  · rw [State.taken_readFrame_next state task more, drives]
  · rw [State.taken_readFrame_last state task last, drives, State.endCheckOut_unbound task unbound]
    exact State.evalPreempt_reevaluated _
  · rw [State.taken_readFrame_last state task last, drives, State.endCheckOut_bound task bound]
    exact State.evalPreempt_reevaluated _

/-! ### FRAME_WRITE (R39, R40) -/

namespace State
variable {s t : State} {p q : Port} {h k : Handle} {v : Task} {kind : SaveKind}

theorem taken_writeFrame_other (other : (s.port p).state.code ≠ 5#3) (w : Word) :
    (s.taken p).writeFrame p w = s.taken p := by
  rw [writeFrame, taken_self, takenUnit_state]
  cases state : (s.port p).state with
  | saving kind h staging => rw [state] at other; exact absurd rfl other
  | _ => rfl

theorem taken_writeFrame_first (state : (s.port p).state = .saving kind h []) (e : s.task? h = some v) (w : Word) :
    (s.taken p).writeFrame p w = if Handle.ofWord w = h ∧ descriptorLength w = v.frameLength then
      s.withPort p { s.takenUnit p with state := .saving kind h [w] } else s.answered p .badArg 0#16 := by
  have record : (s.taken p).task? h = some v := e
  rw [writeFrame, taken_self, takenUnit_state, state]
  simp only [takeFrameWord, record, setPortState_eq, taken_modPort, taken_setResult]

theorem taken_writeFrame_next {d : Word} {ws : List Word} (state : (s.port p).state = .saving kind h (d :: ws))
    (e : s.task? h = some v) (w : Word) : (s.taken p).writeFrame p w =
    if (d :: ws).length + 1 < streamLength v.frameLength (descriptorExtension d) then
      s.withPort p { s.takenUnit p with state := .saving kind h (d :: ws ++ [w]) }
    else (s.taken p).commit p kind h v (descriptorExtension d) (d :: ws ++ [w]) := by
  have record : (s.taken p).task? h = some v := e
  rw [writeFrame, taken_self, takenUnit_state, state]
  simp only [takeFrameWord, record, setPortState_eq, taken_modPort]

end State

/-- Settles O42: the first word is judged, and each further one placed or committed with. -/
theorem frameWritesFillTheStagingBuffer : Obligations.FrameWritesFillTheStagingBuffer := by
  intro p e word s quiet
  have write : exec (.frameWrite p e word) s = .next (s.accessFrame p fun s => s.writeFrame p (maskBytes e word)) := rfl
  refine ⟨fun low => by rw [write, State.accessFrame_held quiet (State.held_iff.2 low)], fun served => ?_⟩
  rw [write, State.accessFrame_free quiet (State.not_held served.2.1 served.2.2)]
  refine ⟨fun other => by rw [State.taken_writeFrame_other other], fun kind h staging t state task => ?_⟩
  intro w
  refine ⟨fun first => ?_, fun d ws next => ?_⟩
  · rw [first] at state
    rw [State.taken_writeFrame_first state task]
    refine ⟨fun handle length => congrArg _ (if_pos ⟨ofWord_eq_iff.2 handle, length⟩), fun bad => congrArg _ (if_neg ?_)⟩
    rintro ⟨handle, length⟩
    exact bad.elim (fun other => other (ofWord_eq_iff.1 handle)) fun other => other length
  · rw [next] at state
    intro n
    rw [State.taken_writeFrame_next state task, next]
    exact ⟨fun more => congrArg _ (if_pos more), fun last => congrArg _ (if_neg (Nat.not_lt.2 last))⟩

/-! ### Commit (R41, R42, R48) -/

namespace State
variable {s t : State} {p q : Port} {h k : Handle} {v : Task} {kind : SaveKind}

theorem committedFrame_eq (area : Vector Word 48) (n : Nat) (ext : Bool) (staging : List Word) :
    committedFrame area n ext staging = Vector.ofFn fun i =>
      if i.val < n then staging.getD (i.val + 1) 0#32
      else if ext = true ∧ 32 ≤ i.val then staging.getD (n + 1 + (i.val - 32)) 0#32
      else area[i] := by
  unfold committedFrame
  simp only [Bool.and_eq_true, decide_eq_true_eq]

/-- The port and the frame store after a commit (R41). -/
def stored (s : State) (p : Port) (h : Handle) (v : Task) (ext : Bool) (staging : List Word) : State :=
  { s with frames := s.frames.set h.slot (committedFrame s.frames[h.slot] v.frameLength ext staging) }.withPort p
    { (s.port p).answer .ok h.bits with state := .idle }

/-- Commit, with what the disposition or the seed does of the record. -/
theorem commit_eq (e : s.task? h = some v) (p : Port) (kind : SaveKind) (ext : Bool) (staging : List Word) :
    s.commit p kind h v ext staging =
      match kind with
      | .checkIn => (((s.stored p h v ext staging).withTask h { v with extension := ext }).applyDisposition h).evalPreempt
      | .seed => (s.stored p h v ext staging).withTask h { v with extension := ext, seedPort := none } := by
  have record := modTask_withTask (s := { s with
    frames := s.frames.set h.slot (committedFrame s.frames[h.slot] v.frameLength ext staging) }) (h := h) e
      fun t => { t with extension := ext }
  have written : ((s.storeFrame h v ext staging).setPortState p .idle).setResult p .ok h.bits =
      (s.stored p h v ext staging).withTask h { v with extension := ext } := by
    rw [storeFrame, record, setPortState_eq, setResult_eq, modPort_modPort]
    rfl
  have seeded := modTask_withTask (s := (s.stored p h v ext staging).withTask h { v with extension := ext })
    (withTask_task?_self h _) fun t => { t with seedPort := none }
  rw [withTask_withTask] at seeded
  unfold commit
  rw [written]
  cases kind with
  | checkIn => rfl
  | seed => exact seeded

/-- The disposition applied to the record that a commit has written (R42). -/
theorem applyDisposition_ready (state : ∃ q d satisfied, v.state = .saving q d satisfied ∧
      (d = .readyTail ∨ (d ≠ .readyHead ∧ satisfied = true))) (out : h ∉ s.ready[v.priority]) :
    (s.withTask h v).applyDisposition h = s.offered h v (s.ready[v.priority] ++ [h]) := by
  have ready : (s.withTask h v).readyTail h = s.offered h v (s.ready[v.priority] ++ [h]) :=
    (readyTail_eq_offered (withTask_task?_self h v) out).trans (offered_withTask v v _)
  obtain ⟨q, d, satisfied, saving, kinds⟩ := state
  rw [← ready]
  unfold applyDisposition
  simp only [withTask_task?_self, saving]
  rcases kinds with rfl | ⟨other, rfl⟩
  · rfl
  · cases d with
    | readyHead => exact absurd rfl other
    | _ => rfl

theorem applyDisposition_head {satisfied : Bool} (state : v.state = .saving q .readyHead satisfied)
    (out : h ∉ s.ready[v.priority]) :
    (s.withTask h v).applyDisposition h = s.offered h v (h :: s.ready[v.priority]) := by
  have ready : (s.withTask h v).readyHead h = s.offered h v (h :: s.ready[v.priority]) :=
    (readyHead_eq_offered (withTask_task?_self h v) out).trans (offered_withTask v v _)
  rw [← ready]
  unfold applyDisposition
  simp only [withTask_task?_self, state]

theorem applyDisposition_waits {d : Disposition} (state : v.state = .saving q d false) (waits : d.waits = true) :
    (s.withTask h v).applyDisposition h = s.withTask h { v with state := d.waitState } := by
  have record := modTask_withTask (s := s.withTask h v) (withTask_task?_self h v) fun t => { t with state := d.waitState }
  rw [withTask_withTask] at record
  rw [← record]
  unfold applyDisposition
  simp only [withTask_task?_self, state]
  cases d with
  | readyHead => nomatch waits
  | readyTail => nomatch waits
  | _ => rfl

end State

/-- Settles O43: the frame and the port are written, and the disposition is applied to the record. -/
theorem commitStoresTheFrame : Obligations.CommitStoresTheFrame := by
  intro s p h t ext staging L e frame stored w
  have same : stored = s.stored p h t ext staging := by
    rw [State.stored, State.committedFrame_eq]
  have checkIn := State.commit_eq e p .checkIn ext staging
  have seed := State.commit_eq e p .seed ext staging
  rw [← same] at checkIn seed
  have out (saving : ∃ q d satisfied, t.state = .saving q d satisfied) : h ∉ stored.ready[w.priority] := by
    obtain ⟨q, d, satisfied, saving⟩ := saving
    exact L.not_mem_ready e (by rw [saving]; nofun) t.priority
  have waits {q : Port} {d : Disposition} (state : t.state = .saving q d false) (kind : d.waits = true) :
      (s.commit p .checkIn h t ext staging).Reevaluated (stored.withTask h { w with state := d.waitState }) := by
    rw [checkIn, show (stored.withTask h w).applyDisposition h = _ from State.applyDisposition_waits state kind]
    exact State.evalPreempt_reevaluated _
  refine ⟨fun q state => ?_, fun q state => ?_, fun q state => waits state rfl, fun q state => waits state rfl,
    fun q state => waits state rfl, seed⟩
  · obtain ⟨satisfied, state⟩ : ∃ satisfied, w.state = .saving q .readyHead satisfied :=
      state.elim (fun st => ⟨_, st⟩) fun st => ⟨_, st⟩
    rw [checkIn, show (stored.withTask h w).applyDisposition h = _ from
      State.applyDisposition_head state (out ⟨_, _, _, state⟩)]
    exact State.evalPreempt_reevaluated _
  · have kinds : ∃ q d satisfied, w.state = .saving q d satisfied ∧
        (d = .readyTail ∨ (d ≠ .readyHead ∧ satisfied = true)) := by
      rcases state with st | st | st | st | st
      · exact ⟨_, _, _, st, .inl rfl⟩
      · exact ⟨_, _, _, st, .inl rfl⟩
      · exact ⟨_, _, _, st, .inr ⟨nofun, rfl⟩⟩
      · exact ⟨_, _, _, st, .inr ⟨nofun, rfl⟩⟩
      · exact ⟨_, _, _, st, .inr ⟨nofun, rfl⟩⟩
    obtain ⟨r, d, satisfied, st, -⟩ := id kinds
    rw [checkIn, show (stored.withTask h w).applyDisposition h = _ from
      State.applyDisposition_ready kinds (out ⟨r, d, satisfied, st⟩)]
    exact State.evalPreempt_reevaluated _

end Sys2Proof.Machine
end

section
/-! ## What a tick leaves: nothing of it reads the divider count

The divider count and the mark of a tick's expiries under way are read by none of the consequences of a tick, so each of them
commutes with a change of the two. -/

namespace Sys2Proof.Machine
namespace State

/-- The divider count and the mark of the expiries under way, set. -/
def withClock (s : State) (n : Nat) (b : Bool) : State := { s with dividerCount := n, expiring := b }

variable (s : State) (n : Nat) (b : Bool) (h : Handle) (p : Port)

/-! ### The dispatch unit and the waits -/

theorem withClock_task? : (s.withClock n b).task? h = s.task? h := rfl

theorem withClock_modTask (f : Task → Task) : (s.withClock n b).modTask h f = (s.modTask h f).withClock n b := by
  unfold modTask; rw [withClock_task?]; cases s.task? h <;> rfl

theorem withClock_setTaskState (st : TaskState) :
    (s.withClock n b).setTaskState h st = (s.setTaskState h st).withClock n b := withClock_modTask ..

theorem withClock_enqueueTail : (s.withClock n b).enqueueTail h = (s.enqueueTail h).withClock n b := by
  unfold enqueueTail; rw [withClock_task?]; cases s.task? h <;> rfl

theorem withClock_enqueueHead : (s.withClock n b).enqueueHead h = (s.enqueueHead h).withClock n b := by
  unfold enqueueHead; rw [withClock_task?]; cases s.task? h <;> rfl

theorem withClock_dequeue : (s.withClock n b).dequeue h = (s.dequeue h).withClock n b := by
  unfold dequeue; rw [withClock_task?]; cases s.task? h <;> rfl

theorem withClock_beginCheckOut : (s.withClock n b).beginCheckOut p h = (s.beginCheckOut p h).withClock n b := by
  unfold beginCheckOut
  rw [withClock_task?]
  cases s.task? h with
  | none => rfl
  | some t => exact congrArg (setPortState · p _) (withClock_setTaskState ..)

theorem withClock_handOff : (s.withClock n b).handOff p h = (s.handOff p h).withClock n b := by
  have left : (s.withClock n b).leaveAwait p = (s.leaveAwait p).withClock n b := rfl
  rw [handOff, left, withClock_dequeue, withClock_beginCheckOut]
  rfl

theorem withClock_offer : (s.withClock n b).offer h = (s.offer h).withClock n b := by
  unfold offer
  change (match s.awaitList.find? fun p => s.eligible h p with
    | some p => _
    | none => _) = _
  cases s.awaitList.find? fun p => s.eligible h p with
  | none => rfl
  | some q => exact congrArg (announce · q h) (withClock_handOff ..)

theorem withClock_readyTail : (s.withClock n b).readyTail h = (s.readyTail h).withClock n b := by
  rw [readyTail, withClock_setTaskState, withClock_enqueueTail, withClock_offer]; rfl

theorem withClock_readyHead : (s.withClock n b).readyHead h = (s.readyHead h).withClock n b := by
  rw [readyHead, withClock_setTaskState, withClock_enqueueHead, withClock_offer]; rfl

theorem withClock_dropPendingSend : (s.withClock n b).dropPendingSend h = (s.dropPendingSend h).withClock n b := by
  unfold dropPendingSend
  rw [withClock_task?]
  cases s.task? h with
  | none => rfl
  | some t =>
    dsimp only
    cases t.pendingSend with
    | none => rfl
    | some ps =>
      exact withClock_modTask (s.modInbox ps.target fun ib => { ib with senders := ib.senders.filter fun r => r ≠ h }) n b h
        fun u => { u with pendingSend := none }

theorem withClock_undoWait : (s.withClock n b).undoWait h = (s.undoWait h).withClock n b :=
  congrArg (removeDeadline · h) (withClock_dropPendingSend ..)

theorem withClock_wake (res : Resume) : (s.withClock n b).wake h res = (s.wake h res).withClock n b := by
  have ready : ((s.withClock n b).modTask h fun u => { u with resume := res }).readyTail h =
      ((s.modTask h fun u => { u with resume := res }).readyTail h).withClock n b := by
    rw [withClock_modTask, withClock_readyTail]
  unfold wake
  rw [withClock_task?]
  cases s.task? h with
  | none => rfl
  | some t =>
    dsimp only
    split
    · exact ready
    · exact ready
    · exact ready
    · split
      · exact withClock_modTask ..
      · rfl
    · rfl

theorem withClock_endWait (res : Resume) : (s.withClock n b).endWait h res = (s.endWait h res).withClock n b :=
  (congrArg (wake · h res) (withClock_undoWait s n b h)).trans (withClock_wake ..)

theorem withClock_evalPreempt : (s.withClock n b).evalPreempt = s.evalPreempt.withClock n b := by
  have one (s : State) (p : Port) : (s.withClock n b).evalPreemptAt p = (s.evalPreemptAt p).withClock n b := rfl
  simp only [evalPreempt, one]

theorem withClock_expireHead : (s.withClock n b).expireHead = s.expireHead.withClock n b := by
  unfold expireHead
  change (match s.deadlines with
    | e :: _ => _
    | [] => _) = _
  cases s.deadlines with
  | nil => rfl
  | cons e rest => exact (congrArg evalPreempt (withClock_endWait ..)).trans (withClock_evalPreempt ..)

theorem withClock_deadlineDue : (s.withClock n b).deadlineDue = s.deadlineDue := rfl

theorem withClock_expireDue (fuel : Nat) : ∀ s : State, expireDue fuel (s.withClock n b) = (expireDue fuel s).withClock n b := by
  induction fuel with
  | zero => exact fun s => rfl
  | succ fuel ih =>
    intro s
    rw [expireDue, expireDue, withClock_deadlineDue]
    split
    · rw [withClock_expireHead, ih]
    · rfl

theorem withClock_settleDeadlines (s : State) :
    (s.withClock n s.expiring).settleDeadlines = s.settleDeadlines.withClock n s.settleDeadlines.expiring := by
  unfold settleDeadlines
  rw [withClock_deadlineDue]
  cases s.deadlineDue
  · rfl
  · exact congrArg (fun u : State => { u with expiring := false }) (withClock_expireDue n s.expiring s.deadlines.length s)

/-! ### Messages, refills and faults -/

/-- The outcome of a routing, with the two fields of its state set. -/
def clocked (n : Nat) (b : Bool) (r : RouteOutcome × State) : RouteOutcome × State := (r.1, r.2.withClock n b)

theorem clocked_fst (r : RouteOutcome × State) : (clocked n b r).1 = r.1 := rfl

theorem clocked_snd (r : RouteOutcome × State) : (clocked n b r).2 = r.2.withClock n b := rfl

theorem withClock_takeSlot (rule : SlotRule) : (s.withClock n b).takeSlot rule =
    (s.takeSlot rule).map fun r => (r.1, r.2.withClock n b) := by
  unfold takeSlot
  change (if s.mayAllocate rule then (match s.poolFree with
    | x :: rest => _
    | [] => _) else _) = _
  cases s.mayAllocate rule
  · rfl
  · cases s.poolFree <;> rfl

theorem withClock_handOffMessage (rule : SlotRule) (m : Message) :
    (s.withClock n b).handOffMessage rule h m = clocked n b (s.handOffMessage rule h m) := by
  unfold handOffMessage
  rw [withClock_takeSlot]
  cases s.takeSlot rule with
  | none => rfl
  | some r =>
    have held (u : State) (x : PoolSlot) : (((u.withClock n b).modTask h fun t => { t with bound := some x }).removeDeadline
        h).wake h .ok = (((u.modTask h fun t => { t with bound := some x }).removeDeadline h).wake h .ok).withClock n b := by
      have freed (u : State) : (u.withClock n b).removeDeadline h = (u.removeDeadline h).withClock n b := rfl
      rw [withClock_modTask, freed, withClock_wake]
    exact congrArg (RouteOutcome.handedOff, ·)
      (held ((r.2.writeSlot r.1 (m.image (s.inbox h).nextSeq)).modInbox h Inbox.advanceSeq) r.1)

theorem withClock_placeResident (rule : SlotRule) (m : Message) :
    (s.withClock n b).placeResident rule h m = clocked n b (s.placeResident rule h m) := by
  unfold placeResident
  rw [withClock_takeSlot]
  cases s.takeSlot rule with
  | none => rfl
  | some r =>
    rfl

theorem withClock_placeSpill (rule : SlotRule) (m : Message) :
    (s.withClock n b).placeSpill rule h m = clocked n b (s.placeSpill rule h m) := by
  unfold placeSpill
  rw [withClock_takeSlot]
  change (if s.jobs.length < Config.jobQueueCapacity then _ else _) = _
  split
  · cases s.takeSlot rule <;> rfl
  · rfl

theorem withClock_route (rule : SlotRule) (m : Message) :
    (s.withClock n b).route rule h m = clocked n b (s.route rule h m) := by
  unfold route
  rw [withClock_handOffMessage, withClock_placeResident, withClock_placeSpill]
  dsimp only
  change (if (s.inbox h).broken = true then _ else if s.ownerWaits h = true then _ else
    if (s.inbox h).occupancy = 0 ∧ (s.inbox h).resident.length < (s.inbox h).limit then _ else
    if (s.inbox h).occupancy < (s.inbox h).capacity then _ else _) = _
  split
  · rfl
  split
  · rfl
  split
  · rfl
  split <;> rfl

theorem withClock_raiseFault (f : FaultReport) : (s.withClock n b).raiseFault f = (s.raiseFault f).withClock n b := by
  cases sink : s.sink with
  | none => rw [raiseFault_unset sink, raiseFault_unset (s := s.withClock n b) sink]; rfl
  | some k =>
    cases live : s.live k with
    | false => rw [raiseFault_stale sink live, raiseFault_stale (s := s.withClock n b) sink live]; rfl
    | true =>
      rw [raiseFault_live sink live, raiseFault_live (s := s.withClock n b) sink live, withClock_route]
      exact (apply_ite (withClock · n b) ((s.route .fault k f.message).1.accepted = true)
        (s.route .fault k f.message).2 s.countUnreported).symm

theorem withClock_createRefill : (s.withClock n b).createRefill h = (s.createRefill h).map fun u => u.withClock n b := by
  have count : (s.withClock n b).refillCount h = s.refillCount h := rfl
  have jobs : (s.withClock n b).jobs = s.jobs := rfl
  rw [createRefill_def, createRefill_def, count, jobs]
  split <;> rfl

theorem withClock_retryEntries (hs : List Handle) :
    ∀ s : State, retryEntries hs (s.withClock n b) = (retryEntries hs s).withClock n b := by
  induction hs with
  | nil => exact fun s => rfl
  | cons h rest ih =>
    intro s
    have needed : (s.withClock n b).refillNeeded h = s.refillNeeded h := rfl
    rw [retryEntries, retryEntries, needed, withClock_createRefill]
    cases s.refillNeeded h
    · exact ih s
    · cases s.createRefill h with
      | none => rfl
      | some u => exact ih u

theorem withClock_retryDeferred : (s.withClock n b).retryDeferred = s.retryDeferred.withClock n b :=
  withClock_retryEntries n b s.deferred s

theorem withClock_releaseEntries (hs : List Handle) :
    ∀ s : State, releaseEntries h hs (s.withClock n b) = (releaseEntries h hs s).withClock n b := by
  induction hs with
  | nil => exact fun s => rfl
  | cons k rest ih =>
    intro s
    have pending : (s.withClock n b).pendingSendOf k = s.pendingSendOf k := rfl
    unfold releaseEntries
    rw [pending]
    cases s.pendingSendOf k with
    | none => exact ih s
    | some ps =>
      dsimp only
      rw [withClock_route]
      dsimp only [clocked]
      cases (s.route .ordinary h (ps.message k)).1.resume with
      | none => rfl
      | some res =>
        dsimp only
        rw [withClock_endWait, ih]

theorem withClock_releaseSenders : (s.withClock n b).releaseSenders h = (s.releaseSenders h).withClock n b :=
  withClock_releaseEntries n b h (s.inbox h).senders s

theorem withClock_completeReceive (code : ResultCode) :
    (s.withClock n b).completeReceive h code = (s.completeReceive h code).withClock n b := by
  have inbox : (s.withClock n b).inbox h = s.inbox h := rfl
  have record : ((s.withClock n b).clearReceivePending h).task? h = s.task? h := rfl
  have same : (s.clearReceivePending h).task? h = s.task? h := rfl
  simp only [completeReceive, inbox, record, same]
  by_cases pending : (s.inbox h).recvPending = true
  · rw [if_pos pending, if_pos pending]
    cases s.task? h with
    | none => rfl
    | some t =>
      dsimp only
      split <;> rfl
  · rw [if_neg pending, if_neg pending]

/-! ### The loss of a port and the failure of an attempt -/

theorem withClock_loseWork (st : PortState) (cause : LossCause) :
    (s.withClock n b).loseWork p st cause = (s.loseWork p st cause).withClock n b := by
  have halted (s : State) (h : Handle) : ((s.withClock n b).setTaskState h (.halted .portLost)).raiseFault (.portLost h p cause) =
      ((s.setTaskState h (.halted .portLost)).raiseFault (.portLost h p cause)).withClock n b := by
    rw [withClock_setTaskState, withClock_raiseFault]
  cases st with
  | offline => rfl
  | idle => rfl
  | lost => rfl
  | await => rfl
  | loading h _ _ => exact withClock_readyHead ..
  | run h receiving =>
    cases receiving
    · exact halted s h
    · exact halted (s.clearReceivePending h) h
  | saving kind h _ =>
    cases kind
    · exact (congrArg (fun u : State => (u.setTaskState h (.halted .portLost)).raiseFault (.portLost h p cause))
        (withClock_undoWait s n b h)).trans (halted _ h)
    · exact withClock_modTask ..

theorem withClock_losePort (cause : LossCause) : (s.withClock n b).losePort p cause = (s.losePort p cause).withClock n b :=
  (congrArg evalPreempt (withClock_loseWork (s.modPort p fun u => u.lose cause) n b p (s.port p).state cause)).trans
    (withClock_evalPreempt ..)

theorem withClock_takeLeaseTick : (s.withClock n b).takeLeaseTick p = (s.takeLeaseTick p).withClock n b := by
  have loses (s : State) : (match ((s.withClock n b).port p).leaseTick with
      | .expired => (s.withClock n b).losePort p .lease
      | .none | .owed => s.withClock n b) =
      State.withClock (match (s.port p).leaseTick with
      | .expired => s.losePort p .lease
      | .none | .owed => s) n b := by
    rw [withClock_losePort]
    change (match (s.port p).leaseTick with
      | .expired => _
      | .none | .owed => _) = _
    cases (s.port p).leaseTick <;> rfl
  unfold takeLeaseTick
  change (match (s.port p).leaseTick with
    | .none => _
    | .owed | .expired => _) = _
  cases (s.port p).leaseTick with
  | none => rfl
  | owed => exact loses (s.modPort p fun u => u.takeOwed s.items.leases[p])
  | expired => exact loses (s.modPort p fun u => u.takeOwed s.items.leases[p])

theorem withClock_breakInbox (j : Job) (rest : List Job) :
    (s.withClock n b).breakInbox j rest = (s.breakInbox j rest).withClock n b := by
  have ring : (s.withClock n b).breakRing j rest = (s.breakRing j rest).withClock n b := rfl
  have lines (s : State) (f : LineRec → LineRec) : (s.withClock n b).mapLines f = (s.mapLines f).withClock n b := rfl
  simp only [breakInbox, ring, lines, withClock_completeReceive, withClock_releaseSenders, withClock_raiseFault,
    withClock_retryDeferred, withClock_evalPreempt]
  rfl

theorem withClock_attemptError : (s.withClock n b).attemptError = s.attemptError.withClock n b := by
  unfold attemptError
  change (match s.jobs with
    | j :: rest => if s.owns j = true then _ else _
    | [] => _) = State.withClock (match s.jobs with
    | j :: rest => if s.owns j = true then _ else _
    | [] => _) n b
  cases s.jobs with
  | nil => rfl
  | cons j rest =>
    dsimp only
    split
    · cases j.attempt
      · rfl
      · exact withClock_breakInbox s.endAttempt n b j rest
    · exact withClock_retryDeferred ({ s.endAttempt with jobs := rest }.freeSlotList j.slots) n b

theorem withClock_takeTimeout : (s.withClock n b).takeTimeout .nothing = (s.takeTimeout .nothing).withClock n b := by
  unfold takeTimeout burstError
  rw [landWords_zero, landWords_zero, withClock_attemptError]
  change (match s.burst with
    | some b => if b.timedOut = true then (match s.burst with
      | some _ => _
      | none => _) else _
    | none => _) = State.withClock (match s.burst with
    | some b => if b.timedOut = true then (match s.burst with
      | some _ => _
      | none => _) else _
    | none => _) n b
  cases s.burst with
  | none => rfl
  | some x =>
    dsimp only
    split <;> rfl

theorem takeLeaseTick_expiring : (s.takeLeaseTick p).expiring = s.expiring := by
  unfold takeLeaseTick
  split
  · rfl
  all_goals
    dsimp only
    split
    · exact losePort_expiring _ p .lease
    all_goals rfl

theorem takeTimeout_expiring : (s.takeTimeout .nothing).expiring = s.expiring := by
  unfold takeTimeout burstError
  rw [landWords_zero]
  split
  · split
    · split
      · exact s.attemptError_moves.reacts.expiring
      · rfl
    · rfl
  · rfl

/-- The consequences of a tick do not read the divider count. -/
theorem settle_dividerCount (s : State) (n : Nat) :
    ({ s with dividerCount := n } : State).settle = { s.settle with dividerCount := n } := by
  have begun : ({ s with dividerCount := n } : State).settleDeadlines =
    s.settleDeadlines.withClock n s.settleDeadlines.expiring := withClock_settleDeadlines n s
  have kept : s.settle.expiring = s.settleDeadlines.expiring := by
    rw [settle, takeTimeout_expiring, takeLeaseTick_expiring, takeLeaseTick_expiring, takeLeaseTick_expiring,
      takeLeaseTick_expiring]
  rw [settle, begun, withClock_takeLeaseTick, withClock_takeLeaseTick, withClock_takeLeaseTick, withClock_takeLeaseTick,
    withClock_takeTimeout, withClock, ← kept]
  rfl

end State
end Sys2Proof.Machine
end

section
/-! ## Ticks and what they end -/

namespace Sys2Proof.Machine
namespace State
variable {s t : State} {p q : Port} {h : Handle}

/-! ### A settled part is quiet -/

theorem deadlineDue_iff : s.deadlineDue = true ↔ ∃ e rest, s.deadlines = e :: rest ∧ e.expiry = s.tickCounter := by
  unfold deadlineDue
  cases s.deadlines with
  | nil => simp
  | cons e rest => simp

theorem quiet_iff : s.quiet = true ↔ s.deadlineDue = false ∧ (∀ p, (s.port p).leaseTick = .none) ∧
    ∀ b, s.burst = some b → b.timedOut = false := by
  have leases : (s.ports.toList.all fun u => u.leaseTick == .none) = true ↔ ∀ p, (s.port p).leaseTick = .none := by
    simp only [List.all_eq_true, beq_iff_eq]
    refine ⟨fun all p => all _ (by simp [port]), fun all u mem => ?_⟩
    obtain ⟨i, bound, rfl⟩ := List.mem_iff_getElem.1 mem
    exact all ⟨i, by simpa using bound⟩
  rw [quiet, Bool.and_eq_true, Bool.and_eq_true, leases, Bool.not_eq_true', and_assoc]
  refine and_congr_right fun _ => and_congr_right fun _ => ?_
  cases s.burst <;> simp

theorem settleDeadlines_idle (idle : s.deadlineDue = false) : s.settleDeadlines = s := by simp [settleDeadlines, idle]

theorem own_leaseTick {u v : PortUnit} (same : u.own = v.own) : u.leaseTick = v.leaseTick := by
  have ticks : u.own.leaseTick = v.own.leaseTick := by rw [same]
  exact ticks

/-- A port that has taken what the tick left it owes nothing. -/
theorem takeLeaseTick_taken (s : State) (p : Port) : ((s.takeLeaseTick p).port p).leaseTick = .none := by
  have taken (u : PortUnit) (n : Nat) (some : u.leaseTick ≠ .none) (open_ : (u.takeOwed n).leaseTick ≠ .expired) :
      (u.takeOwed n).leaseTick = .none := by
    unfold PortUnit.takeOwed PortUnit.countDown at *
    grind
  unfold takeLeaseTick
  split
  case h_1 none => exact none
  all_goals
    next state =>
    dsimp only
    split
    · have lost := (losePort_reacts (s.modPort p fun u => u.takeOwed s.items.leases[p]) p .lease).own p
      rw [own_leaseTick lost, modPort_port, if_pos rfl]
      rfl
    all_goals
      next other =>
      rw [modPort_port, if_pos rfl] at other ⊢
      exact taken _ _ (by rw [state]; nofun) (by rw [other]; nofun)

/-- What one port takes leaves what the others owe. -/
theorem takeLeaseTick_others (other : q ≠ p) : ((s.takeLeaseTick p).port q).leaseTick = (s.port q).leaseTick := by
  have unit : (s.modPort p fun u => u.takeOwed s.items.leases[p]).port q = s.port q := by rw [modPort_port, if_neg other]
  unfold takeLeaseTick
  split
  · rfl
  all_goals
    dsimp only
    split
    · rw [own_leaseTick (losePort_own _ other .lease), unit]
    all_goals rw [unit]

theorem takeTimeout_leaseTick (s : State) (q : Port) :
    ((s.takeTimeout .nothing).port q).leaseTick = (s.port q).leaseTick := by
  unfold takeTimeout burstError
  rw [landWords_zero]
  split
  · split
    · split
      · exact own_leaseTick (s.attemptError_moves.reacts.own q)
      · rfl
    · rfl
  · rfl

theorem takeTimeout_timedOut {b : Burst} (some : (s.takeTimeout .nothing).burst = some b) : b.timedOut = false := by
  unfold takeTimeout burstError at some
  rw [landWords_zero] at some
  cases burst : s.burst with
  | none => rw [burst] at some; nomatch burst.symm.trans some
  | some x =>
    rw [burst] at some
    cases out : x.timedOut with
    | true =>
      simp only [out, if_true] at some
      rw [s.attemptError_moves.reacts.burst] at some
      nomatch some
    | false =>
      simp only [out, Bool.false_eq_true, if_false] at some
      rw [← Option.some.inj (burst.symm.trans some)]
      exact out

/-- With the outstanding consequences of a tick made there are none. -/
theorem settle_quiet (o : s.DeadlinesOrdered) : s.settle.quiet = true := by
  refine quiet_iff.2 ⟨due_false (settle_none_due o), fun q => ?_, fun b some => takeTimeout_timedOut some⟩
  rw [settle, takeTimeout_leaseTick]
  fin_cases q
  · rw [takeLeaseTick_others (by decide), takeLeaseTick_others (by decide), takeLeaseTick_others (by decide)]
    exact takeLeaseTick_taken _ 0
  · rw [takeLeaseTick_others (by decide), takeLeaseTick_others (by decide)]
    exact takeLeaseTick_taken _ 1
  · rw [takeLeaseTick_others (by decide)]
    exact takeLeaseTick_taken _ 2
  · exact takeLeaseTick_taken _ 3

theorem settle_settle (o : s.DeadlinesOrdered) : s.settle.settle = s.settle := settle_eq_self _ (settle_quiet o)

/-! ### Expiries, one at a time -/

theorem expireDue_idle (idle : s.deadlineDue = false) (n : Nat) : expireDue n s = s := by
  cases n with
  | zero => rfl
  | succ n => rw [expireDue, idle]; rfl

/-- The fuel of the expiries does not matter as long as it covers the list. -/
theorem expireDue_enough (n : Nat) : ∀ (m : Nat) (s : State), s.deadlines.length ≤ n → s.deadlines.length ≤ m →
    expireDue n s = expireDue m s := by
  have empty {s : State} (none : s.deadlines.length = 0) : s.deadlineDue = false := by
    rw [deadlineDue, List.length_eq_zero_iff.1 none]
  induction n with
  | zero => exact fun m s none _ => by rw [expireDue_idle (empty (by omega)), expireDue_idle (empty (by omega))]
  | succ n ih =>
    intro m s many less
    cases m with
    | zero => rw [expireDue_idle (empty (by omega)), expireDue_idle (empty (by omega))]
    | succ m =>
      rw [expireDue, expireDue]
      split
      case isTrue due =>
        have shorter := expireHead_length due
        exact ih m s.expireHead (by omega) (by omega)
      · rfl

theorem withClock_self (s : State) : s.withClock s.dividerCount s.expiring = s := rfl

theorem expireDue_dividerCount (n : Nat) (s : State) : (expireDue n s).dividerCount = s.dividerCount :=
  (expireDue_moves n s).reacts.dividerCount

/-- One expiry command, and then the rest of the expiries. -/
theorem settleDeadlines_step (due : s.deadlineDue = true) :
    ({ s.expireHead with expiring := s.expireHead.deadlineDue } : State).settleDeadlines = s.settleDeadlines := by
  have first : expireDue s.deadlines.length s = expireDue (s.deadlines.length - 1) s.expireHead := by
    have shorter := expireHead_length due
    obtain ⟨n, length⟩ : ∃ n, s.deadlines.length = n + 1 := ⟨s.deadlines.length - 1, by omega⟩
    rw [length, expireDue, due]
    rfl
  have same : expireDue (s.deadlines.length - 1) s.expireHead =
      expireDue s.expireHead.deadlines.length s.expireHead :=
    expireDue_enough _ _ _ (by have := expireHead_length due; omega) (Nat.le_refl _)
  rw [settleDeadlines, settleDeadlines, if_pos due, first, same]
  cases more : s.expireHead.deadlineDue with
  | false =>
    have idle : ¬ ({ s.expireHead with expiring := false } : State).deadlineDue = true := Bool.eq_false_iff.1 more
    rw [expireDue_idle more, if_neg idle]
  | true =>
    have moved : expireDue s.expireHead.deadlines.length ({ s.expireHead with expiring := true } : State) =
        (expireDue s.expireHead.deadlines.length s.expireHead).withClock s.expireHead.dividerCount true :=
      withClock_expireDue s.expireHead.dividerCount true s.expireHead.deadlines.length s.expireHead
    have due' : ({ s.expireHead with expiring := true } : State).deadlineDue = true := more
    rw [if_pos due']
    change ({ expireDue s.expireHead.deadlines.length ({ s.expireHead with expiring := true } : State) with
      expiring := false } : State) = _
    rw [moved, withClock, ← expireDue_dividerCount s.expireHead.deadlines.length s.expireHead]

theorem finishExpiries_idle (idle : s.deadlineDue = false) : s.finishExpiries = s := by
  rw [finishExpiries, settleDeadlines_idle idle, ite_self]

/-- Once the deadline expiries are made, no act of a port or of the engine leaves one due. -/
theorem finishExpiries_steady_idle (o : s.DeadlinesOrdered) (idle : s.deadlineDue = false) (kept : Steady s t) :
    t.finishExpiries = t :=
  finishExpiries_idle (due_false fun e mem => by
    rw [kept.tickCounter]; exact none_due o idle e (kept.deadlines.subset mem))

theorem issue_settled (o : s.DeadlinesOrdered) (c : Cmd) (p : Port) (f : State → State) :
    s.issue c p f = s.settle.issue c p f := by simp only [issue, settle_settle o]

theorem accessFrame_settled (o : s.DeadlinesOrdered) (p : Port) (f : State → State) :
    s.accessFrame p f = s.settle.accessFrame p f := by simp only [accessFrame, settle_settle o]

theorem writeCmd_settled (o : s.DeadlinesOrdered) (p : Port) (w : Word) : s.writeCmd p w = s.settle.writeCmd p w := by
  unfold writeCmd
  split
  · exact issue_settled o ..
  · simp only [refuseCode, settle_settle o]

end State

/-- Settles O6: the settled state is quiet, so a second settling changes nothing. -/
theorem outstandingExpiriesComeFirst : Obligations.OutstandingExpiriesComeFirst := by
  refine ⟨fun s => ⟨State.deadlineDue_iff, State.quiet_iff, State.settleDeadlines_idle, fun due => ?_⟩, fun s o => ?_⟩
  · have expires : exec .deadlineExpiry s = .next { s.expireHead with expiring := s.expireHead.deadlineDue } :=
      congrArg Host.Outcome.next (if_pos due)
    exact ⟨_, expires, State.settleDeadlines_step due⟩
  · have again := State.settle_settle o
    have ordered := State.Steady.deadlinesOrdered s.settleDeadlines_steady o
    have idle := s.settleDeadlines_settled
    have lease (u : State) (kept : Steady s.settleDeadlines u) (p : Port) :
        exec (.leaseExpiry p) u = .next (u.takeLeaseTick p) :=
      congrArg (fun v : State => Host.Outcome.next (v.takeLeaseTick p)) (State.finishExpiries_steady_idle ordered idle kept)
    have s0 := s.settleDeadlines.takeLeaseTick_steady 0
    have s1 := s0.trans (State.takeLeaseTick_steady _ 1)
    have s2 := s1.trans (State.takeLeaseTick_steady _ 2)
    have s3 := s2.trans (State.takeLeaseTick_steady _ 3)
    refine ⟨⟨_, _, _, _, lease _ (.refl _) 0, lease _ s0 1, lease _ s1 2, lease _ s2 3,
        congrArg (fun v : State => Host.Outcome.next (v.takeTimeout .nothing))
          (State.finishExpiries_steady_idle ordered idle s3)⟩, State.settle_quiet o, fun c p => ?_, fun p e => ?_,
      fun p e w => ?_, fun p e w => ?_, fun l level high => ?_, fun p rst prst => ?_, ?_, ?_, fun d => ?_, fun n => ?_⟩
    · rw [State.exec_cmd, State.exec_cmd]
      exact congrArg _ (State.issue_settled o ..)
    · exact congrArg (fun u : State => Host.Outcome.next (u.heldRead p)) (State.accessFrame_settled o ..)
    · exact congrArg Host.Outcome.next (State.writeCmd_settled o ..)
    · exact congrArg Host.Outcome.next (State.accessFrame_settled o ..)
    · have high' : s.settle.rstLow = false := s.settle_steady.rstLow.trans high
      change Host.Outcome.next (if s.rstLow then s else s.settle.changeLevel l level) =
        Host.Outcome.next (if s.settle.rstLow then s.settle else s.settle.settle.changeLevel l level)
      rw [high, high', again]
      rfl
    · have rst' : s.settle.rstLow = false := s.settle_steady.rstLow.trans rst
      have prst' : (s.settle.port p).prstLow = false := (s.settle_steady.prstLow p).trans prst
      change Host.Outcome.next (if (s.port p).prstLow then s else if s.rstLow then s.setPrst p true
          else s.settle.losePort p .line) = Host.Outcome.next (if (s.settle.port p).prstLow then s.settle
        else if s.settle.rstLow then s.settle.setPrst p true else s.settle.settle.losePort p .line)
      rw [rst, rst', prst, prst', again]
      rfl
    · exact congrArg (fun u : State => Host.Outcome.next u.startAttempt) again.symm
    · exact congrArg (fun u : State => Host.Outcome.next u.spillComplete) again.symm
    · exact congrArg (fun u : State => Host.Outcome.next (u.refillComplete d)) again.symm
    · exact congrArg (fun u : State => Host.Outcome.next (u.burstError n)) again.symm

end Sys2Proof.Machine
end

section
/-! ## The tick, its expiries and the backing engine -/

namespace Sys2Proof.Machine
namespace State
variable {s t : State} {p q : Port} {h : Handle}

/-! ### A tick at its three holders (R121, R131, R184) -/

/-- One port at a tick: taken now or owed, and counted in a state that counts. -/
theorem tick_unit (u : PortUnit) (configured : Nat) (late : Bool) (none : u.leaseTick = .none) :
    (if late then { u with leaseTick := .owed } else u.countDown configured) =
      if late then { u with leaseTick := .owed }
      else if 0 < configured ∧ u.state.counting = true then
        if u.lease ≤ 1 then { u with lease := 0, leaseTick := .expired } else { u with lease := u.lease - 1 }
      else u := by
  have same (v : PortUnit) (e : v.leaseTick = .none) : { v with leaseTick := .none } = v := by rw [← e]
  cases late with
  | true => rfl
  | false =>
    simp only [Bool.false_eq_true, if_false, PortUnit.countDown, Bool.and_eq_true, decide_eq_true_eq]
    split
    · split
      · rfl
      · exact same { u with lease := u.lease - 1 } none
    · exact same u none

theorem deliverTick_fields (s : State) (late : BitVec 4) : s.deliverTick late = { s with
    tickCounter := s.tickCounter + 1#32
    burst := s.burst.map (Burst.tick · s.items.backingTimeout)
    ports := (s.deliverTick late).ports } := by
  simp only [deliverTick, tickPort, modPort_eq]

theorem deliverTick_port (s : State) (late : BitVec 4) (q : Port) : (s.deliverTick late).port q =
    if late.getLsbD q.val then { s.port q with leaseTick := .owed } else (s.port q).countDown s.items.leases[q] := by
  simp only [deliverTick, tickPort, modPort_port, modPort_items]
  fin_cases q <;> simp <;> rfl

/-- The state after a tick on a quiet part. -/
def ticked (s : State) (late : BitVec 4) : State := { s with
  tickCounter := s.tickCounter + 1#32
  burst := s.burst.map fun b => { b with
    timer := b.timer + 1
    timedOut := decide (s.items.backingTimeout ≤ b.timer + 1) }
  ports := Vector.ofFn fun p =>
    if late.getLsbD p.val then { s.port p with leaseTick := .owed }
    else if 0 < s.items.leases[p] ∧ (s.port p).state.counting = true then
      if (s.port p).lease ≤ 1 then { s.port p with lease := 0, leaseTick := .expired }
      else { s.port p with lease := (s.port p).lease - 1 }
    else s.port p }

theorem deliverTick_quiet (quiet : s.quiet = true) (late : BitVec 4) : s.deliverTick late = s.ticked late := by
  have ports : (s.deliverTick late).ports = (s.ticked late).ports := by
    apply Vector.ext
    intro i bound
    have unit := s.deliverTick_port late ⟨i, bound⟩
    rw [tick_unit _ _ _ ((quiet_iff.1 quiet).2.1 ⟨i, bound⟩)] at unit
    rw [ticked, Vector.getElem_ofFn]
    exact unit
  rw [deliverTick_fields, ports]
  rfl

theorem counting_eq (st : PortState) : st.counting = match st with
    | .loading _ _ _ => true
    | .run _ _ => true
    | .saving _ _ _ => true
    | _ => false := by cases st <;> rfl

theorem ticking_settle (s : State) (source : Bool) : s.settle.ticking source = s.ticking source := by
  have kept := s.settle_steady
  rw [ticking, ticking, kept.rstLow, kept.phase, kept.items]

end State

/-- Settles O49: what an earlier tick left is made, and then the tick reaches the counter, the ports and the timer. -/
theorem ticksReachTheirThreeHolders : Obligations.TicksReachTheirThreeHolders := by
  intro late s counts ticked
  have edge (u : State) : exec (.tickLineEdge late) u = .next (if u.ticking true then u.takeTick late else u) := rfl
  have divider (u : State) : exec (.dividerExpiry late) u =
    .next (if u.ticking false then { u with dividerCount := 0 }.takeTick late else u) := rfl
  have off {source : Bool} (out : s.rstLow = true ∨ s.phase = .config ∨ s.items.tickLine ≠ source) :
      ¬ s.ticking source = true := by
    rw [State.ticking_iff]
    rintro ⟨high, service, line⟩
    rcases out with low | config | other
    · exact Bool.false_ne_true (high.symm.trans low)
    · nomatch config.symm.trans service
    · exact other line
  have counted : s.ticked late = ticked := by
    rw [State.ticked]
    simp only [State.counting_eq]
    rfl
  refine ⟨fun out => ⟨?_, ?_⟩, fun other => ?_, fun other => ?_, fun rst service line => ⟨fun o => ?_, fun quiet => ?_⟩,
    fun rst service line => ⟨fun o => ?_, fun quiet => ?_⟩⟩
  · rw [edge, if_neg (off (out.imp_right .inl))]
  · rw [divider, if_neg (off (out.imp_right .inl))]
  · rw [edge, if_neg (off (.inr (.inr (by rw [other]; nofun))))]
  · rw [divider, if_neg (off (.inr (.inr (by rw [other]; nofun))))]
  · have on := State.ticking_iff.2 ⟨rst, service, line⟩
    rw [edge, edge, State.ticking_settle, if_pos on, if_pos on, State.takeTick, State.takeTick, State.settle_settle o]
  · have on := State.ticking_iff.2 ⟨rst, service, line⟩
    rw [edge, if_pos on, State.takeTick, s.settle_eq_self quiet, State.deliverTick_quiet quiet, counted]
  · have on := State.ticking_iff.2 ⟨rst, service, line⟩
    rw [divider, divider, State.ticking_settle, if_pos on, if_pos on, State.takeTick, State.takeTick,
      State.settle_dividerCount s 0, State.settle_dividerCount s.settle 0, State.settle_settle o]
  · have on := State.ticking_iff.2 ⟨rst, service, line⟩
    have quiet' : ({ s with dividerCount := 0 } : State).quiet = true := quiet
    rw [divider, if_pos on, State.takeTick, State.settle_eq_self _ quiet', State.deliverTick_quiet quiet', ← counted]
    rfl

/-! ### The expiries (R121, R136 to R139, R184) -/

namespace State
variable {s t : State} {p q : Port} {h : Handle}

theorem takeLeaseTick_none (none : (s.port p).leaseTick = .none) : s.takeLeaseTick p = s := by
  unfold takeLeaseTick; rw [none]

theorem takeLeaseTick_some (some : (s.port p).leaseTick ≠ .none) : s.takeLeaseTick p =
    let u := (s.port p).takeOwed s.items.leases[p]
    if u.leaseTick = .expired then (s.withPort p u).losePort p .lease else s.withPort p u := by
  have unit : ((s.withPort p ((s.port p).takeOwed s.items.leases[p])).port p) = (s.port p).takeOwed s.items.leases[p] := by
    rw [withPort_port, if_pos rfl]
  unfold takeLeaseTick
  rw [modPort_withPort]
  dsimp only
  rw [unit]
  cases state : (s.port p).leaseTick with
  | none => exact absurd state some
  | _ =>
    dsimp only
    cases ((s.port p).takeOwed s.items.leases[p]).leaseTick <;> simp

theorem takeLeaseTick_expired (expired : (s.port p).leaseTick = .expired) : s.takeLeaseTick p = s.losePort p .lease := by
  have same : (s.port p).takeOwed s.items.leases[p] = s.port p := by rw [PortUnit.takeOwed, expired]
  rw [takeLeaseTick_some (by rw [expired]; nofun), same]
  dsimp only
  rw [withPort_self, if_pos expired]

theorem counting_iff (st : PortState) : st.counting = true ↔ st.code ∈ [3#3, 4#3, 5#3] := by
  cases st <;> simp [PortState.counting, PortState.code]

theorem takeLeaseTick_owed (owed : (s.port p).leaseTick = .owed) : s.takeLeaseTick p =
    if s.items.leases[p] ≠ 0 ∧ (s.port p).state.code ∈ [3#3, 4#3, 5#3] then
      if (s.port p).lease ≤ 1 then (s.withPort p { s.port p with lease := 0, leaseTick := .expired }).losePort p .lease
      else s.withPort p { s.port p with lease := (s.port p).lease - 1, leaseTick := .none }
    else s.withPort p { s.port p with leaseTick := .none } := by
  rw [takeLeaseTick_some (by rw [owed]; nofun), PortUnit.takeOwed, owed]
  dsimp only
  rw [PortUnit.countDown]
  simp only [Bool.and_eq_true, decide_eq_true_eq, counting_iff, Nat.pos_iff_ne_zero]
  split
  · split
    · exact if_pos rfl
    · exact if_neg nofun
  · exact if_neg nofun

end State

/-- Settles O50: each command makes what is left for it, and the rest of the deadline expiries come before the others. -/
theorem expiriesEndWhatTheTickLeft : Obligations.ExpiriesEndWhatTheTickLeft := by
  intro s
  have expiry (u : State) : exec .deadlineExpiry u =
    .next (if u.deadlineDue then { u.expireHead with expiring := u.expireHead.deadlineDue } else u) := rfl
  have lease (u : State) (p : Port) : exec (.leaseExpiry p) u = .next (u.finishExpiries.takeLeaseTick p) := rfl
  have timeout (u : State) (n : Taken) : exec (.backingTimeout n) u = .next (u.finishExpiries.takeTimeout n) := rfl
  refine ⟨fun empty => ?_, fun e rest listed => ⟨fun later => ?_, fun due => ?_⟩, fun under => ?_, fun free => ?_⟩
  · have idle : ¬ s.deadlineDue = true := by rw [State.deadlineDue, empty]; nofun
    rw [expiry, if_neg idle]
  · have idle : ¬ s.deadlineDue = true := by rw [State.deadlineDue, listed]; simpa using later
    rw [expiry, if_neg idle]
  · have now := State.deadlineDue_iff.2 ⟨e, rest, listed, due⟩
    refine ⟨s.expireHead, by rw [expiry, if_pos now], ?_⟩
    have head : s.expireHead = (s.endWait e.task e.kind.resume).evalPreempt := by rw [State.expireHead, listed]
    have resume : e.kind.resume = (match e.kind with
      | .sleep => .ok
      | .recv => .timeout
      | .send => .timeout) := by cases e.kind <;> rfl
    rw [head, resume]
    exact State.evalPreempt_reevaluated _
  · have first : s.finishExpiries = s.settleDeadlines := by rw [State.finishExpiries, under]; rfl
    have done := State.finishExpiries_idle s.settleDeadlines_settled
    exact ⟨fun p => by rw [lease, lease, first, done], fun n => by rw [timeout, timeout, first, done]⟩
  · have none : s.finishExpiries = s := by rw [State.finishExpiries, free]; rfl
    refine ⟨fun p => ?_, fun n => ⟨fun idle => ?_, fun b some => ⟨fun early => ?_, fun out => ?_⟩⟩⟩
    · intro u
      rw [lease, none]
      refine ⟨fun taken => by rw [State.takeLeaseTick_none taken],
        fun expired => by rw [State.takeLeaseTick_expired expired], fun owed => ?_⟩
      rw [State.takeLeaseTick_owed owed]
      refine ⟨fun still => congrArg _ (if_neg ?_), fun counted counts => ⟨fun more => ?_, fun last => ?_⟩⟩
      · rintro ⟨counted, counts⟩
        exact still.elim (fun zero => counted zero) fun out => out counts
      · rw [if_pos ⟨counted, counts⟩]
        exact congrArg _ (if_neg (Nat.not_le.2 more))
      · rw [if_pos ⟨counted, counts⟩]
        exact congrArg _ (if_pos last)
    · rw [timeout, none, State.takeTimeout, idle]
    · rw [timeout, none, State.takeTimeout, some]
      simp only [early, Bool.false_eq_true, if_false]
    · rw [timeout, none, State.takeTimeout, some]
      simp only [out, if_true, State.burstError, some]

/-! ### Burst attempts (R119 to R122) -/

/-- Settles O51: an attempt starts only on an idle engine with a job. -/
theorem burstAttemptsDriveTheJobsPosition : Obligations.BurstAttemptsDriveTheJobsPosition := by
  intro s quiet
  have start : exec .burstAttemptStart s = .next s.startAttempt := by
    change Host.Outcome.next s.settle.startAttempt = _
    rw [s.settle_eq_self quiet]
  rw [start]
  refine ⟨fun b some => ?_, fun empty => ?_, fun j rest jobs idle => ?_⟩
  · rw [State.startAttempt, some]
  · rw [State.startAttempt, empty]
    cases s.burst <;> rfl
  · rw [State.startAttempt, idle, jobs]
    rfl

namespace State
variable {s t : State} {p q : Port} {h : Handle} {j : Job} {rest : List Job} {b : Burst} {x : PoolSlot} {xs : List PoolSlot}

theorem landWords_read (burst : s.burst = some b) (jobs : s.jobs = j :: rest) (slots : j.slots = x :: xs)
    (read : b.write = false) (n : Taken) :
    s.landWords n = s.writeSlot x (Image.overlay n.count (s.readBurst b n.data) s.pool[x]) := by
  unfold landWords
  rw [burst, jobs]
  dsimp only
  rw [slots]
  simp only [read, Bool.false_eq_true, if_false]

theorem landWords_write (burst : s.burst = some b) (jobs : s.jobs = j :: rest) (slots : j.slots = x :: xs)
    (write : b.write = true) (n : Taken) : s.landWords n =
    { s with backing := Memory.writeWords s.backing b.address.toNat ((s.pool[x]).toList.take n.count) } := by
  unfold landWords
  rw [burst, jobs]
  dsimp only
  rw [slots]
  simp only [write, if_true]

theorem owns_iff : s.owns j = true ↔ s.live j.inbox = true ∧ j.resetMark = false := by simp [owns]

theorem attemptError_unowned (jobs : s.jobs = j :: rest) (out : s.live j.inbox = false ∨ j.resetMark = true) :
    s.attemptError = s.endAttempt.endUnowned j rest := by
  have jobs' : s.endAttempt.jobs = j :: rest := jobs
  have unowned : ¬ s.endAttempt.owns j = true := by
    rw [owns_iff]
    rintro ⟨live, clear⟩
    rcases out with stale | marked
    · exact Bool.false_ne_true (stale.symm.trans live)
    · exact Bool.false_ne_true (clear.symm.trans marked)
  unfold attemptError
  dsimp only
  rw [jobs']
  exact if_neg unowned

theorem attemptError_owned (jobs : s.jobs = j :: rest) (live : s.live j.inbox = true) (clear : j.resetMark = false) :
    (j.attempt = .first → s.attemptError = { s.endAttempt with jobs := { j with attempt := .second } :: rest }) ∧
    (j.attempt = .second → s.attemptError = s.endAttempt.breakInbox j rest) := by
  have jobs' : s.endAttempt.jobs = j :: rest := jobs
  have owned : s.endAttempt.owns j = true := owns_iff.2 ⟨live, clear⟩
  unfold attemptError
  dsimp only
  rw [jobs']
  dsimp only
  rw [if_pos owned]
  exact ⟨fun first => by rw [first], fun second => by rw [second]⟩

/-- The line records as an inbox becomes BROKEN (R150). -/
theorem discardBroken_eq (h : Handle) (next : BitVec 16) (d : Nat) (r : LineRec) : r.discardBroken h next d =
    match r.pending with
    | some pe => if pe.place = .inbox ∧ pe.target = h ∧ (next - 1#16 - pe.seq).toNat < d then { r with
        missed := min (r.missed + r.count) 65535
        count := 0
        pending := none } else r
    | none => r := by
  unfold LineRec.discardBroken
  cases r.pending <;> rfl

end State

/-- Settles O52: the words of the attempt land, and the job's attempt and its owner decide what the ERROR ends. -/
theorem failedAttemptsAreRetriedOnceThenBreakTheInbox : Obligations.FailedAttemptsAreRetriedOnceThenBreakTheInbox := by
  intro s
  have error (n : Taken) (quiet : s.quiet = true) : exec (.burstAttemptError n) s = .next (s.burstError n) := by
    change Host.Outcome.next (s.settle.burstError n) = _
    rw [s.settle_eq_self quiet]
  refine ⟨fun quiet idle n => ?_, ?_⟩
  · rw [error n quiet, State.burstError, idle]
  intro n b j rest burst jobs h ib d brought landed idle
  have kept : landed = { s with backing := landed.backing, pool := landed.pool } := s.landWords_eq n
  have landedJobs : landed.jobs = j :: rest := by rw [kept]; exact jobs
  have landedLive : landed.live h = s.live h := by rw [kept]; rfl
  refine ⟨fun quiet => ?_, fun free out => ?_, fun x xs read slots => ?_, fun x xs write slots => ?_, fun out => ?_,
    fun live clear => ⟨fun first => ?_, fun second => ?_⟩⟩
  · rw [error n quiet, State.burstError, burst]
  · have none : s.finishExpiries = s := by rw [State.finishExpiries, free]; rfl
    change Host.Outcome.next (s.finishExpiries.takeTimeout n) = _
    rw [none, State.takeTimeout, burst]
    simp only [out, if_true, State.burstError, burst]
    rfl
  · exact State.landWords_read burst jobs slots read n
  · exact State.landWords_write burst jobs slots write n
  · rw [State.attemptError_unowned landedJobs (by rw [landedLive]; exact out), State.endUnowned]
    have free : landed.poolFree = s.poolFree := by rw [kept]
    exact congrArg (fun xs : List PoolSlot => State.retryDeferred { idle with jobs := rest, poolFree := j.slots ++ xs }) free
  · exact (State.attemptError_owned landedJobs (landedLive.trans live) clear).1 first
  · intro broken
    rw [(State.attemptError_owned landedJobs (landedLive.trans live) clear).2 second]
    obtain ⟨words, slots, kept⟩ : ∃ words slots, landed = { s with backing := words, pool := slots } := ⟨_, _, kept⟩
    clear_value landed
    subst kept
    have lines : (Vector.ofFn fun l => (s.lines[l]).discardBroken h ib.nextSeq d) = broken.lines := by
      refine congrArg Vector.ofFn (funext fun l => ?_)
      refine (State.discardBroken_eq _ _ _ _).trans ?_
      cases (s.lines[l]).pending <;> rfl
    have ring : (State.breakRing (State.endAttempt { s with backing := words, pool := slots }) j rest).mapLines
        (LineRec.discardBroken h ib.nextSeq d) = broken :=
      congrArg (fun ls => { broken with lines := ls }) lines
    have count : ib.occupancy = d := rfl
    change (State.evalPreempt ((((((((State.breakRing (State.endAttempt { s with backing := words, pool := slots })
      j rest).mapLines (LineRec.discardBroken h ib.nextSeq d))).completeReceive h .broken).releaseSenders h).raiseFault
        (.backingFailed h ib.occupancy)).retryDeferred))).Reevaluated _
    rw [ring, count]
    exact State.evalPreempt_reevaluated _

end Sys2Proof.Machine
end

section
/-! ## Completions: the words of a burst arrive, and the job's owner decides what they end (R112, R114, R126) -/
namespace Sys2Proof.Machine
namespace State
variable {s t : State} {h : Handle} {j : Job} {rest : List Job} {b : Burst} {x : PoolSlot} {xs : List PoolSlot}

theorem not_owns (out : s.live j.inbox = false ∨ j.resetMark = true) : ¬ s.owns j = true := by
  rw [owns_iff]
  rintro ⟨live, clear⟩
  rcases out with stale | marked
  · exact Bool.false_ne_true (stale.symm.trans live)
  · exact Bool.false_ne_true (clear.symm.trans marked)

theorem imageValid_iff (i : Image) : imageValid i = true ↔
    (i[0].extractLsb' 0 8 = 1#8 ∨ i[0].extractLsb' 0 8 = 2#8 ∨ i[0].extractLsb' 0 8 = 3#8) ∧
      (i[0].extractLsb' 8 8).toNat ≤ 6 := by
  simp only [imageValid, imageKind, Bool.and_eq_true, Bool.or_eq_true, beq_iff_eq, or_assoc]
  exact and_congr_right fun _ => decide_eq_true_iff

theorem spillComplete_ignored (out : s.burst = none ∨ s.jobs = []) : s.spillComplete = s := by
  unfold spillComplete
  rcases out with none | none <;> rw [none]
  cases s.burst <;> rfl

theorem spillComplete_write (burst : s.burst = some b) (jobs : s.jobs = j :: rest) (slots : j.slots = x :: xs)
    (write : b.write = true) : s.spillComplete =
    let u : State := { s with
      burst := none
      backing := Memory.writeWords s.backing b.address.toNat s.pool[x].toList }
    if s.owns j then u.spillDone j rest else u.endUnowned j rest := by
  have all : (s.pool[x]).toList.take 8 = (s.pool[x]).toList := List.take_of_length_le (by simp)
  have landed := landWords_write burst jobs slots write ⟨8, .stored⟩
  change _ = { s with backing := Memory.writeWords s.backing b.address.toNat ((s.pool[x]).toList.take 8) } at landed
  rw [all] at landed
  unfold spillComplete
  rw [burst, jobs]
  dsimp only
  rw [if_pos write, landed]
  rfl

theorem refillComplete_ignored (out : s.burst = none ∨ s.jobs = []) (data : ReadData) : s.refillComplete data = s := by
  unfold refillComplete
  rcases out with none | none <;> rw [none]
  cases s.burst <;> rfl

theorem refillComplete_read (burst : s.burst = some b) (jobs : s.jobs = j :: rest) (read : b.write = false)
    (data : ReadData) : s.refillComplete data =
    let u := (s.keepImage j (s.readBurst b data)).endAttempt
    if u.owns j then if imageValid (s.readBurst b data) then u.refillDone j rest else u.attemptError
    else u.endUnowned j rest := by
  unfold refillComplete
  rw [burst, jobs]
  dsimp only
  rw [if_neg (read ▸ Bool.false_ne_true)]

theorem keepImage_eq (j : Job) (i : Image) : s.keepImage j i = { s with pool := match j.slots with
    | x :: _ => s.pool.set x i
    | [] => s.pool } := by
  unfold keepImage
  cases j.slots <;> rfl

/-- A completed burst of a REFILL job, before the running tasks are compared again (R114). -/
def broughtBack (s : State) (j : Job) (rest : List Job) (x : PoolSlot) (xs : List PoolSlot) : State :=
  (State.withInbox
    { s with jobs := { j with slots := xs, burstsDone := j.burstsDone + 1, attempt := Attempt.first } :: rest } j.inbox
    { s.inbox j.inbox with
      resident := (s.inbox j.inbox).resident ++ [x]
      refilling := (s.inbox j.inbox).refilling - 1 }).answerReceive j.inbox

theorem refillDone_reevaluated (slots : j.slots = x :: xs) :
    (j.burstsDone + 1 ≠ j.count → (s.refillDone j rest).Reevaluated (s.broughtBack j rest x xs)) ∧
    (j.burstsDone + 1 = j.count →
      (s.refillDone j rest).Reevaluated ((s.broughtBack j rest x xs).refillJobEnd j.inbox)) := by
  have done : s.refillDone j rest = (if j.burstsDone + 1 = j.count then
      (s.broughtBack j rest x xs).refillJobEnd j.inbox else s.broughtBack j rest x xs).evalPreempt := by
    unfold refillDone
    rw [slots]
    rfl
  rw [done]
  refine ⟨fun more => ?_, fun last => ?_⟩
  · rw [if_neg more]
    exact evalPreempt_reevaluated _
  · rw [if_pos last]
    exact evalPreempt_reevaluated _

end State

theorem exec_spillBurstComplete (s : State) (quiet : s.quiet = true) :
    exec .spillBurstComplete s = .next s.spillComplete := by
  change Host.Outcome.next s.settle.spillComplete = _
  rw [s.settle_eq_self quiet]

theorem exec_refillBurstComplete (s : State) (quiet : s.quiet = true) (data : ReadData) :
    exec (.refillBurstComplete data) s = .next (s.refillComplete data) := by
  change Host.Outcome.next (s.settle.refillComplete data) = _
  rw [s.settle_eq_self quiet]

/-- Settles O54: the words of the slot stand in backing memory, and the job is done or ends unowned. -/
theorem spillCompletionBacksTheMessage : Obligations.SpillCompletionBacksTheMessage := by
  intro s quiet
  rw [exec_spillBurstComplete s quiet]
  refine ⟨fun out => by rw [State.spillComplete_ignored out], fun b j rest burst jobs => ⟨fun read => ?_,
    fun x xs write slots => ?_⟩⟩
  · unfold State.spillComplete
    rw [burst, jobs]
    exact congrArg _ (if_neg (read ▸ Bool.false_ne_true))
  · intro address memory ib ended
    have done := State.spillComplete_write burst jobs slots write
    refine ⟨fun canonical => ⟨?_, fun a outside => Memory.read_writeWords_outside canonical ?_⟩, fun out => ?_,
      fun live clear => ?_⟩
    · have word (k : Fin 8) : Memory.readWord memory (address + 4 * k.val) = s.pool[x][k] := by
        rw [Memory.readWord_writeWords canonical (by simp)]
        simp
      refine Vector.ext fun k low => ?_
      refine Eq.trans ?_ (word ⟨k, low⟩)
      interval_cases k <;> rfl
    · simpa using outside
    · rw [done]
      exact congrArg _ (if_neg (State.not_owns out))
    · rw [done]
      exact congrArg _ (if_pos (State.owns_iff.2 ⟨live, clear⟩))

/-- Settles O55: an image that passes the check completes the burst, one that fails it ends the attempt with ERROR. -/
theorem refillCompletionBringsTheMessageBack : Obligations.RefillCompletionBringsTheMessageBack := by
  intro s data quiet
  rw [exec_refillBurstComplete s quiet]
  refine ⟨fun out => by rw [State.refillComplete_ignored out], fun b j rest burst jobs => ⟨fun write => ?_,
    fun read => ?_⟩⟩
  · unfold State.refillComplete
    rw [burst, jobs]
    exact congrArg _ (if_pos write)
  · intro h ib i kind valid
    have image : s.readBurst b data = i := by cases data <;> rfl
    have done := State.refillComplete_read burst jobs read data
    rw [image, State.keepImage_eq] at done
    refine ⟨fun out => ?_, fun x xs live clear slots => ⟨fun wrong => ?_, fun right => ?_⟩⟩
    · rw [done]
      exact congrArg Host.Outcome.next ((if_neg (State.not_owns out)).trans rfl)
    · have error : exec (.burstAttemptError .nothing) { s with pool := s.pool.set x i } =
          .next ({ s with pool := s.pool.set x i } : State).attemptError := by
        rw [show exec (.burstAttemptError .nothing) ({ s with pool := s.pool.set x i } : State) =
          .next (State.burstError { s with pool := s.pool.set x i } .nothing) from
            congrArg (fun t : State => Host.Outcome.next (t.burstError .nothing)) (State.settle_eq_self _ quiet)]
        unfold State.burstError
        dsimp only
        rw [burst, State.landWords_zero]
      rw [error, done, slots]
      exact congrArg Host.Outcome.next ((if_pos (State.owns_iff.2 ⟨live, clear⟩)).trans
        ((if_neg (fun v => wrong ((State.imageValid_iff i).1 v))).trans rfl))
    · intro job brought u
      rw [done, slots]
      refine ⟨_, congrArg Host.Outcome.next ((if_pos (State.owns_iff.2 ⟨live, clear⟩)).trans
        (if_pos ((State.imageValid_iff i).2 right))), ?_⟩
      exact State.refillDone_reevaluated slots

end Sys2Proof.Machine
end

section
/-! ## The frame of every command -/
namespace Sys2Proof.Machine

/-- The kinds of state of which the frame speaks. -/
inductive Facet where
  | pending | rstLow | phase | items | backing | tickCounter | dividerCount | frames | freeSlots | generations | sink
  | levels | limits | prstLow

/-- The two states agree in the kind. -/
def Facet.Same (s t : State) : Facet → Prop
  | .pending => t.pending = s.pending
  | .rstLow => t.rstLow = s.rstLow
  | .phase => t.phase = s.phase
  | .items => t.items = s.items
  | .backing => t.backing = s.backing
  | .tickCounter => t.tickCounter = s.tickCounter
  | .dividerCount => t.dividerCount = s.dividerCount
  | .frames => t.frames = s.frames
  | .freeSlots => t.freeSlots = s.freeSlots
  | .generations => ∀ k : Slot, t.tasks[k].gen = s.tasks[k].gen
  | .sink => t.sink = s.sink
  | .levels => ∀ l : Line, t.lines[l].level = s.lines[l].level
  | .limits => ∀ k : Slot, t.inboxes[k].limit = s.inboxes[k].limit ∧ t.inboxes[k].mark = s.inboxes[k].mark ∧
      t.inboxes[k].basePage = s.inboxes[k].basePage ∧ t.inboxes[k].capacity = s.inboxes[k].capacity
  | .prstLow => ∀ q, (t.port q).prstLow = (s.port q).prstLow

/-- What the effect of a command of CMD may change. -/
def effectMay : Cmd → Facet → Bool
  | .beginService => fun
    | .phase | .tickCounter | .dividerCount => true
    | _ => false
  | .create => fun
    | .frames | .freeSlots | .limits => true
    | _ => false
  | .destroy => fun
    | .freeSlots | .generations | .sink => true
    | _ => false
  | .setSink => fun
    | .sink => true
    | _ => false
  | .setInbox => fun
    | .limits => true
    | _ => false
  | _ => fun _ => false

/-- What a command may change. -/
def mayChange : Instr → Facet → Bool
  | .beginService _ => effectMay .beginService
  | .create _ => effectMay .create
  | .destroy _ => effectMay .destroy
  | .setSink _ => effectMay .setSink
  | .setInbox _ => effectMay .setInbox
  | .partReset _ => fun
    | .pending | .frames | .prstLow => false
    | _ => true
  | .partResetRelease _ => fun
    | .rstLow | .levels => true
    | _ => false
  | .cfgvalWrite _ _ _ => fun
    | .items => true
    | _ => false
  | .spillBurstComplete | .burstAttemptError _ | .backingTimeout _ => fun
    | .backing => true
    | _ => false
  | .tickLineEdge _ => fun
    | .tickCounter => true
    | _ => false
  | .dividerExpiry _ => fun
    | .tickCounter | .dividerCount => true
    | _ => false
  | .frameWrite _ _ _ => fun
    | .frames => true
    | _ => false
  | .eventEdge _ _ => fun
    | .levels => true
    | _ => false
  | .portReset _ | .portResetRelease _ => fun
    | .prstLow => true
    | _ => false
  | _ => fun _ => false

/-- The two states agree in every kind but those that may change. -/
def Frame (may : Facet → Bool) (s t : State) : Prop := ∀ x, cond (may x) True (x.Same s t)

theorem Facet.Same.refl (s : State) : ∀ x : Facet, x.Same s s
  | .pending | .rstLow | .phase | .items | .backing | .tickCounter | .dividerCount | .frames | .freeSlots | .sink => rfl
  | .generations | .levels | .prstLow => fun _ => rfl
  | .limits => fun _ => ⟨rfl, rfl, rfl, rfl⟩

theorem Facet.Same.trans {s t u : State} : ∀ {x : Facet}, x.Same s t → x.Same t u → x.Same s u
  | .pending, a, b | .rstLow, a, b | .phase, a, b | .items, a, b | .backing, a, b | .tickCounter, a, b
  | .dividerCount, a, b | .frames, a, b | .freeSlots, a, b | .sink, a, b => Eq.trans b a
  | .generations, a, b | .levels, a, b | .prstLow, a, b => fun k => (b k).trans (a k)
  | .limits, a, b => fun k => ⟨(b k).1.trans (a k).1, (b k).2.1.trans (a k).2.1, (b k).2.2.1.trans (a k).2.2.1,
      (b k).2.2.2.trans (a k).2.2.2⟩

namespace Frame
variable {s t u : State} {may : Facet → Bool}

theorem of_same (same : ∀ x : Facet, may x = false → x.Same s t) : Frame may s t := fun x => by
  cases e : may x
  · exact same x e
  · trivial

theorem same (F : Frame may s t) {x : Facet} (kept : may x = false) : x.Same s t := by
  have := F x
  rwa [kept] at this

theorem refl (s : State) : Frame may s s := of_same fun x _ => .refl s x

theorem trans (a : Frame may s t) (b : Frame may t u) : Frame may s u :=
  of_same fun _ kept => (a.same kept).trans (b.same kept)

theorem weaken (F : Frame (fun _ => false) s t) : Frame may s t := of_same fun _ _ => F.same rfl

end Frame

theorem Steady.frame {s t : State} {may : Facet → Bool} (r : Steady s t) : Frame may s t := .of_same fun
  | .pending, _ => r.pending
  | .rstLow, _ => r.rstLow
  | .phase, _ => r.phase
  | .items, _ => r.items
  | .backing, _ => r.backing
  | .tickCounter, _ => r.tickCounter
  | .dividerCount, _ => r.dividerCount
  | .frames, _ => r.frames
  | .freeSlots, _ => r.freeSlots
  | .generations, _ => fun k => TaskSlot.identity_gen (r.identity k)
  | .sink, _ => r.sink
  | .levels, _ => r.level
  | .limits, _ => fun k => by
      have e := r.limits k
      simp only [Inbox.limits, Prod.mk.injEq] at e
      exact e
  | .prstLow, _ => r.prstLow

theorem Reacts.frame {s t : State} {may : Facet → Bool} (r : Reacts s t) : Frame may s t := r.toSteady.frame

namespace State
variable {s : State} {may : Facet → Bool} {p : Port}

theorem setResult_frame (s : State) (p : Port) (c : ResultCode) (v : BitVec 16) : Frame may s (s.setResult p c v) :=
  (s.setResult_moves p c v).reacts.frame

/-! ### Task records and deadlines -/

theorem modTask_gen (h : Handle) (f : Task → Task) (k : Slot) : (s.modTask h f).tasks[k].gen = s.tasks[k].gen := by
  unfold modTask
  split
  case h_2 => rfl
  case h_1 t e =>
    have get : (s.tasks.set h.slot ⟨h.gen, some (f t)⟩)[k] = if k = h.slot then ⟨h.gen, some (f t)⟩ else s.tasks[k] :=
      getElem_set_fin ..
    rw [get]
    split
    case isTrue same => subst same; exact (s.task?_eq.1 e).1.symm
    case isFalse => rfl

theorem modTask_frame (h : Handle) (f : Task → Task) : Frame may s (s.modTask h f) := .of_same fun
  | .pending, _ => s.modTask_pending h f
  | .rstLow, _ => s.modTask_rstLow h f
  | .phase, _ => s.modTask_phase h f
  | .items, _ => s.modTask_items h f
  | .backing, _ => s.modTask_backing h f
  | .tickCounter, _ => s.modTask_tickCounter h f
  | .dividerCount, _ => s.modTask_dividerCount h f
  | .frames, _ => s.modTask_frames h f
  | .freeSlots, _ => s.modTask_freeSlots h f
  | .generations, _ => modTask_gen h f
  | .sink, _ => s.modTask_sink h f
  | .levels, _ => fun l => by rw [modTask_lines]
  | .limits, _ => fun k => by rw [modTask_inboxes]; exact ⟨rfl, rfl, rfl, rfl⟩
  | .prstLow, _ => fun q => by rw [modTask_port]

theorem insertDeadline_frame (h : Handle) (n : BitVec 16) (k : DeadlineKind) : Frame may s (s.insertDeadline h n k) :=
  .of_same fun
  | .pending, _ | .rstLow, _ | .phase, _ | .items, _ | .backing, _ | .tickCounter, _ | .dividerCount, _ | .frames, _
  | .freeSlots, _ | .sink, _ => rfl
  | .generations, _ | .levels, _ | .prstLow, _ => fun _ => rfl
  | .limits, _ => fun _ => ⟨rfl, rfl, rfl, rfl⟩

theorem armTimeout_frame (h : Handle) (n : BitVec 16) (k : DeadlineKind) : Frame may s (s.armTimeout h n k) := by
  unfold armTimeout
  split
  · exact .refl s
  · exact insertDeadline_frame h n k

/-! ### Commands of CMD that are no reactions -/

theorem onCurrent_frame (p : Port) {f : Handle → Task → State} (acts : ∀ h t, Frame may s (f h t)) :
    Frame may s (s.onCurrent p f) := by
  unfold onCurrent
  split
  · split
    · exact acts _ _
    · exact .refl s
  all_goals exact .refl s

theorem onNamed_frame (p : Port) {f : Handle → Task → State} (acts : ∀ h t, Frame may s (f h t)) :
    Frame may s (s.onNamed p f) := by
  unfold onNamed
  split
  · exact acts _ _
  · exact s.setResult_frame p _ _

theorem checkIn_frame (s : State) (p : Port) (h : Handle) (d : Disposition) (c : ResultCode) :
    Frame may s (s.beginCheckIn p h d c).evalPreempt :=
  ((beginCheckIn_reacts s p h d c).trans (evalPreempt_moves _).reacts).frame

theorem sleep_frame (p : Port) : Frame may s (s.sleep p) := by
  refine onCurrent_frame p fun h t => ?_
  dsimp only
  split
  · exact (insertDeadline_frame h _ _).trans (checkIn_frame _ p h _ _)
  · exact s.setResult_frame p _ _

theorem beginSendWait_frame (p : Port) (h : Handle) (ps : PendingSend) (n : BitVec 16) :
    Frame may s (s.beginSendWait p h ps n) := by
  unfold beginSendWait
  refine .trans ?_ (checkIn_frame _ p h _ _)
  refine .trans ?_ (armTimeout_frame h n _)
  refine .trans (t := s.modInbox ps.target _) (Reacts.frame ?_) (modTask_frame h _)
  exact s.modInbox_reacts fun _ => rfl

theorem send_frame (p : Port) : Frame may s (s.send p) := by
  refine onCurrent_frame p fun h t => ?_
  dsimp only
  split
  · exact s.setResult_frame p _ _
  split
  · exact s.setResult_frame p _ _
  split
  · exact beginSendWait_frame p h _ _
  · exact (((s.route_moves _ _ _).reacts.trans (setResult_moves _ p _ _).reacts).trans (evalPreempt_moves _).reacts).frame

theorem beginReceivePending_reacts (p : Port) (h : Handle) : Reacts s (s.beginReceivePending p h) := by
  unfold beginReceivePending
  refine .trans ?_ (refillCheck_moves _ h).reacts
  refine .trans (t := s.modInbox h _) ?_ ((setPortState_reacts _ p _).trans (setResult_moves _ p _ _).reacts)
  exact s.modInbox_reacts fun _ => rfl

theorem receive_frame (p : Port) : Frame may s (s.receive p) := by
  refine onCurrent_frame p fun h t => ?_
  dsimp only
  split
  · exact ((((s.deliverHead_moves p h).reacts.trans (setResult_moves _ p _ _).reacts).trans
      (afterDelivery_moves _ h).reacts).trans (evalPreempt_moves _).reacts).frame
  split
  · exact (beginReceivePending_reacts p h).frame
  split
  · exact s.setResult_frame p _ _
  split
  · exact (armTimeout_frame h _ _).trans (checkIn_frame _ p h _ _)
  · exact s.setResult_frame p _ _

theorem setPrio_frame (p : Port) : Frame may s (s.setPrio p) := by
  refine onNamed_frame p fun h t => ?_
  split
  · split
    · exact s.setResult_frame p _ _
    · refine .trans ?_ ((setResult_moves _ p _ _).reacts.trans (evalPreempt_moves _).reacts).frame
      unfold changePriority
      split
      · exact ((s.dequeue_reacts h).frame.trans (modTask_frame h _)).trans
          ((enqueueTail_reacts _ h).trans (offer_reacts _ h)).frame
      · exact modTask_frame h _
  · exact s.setResult_frame p _ _

theorem setAffinity_frame (p : Port) : Frame may s (s.setAffinity p) := by
  refine onNamed_frame p fun h t => ?_
  split
  · refine .trans ?_ ((setResult_moves _ p _ _).reacts.trans (evalPreempt_moves _).reacts).frame
    unfold changeAffinity
    dsimp only
    split
    · exact (modTask_frame h _).trans (offer_reacts _ h).frame
    · exact modTask_frame h _
  · exact s.setResult_frame p _ _

theorem makeTask_frame (slot : Slot) (rest : List Slot) (t : Task) :
    Frame (effectMay .create) s (({ s with freeSlots := rest } : State).makeTask slot t) := .of_same fun
  | .generations, _ => fun k => by
      have get : (s.tasks.set slot ⟨s.tasks[slot].gen, some t⟩)[k] =
        if k = slot then ⟨s.tasks[slot].gen, some t⟩ else s.tasks[k] := getElem_set_fin ..
      change ((s.tasks.set slot ⟨s.tasks[slot].gen, some t⟩)[k]).gen = _
      rw [get]
      split
      case isTrue same => subst same; rfl
      case isFalse => rfl
  | .pending, _ | .rstLow, _ | .phase, _ | .items, _ | .backing, _ | .tickCounter, _ | .dividerCount, _ | .sink, _ => rfl
  | .levels, _ | .prstLow, _ => fun _ => rfl

theorem create_frame (p : Port) : Frame (effectMay .create) s (s.create p) := by
  unfold create
  dsimp only
  split
  · unfold createTask
    split
    · exact (makeTask_frame _ _ _).trans (setResult_frame _ p _ _)
    · exact s.setResult_frame p _ _
  · exact s.setResult_frame p _ _

theorem freeSlot_frame (h k : Handle) : Frame (effectMay .destroy) s ((s.unsetSink k).freeSlot h) := .of_same fun
  | .pending, _ | .rstLow, _ | .phase, _ | .items, _ | .backing, _ | .tickCounter, _ | .dividerCount, _ | .frames, _ => rfl
  | .levels, _ | .prstLow, _ => fun _ => rfl
  | .limits, _ => fun _ => ⟨rfl, rfl, rfl, rfl⟩

theorem destroy_frame (p : Port) : Frame (effectMay .destroy) s (s.destroy p) := by
  refine onNamed_frame p fun h t => ?_
  obtain ⟨u, reacts, disposed⟩ := (s.removeTask h t).disposeInbox_reacts h
  rw [disposed]
  exact (((s.removeTask_steady h t).frame.trans reacts.frame).trans (freeSlot_frame h h)).trans
    ((answerEvicter_reacts _ p _).trans (evalPreempt_moves _).reacts).frame

theorem setInbox_frame (p : Port) : Frame (effectMay .setInbox) s (s.setInbox p) := by
  have inbox (h : Handle) (f : Inbox → Inbox) : Frame (effectMay .setInbox) s (s.modInbox h f) := .of_same fun
    | .pending, _ | .rstLow, _ | .phase, _ | .items, _ | .backing, _ | .tickCounter, _ | .dividerCount, _ | .frames, _
    | .freeSlots, _ | .sink, _ => rfl
    | .generations, _ | .levels, _ | .prstLow, _ => fun _ => rfl
  unfold setInbox
  dsimp only
  split
  · exact s.setResult_frame p _ _
  split
  · exact s.setResult_frame p _ _
  split
  · exact s.setResult_frame p _ _
  · exact (inbox _ _).trans (setResult_frame _ p _ _)

theorem setSink_frame (p : Port) : Frame (effectMay .setSink) s (s.setSink p) := by
  have sink (k : Option Handle) : Frame (effectMay .setSink) s { s with sink := k } :=
    .of_same fun
    | .pending, _ | .rstLow, _ | .phase, _ | .items, _ | .backing, _ | .tickCounter, _ | .dividerCount, _ | .frames, _
    | .freeSlots, _ => rfl
    | .generations, _ | .levels, _ | .prstLow, _ => fun _ => rfl
    | .limits, _ => fun _ => ⟨rfl, rfl, rfl, rfl⟩
  unfold setSink
  dsimp only
  split
  · exact (sink _).trans (setResult_frame _ p _ _)
  · exact s.setResult_frame p _ _

theorem beginService_frame (p : Port) : Frame (effectMay .beginService) s (s.beginService p) := by
  have enters : Frame (effectMay .beginService) s s.enterService :=
    .of_same fun
    | .pending, _ | .rstLow, _ | .items, _ | .backing, _ | .frames, _ | .freeSlots, _ | .sink, _ => rfl
    | .generations, _ | .levels, _ | .prstLow, _ => fun _ => rfl
    | .limits, _ => fun _ => ⟨rfl, rfl, rfl, rfl⟩
  unfold beginService
  split
  · exact s.setResult_frame p _ _
  · exact enters.trans (setResult_frame _ p _ _)

theorem commandEffect_frame (s : State) (c : Cmd) (p : Port) : Frame (effectMay c) s (commandEffect c p s) := by
  cases c
  case attach => exact (s.attach_steady p).frame
  case detach => exact (s.detach_steady p).frame
  case dispatch => exact (s.dispatch_steady p).frame
  case cancel => exact (s.cancel_steady p).frame
  case yield => exact (s.yield_steady p).frame
  case exit => exact (s.exit_steady p).frame
  case sleep => exact sleep_frame p
  case send => exact send_frame p
  case receive => exact receive_frame p
  case queryTask => exact (s.queryTask_steady p).frame
  case queryInbox => exact (s.queryInbox_steady p).frame
  case queryEvent => exact (s.queryEvent_steady p).frame
  case queryPart => exact (s.queryPart_steady p).frame
  case create => exact create_frame p
  case seed => exact (s.seed_steady p).frame
  case activate => exact (s.activate_steady p).frame
  case halt => exact (s.halt_steady p).frame
  case release => exact (s.release_steady p).frame
  case destroy => exact destroy_frame p
  case setPrio => exact setPrio_frame p
  case setAffinity => exact setAffinity_frame p
  case setInbox => exact setInbox_frame p
  case resetInbox => exact (s.resetInbox_steady p).frame
  case bindEvent => exact (s.bindEvent_steady p).frame
  case unbindEvent => exact (s.unbindEvent_steady p).frame
  case setSink => exact setSink_frame p
  case revoke => exact (s.revoke_steady p).frame
  case beginService => exact beginService_frame p

theorem issue_frame (s : State) (c : Cmd) (p : Port) : Frame (effectMay c) s (s.issue c p (commandEffect c p)) := by
  refine s.settle_steady.frame.trans ?_
  unfold issue
  dsimp only
  split
  · exact .refl _
  · exact setResult_frame _ p _ _
  · exact (setOverrun_steady _ p).frame
  · exact (reloadLease_steady _ p).frame.trans (commandEffect_frame _ c p)

/-! ### The port window -/

theorem refuseCode_frame (s : State) (p : Port) : Frame may s (s.refuseCode p) := by
  refine s.settle_steady.frame.trans ?_
  unfold refuseCode
  dsimp only
  split
  · exact .refl _
  · exact setResult_frame _ p _ _

theorem accessFrame_frame (s : State) (p : Port) {f : State → State} (acts : ∀ u, Frame may u (f u)) :
    Frame may s (s.accessFrame p f) := by
  refine s.settle_steady.frame.trans ?_
  unfold accessFrame
  dsimp only
  split
  · exact .refl _
  · exact (reloadLease_steady _ p).frame.trans (acts _)

theorem heldRead_frame (s : State) (p : Port) : Frame may s (s.heldRead p) := by
  unfold heldRead
  split
  · exact (setReadData_steady s p _).frame
  · exact .refl s

theorem storeFrame_frame (be : ByteEnables) (w : Word) (h : Handle) (t : Task) (e : Bool) (ws : List Word) :
    Frame (mayChange (.frameWrite p be w)) s (s.storeFrame h t e ws) := by
  refine .trans (t := { s with frames := _ }) ?_ (modTask_frame h _)
  exact .of_same fun
    | .pending, _ | .rstLow, _ | .phase, _ | .items, _ | .backing, _ | .tickCounter, _ | .dividerCount, _
    | .freeSlots, _ | .sink, _ => rfl
    | .generations, _ | .levels, _ | .prstLow, _ => fun _ => rfl
    | .limits, _ => fun _ => ⟨rfl, rfl, rfl, rfl⟩

theorem writeFrame_frame (s : State) (be : ByteEnables) (w v : Word) :
    Frame (mayChange (.frameWrite p be w)) s (s.writeFrame p v) := by
  unfold writeFrame
  split
  · unfold takeFrameWord
    split
    · split
      · split
        · exact (s.setPortState_reacts p _).frame
        · exact s.setResult_frame p _ _
      · split
        · exact (s.setPortState_reacts p _).frame
        · exact (storeFrame_frame be w _ _ _ _).trans (s.commit_reacts p _ _ _ _ _).frame
    · exact .refl s
  all_goals exact .refl s

theorem writeAttn_frame (s : State) (p : Port) (w : Word) : Frame may s (s.writeAttn p w) := by
  unfold writeAttn
  split
  · exact .refl s
  · refine Steady.frame ?_
    exact s.modPort_steady fun _ => rfl

theorem writeCfgVal_frame (s : State) (p : Port) (be : ByteEnables) (w v : Word) :
    Frame (mayChange (.cfgvalWrite p be w)) s (s.writeCfgVal p v) := by
  unfold writeCfgVal
  split
  · exact .refl s
  · exact .of_same fun
    | .pending, _ | .rstLow, _ | .phase, _ | .backing, _ | .tickCounter, _ | .dividerCount, _ | .frames, _
    | .freeSlots, _ | .sink, _ => rfl
    | .generations, _ | .levels, _ | .prstLow, _ => fun _ => rfl
    | .limits, _ => fun _ => ⟨rfl, rfl, rfl, rfl⟩

theorem storeRegister_frame (s : State) (p : Port) (a : BitVec 5) (w : Word) : Frame may s (s.storeRegister p a w) := by
  unfold storeRegister
  split
  · exact .refl s
  · refine (s.modPort_steady fun u => ?_).frame
    unfold PortUnit.store
    split <;> rfl

/-! ### Resets, lines, ticks and the engine -/

/-- A change of one port unit touches no other kind of state than the PRSTn# pins. -/
theorem modPort_frame (s : State) (p : Port) (f : PortUnit → PortUnit) :
    Frame (mayChange (.portReset p)) s (s.modPort p f) := .of_same fun
  | .pending, _ | .rstLow, _ | .phase, _ | .items, _ | .backing, _ | .tickCounter, _ | .dividerCount, _ | .frames, _
  | .freeSlots, _ | .sink, _ => rfl
  | .generations, _ | .levels, _ => fun _ => rfl
  | .limits, _ => fun _ => ⟨rfl, rfl, rfl, rfl⟩

theorem losePort_frame (s : State) (p : Port) (cause : LossCause) :
    Frame (mayChange (.portReset p)) s (s.losePort p cause) :=
  (modPort_frame s p _).trans (s.losePort_reacts p cause).frame

theorem partReset_frame (s : State) (n : Taken) : Frame (mayChange (.partReset n)) s (s.partReset n) := .of_same fun
  | .pending, _ | .frames, _ => rfl
  | .prstLow, _ => fun q => by
      have unit : (s.partReset n).port q = PortUnit.reset (s.port q).prstLow := by simp [port, partReset]
      rw [unit]
      rfl

theorem modLine_frame (s : State) (l : Line) (level : Bool) (f : LineRec → LineRec) :
    Frame (mayChange (.eventEdge l level)) s (s.modLine l f) := .of_same fun
  | .pending, _ | .rstLow, _ | .phase, _ | .items, _ | .backing, _ | .tickCounter, _ | .dividerCount, _ | .frames, _
  | .freeSlots, _ | .sink, _ => rfl
  | .generations, _ | .prstLow, _ => fun _ => rfl
  | .limits, _ => fun _ => ⟨rfl, rfl, rfl, rfl⟩

theorem changeLevel_frame (s : State) (l : Line) (level : Bool) :
    Frame (mayChange (.eventEdge l level)) s (s.changeLevel l level) := by
  unfold changeLevel
  dsimp only
  split
  · exact (modLine_frame s l level _).trans (takeEdge_moves _ l).reacts.frame
  · exact modLine_frame s l level _

theorem tickPort_steady (s : State) (late : BitVec 4) (p : Port) : Steady s (s.tickPort late p) := by
  refine s.modPort_steady fun u => ?_
  split
  · rfl
  · exact countDown_prstLow u _

theorem takeTick_frame (s : State) (late : BitVec 4) : Frame (mayChange (.tickLineEdge late)) s (s.takeTick late) := by
  refine s.settle_steady.frame.trans ?_
  unfold takeTick deliverTick
  refine .trans (t := { s.settle with tickCounter := _, burst := _ }) ?_
    ((((tickPort_steady _ late 0).trans (tickPort_steady _ late 1)).trans (tickPort_steady _ late 2)).trans
      (tickPort_steady _ late 3)).frame
  exact .of_same fun
    | .pending, _ | .rstLow, _ | .phase, _ | .items, _ | .backing, _ | .dividerCount, _ | .frames, _ | .freeSlots, _
    | .sink, _ => rfl
    | .generations, _ | .levels, _ | .prstLow, _ => fun _ => rfl
    | .limits, _ => fun _ => ⟨rfl, rfl, rfl, rfl⟩

theorem dividerTick_frame (s : State) (late : BitVec 4) :
    Frame (mayChange (.dividerExpiry late)) s (({ s with dividerCount := 0 } : State).takeTick late) := by
  have tick := takeTick_frame ({ s with dividerCount := 0 } : State) late
  exact .of_same fun
    | .pending, _ => tick.same (x := .pending) rfl
    | .rstLow, _ => tick.same (x := .rstLow) rfl
    | .phase, _ => tick.same (x := .phase) rfl
    | .items, _ => tick.same (x := .items) rfl
    | .backing, _ => tick.same (x := .backing) rfl
    | .frames, _ => tick.same (x := .frames) rfl
    | .freeSlots, _ => tick.same (x := .freeSlots) rfl
    | .generations, _ => tick.same (x := .generations) rfl
    | .sink, _ => tick.same (x := .sink) rfl
    | .levels, _ => tick.same (x := .levels) rfl
    | .limits, _ => tick.same (x := .limits) rfl
    | .prstLow, _ => tick.same (x := .prstLow) rfl

/-- The words that land move in the pool and the backing memory alone. -/
theorem landWords_frame (s : State) (n : Taken) : Frame (mayChange .spillBurstComplete) s (s.landWords n) := by
  rw [landWords_eq]
  exact .of_same fun
    | .pending, _ | .rstLow, _ | .phase, _ | .items, _ | .tickCounter, _ | .dividerCount, _ | .frames, _
    | .freeSlots, _ | .sink, _ => rfl
    | .generations, _ | .levels, _ | .prstLow, _ => fun _ => rfl
    | .limits, _ => fun _ => ⟨rfl, rfl, rfl, rfl⟩

theorem spillComplete_frame (s : State) : Frame (mayChange .spillBurstComplete) s s.spillComplete := by
  unfold spillComplete
  split
  case h_1 b j rest _ _ =>
    split
    · refine Frame.trans (t := (s.landWords ⟨8, .stored⟩).endAttempt)
        ((landWords_frame s _).trans (endAttempt_steady _).frame) ?_
      dsimp only
      split
      · exact (spillDone_moves _ j rest).reacts.frame
      · exact (endUnowned_moves _ j rest).reacts.frame
    · exact .refl s
  case h_2 => exact .refl s

theorem burstError_frame (s : State) (n : Taken) : Frame (mayChange .spillBurstComplete) s (s.burstError n) := by
  unfold burstError
  split
  · exact ((landWords_frame s n).trans (endAttempt_steady _).frame).trans (attemptError_moves _).reacts.frame
  · exact .refl s

theorem takeTimeout_frame (s : State) (n : Taken) : Frame (mayChange .spillBurstComplete) s (s.takeTimeout n) := by
  unfold takeTimeout
  split
  · split
    · exact burstError_frame s n
    · exact .refl s
  · exact .refl s

theorem release_frame (s : State) (levels : BitVec 16) : Frame (mayChange (.partResetRelease levels)) s { s with
    rstLow := false, lines := Vector.ofFn fun l => { s.lines[l] with level := levels.getLsbD l.val } } := .of_same fun
  | .pending, _ | .phase, _ | .items, _ | .backing, _ | .tickCounter, _ | .dividerCount, _ | .frames, _
  | .freeSlots, _ | .sink, _ => rfl
  | .generations, _ | .prstLow, _ => fun _ => rfl
  | .limits, _ => fun _ => ⟨rfl, rfl, rfl, rfl⟩

theorem expiring_frame (s : State) (b : Bool) : Frame may s { s with expiring := b } :=
  .of_same fun
    | .pending, _ | .rstLow, _ | .phase, _ | .items, _ | .backing, _ | .tickCounter, _ | .dividerCount, _ | .frames, _
    | .freeSlots, _ | .sink, _ => rfl
    | .generations, _ | .levels, _ | .prstLow, _ => fun _ => rfl
    | .limits, _ => fun _ => ⟨rfl, rfl, rfl, rfl⟩

end State

/-- The frame of every well-formed command (log 16): one case per constructor. -/
theorem exec_frame {c : Instr} {s t : State} (formed : c.wellFormed = true) (run : exec c s = .next t) :
    Frame (mayChange c) s t := by
  cases c <;> cases run
  case cmdInvalidCode p be w =>
    have none : Cmd.ofWord (maskBytes be w) = none := by simpa [Instr.wellFormed] using formed
    rw [State.writeCmd, none]
    exact s.refuseCode_frame p
  case registerWrite p a be w =>
    have plain : a ∉ [0x00#5, 0x07#5, 0x08#5, 0x19#5] := by
      simpa [Instr.wellFormed, hasOwnBehaviour, and_assoc] using formed
    rw [State.writeWindow_plain plain]
    exact s.storeRegister_frame p a _
  case frameRead p be => exact (s.accessFrame_frame p fun u => (u.readFrame_steady p).frame).trans (State.heldRead_frame _ p)
  case frameWrite p be w => exact s.accessFrame_frame p fun u => u.writeFrame_frame be w _
  case attnWrite p be w => exact s.writeAttn_frame p _
  case cfgvalWrite p be w => exact s.writeCfgVal_frame p be w _
  case partReset n =>
    split
    · exact .refl s
    · exact s.partReset_frame n
  case portReset p =>
    split
    · exact .refl s
    split
    · exact s.modPort_frame p _
    · exact s.settle_steady.frame.trans (State.losePort_frame _ p _)
  case portResetRelease p => exact s.modPort_frame p _
  case eventEdge l level =>
    split
    · exact .refl s
    · exact s.settle_steady.frame.trans (State.changeLevel_frame _ l level)
  case tickLineEdge late =>
    split
    · exact s.takeTick_frame late
    · exact .refl s
  case dividerExpiry late =>
    split
    · exact s.dividerTick_frame late
    · exact .refl s
  case deadlineExpiry =>
    split
    · exact s.expireHead_moves.reacts.frame.trans (State.expiring_frame _ _)
    · exact .refl s
  case leaseExpiry p => exact (s.finishExpiries_steady.trans (State.takeLeaseTick_steady _ p)).frame
  case backingTimeout n => exact s.finishExpiries_steady.frame.trans (State.takeTimeout_frame _ n)
  case burstAttemptStart => exact (s.settle_steady.trans (State.startAttempt_steady _)).frame
  case spillBurstComplete => exact s.settle_steady.frame.trans (State.spillComplete_frame _)
  case refillBurstComplete d => exact (s.settle_steady.trans (State.refillComplete_steady _ d)).frame
  case burstAttemptError n => exact s.settle_steady.frame.trans (State.burstError_frame _ n)
  case partResetRelease levels =>
    split
    · exact s.release_frame levels
    · exact .refl s
  case attach p => exact s.issue_frame .attach p
  case detach p => exact s.issue_frame .detach p
  case dispatch p => exact s.issue_frame .dispatch p
  case cancel p => exact s.issue_frame .cancel p
  case yield p => exact s.issue_frame .yield p
  case exit p => exact s.issue_frame .exit p
  case sleep p => exact s.issue_frame .sleep p
  case send p => exact s.issue_frame .send p
  case receive p => exact s.issue_frame .receive p
  case queryTask p => exact s.issue_frame .queryTask p
  case queryInbox p => exact s.issue_frame .queryInbox p
  case queryEvent p => exact s.issue_frame .queryEvent p
  case queryPart p => exact s.issue_frame .queryPart p
  case create p => exact s.issue_frame .create p
  case seed p => exact s.issue_frame .seed p
  case activate p => exact s.issue_frame .activate p
  case halt p => exact s.issue_frame .halt p
  case release p => exact s.issue_frame .release p
  case destroy p => exact s.issue_frame .destroy p
  case setPrio p => exact s.issue_frame .setPrio p
  case setAffinity p => exact s.issue_frame .setAffinity p
  case setInbox p => exact s.issue_frame .setInbox p
  case resetInbox p => exact s.issue_frame .resetInbox p
  case bindEvent p => exact s.issue_frame .bindEvent p
  case unbindEvent p => exact s.issue_frame .unbindEvent p
  case setSink p => exact s.issue_frame .setSink p
  case revoke p => exact s.issue_frame .revoke p
  case beginService p => exact s.issue_frame .beginService p

/-- Settles O56: the table of what each command may change, over the frame of each command. -/
theorem whatEachCommandMayChange : Obligations.WhatEachCommandMayChange := by
  intro c s t formed run
  have F := exec_frame formed run
  cases c <;> exact ⟨F .pending, F .rstLow, F .phase, F .items, F .backing, F .tickCounter, F .dividerCount, F .frames,
    F .freeSlots, F .generations, F .sink, F .levels, F .limits, F .prstLow⟩

end Sys2Proof.Machine
end

section
/-! ## What the flow of messages keeps

An invariant is shown of the shared operations of the inbox unit, the fault reporter and the backing engine by showing it
of the changes of which they are made (`Flow`, `Engine`). -/

namespace Sys2Proof.Machine

/-- A line record is in range, with a count exactly while a message is pending (R144). -/
abbrev LineRec.Ok (r : LineRec) : Prop := (0 < r.count ↔ r.pending ≠ none) ∧ r.count ≤ 65535 ∧ r.missed ≤ 65535

/-- Nothing that says who holds a message, a slot, a job or a task is changed. -/
structure Quiet (s t : State) : Prop where
  tasks : t.tasks = s.tasks
  freeSlots : t.freeSlots = s.freeSlots
  ready : t.ready = s.ready
  awaitList : t.awaitList = s.awaitList
  inboxes : t.inboxes = s.inboxes
  poolFree : t.poolFree = s.poolFree
  jobs : t.jobs = s.jobs
  burst : t.burst = s.burst
  lines : t.lines = s.lines
  state : ∀ p, (t.port p).state = (s.port p).state

namespace Quiet
variable {s t u : State}

theorem refl (s : State) : Quiet s s := ⟨rfl, rfl, rfl, rfl, rfl, rfl, rfl, rfl, rfl, fun _ => rfl⟩

theorem trans (a : Quiet s t) (b : Quiet t u) : Quiet s u :=
  ⟨b.tasks.trans a.tasks, b.freeSlots.trans a.freeSlots, b.ready.trans a.ready, b.awaitList.trans a.awaitList,
   b.inboxes.trans a.inboxes, b.poolFree.trans a.poolFree, b.jobs.trans a.jobs, b.burst.trans a.burst,
   b.lines.trans a.lines, fun p => (b.state p).trans (a.state p)⟩

theorem port {p : Port} {f : PortUnit → PortUnit} (state : (f (s.port p)).state = (s.port p).state) :
    Quiet s (s.modPort p f) :=
  ⟨rfl, rfl, rfl, rfl, rfl, rfl, rfl, rfl, rfl, fun q => by
    rw [State.modPort_port]
    split
    case isTrue same => subst same; exact state
    case isFalse => rfl⟩

theorem live (Q : Quiet s t) (h : Handle) : t.live h = s.live h := State.live_congr Q.tasks h
theorem task? (Q : Quiet s t) (h : Handle) : t.task? h = s.task? h := State.task?_congr Q.tasks h
theorem inbox (Q : Quiet s t) (h : Handle) : t.inbox h = s.inbox h := State.inbox_congr Q.inboxes h

theorem setResult (s : State) (p : Port) (c : ResultCode) (v : BitVec 16) : Quiet s (s.setResult p c v) := .port rfl

theorem evalPreemptAt (s : State) (p : Port) : Quiet s (s.evalPreemptAt p) := .port rfl

theorem evalPreempt (s : State) : Quiet s s.evalPreempt :=
  (((evalPreemptAt s 0).trans (evalPreemptAt _ 1)).trans (evalPreemptAt _ 2)).trans (evalPreemptAt _ 3)

theorem writeSlot (s : State) (x : PoolSlot) (i : Image) : Quiet s (s.writeSlot x i) :=
  ⟨rfl, rfl, rfl, rfl, rfl, rfl, rfl, rfl, rfl, fun _ => rfl⟩

theorem listed (s : State) (ds : List Handle) : Quiet s { s with deferred := ds } :=
  ⟨rfl, rfl, rfl, rfl, rfl, rfl, rfl, rfl, rfl, fun _ => rfl⟩

theorem countUnreported (s : State) : Quiet s s.countUnreported :=
  ⟨rfl, rfl, rfl, rfl, rfl, rfl, rfl, rfl, rfl, fun _ => rfl⟩

theorem removeDeadline (s : State) (h : Handle) : Quiet s (s.removeDeadline h) :=
  ⟨rfl, rfl, rfl, rfl, rfl, rfl, rfl, rfl, rfl, fun _ => rfl⟩

theorem linked (Q : Quiet s t) (L : s.Linked) : t.Linked :=
  L.congr Q.freeSlots (fun k => by rw [Q.tasks]) Q.awaitList (fun p => by rw [Q.state p]) (fun h => by rw [Q.task? h])
    Q.ready

end Quiet

/-! ### Messages -/

/-- What keeps `P` of the flow of messages: each change by which a message, a slot or a wait moves. -/
structure Flow (P : State → Prop) : Prop where
  quiet : ∀ {s t : State}, Quiet s t → P s → P t
  line : ∀ {s : State} (l : Line) (f : LineRec → LineRec), (s.lines[l].Ok → (f s.lines[l]).Ok) → P s → P (s.modLine l f)
  lines : ∀ {s : State} (f : LineRec → LineRec), (∀ r : LineRec, r.Ok → (f r).Ok) → P s → P (s.mapLines f)
  endWait : ∀ {s : State} (k : Handle) (r : Resume), P s → P (s.endWait k r)
  made : ∀ {s t : State} {h : Handle}, P s → s.refillNeeded h = true → s.createRefill h = some t → P t
  handOff : ∀ {s : State} {h : Handle} {x : PoolSlot} {xs : List PoolSlot}, P s → s.ownerWaits h = true →
    s.poolFree = x :: xs → P ((((({ s with poolFree := xs } : State).modInbox h Inbox.advanceSeq).modTask h
      fun t => { t with bound := some x }).removeDeadline h).wake h .ok)
  resident : ∀ {s : State} {h : Handle} {x : PoolSlot} {xs : List PoolSlot}, P s → s.live h = true →
    (s.inbox h).occupancy = 0 → (s.inbox h).resident.length < (s.inbox h).limit → s.poolFree = x :: xs →
      P (({ s with poolFree := xs } : State).modInbox h fun ib => { ib.advanceSeq with resident := ib.resident ++ [x] })
  spill : ∀ {s : State} {h : Handle} {x : PoolSlot} {xs : List PoolSlot}, P s → s.live h = true →
    (s.inbox h).occupancy < (s.inbox h).capacity → s.poolFree = x :: xs →
      P (({ s with poolFree := xs, jobs := s.jobs ++ [(s.inbox h).spillJob h x] } : State).modInbox h fun ib =>
        { ib.advanceSeq with
          writeIndex := ringAdvance ib.writeIndex 1 ib.capacity
          spilling := ib.spilling + 1 })
  pop : ∀ {s : State} {h : Handle} {x : PoolSlot} {xs : List PoolSlot}, P s → (s.inbox h).resident = x :: xs →
    P (({ s with poolFree := x :: s.poolFree } : State).modInbox h fun ib => { ib with resident := xs })
  answered : ∀ {s : State} {h : Handle} (code : ResultCode), P s → s.live h = true → P (s.completeReceive h code)

namespace Flow
variable {P Q : State → Prop} {s : State} {h : Handle}

/-- Two invariants flow together. -/
theorem and (F : Flow P) (G : Flow Q) : Flow fun s => P s ∧ Q s where
  quiet q h := ⟨F.quiet q h.1, G.quiet q h.2⟩
  line l f ok h := ⟨F.line l f ok h.1, G.line l f ok h.2⟩
  lines f ok h := ⟨F.lines f ok h.1, G.lines f ok h.2⟩
  endWait k r h := ⟨F.endWait k r h.1, G.endWait k r h.2⟩
  made h need made := ⟨F.made h.1 need made, G.made h.2 need made⟩
  handOff h waits free := ⟨F.handOff h.1 waits free, G.handOff h.2 waits free⟩
  resident h live none room free := ⟨F.resident h.1 live none room free, G.resident h.2 live none room free⟩
  spill h live room free := ⟨F.spill h.1 live room free, G.spill h.2 live room free⟩
  pop h head := ⟨F.pop h.1 head, G.pop h.2 head⟩
  answered code h live := ⟨F.answered code h.1 live, G.answered code h.2 live⟩

variable (F : Flow P)
include F

theorem evalPreempt (p : P s) : P s.evalPreempt := F.quiet (.evalPreempt s) p

theorem setResult (p : P s) (q : Port) (c : ResultCode) (v : BitVec 16) : P (s.setResult q c v) :=
  F.quiet (.setResult s q c v) p

theorem refillCheck (p : P s) (h : Handle) : P (s.refillCheck h) :=
  State.refillCheck_keeps F.made (fun ds => F.quiet (.listed _ ds)) h p

theorem retryDeferred (p : P s) : P s.retryDeferred :=
  State.retryDeferred_keeps F.made (fun ds => F.quiet (.listed _ ds)) p

theorem route (p : P s) (live : s.live h = true) (rule : SlotRule) (m : Message) : P (s.route rule h m).2 := by
  refine State.route_keeps rule h m (fun waits => ?_) (fun none room => ?_) (fun room => ?_) p
  · unfold State.handOffMessage
    split
    case h_1 x t taken =>
      obtain ⟨-, free, rest⟩ := s.takeSlot_eq taken
      rw [rest]
      refine F.handOff (s := s.writeSlot x (m.image (s.inbox h).nextSeq)) (F.quiet (.writeSlot ..) p) ?_ free
      exact waits
    case h_2 => exact p
  · unfold State.placeResident
    split
    case h_1 x t taken =>
      obtain ⟨-, free, rest⟩ := s.takeSlot_eq taken
      rw [rest]
      exact F.resident (s := s.writeSlot x (m.image (s.inbox h).nextSeq)) (F.quiet (.writeSlot ..) p) live none room free
    case h_2 => exact p
  · unfold State.placeSpill
    split
    · split
      case h_1 x t taken =>
        obtain ⟨-, free, rest⟩ := s.takeSlot_eq taken
        rw [rest]
        exact F.spill (s := s.writeSlot x (m.image (s.inbox h).nextSeq)) (F.quiet (.writeSlot ..) p) live room free
      case h_2 => exact p
    · exact p

theorem releaseSenders (p : P s) (live : s.live h = true) : P (s.releaseSenders h) := by
  refine (State.releaseSenders_keeps (P := fun s => P s ∧ s.live h = true) h (fun {s k ps res} held _ _ => ?_)
    ⟨p, live⟩).1
  obtain ⟨p, live⟩ := held
  refine ⟨F.endWait k res (F.route p live .ordinary _), ?_⟩
  rw [((s.route_moves .ordinary h _).trans (State.endWait_moves _ k res)).reacts.toSteady.live, live]

theorem releaseAllGone (p : P s) (h : Handle) : P (s.releaseAllGone h) :=
  State.releaseAllGone_keeps h (fun k => F.endWait k .gone) p

theorem completeLine (p : P s) (place : Place) (h : Handle) (i : Image) : P (s.completeLine place h i) := by
  unfold State.completeLine
  split
  · split
    · exact F.line _ _ (fun ok => ⟨by simp [LineRec.clearPending], Nat.zero_le _, ok.2.2⟩) p
    · exact p
  · exact p

theorem presentSlot (p : P s) (q : Port) (place : Place) (h : Handle) (x : PoolSlot) :
    P (s.presentSlot q place h x) := by
  unfold State.presentSlot
  refine F.quiet ?_ (F.completeLine p place h s.pool[x])
  exact .port rfl

theorem deliverHead (p : P s) (q : Port) (h : Handle) : P (s.deliverHead q h) := by
  unfold State.deliverHead
  split
  case h_1 x rest head =>
    rw [State.returnSlots_eq, if_neg (List.cons_ne_nil x [])]
    have inbox : (s.presentSlot q .inbox h x).inbox h = s.inbox h := by
      unfold State.presentSlot State.completeLine
      rw [State.modPort_inbox]
      split
      · split
        · rw [State.modLine_inbox]
        · rfl
      · rfl
    exact F.retryDeferred (F.pop (F.presentSlot p q .inbox h x) (inbox ▸ head))
  case h_2 => exact p

theorem afterDelivery (p : P s) (live : s.live h = true) : P (s.afterDelivery h) :=
  F.refillCheck (F.releaseSenders p live) h

theorem answerReceive (p : P s) (live : s.live h = true) : P (s.answerReceive h) := by
  unfold State.answerReceive
  split
  · split
    · split
      case h_1 q _ =>
        have delivered : (s.deliverHead q h).live h = true := by
          rw [(s.deliverHead_moves q h).reacts.toSteady.live, live]
        refine F.afterDelivery (F.answered .ok (F.deliverHead p q h) delivered) ?_
        rw [(State.completeReceive_moves _ h .ok).reacts.toSteady.live, delivered]
      case h_2 => exact p
    · exact p
  · exact p

theorem raiseFault (p : P s) (f : FaultReport) : P (s.raiseFault f) := by
  unfold State.raiseFault
  split
  case h_1 k _ =>
    split
    case isTrue live =>
      dsimp only
      split
      · exact F.route p live .fault _
      · exact F.quiet (.countUnreported _) (F.route p live .fault _)
    case isFalse => exact F.quiet (.countUnreported s) p
  case h_2 => exact F.quiet (.countUnreported s) p

theorem expireHead (p : P s) : P s.expireHead := by
  unfold State.expireHead
  split
  · exact F.evalPreempt (F.endWait _ _ p)
  · exact p

theorem expiring (p : P s) (b : Bool) : P { s with expiring := b } :=
  F.quiet (s := s) ⟨rfl, rfl, rfl, rfl, rfl, rfl, rfl, rfl, rfl, fun _ => rfl⟩ p

theorem settleDeadlines (p : P s) : P s.settleDeadlines :=
  State.settleDeadlines_keeps (fun p _ => F.expireHead p) (fun b p => F.expiring p b) p

theorem finishExpiries (p : P s) : P s.finishExpiries := by
  unfold State.finishExpiries
  split
  · exact F.settleDeadlines p
  · exact p

end Flow

/-! ### Lines whose message is discarded -/

namespace LineRec
variable {r : LineRec}

theorem Ok.clear (ok : r.Ok) : r.clearPending.Ok := ⟨by simp [clearPending], Nat.zero_le _, ok.2.2⟩

theorem Ok.discard (_ : r.Ok) : r.discard.Ok :=
  ⟨by simp [LineRec.discard], Nat.zero_le _, by simp [LineRec.discard, saturate16]⟩

theorem Ok.discardInbox (ok : r.Ok) (h : Handle) : (r.discardInbox h).Ok := by
  unfold LineRec.discardInbox
  split
  · split
    · exact ok.discard
    · exact ok
  · exact ok

theorem Ok.discardBroken (ok : r.Ok) (h : Handle) (n : BitVec 16) (d : Nat) : (r.discardBroken h n d).Ok := by
  unfold LineRec.discardBroken
  split
  · split
    · exact ok.discard
    · exact ok
  · exact ok

theorem Ok.clearDestroyed (ok : r.Ok) (h : Handle) : (r.clearDestroyed h).Ok := by
  have unbound (q : LineRec) (ok : q.Ok) : (match q.binding with
      | some b => if b.target = h then { q with binding := none } else q
      | none => q).Ok := by
    split
    · split
      · exact ok
      · exact ok
    · exact ok
  unfold LineRec.clearDestroyed
  dsimp only
  have kept := unbound r ok
  split
  · split
    · exact kept.clear
    · exact kept
  · exact kept

theorem Ok.counted (ok : r.Ok) (pending : r.pending.isSome = true) :
    LineRec.Ok { r with count := saturate16 (r.count + 1) } := by
  have some : r.pending ≠ none := Option.isSome_iff_ne_none.1 pending
  refine ⟨?_, by simp [saturate16], ok.2.2⟩
  simp only [saturate16]
  exact iff_of_true (by omega) some

theorem Ok.posted (ok : r.Ok) (pe : PendingEvent) : (r.posted pe).Ok :=
  ⟨by simp [LineRec.posted], by simp [LineRec.posted], ok.2.2⟩

theorem Ok.refused (idle : r.pending = none) : r.refused.Ok :=
  ⟨by simp [LineRec.refused, idle], Nat.zero_le _, by simp [LineRec.refused, saturate16]⟩

end LineRec

namespace Flow
variable {P : State → Prop} {s : State} (F : Flow P)
include F

theorem takeEdge (p : P s) (l : Line) : P (s.takeEdge l) := by
  unfold State.takeEdge
  split
  case h_1 b _ =>
    split
    case isTrue pending => exact F.line l _ (fun ok => ok.counted pending) p
    case isFalse idle =>
      have none : s.lines[l].pending = none := by simpa using idle
      have refuse : P (s.modLine l LineRec.refused) := F.line l _ (fun _ => .refused none) p
      unfold State.postEvent
      split
      case isTrue live =>
        dsimp only
        split
        · exact F.evalPreempt (F.line l _ (fun ok => ok.posted _) (F.route p live .ordinary _))
        · exact refuse
      case isFalse => exact refuse
  case h_2 => exact p

theorem changeLevel (p : P s) (l : Line) (level : Bool) : P (s.changeLevel l level) := by
  have leveled : P (s.modLine l fun r => { r with level := level }) := F.line l _ (fun ok => ok) p
  unfold State.changeLevel
  dsimp only
  split
  · exact F.takeEdge leveled l
  · exact leveled

end Flow
end Sys2Proof.Machine
end

section
/-! ## What the backing engine, the losses of ports and the ticks keep -/

namespace Sys2Proof.Machine

/-- What a loss does to the port's work, up to the fault (R188). -/
def State.loseTask (s : State) (p : Port) : PortState → State
  | .offline | .idle | .lost => s
  | .await => s.leaveAwait p
  | .loading h _ _ => s.readyHead h
  | .run h receiving => (if receiving then s.clearReceivePending h else s).setTaskState h (.halted .portLost)
  | .saving .checkIn h _ => (s.undoWait h).setTaskState h (.halted .portLost)
  | .saving .seed h _ => s.modTask h fun t => { t with seedPort := none }

/-- A loss ends the port's work, and raises a fault where the port held a task (R188). -/
theorem State.loseWork_eq (s : State) (p : Port) (st : PortState) (cause : LossCause) :
    s.loseWork p st cause = s.loseTask p st ∨
      ∃ h, s.loseWork p st cause = (s.loseTask p st).raiseFault (.portLost h p cause) := by
  cases st with
  | run h receiving => exact .inr ⟨h, rfl⟩
  | saving k h staging =>
    cases k with
    | checkIn => exact .inr ⟨h, rfl⟩
    | seed => exact .inl rfl
  | _ => exact .inl rfl

/-- A REFILL job with one more burst done, its slots those of the bursts to come (R114). -/
def refillAdvanced (j : Job) (xs : List PoolSlot) : Job :=
  { j with slots := xs, burstsDone := j.burstsDone + 1, attempt := Attempt.first }

/-- What keeps `P` of the engine, of the loss of a port and of a tick. `L j` holds while the finished burst of the current
job `j` is followed up, before it is known whether the job has more (R114). -/
structure Engine (P : State → Prop) (L : Job → State → Prop) : Prop extends Flow P where
  loose : ∀ j, Flow (L j)
  timer : ∀ {s : State} (f : Burst → Burst), (∀ b, (f b).write = b.write) → P s → P { s with burst := s.burst.map f }
  started : ∀ {s : State}, P s → P s.startAttempt
  unowned : ∀ {s : State} {j : Job} {rest : List Job}, P s → s.jobs = j :: rest → s.owns j = false →
    P { s with burst := none, jobs := rest, poolFree := j.slots ++ s.poolFree }
  spilled : ∀ {s : State} {b : Burst} {j : Job} {rest : List Job}, P s → s.burst = some b → b.write = true →
    s.jobs = j :: rest → s.owns j = true →
      P (({ s with burst := none, jobs := rest, poolFree := j.slots ++ s.poolFree } : State).modInbox j.inbox fun ib =>
        { ib with spilling := ib.spilling - 1, backed := ib.backed + 1 })
  refilled : ∀ {s : State} {b : Burst} {j : Job} {rest : List Job} {x : PoolSlot} {xs : List PoolSlot}, P s →
    s.burst = some b → b.write = false → s.jobs = j :: rest → j.slots = x :: xs → s.owns j = true →
      L (refillAdvanced j xs) (({ s with burst := none, jobs := refillAdvanced j xs :: rest } : State).modInbox j.inbox fun ib =>
        { ib with resident := ib.resident ++ [x], refilling := ib.refilling - 1 })
  more : ∀ {s : State} {j : Job}, L j s → j.burstsDone ≠ j.count → P s
  last : ∀ {s : State} {j : Job}, L j s → j.burstsDone = j.count → P { s with jobs := s.jobs.tail }
  retried : ∀ {s : State} {j : Job} {rest : List Job}, P s → s.jobs = j :: rest →
    P { s with burst := none, jobs := { j with attempt := .second } :: rest }
  broken : ∀ {s : State} {j : Job} {rest : List Job}, P s → s.jobs = j :: rest → s.owns j = true →
    P (State.breakRing { s with burst := none } j rest)
  ended : ∀ {s : State}, P s → P s.endAttempt
  lost : ∀ {s : State} (p : Port) (cause : LossCause), P s →
    P ((s.modPort p fun u => u.lose cause).loseTask p (s.port p).state)

namespace Engine
variable {P : State → Prop} {L : Job → State → Prop} {s : State} (E : Engine P L)
include E

/-! ### Attempts -/

theorem attemptError (p : P s) : P s.attemptError := by
  unfold State.attemptError
  dsimp only
  split
  case h_1 j rest jobs =>
    split
    case isTrue owned =>
      have live : s.live j.inbox = true := ((State.owns_iff (s := s)).1 owned).1
      split
      · exact E.retried (s := s) p jobs
      · unfold State.breakInbox
        have ring : P (s.endAttempt.breakRing j rest) := E.broken (s := s) p jobs owned
        have kept := State.breakRing_moves (s.endAttempt) j rest
        refine E.evalPreempt (E.retryDeferred (E.raiseFault (E.releaseSenders (E.answered _ (E.lines _
          (fun r ok => ok.discardBroken ..) ring) ?_) ?_) _))
        · rw [State.mapLines_live, kept.reacts.toSteady.live]; exact live
        · rw [(State.completeReceive_moves _ _ _).reacts.toSteady.live, State.mapLines_live, kept.reacts.toSteady.live]
          exact live
    case isFalse out =>
      exact E.retryDeferred (E.unowned (s := s) p jobs (Bool.eq_false_iff.2 out))
  case h_2 => exact E.ended p

theorem landWords (p : P s) (n : Taken) : P (s.landWords n) := by
  rw [State.landWords_eq]
  exact E.quiet (s := s) ⟨rfl, rfl, rfl, rfl, rfl, rfl, rfl, rfl, rfl, fun _ => rfl⟩ p

theorem burstError (p : P s) (n : Taken) : P (s.burstError n) := by
  unfold State.burstError
  split
  · exact E.attemptError (E.landWords p n)
  · exact p

theorem takeTimeout (p : P s) (n : Taken) : P (s.takeTimeout n) := by
  unfold State.takeTimeout
  split
  · split
    · exact E.burstError p n
    · exact p
  · exact p

theorem spillComplete (p : P s) : P s.spillComplete := by
  unfold State.spillComplete
  split
  case h_1 b j rest burst jobs =>
    split
    case isTrue write =>
      have landed := E.landWords p ⟨8, .stored⟩
      have jobs' : (s.landWords ⟨8, .stored⟩).jobs = j :: rest := by rw [State.landWords_eq]; exact jobs
      have burst' : (s.landWords ⟨8, .stored⟩).burst = some b := (State.landWords_burst s _).trans burst
      dsimp only
      split
      case isTrue owned =>
        exact E.retryDeferred (E.refillCheck (E.spilled (s := s.landWords _) landed burst' write jobs' owned) _)
      case isFalse out =>
        exact E.retryDeferred (E.unowned (s := s.landWords _) landed jobs' (Bool.eq_false_iff.2 out))
    case isFalse => exact p
  case h_2 => exact p

theorem keepImage (p : P s) (j : Job) (i : Image) : P (s.keepImage j i) := by
  unfold State.keepImage
  split
  · exact E.quiet (.writeSlot ..) p
  · exact p

theorem refillDone {b : Burst} {j : Job} {rest : List Job} (p : P s) (burst : s.burst = some b) (read : b.write = false)
    (jobs : s.jobs = j :: rest) (owned : s.owns j = true) : P (s.endAttempt.refillDone j rest) := by
  unfold State.refillDone
  split
  case h_1 x xs slots =>
    have start := E.refilled p burst read jobs slots owned
    have answered := (E.loose (refillAdvanced j xs)).answerReceive (h := j.inbox) start ((State.owns_iff (s := s)).1 owned).1
    dsimp only
    split
    case isTrue last => exact E.evalPreempt (E.retryDeferred (E.refillCheck (E.last answered last) _))
    case isFalse more => exact E.evalPreempt (E.more answered more)
  case h_2 => exact E.ended p

theorem refillComplete (p : P s) (d : ReadData) : P (s.refillComplete d) := by
  unfold State.refillComplete
  split
  case h_1 b j rest burst jobs =>
    split
    case isTrue => exact p
    case isFalse read =>
      have kept := E.keepImage p j (s.readBurst b d)
      have jobs' : (s.keepImage j (s.readBurst b d)).jobs = j :: rest := by rw [State.keepImage_eq]; exact jobs
      have burst' : (s.keepImage j (s.readBurst b d)).burst = some b := by rw [State.keepImage_eq]; exact burst
      dsimp only
      split
      case isTrue owned =>
        split
        · exact E.refillDone kept burst' (by simpa using read) jobs' owned
        · exact E.attemptError (E.ended kept)
      case isFalse out =>
        exact E.retryDeferred (E.unowned (s := s.keepImage j _) kept jobs' (Bool.eq_false_iff.2 out))
  case h_2 => exact p

/-! ### Losses and ticks -/

theorem losePort (p : P s) (q : Port) (cause : LossCause) : P (s.losePort q cause) := by
  refine E.evalPreempt ?_
  have task := E.lost q cause p
  rcases State.loseWork_eq (s.modPort q fun u => u.lose cause) q (s.port q).state cause with same | ⟨h, raised⟩
  · rw [same]; exact task
  · rw [raised]; exact E.raiseFault task _

theorem takeLeaseTick (p : P s) (q : Port) : P (s.takeLeaseTick q) := by
  have owed : P (s.modPort q fun u => u.takeOwed s.items.leases[q]) :=
    E.quiet (.port (State.takeOwed_state _ _)) p
  unfold State.takeLeaseTick
  split
  · exact p
  all_goals
    dsimp only
    split
    · exact E.losePort owed q .lease
    · exact owed
    · exact owed

theorem settle (p : P s) : P s.settle :=
  E.takeTimeout (E.takeLeaseTick (E.takeLeaseTick (E.takeLeaseTick (E.takeLeaseTick (E.settleDeadlines p) 0) 1) 2) 3) _

theorem tickPort (p : P s) (late : BitVec 4) (q : Port) : P (s.tickPort late q) := by
  refine E.quiet (.port ?_) p
  split
  · rfl
  · exact State.countDown_state _ _

theorem deliverTick (p : P s) (late : BitVec 4) : P (s.deliverTick late) := by
  unfold State.deliverTick
  have counted : P { s with
      tickCounter := s.tickCounter + 1#32
      burst := s.burst.map (Burst.tick · s.items.backingTimeout) } :=
    E.quiet (s := { s with burst := s.burst.map (Burst.tick · s.items.backingTimeout) })
      ⟨rfl, rfl, rfl, rfl, rfl, rfl, rfl, rfl, rfl, fun _ => rfl⟩ (E.timer _ (fun _ => rfl) p)
  exact E.tickPort (E.tickPort (E.tickPort (E.tickPort counted late 0) late 1) late 2) late 3

theorem takeTick (p : P s) (late : BitVec 4) : P (s.takeTick late) := E.deliverTick (E.settle p) late

end Engine
end Sys2Proof.Machine
end

section
/-! ## What commands and frame accesses keep -/

namespace Sys2Proof.Machine
namespace State
variable {s : State} {p : Port} {h : Handle} {c : Cmd} {t : Task}

/-- A command taken by a port other than CANCEL finds the port not busy (R177, R180). -/
theorem gate_taken_free (taken : s.gate c p = .taken) (other : c ≠ .cancel) : (s.port p).state.busy = false := by
  unfold gate at taken
  dsimp only at taken
  split at taken
  · cases taken
  split at taken
  · cases taken
  split at taken
  · cases taken
  case isFalse free =>
    have kind : (c != .cancel) = true := bne_iff_ne.2 other
    simpa [kind] using free

/-- A port that takes a command in RUN has no RECEIVE pending. -/
theorem run_of_gate {receiving : Bool} (taken : s.gate c p = .taken) (other : c ≠ .cancel)
    (run : (s.port p).state = .run h receiving) : (s.port p).state = .run h false := by
  have free := gate_taken_free taken other
  rw [run] at free ⊢
  exact congrArg _ free

/-! ### A presented message and the changes around it -/

theorem completeLine_lines (place : Place) (h : Handle) (i : Image) :
    s.completeLine place h i = s ∨ ∃ l, s.completeLine place h i = s.modLine l LineRec.clearPending := by
  unfold completeLine
  split
  · split
    · exact .inr ⟨_, rfl⟩
    · exact .inl rfl
  · exact .inl rfl

theorem modTask_modLine (l : Line) (g : LineRec → LineRec) (f : Task → Task) :
    (s.modLine l g).modTask h f = (s.modTask h f).modLine l g := by
  unfold modTask
  rw [modLine_task?]
  cases s.task? h <;> rfl

theorem modTask_completeLine (place : Place) (k : Handle) (i : Image) (f : Task → Task) :
    (s.completeLine place k i).modTask h f = (s.modTask h f).completeLine place k i := by
  unfold completeLine lineOf
  rw [modTask_lines]
  split
  · split
    · exact modTask_modLine _ _ _
    · rfl
  · rfl

theorem modTask_modPort (q : Port) (g : PortUnit → PortUnit) (f : Task → Task) :
    (s.modPort q g).modTask h f = (s.modTask h f).modPort q g := by
  unfold modTask
  rw [modPort_task?]
  cases s.task? h <;> rfl

theorem modTask_presentSlot (q : Port) (place : Place) (k : Handle) (x : PoolSlot) (f : Task → Task) :
    (s.presentSlot q place k x).modTask h f = (s.modTask h f).presentSlot q place k x := by
  unfold presentSlot completeImage lineOf
  simp only [modTask_lines, modTask_pool, ← modTask_completeLine]
  exact modTask_modPort _ _ _

theorem modTask_presentBound (q : Port) (k : Handle) (b : Option PoolSlot) (f : Task → Task) :
    (s.presentBound q k b).modTask h f = (s.modTask h f).presentBound q k b := by
  cases b with
  | none => exact modTask_modPort _ _ _
  | some x => exact modTask_presentSlot _ _ _ x f

theorem freeSlotList_completeLine (xs : List PoolSlot) (place : Place) (k : Handle) (i : Image) :
    (s.completeLine place k i).freeSlotList xs = (s.freeSlotList xs).completeLine place k i := by
  unfold completeLine lineOf
  rw [freeSlotList_lines]
  split
  · split <;> rfl
  · rfl

theorem freeSlotList_presentSlot (xs : List PoolSlot) (q : Port) (place : Place) (k : Handle) (x : PoolSlot) :
    (s.presentSlot q place k x).freeSlotList xs = (s.freeSlotList xs).presentSlot q place k x :=
  congrArg (fun u : State => u.modPort q fun v => v.present (s.completeImage place k s.pool[x]))
    (freeSlotList_completeLine xs place k s.pool[x])

/-- The end of a check-out (R35, R65, R66): the task runs unbound, and its slot, if it had one, is free, before the message
is shown and the deferred-refill list retried. -/
theorem endCheckOut_free (s : State) (p : Port) (h : Handle) (t : Task) : s.endCheckOut p h t =
    let u := ((((s.setPortState p (.run h false)).modTask h fun t => { t with resume := .ok, bound := none }).freeSlotList
      t.bound.toList).presentResume p t.resume).presentBound p h t.bound
    (if t.bound = none then u else u.retryDeferred).evalPreempt := by
  unfold endCheckOut
  rw [modTask_presentBound]
  have resume (v : State) (f : Task → Task) : (v.presentResume p t.resume).modTask h f =
      (v.modTask h f).presentResume p t.resume := modTask_modPort _ _ _
  rw [resume, returnSlots_eq]
  cases t.bound with
  | none => rfl
  | some x =>
    exact congrArg (fun v : State => v.retryDeferred.evalPreempt) (freeSlotList_presentSlot [x] p .bound h x)

end State

theorem State.reset_port (p : Port) : State.reset.port p = PortUnit.reset false := by simp [State.port, State.reset]

/-- After a part reset, everything that says who holds what is as after power-up (R199). -/
theorem State.partReset_quiet (s : State) (n : Taken) : Quiet State.reset (s.partReset n) where
  tasks := by simp only [State.partReset]
  freeSlots := by simp only [State.partReset]
  ready := by simp only [State.partReset]
  awaitList := by simp only [State.partReset]
  inboxes := by simp only [State.partReset]
  poolFree := by simp only [State.partReset]
  jobs := by simp only [State.partReset]
  burst := by simp only [State.partReset]
  lines := by simp only [State.partReset]
  state p := by
    have unit : (s.partReset n).port p = PortUnit.reset (s.port p).prstLow := by simp [port, partReset]
    rw [unit, reset_port]
    rfl

/-- The commands of CMD whose effect moves no message: those that act on tasks, ports and settings, and the queries, but for
CREATE, which makes an inbox. -/
def onTasks : Cmd → Bool
  | .create | .send | .receive | .destroy | .resetInbox | .revoke | .bindEvent | .unbindEvent => false
  | _ => true

/-- What keeps `P` of the commands, the frame accesses and the resets. -/
structure Commands (P : State → Prop) (L : Job → State → Prop) : Prop extends Engine P L where
  task : ∀ {s : State} {c : Cmd} {p : Port}, onTasks c = true → P s → s.gate c p = .taken → P (commandEffect c p s)
  sendWait : ∀ {s : State} {p : Port} {h : Handle} {t : Task} {ps : PendingSend} (n : BitVec 16), P s →
    (s.port p).state = .run h false → s.task? h = some t → s.live ps.target = true → ps.target ≠ h →
      P (s.beginSendWait p h ps n)
  receiveWait : ∀ {s : State} {p : Port} {h : Handle} {t : Task} (n : BitVec 16), P s →
    (s.port p).state = .run h false → s.task? h = some t →
      P ((s.armTimeout h n .recv).beginCheckIn p h .recvWait .empty)
  receivePending : ∀ {s : State} {p : Port} {h : Handle} {t : Task}, P s → (s.port p).state = .run h false →
    s.task? h = some t → P ((s.modInbox h fun ib => { ib with recvPending := true }).setPortState p (.run h true))
  emptied : ∀ {s : State} {h : Handle}, P s → s.live h = true →
    P ((State.emptyInbox { s with jobs := markCurrent h s.jobs } h).modInbox h Inbox.renew)
  destroyed : ∀ {s : State} {h : Handle} {t : Task}, P s → s.task? h = some t →
    P (((s.removeTask h t).disposeInbox h).freeSlot h)
  checkedOut : ∀ {s : State} {p : Port} {h : Handle} {t : Task} {n i : Nat}, P s → (s.port p).state = .loading h n i →
    s.task? h = some t → P (((s.setPortState p (.run h false)).modTask h
      fun t => { t with resume := .ok, bound := none }).freeSlotList t.bound.toList)
  loaded : ∀ {s : State} {p : Port} {h : Handle} {n i : Nat}, P s → (s.port p).state = .loading h n i →
    P (s.setPortState p (.loading h n (i + 1)))
  written : ∀ {s : State} (p : Port) (w : Word), P s → P (s.writeFrame p w)
  reset : P State.reset
  leveled : ∀ {s : State} (levels : BitVec 16), P s →
    P { s with lines := Vector.ofFn fun l => { s.lines[l] with level := levels.getLsbD l.val } }

namespace Commands
variable {P : State → Prop} {L : Job → State → Prop} {s : State} (C : Commands P L)
include C

theorem send {p : Port} (h : P s) (taken : s.gate .send p = .taken) : P (s.send p) := by
  unfold State.send State.onCurrent
  split
  case h_1 k r run =>
    have run := State.run_of_gate taken nofun run
    split
    case h_1 t task =>
      dsimp only
      split
      · exact C.setResult h p _ _
      case isFalse live =>
        have live : s.live (s.port p).pendingSend.target = true := by simpa using live
        split
        · exact C.setResult h p _ _
        split
        case isTrue waits => exact C.sendWait _ h run task live waits.2.2
        case isFalse => exact C.evalPreempt (C.setResult (C.route h live .ordinary _) p _ _)
    case h_2 => exact h
  all_goals exact h

theorem receive {p : Port} (h : P s) (taken : s.gate .receive p = .taken) : P (s.receive p) := by
  unfold State.receive State.onCurrent
  split
  case h_1 k r run =>
    have run := State.run_of_gate taken nofun run
    split
    case h_1 t task =>
      have live : s.live k = true := by unfold State.live; rw [task]; rfl
      dsimp only
      split
      · refine C.evalPreempt (C.afterDelivery (C.setResult (C.deliverHead h p k) p _ _) ?_)
        rw [State.setResult_eq, State.modPort_live, (s.deliverHead_moves p k).reacts.toSteady.live, live]
      split
      · exact C.refillCheck (C.setResult (C.receivePending h run task) p _ _) k
      split
      · exact C.setResult h p _ _
      split
      · exact C.evalPreempt (C.receiveWait _ h run task)
      · exact C.setResult h p _ _
    case h_2 => exact h
  all_goals exact h

theorem resetInbox {p : Port} (h : P s) : P (s.resetInbox p) := by
  unfold State.resetInbox
  dsimp only
  split
  case isTrue live =>
    refine C.setResult (C.evalPreempt (C.lines _ (fun r ok => ok.discardInbox _)
      (C.answered _ (C.releaseAllGone (C.emptied h live) _) ?_))) p _ _
    rw [(State.releaseAllGone_moves _ _).reacts.toSteady.live, State.modInbox_live,
      (State.emptyInbox_moves _ _).reacts.toSteady.live]
    exact live
  case isFalse => exact C.setResult h p _ _

theorem answerEvicter (h : P s) (p : Port) (st : TaskState) : P (s.answerEvicter p st) := by
  unfold State.answerEvicter
  split
  · exact h
  · exact C.setResult h p _ _

theorem destroy {p : Port} (h : P s) : P (s.destroy p) := by
  unfold State.destroy State.onNamed
  split
  case h_1 t task => exact C.evalPreempt (C.answerEvicter (C.destroyed h task) p _)
  case h_2 => exact C.setResult h p _ _

theorem revoke {p : Port} (h : P s) : P (s.revoke p) := by
  unfold State.revoke
  split
  · split
    · exact C.setResult h p _ _
    split
    · exact C.setResult (C.losePort h _ _) p _ _
    · exact C.setResult h p _ _
  · exact C.setResult h p _ _

theorem bindEvent {p : Port} (h : P s) : P (s.bindEvent p) := by
  unfold State.bindEvent
  dsimp only
  split
  · exact C.setResult h p _ _
  split
  case h_1 l tag _ _ =>
    split
    · exact C.setResult h p _ _
    case isFalse idle =>
      have none : s.lines[l].pending = none := by simpa using idle
      refine C.setResult (C.line l _ (fun _ => ⟨?_, Nat.zero_le _, Nat.zero_le _⟩) h) p _ _
      change 0 < 0 ↔ s.lines[l].pending ≠ Option.none
      simp only [none, Nat.lt_irrefl, ne_eq, not_true_eq_false]
  case h_2 => exact C.setResult h p _ _

theorem unbindEvent {p : Port} (h : P s) : P (s.unbindEvent p) := by
  unfold State.unbindEvent
  split
  · exact C.setResult (C.line _ _ (fun ok => ok) h) p _ _
  · exact C.setResult h p _ _

theorem effect {c : Cmd} {p : Port} (other : c ≠ .create) (h : P s) (taken : s.gate c p = .taken) :
    P (commandEffect c p s) := by
  cases e : onTasks c
  case true => exact C.task e h taken
  case false =>
    cases c
    case create => exact absurd rfl other
    case send => exact C.send h taken
    case receive => exact C.receive h taken
    case destroy => exact C.destroy h
    case resetInbox => exact C.resetInbox h
    case revoke => exact C.revoke h
    case bindEvent => exact C.bindEvent h
    case unbindEvent => exact C.unbindEvent h
    all_goals cases e

theorem endCheckOut {p : Port} {h : Handle} {t : Task} {n i : Nat} (k : P s) (run : (s.port p).state = .loading h n i)
    (task : s.task? h = some t) : P (s.endCheckOut p h t) := by
  rw [State.endCheckOut_free]
  have shown := C.quiet (t := State.presentResume _ p t.resume) (.port rfl) (C.checkedOut k run task)
  have presented (b : Option PoolSlot) {u : State} (q : P u) : P (u.presentBound p h b) := by
    cases b with
    | none => exact C.quiet (.port rfl) q
    | some x => exact C.presentSlot q p .bound h x
  refine C.evalPreempt ?_
  split
  · exact presented _ shown
  · exact C.retryDeferred (presented _ shown)

theorem readFrame (h : P s) (p : Port) : P (s.readFrame p) := by
  have read {u : State} (w : Word) (q : P u) : P (u.setReadData p w) := C.quiet (.port rfl) q
  have kept (w : Word) : ((s.setReadData p w).port p).state = (s.port p).state := by
    rw [State.setReadData_eq, State.modPort_port, if_pos rfl]
  unfold State.readFrame
  split
  case h_1 k n i state =>
    split
    case h_1 t task =>
      dsimp only
      split
      · exact C.loaded (read _ h) ((kept _).trans state)
      · exact C.endCheckOut (read _ h) ((kept _).trans state) task
    case h_2 => exact read _ h
  all_goals exact read _ h

theorem partReset (n : Taken) : P (s.partReset n) := C.quiet (s.partReset_quiet n) C.reset

/-- What every piece of a step leaves, from what CREATE needs. -/
theorem keepsFrom {R : State → Prop} (relax : ∀ {s : State}, R s → P s) (settle : ∀ {s : State}, R s → R s.settle)
    (finish : ∀ {s : State}, R s → R s.finishExpiries) (quiet : ∀ {s t : State}, Quiet s t → R s → R t)
    (create : ∀ {s : State} {p : Port}, R s → P (s.create p)) : State.Keeps R P where
  relax h := relax h
  settle h := settle h
  finish h := finish h
  lease _ h := quiet (.port rfl) h
  divider := fun {s} _ h => quiet (s := s) ⟨rfl, rfl, rfl, rfl, rfl, rfl, rfl, rfl, rfl, fun _ => rfl⟩ h
  register same h := C.quiet (.port (same _).1) h
  items := fun {s} _ h => C.quiet (s := s) ⟨rfl, rfl, rfl, rfl, rfl, rfl, rfl, rfl, rfl, fun _ => rfl⟩ h
  expiring b h := C.expiring h b
  release := fun {s} levels h => C.quiet (s := { s with lines := _ }) ⟨rfl, rfl, rfl, rfl, rfl, rfl, rfl, rfl, rfl, fun _ => rfl⟩ (C.leveled levels h)
  effect {s c p} h taken := by
    by_cases make : c = .create
    · subst make; exact create h
    · exact C.effect make (relax h) taken
  readFrame p h := C.readFrame (relax h) p
  writeFrame p w h := C.written p w (relax h)
  partReset n _ := C.partReset n
  losePort p cause h := C.losePort (relax h) p cause
  changeLevel l level h := C.changeLevel (relax h) l level
  tick _ late h _ := C.takeTick (relax h) late
  expireHead h _ := C.expireHead (relax h)
  takeLeaseTick p h := C.takeLeaseTick (relax h) p
  takeTimeout n h := C.takeTimeout (relax h) n
  startAttempt h := C.started (relax h)
  spillComplete h := C.spillComplete (relax h)
  refillComplete d h := C.refillComplete (relax h) d
  burstError n h := C.burstError (relax h) n

/-- What every piece of a step keeps, if CREATE keeps it. -/
theorem keeps (create : ∀ {s : State} (p : Port), P s → P (s.create p)) : State.Keeps P P :=
  C.keepsFrom (fun h => h) C.settle C.finishExpiries C.quiet fun h => create _ h

end Commands
end Sys2Proof.Machine
end

section
/-! ## What moves tasks and no message -/

namespace Sys2Proof.Machine

/-- The counts of an inbox, its resident list and the limits on them. -/
def storedIn (ib : Inbox) : List PoolSlot × Nat × Nat × Nat × Nat × Nat :=
  (ib.resident, ib.spilling, ib.backed, ib.refilling, ib.limit, ib.capacity)

/-- Every message stays where it is: in the same slots, inboxes, jobs and tasks, with the same line records. -/
structure Stores (s t : State) : Prop where
  poolFree : t.poolFree = s.poolFree
  jobs : t.jobs = s.jobs
  burst : t.burst = s.burst
  lines : t.lines = s.lines
  inbox : ∀ k : Slot, storedIn t.inboxes[k] = storedIn s.inboxes[k]
  bound : ∀ h, (t.task? h).map Task.bound = (s.task? h).map Task.bound

namespace Stores
variable {s t u : State}

theorem refl (s : State) : Stores s s := ⟨rfl, rfl, rfl, rfl, fun _ => rfl, fun _ => rfl⟩

theorem trans (a : Stores s t) (b : Stores t u) : Stores s u :=
  ⟨b.poolFree.trans a.poolFree, b.jobs.trans a.jobs, b.burst.trans a.burst, b.lines.trans a.lines,
   fun k => (b.inbox k).trans (a.inbox k), fun h => (b.bound h).trans (a.bound h)⟩

theorem quiet (Q : Quiet s t) : Stores s t :=
  ⟨Q.poolFree, Q.jobs, Q.burst, Q.lines, fun k => by rw [Q.inboxes], fun h => by rw [Q.task?]⟩

theorem live (S : Stores s t) (h : Handle) : t.live h = s.live h := by
  have same := congrArg Option.isSome (S.bound h)
  simpa only [State.live, Option.isSome_map] using same

end Stores

theorem Wakes.stores {s t : State} (w : Wakes s t) : Stores s t :=
  ⟨w.poolFree, w.jobs, w.burst, w.lines, fun k => by rw [w.inbox k]; rfl, w.bound⟩

namespace State
variable {s t : State} {p q : Port} {h : Handle} {v : Task}

theorem modPort_stores (p : Port) (f : PortUnit → PortUnit) : Stores s (s.modPort p f) := (modPort_wakes p f).stores

theorem modInbox_stores (h : Handle) {f : Inbox → Inbox} (kept : ∀ ib, storedIn (f ib) = storedIn ib) :
    Stores s (s.modInbox h f) := by
  refine ⟨rfl, rfl, rfl, rfl, fun k => ?_, fun _ => rfl⟩
  have get : (s.modInbox h f).inboxes[k] = if k = h.slot then f (s.inbox h) else s.inboxes[k] := getElem_set_fin ..
  rw [get]
  split
  case isTrue same => subst same; exact kept _
  case isFalse => rfl

theorem clearReceivePending_stores (h : Handle) : Stores s (s.clearReceivePending h) := modInbox_stores h fun _ => rfl

theorem setTaskState_stores (h : Handle) (st : TaskState) : Stores s (s.setTaskState h st) := (setTaskState_wakes h st).stores

theorem modTask_stores (h : Handle) {f : Task → Task} (bound : ∀ t, (f t).bound = t.bound) : Stores s (s.modTask h f) :=
  (modTask_wakes h bound).stores

theorem evalPreempt_stores : Stores s s.evalPreempt := .quiet (.evalPreempt s)

theorem undoWait_stores (h : Handle) : Stores s (s.undoWait h) := (undoWait_wakes h).stores

theorem abandonReceive_stores (p : Port) : Stores s (s.abandonReceive p) := by
  unfold abandonReceive
  split
  · exact clearReceivePending_stores _
  · exact .refl s

theorem evict_stores (p : Port) (h : Handle) (c : ResultCode) : Stores s (s.evict p h c) := by
  unfold evict
  rw [evictPort_eq]
  exact ((abandonReceive_stores p).trans (undoWait_stores h)).trans (modPort_stores p _)

theorem detachTask_stores (h : Handle) (st : TaskState) (c : ResultCode) : Stores s (s.detachTask h st c) := by
  unfold detachTask
  split
  iterate 2 exact .refl s
  · exact (dequeue_wakes h).stores
  iterate 2 exact evict_stores _ h c
  all_goals exact undoWait_stores h

theorem loseTask_stores (p : Port) (st : PortState) : Stores s (s.loseTask p st) := by
  unfold loseTask
  split
  iterate 3 exact .refl s
  · exact (leaveAwait_wakes p).stores
  · exact (readyHead_wakes _).stores
  · refine .trans ?_ (setTaskState_stores _ _)
    split
    · exact clearReceivePending_stores _
    · exact .refl s
  · exact (undoWait_stores _).trans (setTaskState_stores _ _)
  · exact modTask_stores _ fun _ => rfl

theorem insertDeadline_stores (h : Handle) (n : BitVec 16) (k : DeadlineKind) : Stores s (s.insertDeadline h n k) :=
  ⟨rfl, rfl, rfl, rfl, fun _ => rfl, fun _ => rfl⟩

theorem armTimeout_stores (h : Handle) (n : BitVec 16) (k : DeadlineKind) : Stores s (s.armTimeout h n k) := by
  unfold armTimeout
  split
  · exact .refl s
  · exact insertDeadline_stores h n k

theorem beginCheckIn_stores (p : Port) (h : Handle) (d : Disposition) (c : ResultCode) :
    Stores s (s.beginCheckIn p h d c) := by
  unfold beginCheckIn
  rw [setPortState_eq, setResult_eq]
  exact ((setTaskState_stores h _).trans (modPort_stores p _)).trans (modPort_stores p _)

theorem beginSendWait_stores (p : Port) (h : Handle) (ps : PendingSend) (n : BitVec 16) :
    Stores s (s.beginSendWait p h ps n) := by
  unfold beginSendWait
  refine .trans ?_ evalPreempt_stores
  refine .trans ?_ (beginCheckIn_stores p h _ _)
  refine .trans ?_ (armTimeout_stores h n _)
  refine .trans ?_ (modTask_stores h fun _ => by rfl)
  exact modInbox_stores _ fun _ => by rfl

theorem receiveWait_stores (p : Port) (h : Handle) (n : BitVec 16) :
    Stores s ((s.armTimeout h n .recv).beginCheckIn p h .recvWait .empty) :=
  (armTimeout_stores h n _).trans (beginCheckIn_stores p h _ _)

theorem receivePending_stores (p : Port) (h : Handle) :
    Stores s ((s.modInbox h fun ib => { ib with recvPending := true }).setPortState p (.run h true)) := by
  refine .trans ?_ (modPort_stores p _)
  exact modInbox_stores h fun _ => rfl

theorem applyDisposition_stores (h : Handle) : Stores s (s.applyDisposition h) := by
  unfold applyDisposition
  split
  · split
    · split
      case h_1 => exact (readyHead_wakes h).stores
      case h_2 => exact (readyTail_wakes h).stores
      all_goals
        split
        · exact (readyTail_wakes h).stores
        · exact setTaskState_stores h _
    · exact .refl s
  · exact .refl s

theorem storeFrame_stores (h : Handle) (v : Task) (e : Bool) (ws : List Word) : Stores s (s.storeFrame h v e ws) := by
  unfold storeFrame
  refine .trans ?_ (modTask_stores h fun _ => by rfl)
  exact ⟨rfl, rfl, rfl, rfl, fun _ => rfl, fun _ => rfl⟩

theorem commit_stores (p : Port) (k : SaveKind) (h : Handle) (v : Task) (e : Bool) (ws : List Word) :
    Stores s (s.commit p k h v e ws) := by
  have base : Stores s (((s.storeFrame h v e ws).setPortState p .idle).setResult p .ok h.bits) :=
    ((storeFrame_stores h v e ws).trans (modPort_stores p _)).trans (modPort_stores p _)
  unfold commit
  cases k
  · exact (base.trans (applyDisposition_stores h)).trans evalPreempt_stores
  · exact base.trans (modTask_stores h fun _ => rfl)

theorem writeFrame_stores (p : Port) (w : Word) : Stores s (s.writeFrame p w) := by
  unfold writeFrame
  split
  · unfold takeFrameWord
    split
    · split
      · split
        · exact modPort_stores p _
        · exact modPort_stores p _
      · split
        · exact modPort_stores p _
        · exact commit_stores p _ _ _ _ _
    · exact .refl s
  all_goals exact .refl s

/-! ### Commands -/

theorem onCurrent_stores (p : Port) {f : Handle → Task → State} (acts : ∀ h t, Stores s (f h t)) :
    Stores s (s.onCurrent p f) := by
  unfold onCurrent
  split
  · split
    · exact acts _ _
    · exact .refl s
  all_goals exact .refl s

theorem onNamed_stores (p : Port) {f : Handle → Task → State} (acts : ∀ h t, Stores s (f h t)) :
    Stores s (s.onNamed p f) := by
  unfold onNamed
  split
  · exact acts _ _
  · exact modPort_stores p _

theorem dispatch_stores (p : Port) : Stores s (s.dispatch p) := by
  unfold dispatch
  refine .trans ?_ evalPreempt_stores
  split
  · exact ((handOff_wakes p _).trans (modPort_wakes p _)).stores
  · exact .trans (t := { s with awaitList := s.awaitList ++ [p] }) ⟨rfl, rfl, rfl, rfl, fun _ => rfl, fun _ => rfl⟩
      ((modPort_stores p _).trans (modPort_stores p _))

theorem cancel_stores (p : Port) : Stores s (s.cancel p) := by
  unfold cancel
  split
  · exact (((leaveAwait_wakes p).trans (modPort_wakes p _)).trans (modPort_wakes p _)).stores
  · exact ((clearReceivePending_stores _).trans (modPort_stores p _)).trans (modPort_stores p _)
  all_goals exact modPort_stores p _

theorem yield_stores (p : Port) : Stores s (s.yield p) := by
  refine onCurrent_stores p fun h t => ?_
  split
  · exact (beginCheckIn_stores p h _ _).trans evalPreempt_stores
  · exact modPort_stores p _

theorem exit_stores (p : Port) : Stores s (s.exit p) :=
  onCurrent_stores p fun h _ =>
    (((setTaskState_stores h _).trans (modPort_stores p _)).trans (modPort_stores p _)).trans evalPreempt_stores

theorem sleep_stores (p : Port) : Stores s (s.sleep p) := by
  refine onCurrent_stores p fun h t => ?_
  dsimp only
  split
  · exact ((insertDeadline_stores h _ _).trans (beginCheckIn_stores p h _ _)).trans evalPreempt_stores
  · exact modPort_stores p _

theorem seed_stores (p : Port) : Stores s (s.seed p) := by
  refine onNamed_stores p fun h t => ?_
  have begins : Stores s (s.beginSeed p h) := by
    unfold beginSeed
    rw [setPortState_eq, setResult_eq]
    refine .trans ?_ ((modPort_stores p _).trans (modPort_stores p _))
    exact modTask_stores h fun _ => by rfl
  split
  · exact modPort_stores p _
  split
  iterate 2 exact begins
  all_goals exact modPort_stores p _

theorem activate_stores (p : Port) : Stores s (s.activate p) := by
  refine onNamed_stores p fun h t => ?_
  split
  · exact modPort_stores p _
  split
  · exact ((readyTail_wakes h).stores.trans (modPort_stores p _)).trans evalPreempt_stores
  · exact modPort_stores p _

theorem release_stores (p : Port) : Stores s (s.release p) := by
  refine onNamed_stores p fun h t => ?_
  split
  · exact modPort_stores p _
  split
  · exact (setTaskState_stores h _).trans (modPort_stores p _)
  all_goals exact modPort_stores p _

theorem answerEvicter_stores (p : Port) (st : TaskState) : Stores s (s.answerEvicter p st) := by
  unfold answerEvicter
  split
  · exact .refl s
  · exact modPort_stores p _

theorem haltTask_stores (p : Port) (h : Handle) (v : Task) : Stores s (s.haltTask p h v) :=
  (((detachTask_stores h _ _).trans (setTaskState_stores h _)).trans (answerEvicter_stores p _)).trans evalPreempt_stores

theorem halt_stores (p : Port) : Stores s (s.halt p) := by
  refine onNamed_stores p fun h t => ?_
  split
  · exact modPort_stores p _
  all_goals exact haltTask_stores p h t

theorem setPrio_stores (p : Port) : Stores s (s.setPrio p) := by
  refine onNamed_stores p fun h t => ?_
  split
  · split
    · exact modPort_stores p _
    · refine .trans ?_ ((modPort_stores p _).trans evalPreempt_stores)
      unfold changePriority
      split
      · refine .trans ?_ ((enqueueTail_wakes h).trans (offer_wakes h)).stores
        exact (dequeue_wakes h).stores.trans (modTask_stores h fun _ => rfl)
      · exact modTask_stores h fun _ => rfl
  · exact modPort_stores p _

theorem setAffinity_stores (p : Port) : Stores s (s.setAffinity p) := by
  refine onNamed_stores p fun h t => ?_
  split
  · refine .trans ?_ ((modPort_stores p _).trans evalPreempt_stores)
    unfold changeAffinity
    dsimp only
    split
    · refine .trans ?_ (offer_wakes h).stores
      exact modTask_stores h fun _ => by rfl
    · exact modTask_stores h fun _ => rfl
  · exact modPort_stores p _

theorem setSink_stores (p : Port) : Stores s (s.setSink p) := by
  unfold setSink
  dsimp only
  split
  · exact .trans (t := { s with sink := some _ }) ⟨rfl, rfl, rfl, rfl, fun _ => rfl, fun _ => rfl⟩ (modPort_stores p _)
  · exact modPort_stores p _

theorem beginService_stores (p : Port) : Stores s (s.beginService p) := by
  unfold beginService
  split
  · exact modPort_stores p _
  · exact .trans (t := s.enterService) ⟨rfl, rfl, rfl, rfl, fun _ => rfl, fun _ => rfl⟩ (modPort_stores p _)

theorem attach_stores (p : Port) : Stores s (s.attach p) := by
  unfold attach
  rw [setResult_eq]
  exact (modPort_stores p _).trans (modPort_stores p _)

theorem detach_stores (p : Port) : Stores s (s.detach p) := by
  unfold detach
  rw [setResult_eq]
  exact (modPort_stores p _).trans (modPort_stores p _)

theorem queryPart_stores (p : Port) : Stores s (s.queryPart p) := by
  unfold queryPart
  rw [setArgs_eq, setResult_eq]
  exact (modPort_stores p _).trans (modPort_stores p _)

theorem queryTask_stores (p : Port) : Stores s (s.queryTask p) := by
  unfold queryTask
  split
  · exact (modPort_stores p _).trans (modPort_stores p _)
  · exact modPort_stores p _

theorem queryInbox_stores (p : Port) : Stores s (s.queryInbox p) := by
  unfold queryInbox
  split
  · exact (modPort_stores p _).trans (modPort_stores p _)
  · exact modPort_stores p _

theorem queryEvent_stores (p : Port) : Stores s (s.queryEvent p) := by
  unfold queryEvent
  split
  · exact (modPort_stores p _).trans (modPort_stores p _)
  · exact modPort_stores p _

/-- The commands that act on tasks leave every message where it is, but for SETINBOX, which limits an inbox. -/
theorem commandEffect_stores {c : Cmd} (kind : onTasks c = true) (limit : c ≠ .setInbox) (p : Port) :
    Stores s (commandEffect c p s) := by
  cases c
  case attach => exact attach_stores p
  case detach => exact detach_stores p
  case dispatch => exact dispatch_stores p
  case cancel => exact cancel_stores p
  case yield => exact yield_stores p
  case exit => exact exit_stores p
  case sleep => exact sleep_stores p
  case queryTask => exact queryTask_stores p
  case queryInbox => exact queryInbox_stores p
  case queryEvent => exact queryEvent_stores p
  case queryPart => exact queryPart_stores p
  case seed => exact seed_stores p
  case activate => exact activate_stores p
  case halt => exact halt_stores p
  case release => exact release_stores p
  case setPrio => exact setPrio_stores p
  case setAffinity => exact setAffinity_stores p
  case setInbox => exact absurd rfl limit
  case setSink => exact setSink_stores p
  case beginService => exact beginService_stores p
  all_goals cases kind

end State
end Sys2Proof.Machine
end

section
/-! ## The line records along every step (R144) -/

namespace Sys2Proof.Machine
namespace State
variable {s t : State} {p : Port} {h : Handle} {v : Task}

theorem linesCounted_of_lines (same : t.lines = s.lines) (counted : s.LinesCounted) : t.LinesCounted := fun l => by
  rw [same]; exact counted l

theorem modLine_line (l k : Line) (f : LineRec → LineRec) :
    (s.modLine l f).lines[k] = if k = l then f s.lines[l] else s.lines[k] := getElem_set_fin ..

theorem returnSlots_lines (xs : List PoolSlot) : (s.returnSlots xs).lines = s.lines := by
  rw [returnSlots_eq]
  split
  · rfl
  · exact retryDeferred_lines

theorem startAttempt_lines : s.startAttempt.lines = s.lines := by
  unfold startAttempt
  split <;> rfl

theorem create_lines (p : Port) : (s.create p).lines = s.lines := by
  unfold create createTask
  dsimp only
  split
  · split <;> rfl
  · rfl

theorem setInbox_lines (p : Port) : (s.setInbox p).lines = s.lines := by
  unfold setInbox
  dsimp only
  split
  · rfl
  split
  · rfl
  split <;> rfl

theorem removeTask_lines (h : Handle) (v : Task) : (s.removeTask h v).lines = s.lines := by
  unfold removeTask
  rw [returnSlots_lines, modTask_lines, (undoWait_stores h).lines]
  refine Eq.trans ?_ (detachTask_stores h v.state .gone).lines
  unfold abortSeed
  split
  · rw [modTask_lines, evictPort_eq, modPort_lines]
  · rfl

theorem linesCounted_flow : Flow LinesCounted where
  quiet Q counted := linesCounted_of_lines Q.lines counted
  line l f ok counted k := by
    rw [modLine_line]
    split
    · exact ok (counted l)
    · exact counted k
  lines f ok counted k := by
    rw [mapLines_line]
    exact ok _ (counted k)
  endWait k r counted := linesCounted_of_lines (endWait_wakes k r).lines counted
  made counted _ made := by
    rw [(createRefill_eq made).2.2.2]
    exact counted
  handOff counted _ _ := by
    refine linesCounted_of_lines (wake_wakes _ _).lines (linesCounted_of_lines ?_ counted)
    change (State.modTask _ _ _).lines = _
    rw [modTask_lines]
    rfl
  resident counted _ _ _ _ := counted
  spill counted _ _ _ := counted
  pop counted _ := counted
  answered code counted _ := linesCounted_of_lines (completeReceive_lines _ code) counted

theorem linesCounted_engine : Engine LinesCounted fun _ => LinesCounted where
  toFlow := linesCounted_flow
  loose _ := linesCounted_flow
  timer _ _ counted := counted
  started counted := linesCounted_of_lines startAttempt_lines counted
  unowned counted _ _ := counted
  spilled counted _ _ _ _ := counted
  refilled counted _ _ _ _ _ := counted
  more counted _ := counted
  last counted _ := counted
  retried counted _ := counted
  broken counted _ _ := counted
  ended counted := counted
  lost p _ counted := linesCounted_of_lines (loseTask_stores p _).lines counted

theorem linesCounted_commands : Commands LinesCounted fun _ => LinesCounted where
  toEngine := linesCounted_engine
  task {s c p} kind counted _ := by
    refine linesCounted_of_lines ?_ counted
    by_cases limit : c = .setInbox
    · subst limit; exact setInbox_lines p
    exact (commandEffect_stores kind limit p).lines
  sendWait n counted _ _ _ _ := linesCounted_of_lines (beginSendWait_stores ..).lines counted
  receiveWait n counted _ _ := linesCounted_of_lines (receiveWait_stores ..).lines counted
  receivePending counted _ _ := counted
  emptied counted _ := linesCounted_of_lines (emptyInbox_lines _) counted
  destroyed {s h t} counted _ := by
    have removed : (s.removeTask h t).LinesCounted := linesCounted_of_lines (removeTask_lines h t) counted
    have emptied : ((s.removeTask h t).emptyInbox h).LinesCounted := linesCounted_of_lines (emptyInbox_lines h) removed
    exact linesCounted_flow.lines _ (fun r ok => ok.clearDestroyed h) (linesCounted_flow.releaseAllGone emptied h)
  checkedOut counted _ _ := linesCounted_of_lines (modTask_lines ..) counted
  loaded counted _ := counted
  written p w counted := linesCounted_of_lines (writeFrame_stores p w).lines counted
  reset := reset_linesCounted
  leveled levels counted l := by
    rw [Fin.getElem_fin]
    simp only [Vector.getElem_ofFn]
    exact counted l

/-- Every step keeps the line records in range, with a count exactly while a message is pending (R144). -/
theorem linesCounted_step (counted : s.LinesCounted) (run : step s = .next t) : t.LinesCounted :=
  (linesCounted_commands.keeps fun p counted => linesCounted_of_lines (create_lines p) counted).step
    (fun _ counted => counted) counted run

end State
end Sys2Proof.Machine
end

section
/-! ## `State.Linked` through the flow of messages -/

namespace Sys2Proof.Machine
namespace State
variable {s t : State} {p : Port} {h : Handle} {v : Task}

/-! ### A port is lost, before the fault is reported -/

theorem modTask_withSink (k : Option Handle) (f : Task → Task) :
    ({ s with sink := k } : State).modTask h f = { s.modTask h f with sink := k } := by
  unfold modTask
  change (match s.task? h with
    | some t => _
    | none => _) = _
  cases s.task? h <;> rfl

theorem undoWait_withSink (k : Option Handle) : ({ s with sink := k } : State).undoWait h = { s.undoWait h with sink := k } := by
  cases e : s.task? h with
  | none =>
    have same : s.undoWait h = s.removeDeadline h := by unfold undoWait dropPendingSend; rw [e]
    have same' : ({ s with sink := k } : State).undoWait h = ({ s with sink := k } : State).removeDeadline h := by
      unfold undoWait dropPendingSend
      rw [show ({ s with sink := k } : State).task? h = none from e]
    rw [same, same']
    rfl
  | some t =>
    rw [undoWait_of_task e, undoWait_of_task (s := { s with sink := k }) e]
    cases t.pendingSend <;> rfl

/-- Whom a fault is reported to plays no part in what the loss does to the task. -/
theorem loseTask_withSink (k : Option Handle) (p : Port) {st : PortState}
    (holds : (∃ h r, st = .run h r) ∨ ∃ h ws, st = .saving .checkIn h ws) :
    ({ s with sink := k } : State).loseTask p st = { s.loseTask p st with sink := k } := by
  rcases holds with ⟨h, r, rfl⟩ | ⟨h, ws, rfl⟩
  · cases r
    · exact modTask_withSink k _
    · exact modTask_withSink (s := s.clearReceivePending h) k _
  · exact (congrArg (fun u : State => u.setTaskState h _) (undoWait_withSink k)).trans (modTask_withSink k _)

theorem loseTask_linked (L : s.Linked) (p : Port) (cause : LossCause) :
    ((s.modPort p fun u => u.lose cause).loseTask p (s.port p).state).Linked := by
  have lost := loseWork_linked (p := p) L cause
  by_cases holds : (∃ h r, (s.port p).state = .run h r) ∨ ∃ h ws, (s.port p).state = .saving .checkIn h ws
  · have quiet := loseWork_linked (s := { s with sink := none }) (p := p) L.same cause
    have same := loseTask_withSink (s := s.modPort p fun u => u.lose cause) none p holds
    have counted : (({ s with sink := none } : State).modPort p fun u => u.lose cause).loseWork p (s.port p).state cause =
        ({ (s.modPort p fun u => u.lose cause).loseTask p (s.port p).state with sink := none } : State).countUnreported := by
      rcases holds with ⟨h, r, run⟩ | ⟨h, ws, saving⟩
      · rw [run] at same ⊢
        exact (congrArg (fun u : State => u.raiseFault (.portLost h p cause)) same).trans rfl
      · rw [saving] at same ⊢
        exact (congrArg (fun u : State => u.raiseFault (.portLost h p cause)) same).trans rfl
    have unsunk := counted ▸ quiet
    exact unsunk.same
  · have plain : (s.modPort p fun u => u.lose cause).loseWork p (s.port p).state cause =
        (s.modPort p fun u => u.lose cause).loseTask p (s.port p).state := by
      cases state : (s.port p).state with
      | run h r => exact absurd (.inl ⟨h, r, state⟩) holds
      | saving k h ws =>
        cases k with
        | checkIn => exact absurd (.inr ⟨h, ws, state⟩) holds
        | seed => rfl
      | _ => rfl
    exact plain ▸ lost

theorem startAttempt_eq : s.startAttempt = { s with burst := s.startAttempt.burst } := by
  unfold startAttempt
  split <;> rfl

theorem linked_flow : Flow Linked where
  quiet Q L := Q.linked L
  line _ _ _ L := L.same
  lines f _ L := L.same (by rw [mapLines_freeSlots]) (by rw [mapLines_tasks]) (by rw [mapLines_awaitList])
    (by rw [mapLines_ports]) (by rw [mapLines_ready])
  endWait k r L := (endWait_moves _ k r).linked L
  made L _ made := (createRefill_moves _ made).linked L
  handOff {s h x xs} L _ _ := by
    have taken : (({ s with poolFree := xs } : State).modInbox h Inbox.advanceSeq).Linked := L.same
    refine (wake_moves _ h .ok).linked ((removeDeadline_moves _ h).linked ?_)
    exact taken.modTask fun _ _ => rfl
  resident L _ _ _ _ := L.same
  spill L _ _ _ := L.same
  pop L _ := L.same
  answered code L _ := (completeReceive_moves _ _ code).linked L

theorem linked_engine : Engine Linked fun _ => Linked where
  toFlow := linked_flow
  loose _ := linked_flow
  timer _ _ L := L.same
  started L := by rw [startAttempt_eq]; exact L.same
  unowned L _ _ := L.same
  spilled L _ _ _ _ := L.same
  refilled L _ _ _ _ _ := L.same
  more L _ := L
  last L _ := L.same
  retried L _ := L.same
  broken L _ _ := (breakRing_moves _ _ _).linked L.same
  ended L := L.same
  lost p cause L := loseTask_linked L p cause

theorem receiveWait_linked (L : s.Linked) (run : (s.port p).state = .run h false) (e : s.task? h = some v) (n : BitVec 16) :
    ((s.armTimeout h n .recv).beginCheckIn p h .recvWait .empty).Linked := by
  obtain ⟨armed, ports, tasks⟩ := armTimeout_linked L h n .recv
  exact beginCheckIn_linked armed ((congrArg PortUnit.state (port_congr ports p)).trans run)
    ((task?_congr tasks h).trans e) _ _

theorem checkedOut_linked (L : s.Linked) {n i : Nat} (loading : (s.port p).state = .loading h n i)
    (xs : List PoolSlot) : (((s.setPortState p (.run h false)).modTask h
      fun t => { t with resume := .ok, bound := none }).freeSlotList xs).Linked := by
  have runs : (s.setPortState p (.run h false)).Linked := L.modPort (by rw [loading]; rfl)
  exact (runs.modTask (h := h) (f := fun t => { t with resume := .ok, bound := none }) fun _ _ => rfl).same

theorem linked_commands : Commands Linked fun _ => Linked where
  toEngine := linked_engine
  task _ L taken := commandEffect_linked L (gate_taken taken)
  sendWait n L run e _ _ := beginSendWait_linked L run e _ n
  receiveWait n L run e := receiveWait_linked L run e n
  receivePending {s p h t} L run e := by
    have marked : (s.modInbox h fun ib => { ib with recvPending := true }).Linked := L.same
    exact marked.modPort (by rw [modInbox_port, run]; rfl)
  emptied {s h} L _ := by
    have marked : ({ s with jobs := markCurrent h s.jobs } : State).Linked := L.same
    exact ((emptyInbox_moves _ h).linked marked).same
  destroyed L e := by
    obtain ⟨removed, idle⟩ := removeTask_linked L e
    obtain ⟨disposed, idle⟩ := disposeInbox_linked removed idle
    exact freeSlot_linked disposed idle
  checkedOut L loading _ := checkedOut_linked L loading _
  loaded L loading := L.modPort (by rw [loading]; rfl)
  written p w L := writeFrame_linked L p w
  reset := reset_linked
  leveled _ L := L.same

end State
end Sys2Proof.Machine
end

section
/-! ## One task turns to another state -/

namespace Sys2Proof.Machine

/-- Task `h` has the record `w`; the other tasks and the inboxes are as they were, and so is the state of each port but that
of a port on the await list which the task has been handed to. -/
structure Turns (s t : State) (h : Handle) (w : Task) : Prop where
  task : ∀ k, t.task? k = if k = h then some w else s.task? k
  inboxes : t.inboxes = s.inboxes
  state : ∀ q, (t.port q).state = (s.port q).state ∨ q ∈ s.awaitList ∧ ∃ n i, (t.port q).state = .loading h n i

/-- The task waits, or is checked in with a disposition not yet satisfied. -/
def Waits (st : TaskState) : Prop :=
  st = .recvWait ∨ st = .sendWait ∨ st = .sleeping ∨ ∃ p d, st = .saving p d false

theorem Turns.then {s t u : State} {h : Handle} {w x : Task} (a : Turns s t h w) (b : Turns t u h x)
    (await : t.awaitList = s.awaitList) : Turns s u h x where
  task k := by
    rw [b.task, a.task]
    split <;> rfl
  inboxes := b.inboxes.trans a.inboxes
  state q := by
    rcases b.state q with same | ⟨mem, given⟩
    · rw [same]; exact a.state q
    · exact .inr ⟨await ▸ mem, given⟩

theorem Turns.refl {s : State} {h : Handle} {v : Task} (e : s.task? h = some v) : Turns s s h v where
  task k := by
    split
    case isTrue same => subst same; exact e
    case isFalse => rfl
  inboxes := rfl
  state _ := .inl rfl

/-- A READY or a running task waits for nothing. -/
theorem not_waits_of_active {st : TaskState} (active : st = .ready ∨ ∃ q, st = .running q) :
    st.waitsToSend = false ∧ ¬ Waits st := by
  rcases active with rfl | ⟨q, rfl⟩ <;> exact ⟨rfl, by rintro (st | st | st | ⟨p, d, st⟩) <;> cases st⟩

namespace State
variable {s t : State} {p : Port} {h : Handle} {v : Task}

theorem modTask_turns (e : s.task? h = some v) (f : Task → Task) : Turns s (s.modTask h f) h (f v) where
  task k := by
    rw [task?_modTask, e]
    rfl
  inboxes := modTask_inboxes ..
  state q := .inl (by rw [modTask_port])

/-- A READY task that is offered stays READY, or runs on the port it is handed to (R58). -/
theorem offer_turns (e : s.task? h = some v) (ready : v.state = .ready) :
    ∃ st, (st = .ready ∨ ∃ q, st = .running q) ∧ Turns s (s.offer h) h { v with state := st } := by
  have self : { v with state := .ready } = v := by rw [← ready]
  cases found : s.awaitList.find? fun r => v.eligible r with
  | none =>
    refine ⟨.ready, .inl rfl, ?_⟩
    have same : s.offer h = s := by rw [offer_of_task e, found]
    rw [same, self]
    exact .refl e
  | some r =>
    refine ⟨.running r, .inr ⟨r, rfl⟩, ?_⟩
    rw [offer_of_task e, found]
    refine ⟨fun k => withTask_task?_of_live e k _, rfl, fun q => ?_⟩
    rw [withPort_port]
    split
    case isTrue same => exact .inr ⟨same ▸ List.mem_of_find?_eq_some found, _, _, rfl⟩
    case isFalse => exact .inl rfl

theorem readyTail_turns (e : s.task? h = some v) :
    ∃ st, (st = .ready ∨ ∃ q, st = .running q) ∧ Turns s (s.readyTail h) h { v with state := st } := by
  have record : (s.setTaskState h .ready).task? h = some { v with state := .ready } := task?_modTask_self _ _ e
  have queued : Turns s ((s.setTaskState h .ready).enqueueTail h) h { v with state := .ready } := by
    rw [enqueueTail_of record]
    have turned := modTask_turns e fun t => { t with state := .ready }
    exact ⟨turned.task, turned.inboxes, turned.state⟩
  have await : ((s.setTaskState h .ready).enqueueTail h).awaitList = s.awaitList := by
    rw [enqueueTail_of record]; exact modTask_awaitList ..
  obtain ⟨st, kind, offered⟩ := offer_turns ((queued.task h).trans (if_pos rfl)) rfl
  exact ⟨st, kind, queued.then offered await⟩

theorem readyHead_turns (e : s.task? h = some v) :
    ∃ st, (st = .ready ∨ ∃ q, st = .running q) ∧ Turns s (s.readyHead h) h { v with state := st } := by
  have record : (s.setTaskState h .ready).task? h = some { v with state := .ready } := task?_modTask_self _ _ e
  have queued : Turns s ((s.setTaskState h .ready).enqueueHead h) h { v with state := .ready } := by
    rw [enqueueHead_of record]
    have turned := modTask_turns e fun t => { t with state := .ready }
    exact ⟨turned.task, turned.inboxes, turned.state⟩
  have await : ((s.setTaskState h .ready).enqueueHead h).awaitList = s.awaitList := by
    rw [enqueueHead_of record]; exact modTask_awaitList ..
  obtain ⟨st, kind, offered⟩ := offer_turns ((queued.task h).trans (if_pos rfl)) rfl
  exact ⟨st, kind, queued.then offered await⟩

/-- A task that wakes does not wait to send any more, and waits for nothing that it did not wait for. -/
theorem wake_turns (e : s.task? h = some v) (res : Resume) : ∃ w, w.bound = v.bound ∧ w.pendingSend = v.pendingSend ∧
    w.state.waitsToSend = false ∧ (Waits w.state → Waits v.state) ∧ Turns s (s.wake h res) h w := by
  have readied (waits : v.state = .recvWait ∨ v.state = .sendWait ∨ v.state = .sleeping) : ∃ w, w.bound = v.bound ∧
      w.pendingSend = v.pendingSend ∧ w.state.waitsToSend = false ∧ (Waits w.state → Waits v.state) ∧
        Turns s (s.wake h res) h w := by
    have resumed := modTask_turns e fun u => { u with resume := res }
    obtain ⟨st, kind, turned⟩ := readyTail_turns ((resumed.task h).trans (if_pos rfl))
    obtain ⟨quiet, idle⟩ := not_waits_of_active kind
    refine ⟨{ v with resume := res, state := st }, rfl, rfl, quiet, fun waits => absurd waits idle, ?_⟩
    rw [wake_of_waiting e waits res, ← modTask_withTask e fun u => { u with resume := res }]
    exact resumed.then turned (modTask_awaitList ..)
  have kept (out : v.state.waitsToSend = false) (same : s.wake h res = s) : ∃ w, w.bound = v.bound ∧
      w.pendingSend = v.pendingSend ∧ w.state.waitsToSend = false ∧ (Waits w.state → Waits v.state) ∧
        Turns s (s.wake h res) h w := ⟨v, rfl, rfl, out, id, same.symm ▸ .refl e⟩
  have satisfied {q : Port} {d : Disposition} (state : v.state = .saving q d false) (waits : d.waits = true) :
      ∃ w, w.bound = v.bound ∧ w.pendingSend = v.pendingSend ∧ w.state.waitsToSend = false ∧
        (Waits w.state → Waits v.state) ∧ Turns s (s.wake h res) h w := by
    refine ⟨{ v with state := .saving q d true, resume := res }, rfl, rfl, by cases d <;> rfl, ?_, ?_⟩
    · rintro (st | st | st | ⟨p, d, st⟩) <;> cases st
    · rw [wake_of_saving e state waits, ← modTask_withTask e fun u => { u with state := .saving q d true, resume := res }]
      exact modTask_turns e _
  cases state : v.state with
  | recvWait => exact state ▸ readied (.inl state)
  | sendWait => exact state ▸ readied (.inr (.inl state))
  | sleeping => exact state ▸ readied (.inr (.inr state))
  | dormant => exact state ▸ kept (by rw [state]; rfl) (wake_of_other e (.inl state) res)
  | ready => exact state ▸ kept (by rw [state]; rfl) (wake_of_other e (.inr (.inl state)) res)
  | running q => exact state ▸ kept (by rw [state]; rfl) (wake_of_other e (.inr (.inr (.inl ⟨q, state⟩))) res)
  | halted r => exact state ▸ kept (by rw [state]; rfl) (wake_of_other e (.inr (.inr (.inr (.inl ⟨r, state⟩)))) res)
  | saving q d done =>
    cases done
    case true =>
      exact state ▸ kept (by rw [state]; cases d <;> rfl)
        (wake_of_other e (.inr (.inr (.inr (.inr (.inl ⟨q, d, state⟩))))) res)
    case false =>
      cases d
      case readyTail =>
        exact state ▸ kept (by rw [state]; rfl)
          (wake_of_other e (.inr (.inr (.inr (.inr (.inr (.inl ⟨q, state⟩)))))) res)
      case readyHead =>
        exact state ▸ kept (by rw [state]; rfl)
          (wake_of_other e (.inr (.inr (.inr (.inr (.inr (.inr ⟨q, state⟩)))))) res)
      all_goals exact state ▸ satisfied state rfl

end State
end Sys2Proof.Machine
end

section
/-! ## The sender lists and the pending sends (R91) -/

namespace Sys2Proof.Machine

/-- What the sender lists have to do with a task record. -/
def sendingOf (t : Task) : Option PendingSend × Bool := (t.pendingSend, t.state.waitsToSend)

/-- Nobody joins or leaves a sender list, and no task begins or ends a wait to send. -/
structure Sends (s t : State) : Prop where
  sending : ∀ h, (t.task? h).map sendingOf = (s.task? h).map sendingOf
  senders : ∀ k : Slot, t.inboxes[k].senders = s.inboxes[k].senders

namespace Sends
variable {s t u : State} {h : Handle} {v w : Task}

theorem refl (s : State) : Sends s s := ⟨fun _ => rfl, fun _ => rfl⟩

theorem trans (a : Sends s t) (b : Sends t u) : Sends s u :=
  ⟨fun h => (b.sending h).trans (a.sending h), fun k => (b.senders k).trans (a.senders k)⟩

theorem same (kept : (t.tasks, t.inboxes) = (s.tasks, s.inboxes)) : Sends s t := by
  obtain ⟨tasks, inboxes⟩ := Prod.mk.inj kept
  exact ⟨fun h => by rw [State.task?_congr tasks], fun k => by rw [inboxes]⟩

theorem quiet (Q : Quiet s t) : Sends s t := .same (by rw [Q.tasks, Q.inboxes])

theorem modPort (s : State) (p : Port) (f : PortUnit → PortUnit) : Sends s (s.modPort p f) := .same (by rfl)

theorem turns (e : s.task? h = some v) (T : Turns s t h w) (kept : sendingOf w = sendingOf v) : Sends s t where
  sending k := by
    rw [T.task]
    split
    case isTrue same => subst same; rw [e, Option.map_some, Option.map_some, kept]
    case isFalse => rfl
  senders k := by rw [T.inboxes]

theorem modInbox (s : State) (h : Handle) {f : Inbox → Inbox} (kept : ∀ ib, (f ib).senders = ib.senders) :
    Sends s (s.modInbox h f) where
  sending k := by rw [State.modInbox_task?]
  senders k := by
    have get : (s.modInbox h f).inboxes[k] = if k = h.slot then f (s.inbox h) else s.inboxes[k] := getElem_set_fin ..
    rw [get]
    split
    case isTrue same => subst same; exact kept _
    case isFalse => rfl

theorem modTask (s : State) (h : Handle) {f : Task → Task} (kept : ∀ v, s.task? h = some v → sendingOf (f v) = sendingOf v) :
    Sends s (s.modTask h f) where
  sending k := by
    rw [State.task?_modTask]
    split
    case isTrue same =>
      subst same
      cases e : s.task? k with
      | none => rfl
      | some v => exact congrArg some (kept v e)
    case isFalse => rfl
  senders k := by rw [State.modTask_inboxes]

theorem setTaskState (s : State) (h : Handle) {st : TaskState}
    (kept : ∀ v, s.task? h = some v → v.state.waitsToSend = st.waitsToSend) : Sends s (s.setTaskState h st) :=
  .modTask s h fun v e => Prod.ext rfl (kept v e).symm

theorem live (S : Sends s t) (h : Handle) : t.live h = s.live h := by
  have same := congrArg Option.isSome (S.sending h)
  simpa only [State.live, Option.isSome_map] using same

end Sends

/-- The sender lists and the pending sends agree, but the state of task `x`, if one is named, says nothing of its wait: it holds
no pending send. -/
structure SendersBut (x : Option Handle) (s : State) : Prop where
  waits : ∀ h t, x ≠ some h → s.task? h = some t → (t.pendingSend.isSome = t.state.waitsToSend)
  out : ∀ h t, x = some h → s.task? h = some t → t.pendingSend = none
  target : ∀ h t ps, s.task? h = some t → t.pendingSend = some ps → s.live ps.target = true ∧ ps.target ≠ h
  listed : ∀ k h, s.live k = true →
    (h ∈ (s.inbox k).senders ↔ ∃ t ps, s.task? h = some t ∧ t.pendingSend = some ps ∧ ps.target = k)
  nodup : ∀ k, s.live k = true → (s.inbox k).senders.Nodup

/-- Equal views of two records, of which one is there. -/
theorem exists_of_map_eq {α β : Type} {f : α → β} {a b : Option α} {w : α} (same : b.map f = a.map f) (e : b = some w) :
    ∃ v, a = some v ∧ f v = f w :=
  Option.map_eq_some_iff.1 (same.symm.trans (congrArg (Option.map f) e))

namespace SendersBut
variable {s t : State} {h : Handle} {x : Option Handle} {v w : Task}

theorem congr (B : SendersBut x s) (pending : ∀ h, (t.task? h).map Task.pendingSend = (s.task? h).map Task.pendingSend)
    (waits : ∀ h, x ≠ some h → (t.task? h).map sendingOf = (s.task? h).map sendingOf)
    (senders : ∀ k : Slot, t.inboxes[k].senders = s.inboxes[k].senders) : SendersBut x t := by
  have live (k : Handle) : t.live k = s.live k := by
    have same := congrArg Option.isSome (pending k)
    simpa only [State.live, Option.isSome_map] using same
  have list (k : Handle) : (t.inbox k).senders = (s.inbox k).senders := senders k.slot
  refine ⟨fun h w other e => ?_, fun h w is e => ?_, fun h w ps e some => ?_, fun k h alive => ?_, fun k alive => ?_⟩
  · obtain ⟨v, found, same⟩ := exists_of_map_eq (waits h other) e
    have kept := B.waits h v other found
    rwa [show v.pendingSend = w.pendingSend from congrArg Prod.fst same,
      show v.state.waitsToSend = w.state.waitsToSend from congrArg Prod.snd same] at kept
  · obtain ⟨v, found, same⟩ := exists_of_map_eq (pending h) e
    exact same.symm.trans (B.out h v is found)
  · obtain ⟨v, found, same⟩ := exists_of_map_eq (pending h) e
    obtain ⟨alive, other⟩ := B.target h v ps found (same.trans some)
    exact ⟨(live _).trans alive, other⟩
  · rw [list, B.listed k h ((live k).symm.trans alive)]
    constructor
    · rintro ⟨v, ps, e, some, target⟩
      obtain ⟨w, found, same⟩ := exists_of_map_eq (pending h).symm e
      exact ⟨w, ps, found, same.trans some, target⟩
    · rintro ⟨w, ps, e, some, target⟩
      obtain ⟨v, found, same⟩ := exists_of_map_eq (pending h) e
      exact ⟨v, ps, found, same.trans some, target⟩
  · rw [list]
    exact B.nodup k ((live k).symm.trans alive)

theorem sends (B : SendersBut x s) (S : Sends s t) : SendersBut x t :=
  B.congr (fun h => by
      have same := congrArg (Option.map Prod.fst) (S.sending h)
      rw [Option.map_map, Option.map_map] at same
      exact same)
    (fun h _ => S.sending h) S.senders

/-- The task named takes another state, and still holds no pending send. -/
theorem turns (B : SendersBut (some h) s) (e : s.task? h = some v) (T : Turns s t h w) (none : w.pendingSend = none) :
    SendersBut (some h) t := by
  refine B.congr (fun k => ?_) (fun k other => ?_) (fun k => by rw [T.inboxes])
  · rw [T.task]
    split
    case isTrue same =>
      subst same
      rw [e]
      exact congrArg some (none.trans (B.out k v rfl e).symm)
    case isFalse => rfl
  · rw [T.task, if_neg fun same => other (congrArg some same.symm)]

theorem agree (B : SendersBut none s) : s.SendersAgree := ⟨fun h t => B.waits h t nofun, B.target, B.listed, B.nodup⟩

/-- The task named does not wait to send. -/
theorem join (B : SendersBut (some h) s) (quiet : ∀ v, s.task? h = some v → v.state.waitsToSend = false) :
    s.SendersAgree where
  waits k v e := by
    by_cases same : h = k
    · subst same
      rw [B.out h v rfl e, quiet v e]; rfl
    · exact B.waits k v (fun is => same (Option.some.inj is)) e
  target := B.target
  listed := B.listed
  nodup := B.nodup

theorem wake (B : SendersBut (some h) s) (r : Resume) : (s.wake h r).SendersAgree := by
  cases e : s.task? h with
  | none =>
    have same : s.wake h r = s := by unfold State.wake; rw [e]
    rw [same]
    exact B.join fun v found => nomatch e.symm.trans found
  | some v =>
    obtain ⟨w, -, pending, quiet, -, T⟩ := State.wake_turns e r
    refine (B.turns e T (pending.trans (B.out h v rfl e))).join fun u found => ?_
    rw [T.task, if_pos rfl] at found
    exact Option.some.inj found ▸ quiet

/-- The task named is given a state in which it does not wait to send. -/
theorem restated (B : SendersBut (some h) s) {f : Task → Task} {st : TaskState}
    (kept : ∀ v, (f v).pendingSend = v.pendingSend ∧ (f v).state = st) (quiet : st.waitsToSend = false) :
    (s.modTask h f).SendersAgree := by
  cases e : s.task? h with
  | none =>
    have same : s.modTask h f = s := by unfold State.modTask; rw [e]
    rw [same]
    exact B.join fun v found => nomatch e.symm.trans found
  | some v =>
    have T := State.modTask_turns e f
    obtain ⟨pending, state⟩ := kept v
    refine (B.turns e T (pending.trans (B.out h v rfl e))).join fun u found => ?_
    rw [T.task, if_pos rfl] at found
    cases found
    exact state ▸ quiet

theorem setTaskState (B : SendersBut (some h) s) {st : TaskState} (quiet : st.waitsToSend = false) :
    (s.setTaskState h st).SendersAgree := B.restated (fun _ => ⟨rfl, rfl⟩) quiet

end SendersBut

namespace State
variable {s t : State} {p : Port} {h : Handle} {v w : Task}

theorem SendersAgree.but (A : s.SendersAgree) (x : Option Handle)
    (out : ∀ h t, x = some h → s.task? h = some t → t.pendingSend = none) : SendersBut x s :=
  ⟨fun h t _ => A.waits h t, out, A.target, A.listed, A.nodup⟩

theorem SendersAgree.sends (A : s.SendersAgree) (S : Sends s t) : t.SendersAgree := by
  have B : SendersBut none s := A.but none fun _ _ is => nomatch is
  exact (B.sends S).agree

/-- Two live handles of one slot are one handle. -/
theorem live_inj {k : Handle} (a : s.live h = true) (b : s.live k = true) (slot : h.slot = k.slot) : h = k := by
  obtain ⟨v, e⟩ := Option.isSome_iff_exists.1 a
  obtain ⟨w, f⟩ := Option.isSome_iff_exists.1 b
  obtain ⟨gen, -⟩ := s.task?_eq.1 e
  obtain ⟨gen', -⟩ := s.task?_eq.1 f
  cases h; cases k
  cases slot
  exact congrArg _ (gen.symm.trans gen')

/-- A task off whose target's list leaves every list. -/
theorem undoWait_senders (A : s.SendersAgree) {k : Handle} (live : s.live k = true) :
    ((s.undoWait h).inbox k).senders = (s.inbox k).senders.filter fun r => r ≠ h := by
  have stays (out : h ∉ (s.inbox k).senders) : (s.inbox k).senders.filter (fun r => r ≠ h) = (s.inbox k).senders :=
    filter_of_not_mem out
  cases e : s.task? h with
  | none =>
    have same : s.undoWait h = s.removeDeadline h := by unfold undoWait dropPendingSend; rw [e]
    rw [same, stays fun mem => ?_]
    · rfl
    · obtain ⟨v, ps, found, -⟩ := (A.listed k h live).1 mem
      exact nomatch e.symm.trans found
  | some v =>
    rw [undoWait_of_task e]
    cases pending : v.pendingSend with
    | none =>
      refine (stays fun mem => ?_).symm
      obtain ⟨v', ps, found, some, -⟩ := (A.listed k h live).1 mem
      cases e.symm.trans found
      exact nomatch pending.symm.trans some
    | some ps =>
      have get : ((s.withInbox ps.target { s.inbox ps.target with
          senders := (s.inbox ps.target).senders.filter fun r => r ≠ h }).inbox k) =
          if k.slot = ps.target.slot then { s.inbox ps.target with
            senders := (s.inbox ps.target).senders.filter fun r => r ≠ h } else s.inbox k := getElem_set_fin ..
      refine (congrArg Inbox.senders get).trans ?_
      split
      case isTrue same =>
        rw [live_inj live (A.target h v ps e pending).1 same]
      case isFalse other =>
        refine (stays fun mem => other ?_).symm
        obtain ⟨v', ps', found, some, target⟩ := (A.listed k h live).1 mem
        cases e.symm.trans found
        cases pending.symm.trans some
        rw [target]

theorem undoWait_but (A : s.SendersAgree) (h : Handle) : SendersBut (some h) (s.undoWait h) := by
  have live (k : Handle) : (s.undoWait h).live k = s.live k := (undoWait_stores h).live k
  have other {k : Handle} (away : k ≠ h) : (s.undoWait h).task? k = s.task? k := by rw [undoWait_task?, if_neg away]
  have own (v : Task) (e : (s.undoWait h).task? h = some v) : v.pendingSend = none := by
    rw [undoWait_task?, if_pos rfl] at e
    obtain ⟨u, -, rfl⟩ := Option.map_eq_some_iff.1 e
    rfl
  have away {k : Handle} {v : Task} {ps : PendingSend} (e : (s.undoWait h).task? k = some v)
      (pending : v.pendingSend = some ps) : k ≠ h := by
    rintro rfl
    exact nomatch (own v e).symm.trans pending
  refine ⟨fun k v out e => ?_, fun k v is e => ?_, fun k v ps e pending => ?_, fun k r alive => ?_, fun k alive => ?_⟩
  · exact A.waits k v (other (fun same => out (congrArg some same.symm)) ▸ e)
  · cases is; exact own v e
  · obtain ⟨alive, distinct⟩ := A.target k v ps (other (away e pending) ▸ e) pending
    exact ⟨(live _).trans alive, distinct⟩
  · rw [undoWait_senders A ((live k).symm.trans alive), List.mem_filter, A.listed k r ((live k).symm.trans alive)]
    constructor
    · rintro ⟨⟨v, ps, e, pending, target⟩, out⟩
      exact ⟨v, ps, (other (by simpa using out)).trans e, pending, target⟩
    · rintro ⟨v, ps, e, pending, target⟩
      have out := away e pending
      exact ⟨⟨v, ps, other out ▸ e, pending, target⟩, by simpa using out⟩
  · rw [undoWait_senders A ((live k).symm.trans alive)]
    exact (A.nodup k ((live k).symm.trans alive)).filter _

theorem endWait_senders (A : s.SendersAgree) (h : Handle) (r : Resume) : (s.endWait h r).SendersAgree :=
  (undoWait_but A h).wake r

end State
end Sys2Proof.Machine
end

section
/-! ## Who must be unbound, and the pending RECEIVEs (R66, R81, R83, R84, R98) -/

namespace Sys2Proof.Machine

/-- A task that waits or stands in RUN, for which no message may be bound (R66, R83, R84). -/
def MustBeFree (s : State) (h : Handle) : Prop :=
  (∃ v, s.task? h = some v ∧ Waits v.state) ∨ ∃ p r, (s.port p).state = .run h r

/-- What `State.SlotsPlaced` says of bound messages and pending RECEIVEs. -/
structure Unbound (s : State) : Prop where
  unbound : ∀ h v, s.task? h = some v → MustBeFree s h → v.bound = none
  receiving : ∀ h, s.live h = true → ((s.inbox h).recvPending = true ↔ ∃ p, (s.port p).state = .run h true)

/-- No message is bound or taken, no task comes to wait or to RUN that did neither, and no RECEIVE is left pending on one side
only. -/
structure Binds (s t : State) : Prop where
  bound : ∀ h, (t.task? h).map Task.bound = (s.task? h).map Task.bound
  free : ∀ h, MustBeFree t h → MustBeFree s h
  receiving : ∀ h, s.live h = true →
    ((t.inbox h).recvPending = (s.inbox h).recvPending ∧ ∀ q, (t.port q).state = .run h true ↔ (s.port q).state = .run h true) ∨
      ((t.inbox h).recvPending = false ∧ ∀ q, (t.port q).state ≠ .run h true)

/-- Whether a port is in RUN, and with which task, is as it was. -/
abbrev SameRuns (s t : State) : Prop := ∀ q h r, (t.port q).state = .run h r ↔ (s.port q).state = .run h r

theorem live_of_map {α : Type} {f : Task → α} {s t : State} {h : Handle} (same : (t.task? h).map f = (s.task? h).map f) :
    t.live h = s.live h := by
  have some := congrArg Option.isSome same
  simpa only [State.live, Option.isSome_map] using some

theorem Unbound.binds {s t : State} (U : Unbound s) (B : Binds s t) : Unbound t where
  unbound h w e sure := by
    obtain ⟨v, found, same⟩ := exists_of_map_eq (B.bound h) e
    exact same.symm.trans (U.unbound h v found (B.free h sure))
  receiving h live := by
    have live := (live_of_map (B.bound h)).symm.trans live
    rcases B.receiving h live with ⟨mark, runs⟩ | ⟨clear, none⟩
    · rw [mark, U.receiving h live]
      exact exists_congr fun q => (runs q).symm
    · rw [clear]
      exact iff_of_false nofun fun ⟨q, run⟩ => none q run

namespace Binds
variable {s t u : State} {p q : Port} {h : Handle} {v w : Task}

theorem trans (a : Binds s t) (b : Binds t u) : Binds s u where
  bound h := (b.bound h).trans (a.bound h)
  free h sure := a.free h (b.free h sure)
  receiving h live := by
    rcases b.receiving h ((live_of_map (a.bound h)).trans live) with ⟨mark, runs⟩ | clear
    · rcases a.receiving h live with ⟨mark', runs'⟩ | ⟨clear, none⟩
      · exact .inl ⟨mark.trans mark', fun q => (runs q).trans (runs' q)⟩
      · exact .inr ⟨mark.trans clear, fun q run => none q ((runs q).1 run)⟩
    · exact .inr clear

/-- The records of the tasks say the same of waits and bound messages. -/
theorem of_tasks (tasks : ∀ h, (t.task? h).map (fun v => (v.bound, v.state)) = (s.task? h).map fun v => (v.bound, v.state))
    (marks : ∀ k : Slot, t.inboxes[k].recvPending = s.inboxes[k].recvPending) (runs : SameRuns s t) : Binds s t where
  bound h := by
    have same := congrArg (Option.map Prod.fst) (tasks h)
    rw [Option.map_map, Option.map_map] at same
    exact same
  free h := by
    rintro (⟨w, e, waits⟩ | ⟨q, r, run⟩)
    · obtain ⟨v, found, same⟩ := exists_of_map_eq (tasks h) e
      exact .inl ⟨v, found, (show v.state = w.state from congrArg Prod.snd same).symm ▸ waits⟩
    · exact .inr ⟨q, r, (runs q h r).1 run⟩
  receiving h _ := .inl ⟨marks h.slot, fun q => runs q h true⟩

theorem same (kept : (t.tasks, t.inboxes, t.ports) = (s.tasks, s.inboxes, s.ports)) : Binds s t := by
  obtain ⟨tasks, both⟩ := Prod.mk.inj kept
  obtain ⟨inboxes, ports⟩ := Prod.mk.inj both
  exact .of_tasks (fun h => by rw [State.task?_congr tasks]) (fun k => by rw [inboxes])
    fun q h r => by rw [State.port_congr ports]

theorem refl (s : State) : Binds s s := .same (by rfl)

theorem quiet (Q : Quiet s t) : Binds s t :=
  .of_tasks (fun h => by rw [Q.task?]) (fun k => by rw [Q.inboxes]) fun q h r => by rw [Q.state]

theorem modInbox (s : State) (h : Handle) {f : Inbox → Inbox} (kept : ∀ ib, (f ib).recvPending = ib.recvPending) :
    Binds s (s.modInbox h f) := by
  refine .of_tasks (fun k => by rw [State.modInbox_task?]) (fun k => ?_) fun q k r => by rw [State.modInbox_port]
  have get : (s.modInbox h f).inboxes[k] = if k = h.slot then f (s.inbox h) else s.inboxes[k] := getElem_set_fin ..
  rw [get]
  split
  case isTrue same => subst same; exact kept _
  case isFalse => rfl

/-- One task takes another record, in which it waits only if it waited or ran before. -/
theorem turns (e : s.task? h = some v) (T : Turns s t h w) (bound : w.bound = v.bound)
    (sure : Waits w.state → MustBeFree s h) (runs : SameRuns s t) : Binds s t where
  bound k := by
    rw [T.task]
    split
    case isTrue same => subst same; rw [e, Option.map_some, Option.map_some, bound]
    case isFalse => rfl
  free k := by
    rintro (⟨x, found, waits⟩ | ⟨q, r, run⟩)
    · rw [T.task] at found
      split at found
      case isTrue same => subst same; cases found; exact sure waits
      case isFalse => exact .inl ⟨x, found, waits⟩
    · exact .inr ⟨q, r, (runs q k r).1 run⟩
  receiving k _ := .inl ⟨by unfold State.inbox; rw [T.inboxes], fun q => runs q k true⟩

theorem modTask (s : State) (h : Handle) {f : Task → Task}
    (bound : ∀ v, s.task? h = some v → (f v).bound = v.bound)
    (sure : ∀ v, s.task? h = some v → Waits (f v).state → MustBeFree s h) : Binds s (s.modTask h f) := by
  cases e : s.task? h with
  | none =>
    have same : s.modTask h f = s := by unfold State.modTask; rw [e]
    rw [same]
    exact .refl s
  | some v =>
    exact .turns e (State.modTask_turns e f) (bound v e) (sure v e) fun q k r => by rw [State.modTask_port]

/-- A port takes another state, neither of them with a RECEIVE pending; if it comes to RUN, it ran that task before. -/
theorem modPort (s : State) (p : Port) {f : PortUnit → PortUnit}
    (before : ∀ h, (s.port p).state ≠ .run h true)
    (after : ∀ h r, (f (s.port p)).state = .run h r → (s.port p).state = .run h r) : Binds s (s.modPort p f) := by
  have state (q : Port) : ((s.modPort p f).port q).state = if q = p then (f (s.port p)).state else (s.port q).state := by
    rw [State.modPort_port]
    split <;> rfl
  have back (q : Port) (h : Handle) (r : Bool) (run : ((s.modPort p f).port q).state = .run h r) :
      (s.port q).state = .run h r := by
    rw [state] at run
    split at run
    case isTrue same => subst same; exact after h r run
    case isFalse => exact run
  refine ⟨fun h => by rw [State.modPort_task?], ?_, fun h _ => .inl ⟨by rw [State.modPort_inbox], fun q => ⟨back q h true, ?_⟩⟩⟩
  · rintro h (⟨v, e, waits⟩ | ⟨q, r, run⟩)
    · exact .inl ⟨v, (State.modPort_task? ..).symm.trans e, waits⟩
    · exact .inr ⟨q, r, back q h r run⟩
  · intro run
    rw [state]
    split
    case isTrue same => subst same; exact absurd run (before h)
    case isFalse => exact run

theorem modPort_state (s : State) (p : Port) {f : PortUnit → PortUnit} (state : (f (s.port p)).state = (s.port p).state) :
    Binds s (s.modPort p f) := .quiet (.port state)

end Binds

/-- The runs are untouched by a port handed a task while it was on the await list. -/
theorem Turns.runs {s t : State} {h : Handle} {w : Task} (T : Turns s t h w)
    (await : ∀ q ∈ s.awaitList, ∀ k r, (s.port q).state ≠ .run k r) : SameRuns s t := by
  intro q k r
  rcases T.state q with same | ⟨mem, n, i, loading⟩
  · rw [same]
  · rw [loading]
    exact iff_of_false nofun (await q mem k r)

namespace State
variable {s t : State} {p q : Port} {h : Handle} {v w : Task}

/-- A port on the await list is not in RUN. -/
theorem Linked.await_not_run (L : s.Linked) (mem : q ∈ s.awaitList) (k : Handle) (r : Bool) : (s.port q).state ≠ .run k r := by
  intro run
  have post := (L.await q).1 mem
  rw [run] at post
  cases post

/-- A port that holds a task names one that is RUNNING on it. -/
theorem Linked.running (L : s.Linked) (holds : (s.port p).state.post = .holds h) :
    ∃ v, s.task? h = some v ∧ v.state = .running p := by
  obtain ⟨v, e, place⟩ := (L.held p h).1 holds
  refine ⟨v, e, ?_⟩
  cases state : v.state <;> rw [state] at place <;> cases place
  rfl

theorem Linked.run_unique (L : s.Linked) {r r' : Bool} (a : (s.port p).state = .run h r) (b : (s.port q).state = .run h r') :
    p = q := by
  obtain ⟨v, e, state⟩ := L.running (p := p) (h := h) (by rw [a]; rfl)
  obtain ⟨w, f, state'⟩ := L.running (p := q) (h := h) (by rw [b]; rfl)
  cases e.symm.trans f
  exact TaskState.running.inj (state.symm.trans state')

/-- The only port that runs a task stops to wait for a message, and the mark of its RECEIVE goes with it. -/
theorem Linked.stopReceive (L : s.Linked) (run : (s.port p).state = .run h true)
    (tasks : ∀ h, (t.task? h).map (fun v => (v.bound, v.state)) = (s.task? h).map fun v => (v.bound, v.state))
    (marks : ∀ k : Slot, t.inboxes[k].recvPending = (!decide (k = h.slot) && s.inboxes[k].recvPending))
    (others : ∀ q, q ≠ p → (t.port q).state = (s.port q).state)
    (after : ∀ k r, (t.port p).state = .run k r → k = h ∧ r = false) : Binds s t where
  bound k := by
    have same := congrArg (Option.map Prod.fst) (tasks k)
    rw [Option.map_map, Option.map_map] at same
    exact same
  free k := by
    rintro (⟨w, e, waits⟩ | ⟨q, r, now⟩)
    · obtain ⟨v, found, same⟩ := exists_of_map_eq (tasks k) e
      exact .inl ⟨v, found, (show v.state = w.state from congrArg Prod.snd same).symm ▸ waits⟩
    · by_cases same : q = p
      · subst same
        obtain ⟨rfl, -⟩ := after k r now
        exact .inr ⟨q, true, run⟩
      · exact .inr ⟨q, r, others q same ▸ now⟩
  receiving k live := by
    have mark : (t.inbox k).recvPending = (!decide (k.slot = h.slot) && (s.inbox k).recvPending) := marks k.slot
    by_cases same : k = h
    · subst same
      refine .inr ⟨by rw [mark]; simp, fun q now => ?_⟩
      by_cases here : q = p
      · subst here; exact absurd (after k true now).2 nofun
      · exact here (L.run_unique (others q here ▸ now) run)
    · obtain ⟨v, e, -⟩ := L.running (p := p) (h := h) (by rw [run]; rfl)
      have slot : k.slot ≠ h.slot := fun slot => same (live_inj live (by unfold State.live; rw [e]; rfl) slot)
      refine .inl ⟨by rw [mark, decide_eq_false slot]; rfl, fun q => ?_⟩
      by_cases here : q = p
      · subst here
        refine iff_of_false (fun now => same (after k true now).1) fun now => ?_
        rw [run] at now
        exact same (PortState.run.inj now).1.symm
      · rw [others q here]

/-- The port that runs a task leaves RUN, or stays in it without a RECEIVE pending, and its mark is cleared with it. -/
theorem Linked.leaveRun (L : s.Linked) {r : Bool} (run : (s.port p).state = .run h r)
    (f : PortUnit → PortUnit) (after : ∀ k r', (f (s.port p)).state = .run k r' → k = h ∧ r' = false) :
    Binds s ((if r then s.clearReceivePending h else s).modPort p f) := by
  cases r with
  | false =>
    refine .modPort s p (fun k now => ?_) fun k r' now => ?_
    · rw [run] at now; cases now
    · obtain ⟨rfl, rfl⟩ := after k r' now
      exact run
  | true =>
    change Binds s ((s.clearReceivePending h).modPort p f)
    have port (q : Port) : ((s.clearReceivePending h).modPort p f).port q = if q = p then f (s.port p) else s.port q := by
      rw [modPort_port]; rfl
    refine L.stopReceive run (fun k => rfl) (fun k => ?_) (fun q other => by rw [port, if_neg other]) fun k r' now => ?_
    · have get : (s.clearReceivePending h).inboxes[k] = if k = h.slot then { s.inbox h with recvPending := false } else
        s.inboxes[k] := getElem_set_fin ..
      change ((s.clearReceivePending h).inboxes[k]).recvPending = _
      rw [get]
      split
      case isTrue same => simp [same]
      case isFalse other => simp [other]
    · rw [port, if_pos rfl] at now
      exact after k r' now

end State
end Sys2Proof.Machine
end

section
/-! ## Task operations that begin and end no wait to send -/

namespace Sys2Proof.Machine

/-- No wait to send begins or ends, and no task comes to wait or run with a message bound. -/
structure Calm (s t : State) : Prop extends Sends s t, Binds s t

/-- No port on the await list is in RUN. -/
abbrev AwaitIdle (s : State) : Prop := ∀ q ∈ s.awaitList, ∀ k r, (s.port q).state ≠ .run k r

/-- The port is in RUN. -/
def PortState.inRun : PortState → Bool
  | .run _ _ => true
  | _ => false

namespace Calm
variable {s t u : State} {p : Port} {h : Handle} {v w : Task}

theorem trans (a : Calm s t) (b : Calm t u) : Calm s u := ⟨a.toSends.trans b.toSends, a.toBinds.trans b.toBinds⟩

theorem refl (s : State) : Calm s s := ⟨.refl s, .refl s⟩

theorem same (kept : (t.tasks, t.inboxes, t.ports) = (s.tasks, s.inboxes, s.ports)) : Calm s t := by
  refine ⟨.same ?_, .same kept⟩
  obtain ⟨tasks, both⟩ := Prod.mk.inj kept
  rw [tasks, (Prod.mk.inj both).1]

theorem quiet (Q : Quiet s t) : Calm s t := ⟨.quiet Q, .quiet Q⟩

theorem turns (e : s.task? h = some v) (T : Turns s t h w) (sending : sendingOf w = sendingOf v) (bound : w.bound = v.bound)
    (sure : Waits w.state → MustBeFree s h) (runs : SameRuns s t) : Calm s t :=
  ⟨.turns e T sending, .turns e T bound sure runs⟩

theorem modTask (e : s.task? h = some v) (f : Task → Task) (sending : sendingOf (f v) = sendingOf v)
    (bound : (f v).bound = v.bound) (sure : Waits (f v).state → MustBeFree s h) : Calm s (s.modTask h f) :=
  .turns e (State.modTask_turns e f) sending bound sure fun q k r => by rw [State.modTask_port]

/-- A change of the record that does not touch the waits and the bound message. -/
theorem record (s : State) (h : Handle) {f : Task → Task}
    (kept : ∀ v, (sendingOf (f v), (f v).bound, (f v).state) = (sendingOf v, v.bound, v.state)) : Calm s (s.modTask h f) where
  toSends := .modTask s h fun v _ => congrArg Prod.fst (kept v)
  toBinds := .modTask s h (fun v _ => congrArg (fun x => x.2.1) (kept v)) fun v e waits =>
    .inl ⟨v, e, (show (f v).state = v.state from congrArg (fun x => x.2.2) (kept v)) ▸ waits⟩

theorem modPort (s : State) (p : Port) {f : PortUnit → PortUnit} (before : ∀ h, (s.port p).state ≠ .run h true)
    (after : ∀ h r, (f (s.port p)).state = .run h r → (s.port p).state = .run h r) : Calm s (s.modPort p f) :=
  ⟨Sends.modPort s p f, Binds.modPort s p before after⟩

/-- A port whose state stays. -/
theorem unit (s : State) (p : Port) {f : PortUnit → PortUnit} (state : (f (s.port p)).state = (s.port p).state) :
    Calm s (s.modPort p f) := .quiet (.port state)

/-- A command's answer. -/
theorem answer (s : State) (p : Port) (c : ResultCode) (v : BitVec 16) : Calm s (s.setResult p c v) := .quiet (.setResult s p c v)

/-- A port turns to a state that is not RUN. -/
theorem portState (s : State) (p : Port) {st : PortState} (before : ∀ h, (s.port p).state ≠ .run h true)
    (after : st.inRun = false) : Calm s (s.setPortState p st) :=
  .modPort s p before fun h r now => by
    have out : st = .run h r := now
    rw [out] at after
    cases after

/-- A task that is READY, or running, or stopped before and after. -/
theorem setTaskState (e : s.task? h = some v) {st : TaskState} (before : v.state.waitsToSend = false)
    (after : st.waitsToSend = false) (sure : Waits st → MustBeFree s h) : Calm s (s.setTaskState h st) :=
  .modTask e _ (congrArg (Prod.mk v.pendingSend) (after.trans before.symm)) rfl sure

end Calm

namespace State
variable {s t : State} {p q : Port} {h : Handle} {v w : Task}

theorem Linked.awaitIdle (L : s.Linked) : AwaitIdle s := fun _ mem k r => L.await_not_run mem k r

theorem offer_calm (A : AwaitIdle s) (e : s.task? h = some v) (ready : v.state = .ready) : Calm s (s.offer h) := by
  obtain ⟨st, kind, T⟩ := offer_turns e ready
  obtain ⟨quiet, idle⟩ := not_waits_of_active kind
  refine .turns e T (congrArg (Prod.mk v.pendingSend) ?_) rfl (fun waits => absurd waits idle) (T.runs A)
  rw [ready]
  exact quiet

theorem readyTail_calm (A : AwaitIdle s) (e : s.task? h = some v) (quiet : v.state.waitsToSend = false) :
    Calm s (s.readyTail h) := by
  obtain ⟨st, kind, T⟩ := readyTail_turns e
  obtain ⟨quiet', idle⟩ := not_waits_of_active kind
  exact .turns e T (congrArg (Prod.mk v.pendingSend) (quiet'.trans quiet.symm)) rfl (fun waits => absurd waits idle) (T.runs A)

theorem readyHead_calm (A : AwaitIdle s) (e : s.task? h = some v) (quiet : v.state.waitsToSend = false) :
    Calm s (s.readyHead h) := by
  obtain ⟨st, kind, T⟩ := readyHead_turns e
  obtain ⟨quiet', idle⟩ := not_waits_of_active kind
  exact .turns e T (congrArg (Prod.mk v.pendingSend) (quiet'.trans quiet.symm)) rfl (fun waits => absurd waits idle) (T.runs A)

theorem dequeue_calm (h : Handle) : Calm s (s.dequeue h) := by
  unfold dequeue
  split
  · exact .same (by rfl)
  · exact .refl s

theorem handOff_calm (e : s.task? h = some v) (ready : v.state = .ready) (idle : ∀ k, (s.port p).state ≠ .run k true) :
    Calm s (s.handOff p h) := by
  have left : (s.leaveAwait p).task? h = some v := e
  have out : ((s.leaveAwait p).dequeue h).task? h = some v := by rw [dequeue_of left]; exact e
  have port : ((s.leaveAwait p).dequeue h).port p = s.port p := by rw [dequeue_of left]; rfl
  unfold handOff beginCheckOut
  rw [out]
  refine (((Calm.same (t := s.leaveAwait p) (by rfl)).trans (dequeue_calm h)).trans
    (.setTaskState out (by rw [ready]; rfl) (st := .running p) rfl fun waits => ?_)).trans (.portState (st := .loading h _ _) _ p (fun k => ?_) rfl)
  · exact absurd waits (not_waits_of_active (.inr ⟨p, rfl⟩)).2
  · rw [setTaskState_eq, modTask_port, port]
    exact idle k

theorem armTimeout_calm (h : Handle) (n : BitVec 16) (k : DeadlineKind) : Calm s (s.armTimeout h n k) := by
  unfold armTimeout
  split
  · exact .refl s
  · exact .same (by rfl)

/-- A running task begins a check-in that is not a wait to send. -/
theorem beginCheckIn_calm (run : (s.port p).state = .run h false) (e : s.task? h = some v) (state : v.state = .running p)
    {d : Disposition} (other : (TaskState.saving p d false).waitsToSend = false) (c : ResultCode) :
    Calm s (s.beginCheckIn p h d c) := by
  have saving : Calm s (s.setTaskState h (.saving p d false)) :=
    .setTaskState e (by rw [state]; rfl) other fun _ => .inr ⟨p, false, run⟩
  unfold beginCheckIn
  refine (saving.trans (.portState _ p (fun k now => ?_) rfl)).trans (.answer _ p _ _)
  rw [setTaskState_eq, modTask_port, run] at now
  cases now

theorem applyDisposition_calm (A : AwaitIdle s) (h : Handle) : Calm s (s.applyDisposition h) := by
  unfold applyDisposition
  split
  case h_2 => exact .refl s
  case h_1 v e =>
    split
    case h_2 => exact .refl s
    case h_1 q d done state =>
      have kept (other : d ≠ .sendWait ∨ done = true) : v.state.waitsToSend = false := by
        rw [state]
        rcases other with other | rfl
        · cases d <;> first | rfl | exact absurd rfl other
        · cases d <;> rfl
      have wait (st : TaskState) (same : (done = false → st.waitsToSend = v.state.waitsToSend)) :
          Calm s (if done = true then s.readyTail h else s.setTaskState h st) := by
        cases done with
        | true => exact readyTail_calm A e (kept (.inr rfl))
        | false =>
          exact .modTask e _ (congrArg (Prod.mk v.pendingSend) (same rfl)) rfl fun _ =>
            .inl ⟨v, e, .inr (.inr (.inr ⟨q, d, state⟩))⟩
      cases d with
      | readyHead => exact readyHead_calm A e (kept (.inl nofun))
      | readyTail => exact readyTail_calm A e (kept (.inl nofun))
      | recvWait => exact wait _ fun _ => (kept (.inl nofun)).symm
      | sendWait => exact wait _ fun out => by rw [state, out]; rfl
      | sleeping => exact wait _ fun _ => (kept (.inl nofun)).symm

theorem storeFrame_calm (h : Handle) (v : Task) (e : Bool) (ws : List Word) : Calm s (s.storeFrame h v e ws) := by
  unfold storeFrame
  exact .trans (t := { s with frames := _ }) (.same (by rfl)) (.record _ h fun _ => rfl)

theorem commit_calm (A : AwaitIdle s) {ws : List Word} {k : SaveKind} (saving : (s.port p).state = .saving k h ws) (v : Task)
    (e : Bool) (staging : List Word) : Calm s (s.commit p k h v e staging) := by
  have port (q : Port) : (s.storeFrame h v e staging).port q = s.port q := by unfold storeFrame; rw [modTask_port]; rfl
  have await : (s.storeFrame h v e staging).awaitList = s.awaitList := by unfold storeFrame; rw [modTask_awaitList]
  have base : Calm s (((s.storeFrame h v e staging).setPortState p .idle).setResult p .ok h.bits) := by
    refine ((storeFrame_calm h v e staging).trans (.portState _ p (fun k now => ?_) rfl)).trans (.answer _ p _ _)
    rw [port, saving] at now
    cases now
  unfold commit
  cases k with
  | checkIn =>
    refine (base.trans (applyDisposition_calm (fun q mem k r => ?_) h)).trans (.quiet (.evalPreempt _))
    rw [setResult_eq, modPort_port, setPortState_eq, modPort_port, modPort_port]
    split
    · rw [if_pos rfl]; nofun
    · rw [port]; exact A q (await ▸ mem) k r
  | seed => exact base.trans (.record _ h fun _ => rfl)

theorem writeFrame_calm (A : AwaitIdle s) (p : Port) (w : Word) : Calm s (s.writeFrame p w) := by
  unfold writeFrame
  split
  case h_1 k h ws saving =>
    have staged (ws' : List Word) : Calm s (s.setPortState p (.saving k h ws')) :=
      .portState s p (fun h now => by rw [saving] at now; cases now) rfl
    unfold takeFrameWord
    split
    · split
      · split
        · exact staged _
        · exact .answer s p _ _
      · split
        · exact staged _
        · exact commit_calm A saving _ _ _
    · exact .refl s
  all_goals exact .refl s

/-! ### Commands -/

/-- The running task of a port that takes a command. -/
theorem onCurrent_calm (L : s.Linked) {c : Cmd} (taken : s.gate c p = .taken) (other : c ≠ .cancel)
    {f : Handle → Task → State}
    (acts : ∀ h v, (s.port p).state = .run h false → s.task? h = some v → v.state = .running p → Calm s (f h v)) :
    Calm s (s.onCurrent p f) := by
  unfold onCurrent
  split
  case h_1 h r run =>
    have run := run_of_gate taken other run
    obtain ⟨w, found, state⟩ := L.running (p := p) (h := h) (by rw [run]; rfl)
    rw [found]
    exact acts h w run found state
  all_goals exact .refl s

theorem onNamed_calm (p : Port) {f : Handle → Task → State} (acts : ∀ h v, s.task? h = some v → Calm s (f h v)) :
    Calm s (s.onNamed p f) := by
  unfold onNamed
  split
  case h_1 v e => exact acts _ v e
  case h_2 => exact .answer s p _ _

theorem dispatch_calm (L : s.Linked) (idle : (s.port p).state.post = .none) : Calm s (s.dispatch p) := by
  have free (k : Handle) : (s.port p).state ≠ .run k true := fun run => by rw [run] at idle; cases idle
  unfold dispatch
  refine .trans ?_ (.quiet (.evalPreempt _))
  split
  case h_1 h selected =>
    obtain ⟨v, e, place⟩ := select_ready L selected
    exact (handOff_calm e (place_ready_iff.1 place) free).trans (.answer _ p _ _)
  case h_2 =>
    have waiting : Calm s ({ s with awaitList := s.awaitList ++ [p] } : State) := .same (by rfl)
    exact (waiting.trans (.portState _ p free rfl)).trans (.answer _ p _ _)

theorem cancel_calm (L : s.Linked) (p : Port) : Calm s (s.cancel p) := by
  unfold cancel
  split
  case h_1 await =>
    have left : Calm s (s.leaveAwait p) := .same (by rfl)
    refine (left.trans (.portState _ p (fun k now => ?_) rfl)).trans (.answer _ p _ _)
    exact nomatch await.symm.trans now
  case h_2 h run =>
    refine .trans ⟨?_, ?_⟩ (.answer _ p _ _)
    · have cleared : Sends s (s.clearReceivePending h) := .modInbox s h fun _ => rfl
      exact cleared.trans (.same (by rfl))
    · exact L.leaveRun run _ fun k r now => ⟨(PortState.run.inj now).1.symm, (PortState.run.inj now).2.symm⟩
  all_goals exact .answer s p _ _

theorem yield_calm (L : s.Linked) (taken : s.gate .yield p = .taken) : Calm s (s.yield p) := by
  refine onCurrent_calm L taken nofun fun h v run e state => ?_
  split
  · refine (beginCheckIn_calm run e state ?_ _).trans (.quiet (.evalPreempt _))
    split <;> rfl
  · exact .answer s p _ _

theorem exit_calm (L : s.Linked) (taken : s.gate .exit p = .taken) : Calm s (s.exit p) := by
  refine onCurrent_calm L taken nofun fun h v run e state => ?_
  have dormant : Calm s (s.setTaskState h .dormant) :=
    .setTaskState e (by rw [state]; rfl) rfl fun _ => .inr ⟨p, false, run⟩
  refine ((dormant.trans (.portState _ p (fun k now => ?_) rfl)).trans (.answer _ p _ _)).trans (.quiet (.evalPreempt _))
  rw [setTaskState_eq, modTask_port, run] at now
  cases now

theorem sleep_calm (L : s.Linked) (taken : s.gate .sleep p = .taken) : Calm s (s.sleep p) := by
  refine onCurrent_calm L taken nofun fun h v run e state => ?_
  dsimp only
  split
  · have armed : Calm s (s.insertDeadline h (lowHalf (s.port p).args[0]) .sleep) := .same (by rfl)
    exact (armed.trans (beginCheckIn_calm (s := s.insertDeadline h (lowHalf (s.port p).args[0]) .sleep) run e state rfl _)).trans
      (.quiet (.evalPreempt _))
  · exact .answer s p _ _

theorem seed_calm (idle : (s.port p).state.post = .none) : Calm s (s.seed p) := by
  refine onNamed_calm p fun h v e => ?_
  have begins : Calm s (s.beginSeed p h) := by
    unfold beginSeed
    refine ((Calm.record s h (f := fun t => { t with seedPort := some p }) fun _ => rfl).trans
      (.portState _ p (fun k now => ?_) rfl)).trans (.answer _ p _ _)
    rw [modTask_port] at now
    rw [now] at idle
    cases idle
  split
  · exact .answer s p _ _
  split
  iterate 2 exact begins
  all_goals exact .answer s p _ _

theorem activate_calm (L : s.Linked) (p : Port) : Calm s (s.activate p) := by
  refine onNamed_calm p fun h v e => ?_
  split
  · exact .answer s p _ _
  split
  case isTrue dormant =>
    exact ((readyTail_calm L.awaitIdle e (by rw [dormant]; rfl)).trans (.answer _ p _ _)).trans (.quiet (.evalPreempt _))
  case isFalse => exact .answer s p _ _

theorem release_calm (p : Port) : Calm s (s.release p) := by
  refine onNamed_calm p fun h v e => ?_
  split
  · exact .answer s p _ _
  split
  case h_1 r halted =>
    refine .trans (.setTaskState e (by rw [halted]; rfl) (st := .dormant) rfl ?_) (.answer _ p _ _)
    rintro (st | st | st | ⟨q, d, st⟩) <;> cases st
  all_goals exact .answer s p _ _

theorem changePriority_calm (L : s.Linked) (e : s.task? h = some v) (prio : Priority) :
    Calm s (s.changePriority h v prio) := by
  have prioritized {u : State} : Calm u (u.modTask h fun t => { t with priority := prio }) := .record _ h fun _ => rfl
  unfold changePriority
  split
  case isTrue ready =>
    have out : (s.dequeue h).task? h = some v := by rw [dequeue_of e]; exact e
    have record : ((s.dequeue h).modTask h fun t => { t with priority := prio }).task? h = some { v with priority := prio } :=
      task?_modTask_self _ _ out
    have base : Calm s (((s.dequeue h).modTask h fun t => { t with priority := prio }).enqueueTail h) := by
      refine ((dequeue_calm h).trans prioritized).trans ?_
      rw [enqueueTail_of record]
      exact .same (by rfl)
    refine base.trans (offer_calm (v := { v with priority := prio }) ?_ ?_ ready)
    · rw [enqueueTail_of record, dequeue_of e]
      intro q mem k r
      change ((State.modTask _ h _).port q).state ≠ _
      rw [modTask_port]
      refine L.awaitIdle q ?_ k r
      change q ∈ (State.modTask _ h _).awaitList at mem
      rw [modTask_awaitList] at mem
      exact mem
    · rw [enqueueTail_of record]; exact record
  case isFalse => exact prioritized

theorem changeAffinity_calm (L : s.Linked) (e : s.task? h = some v) (aff : BitVec 4) :
    Calm s (s.changeAffinity h v aff) := by
  have changed : Calm s (s.modTask h fun t => { t with affinity := aff }) := .record _ h fun _ => rfl
  unfold changeAffinity
  dsimp only
  split
  case isTrue ready =>
    have record : (s.modTask h fun t => { t with affinity := aff }).task? h = some { v with affinity := aff } :=
      task?_modTask_self _ _ e
    refine changed.trans (offer_calm (fun q mem k r => ?_) record ready)
    rw [modTask_port]
    rw [modTask_awaitList] at mem
    exact L.awaitIdle q mem k r
  case isFalse => exact changed

theorem setPrio_calm (L : s.Linked) (p : Port) : Calm s (s.setPrio p) := by
  refine onNamed_calm p fun h v e => ?_
  split
  · split
    · exact .answer s p _ _
    · exact ((changePriority_calm L e _).trans (.answer _ p _ _)).trans (.quiet (.evalPreempt _))
  · exact .answer s p _ _

theorem setAffinity_calm (L : s.Linked) (p : Port) : Calm s (s.setAffinity p) := by
  refine onNamed_calm p fun h v e => ?_
  split
  · exact ((changeAffinity_calm L e _).trans (.answer _ p _ _)).trans (.quiet (.evalPreempt _))
  · exact .answer s p _ _

theorem setInbox_calm (p : Port) : Calm s (s.setInbox p) := by
  unfold setInbox
  dsimp only
  split
  · exact .answer s p _ _
  split
  · exact .answer s p _ _
  split
  · exact .answer s p _ _
  · have limited : Calm s (s.modInbox (s.handleArg p) fun ib => ib.setLimits (s.port p).inboxLimits) :=
      ⟨.modInbox s _ fun _ => rfl, .modInbox s _ fun _ => rfl⟩
    exact limited.trans (.answer _ p _ _)

theorem setSink_calm (p : Port) : Calm s (s.setSink p) := by
  unfold setSink
  dsimp only
  split
  · exact .trans (t := { s with sink := some _ }) (.same (by rfl)) (.answer _ p _ _)
  · exact .answer s p _ _

theorem beginService_calm (p : Port) : Calm s (s.beginService p) := by
  unfold beginService
  split
  · exact .answer s p _ _
  · exact .trans (t := s.enterService) (.same (by rfl)) (.answer _ p _ _)

theorem attach_calm (idle : (s.port p).state.post = .none) : Calm s (s.attach p) := by
  unfold attach
  refine .trans (.modPort s p (fun k now => ?_) fun k r now => ?_) (.answer _ p _ _)
  · rw [now] at idle
    cases idle
  · cases now

theorem detach_calm (idle : (s.port p).state.post = .none) : Calm s (s.detach p) := by
  unfold detach
  refine .trans (.modPort s p (fun k now => ?_) fun k r now => ?_) (.answer _ p _ _)
  · rw [now] at idle
    cases idle
  · cases now

theorem query_calm (p : Port) (a : Vector Word 4) (c : ResultCode) (v : BitVec 16) :
    Calm s ((s.setArgs p a).setResult p c v) :=
  (Calm.unit s p rfl).trans (.answer _ p _ _)

theorem queryTask_calm (p : Port) : Calm s (s.queryTask p) := by
  unfold queryTask
  split
  · exact query_calm p _ _ _
  · exact .answer s p _ _

theorem queryInbox_calm (p : Port) : Calm s (s.queryInbox p) := by
  unfold queryInbox
  split
  · exact query_calm p _ _ _
  · exact .answer s p _ _

theorem queryEvent_calm (p : Port) : Calm s (s.queryEvent p) := by
  unfold queryEvent
  split
  · exact query_calm p _ _ _
  · exact .answer s p _ _

/-- The commands that act on tasks begin and end no wait to send, but for HALT. -/
theorem commandEffect_calm (L : s.Linked) {c : Cmd} (kind : onTasks c = true) (stop : c ≠ .halt)
    (taken : s.gate c p = .taken) : Calm s (commandEffect c p s) := by
  have none (hc : c = .attach ∨ c = .detach ∨ c = .dispatch ∨ c = .seed) : (s.port p).state.post = .none :=
    takenIn_none hc (gate_taken taken)
  cases c
  case attach => exact attach_calm (none (.inl rfl))
  case detach => exact detach_calm (none (.inr (.inl rfl)))
  case dispatch => exact dispatch_calm L (none (.inr (.inr (.inl rfl))))
  case cancel => exact cancel_calm L p
  case yield => exact yield_calm L taken
  case exit => exact exit_calm L taken
  case sleep => exact sleep_calm L taken
  case queryTask => exact queryTask_calm p
  case queryInbox => exact queryInbox_calm p
  case queryEvent => exact queryEvent_calm p
  case queryPart => exact query_calm p _ _ _
  case seed => exact seed_calm (none (.inr (.inr (.inr rfl))))
  case activate => exact activate_calm L p
  case halt => exact absurd rfl stop
  case release => exact release_calm p
  case setPrio => exact setPrio_calm L p
  case setAffinity => exact setAffinity_calm L p
  case setInbox => exact setInbox_calm p
  case setSink => exact setSink_calm p
  case beginService => exact beginService_calm p
  all_goals cases kind

end State
end Sys2Proof.Machine
end

section
/-! ## `State.SendersAgree` through a step -/

namespace Sys2Proof.Machine
namespace State
variable {s t : State} {p q : Port} {h : Handle} {v w : Task}

theorem completeReceive_sends (h : Handle) (c : ResultCode) : Sends s (s.completeReceive h c) := by
  have cleared : Sends s (s.clearReceivePending h) := .modInbox s h fun _ => rfl
  unfold completeReceive
  split
  · dsimp only
    split
    · split
      · exact cleared.trans (.same (by rfl))
      all_goals exact cleared
    · exact cleared
  · exact .refl s

theorem createRefill_sends (made : s.createRefill h = some t) : Sends s t := by
  obtain ⟨-, -, -, rfl⟩ := createRefill_eq made
  exact .trans (.same (by rfl)) (.modInbox _ h fun _ => rfl)

theorem retryDeferred_sends : Sends s s.retryDeferred :=
  retryDeferred_keeps (P := Sends s) (fun S _ made => S.trans (createRefill_sends made)) (fun _ S => S.trans (.same (by rfl))) (.refl s)

theorem returnSlots_sends (xs : List PoolSlot) : Sends s (s.returnSlots xs) := by
  rw [returnSlots_eq]
  split
  · exact .refl s
  · exact .trans (.same (by rfl)) retryDeferred_sends

theorem emptyInbox_sends (h : Handle) : Sends s (s.emptyInbox h) := by
  unfold emptyInbox
  refine .trans ?_ (returnSlots_sends _)
  exact .trans (.same (by rfl)) (.modInbox _ h fun _ => rfl)

/-- A task that waits to receive waits, and not to send. -/
theorem waits_of_receives {st : TaskState} (receives : st.waitsToReceive = true) : Waits st ∧ st.waitsToSend = false := by
  unfold TaskState.waitsToReceive at receives
  split at receives
  · exact ⟨.inl rfl, rfl⟩
  · exact ⟨.inr (.inr (.inr ⟨_, _, rfl⟩)), rfl⟩
  · cases receives

theorem ownerWaits_receives : s.ownerWaits h = true ↔ ∃ v, s.task? h = some v ∧ v.state.waitsToReceive = true := by
  unfold ownerWaits
  cases s.task? h <;> simp

/-- A task that does not wait to send holds no pending send. -/
theorem SendersAgree.quiet_but (A : s.SendersAgree) (e : s.task? h = some v) (quiet : v.state.waitsToSend = false) :
    SendersBut (some h) s := by
  refine A.but _ fun k w is f => ?_
  cases is
  cases e.symm.trans f
  exact Option.isNone_iff_eq_none.1 (Option.isSome_eq_false_iff.1 ((A.waits h v e).trans quiet))

theorem mapLines_sends (f : LineRec → LineRec) : Sends s (s.mapLines f) := .same (by rw [mapLines_tasks, mapLines_inboxes])

theorem senders_flow : Flow SendersAgree where
  quiet Q A := A.sends (.quiet Q)
  line l f _ A := A.sends (.same (by rfl))
  lines f _ A := A.sends (mapLines_sends f)
  endWait k r A := endWait_senders A k r
  made A _ made := A.sends (createRefill_sends made)
  handOff {s h x xs} A waits free := by
    obtain ⟨v, e, receives⟩ := ownerWaits_receives.1 waits
    have advanced : Sends s (({ s with poolFree := xs } : State).modInbox h Inbox.advanceSeq) :=
      .trans (t := { s with poolFree := xs }) (.same (by rfl)) (.modInbox _ h fun _ => rfl)
    have bound := advanced.trans (.modTask _ h (f := fun t => { t with bound := some x }) fun _ _ => rfl)
    exact ((A.quiet_but e (waits_of_receives receives).2).sends (bound.trans (.same (by rfl)))).wake .ok
  resident A _ _ _ _ := A.sends (.trans (.same (by rfl)) (.modInbox _ _ fun _ => rfl))
  spill A _ _ _ := A.sends (.trans (.same (by rfl)) (.modInbox _ _ fun _ => rfl))
  pop A _ := A.sends (.trans (.same (by rfl)) (.modInbox _ _ fun _ => rfl))
  answered code A _ := A.sends (completeReceive_sends _ code)

/-! ### Losses and stops -/

theorem lost_state (p : Port) (cause : LossCause) : ((s.port p).lose cause).state = .offline ∨
    ((s.port p).lose cause).state = .lost := by cases cause <;> simp [PortUnit.lose, PortUnit.reset]

theorem lose_awaitIdle (L : s.Linked) (p : Port) (cause : LossCause) : AwaitIdle (s.modPort p fun u => u.lose cause) := by
  intro q mem k r
  rw [modPort_port]
  split
  · rcases s.lost_state p cause with lost | lost <;> rw [lost] <;> nofun
  · exact L.awaitIdle q mem k r

theorem loseTask_senders (L : s.Linked) (A : s.SendersAgree) (p : Port) (cause : LossCause) :
    ((s.modPort p fun u => u.lose cause).loseTask p (s.port p).state).SendersAgree := by
  have lost : (s.modPort p fun u => u.lose cause).SendersAgree := A.sends (.same (by rfl))
  unfold loseTask
  split
  iterate 3 exact lost
  case h_4 => exact lost.sends (.same (by rfl))
  case h_5 h n i loading =>
    obtain ⟨w, e, state⟩ := L.running (p := p) (h := h) (by rw [loading]; rfl)
    exact lost.sends (readyHead_calm (s := s.modPort p _) (lose_awaitIdle L p cause) e (by rw [state]; rfl)).toSends
  case h_6 h r run =>
    obtain ⟨w, e, state⟩ := L.running (p := p) (h := h) (by rw [run]; rfl)
    have B : SendersBut (some h) (s.modPort p fun u => u.lose cause) := lost.quiet_but e (by rw [state]; rfl)
    cases r with
    | false => exact B.setTaskState rfl
    | true =>
      exact (B.sends (t := (s.modPort p fun u => u.lose cause).clearReceivePending h) (.modInbox _ h fun _ => rfl)).setTaskState rfl
  case h_7 h ws _ => exact (undoWait_but lost h).setTaskState rfl
  case h_8 h ws _ => exact lost.sends (.modTask _ h fun _ _ => rfl)

theorem abandonReceive_sends (p : Port) : Sends s (s.abandonReceive p) := by
  unfold abandonReceive
  split
  · exact .modInbox s _ fun _ => rfl
  all_goals exact .refl s

theorem detachTask_but (A : s.SendersAgree) (e : s.task? h = some v) (c : ResultCode) :
    SendersBut (some h) (s.detachTask h v.state c) := by
  have evicted (q : Port) : SendersBut (some h) (s.evict q h c) := by
    unfold evict
    exact (undoWait_but (A.sends (abandonReceive_sends q)) h).sends (.same (by rfl))
  unfold detachTask
  split
  case h_1 state => exact A.quiet_but e (by rw [state]; rfl)
  case h_2 r state => exact A.quiet_but e (by rw [state]; rfl)
  case h_3 state => exact (A.quiet_but e (by rw [state]; rfl)).sends (dequeue_calm h).toSends
  iterate 2 exact evicted _
  all_goals exact undoWait_but A h

theorem onNamed_holds {P : State → Prop} (p : Port) {f : Handle → Task → State} (refused : P (s.setResult p .badHandle 0#16))
    (acts : ∀ h v, s.task? h = some v → P (f h v)) : P (s.onNamed p f) := by
  unfold onNamed
  split
  case h_1 v e => exact acts _ v e
  case h_2 => exact refused

theorem halt_senders (A : s.SendersAgree) (p : Port) : (s.halt p).SendersAgree := by
  have refused : (s.setResult p .badState 0#16).SendersAgree := A.sends (.same (by rfl))
  have halted (h : Handle) (v : Task) (e : s.task? h = some v) : (s.haltTask p h v).SendersAgree := by
    unfold haltTask
    refine (((detachTask_but A e .halted).setTaskState (st := .halted .supervisor) rfl).sends ?_).sends (.quiet (.evalPreempt _))
    unfold answerEvicter
    split
    · exact .refl _
    · exact .same (by rfl)
  refine onNamed_holds p (A.sends (.same (by rfl))) fun h v e => ?_
  split
  · exact refused
  all_goals exact halted h v e

/-! ### CREATE and DESTROY -/

/-- A record made in a FREE slot. -/
theorem makeTask_task? {slot : Slot} {rest : List Slot} (free : s.tasks[slot].task = none) (w : Task) (k : Handle) :
    (({ s with freeSlots := rest } : State).makeTask slot w).task? k =
      if k = ⟨slot, s.tasks[slot].gen⟩ then some w else s.task? k := by
  have get (i : Slot) : (({ s with freeSlots := rest } : State).makeTask slot w).tasks[i] =
      if i = slot then ⟨s.tasks[slot].gen, some w⟩ else s.tasks[i] := getElem_set_fin ..
  obtain ⟨i, g⟩ := k
  rw [task?_slot, task?_slot, get]
  by_cases same : i = slot
  · subst same
    rw [if_pos rfl, free, ite_self]
    by_cases gen : s.tasks[i].gen = g
    · subst gen
      rw [if_pos rfl, if_pos rfl]
    · rw [if_neg gen, if_neg fun both => gen (congrArg Handle.gen both).symm]
  · rw [if_neg same, if_neg fun both => same (congrArg Handle.slot both)]

theorem makeTask_inbox {slot : Slot} {rest : List Slot} (w : Task) (k : Handle) :
    (({ s with freeSlots := rest } : State).makeTask slot w).inbox k = if k.slot = slot then Inbox.default else s.inbox k :=
  getElem_set_fin ..

/-- Nobody's pending send is for the inbox of `h`. -/
def Unsought (h : Handle) (s : State) : Prop :=
  ∀ k v ps, s.task? k = some v → v.pendingSend = some ps → ps.target ≠ h

theorem Unsought.sends (U : Unsought h s) (S : Sends s t) : Unsought h t := by
  intro k w ps e pending
  obtain ⟨v, found, same⟩ := exists_of_map_eq (S.sending k) e
  exact U k v ps found ((congrArg Prod.fst same).trans pending)

theorem create_senders (L : s.Linked) (A : s.SendersAgree) (p : Port) : (s.create p).SendersAgree := by
  unfold create
  dsimp only
  split
  case h_2 => exact A.sends (.same (by rfl))
  unfold createTask
  split
  case h_2 => exact A.sends (.same (by rfl))
  case h_1 slot rest free =>
    have none : s.tasks[slot].task = none := (L.free slot).1 (by rw [free]; exact List.mem_cons_self)
    refine SendersAgree.sends (s := ({ s with freeSlots := rest } : State).makeTask slot _) ?_ (.same (by rfl))
    have task := makeTask_task? (rest := rest) none (Task.new ‹_› ‹_› ‹_›)
    have inbox := makeTask_inbox (s := s) (slot := slot) (rest := rest) (Task.new ‹_› ‹_› ‹_›)
    generalize ({ s with freeSlots := rest } : State).makeTask slot (Task.new _ _ _) = t at task inbox ⊢
    have dead (k : Handle) (at_ : k.slot = slot) : s.task? k = Option.none := by
      subst at_
      rw [task?_slot, none, ite_self]
    have live (k : Handle) (alive : t.live k = true) (other : k ≠ ⟨slot, s.tasks[slot].gen⟩) :
        s.live k = true ∧ t.inbox k = s.inbox k := by
      have before : s.live k = true := by unfold State.live at alive ⊢; rwa [task, if_neg other] at alive
      refine ⟨before, (inbox k).trans (if_neg fun at_ => ?_)⟩
      unfold State.live at before
      rw [dead k at_] at before
      cases before
    have old {k : Handle} {v : Task} {ps : PendingSend} (e : t.task? k = some v) (pending : v.pendingSend = some ps) :
        s.task? k = some v := by
      rw [task] at e
      split at e
      · cases e; cases pending
      · exact e
    have new {k : Handle} {v : Task} (e : s.task? k = some v) : t.task? k = some v := by
      rw [task, if_neg fun same => ?_, e]
      rw [dead k (congrArg Handle.slot same)] at e
      cases e
    have fresh (k : Handle) (same : k = ⟨slot, s.tasks[slot].gen⟩) : (t.inbox k).senders = [] := by
      rw [inbox, if_pos (congrArg Handle.slot same)]; rfl
    refine ⟨fun k v e => ?_, fun k v ps e pending => ?_, fun k r alive => ?_, fun k alive => ?_⟩
    · rw [task] at e
      split at e
      · cases e; rfl
      · exact A.waits k v e
    · obtain ⟨target, other⟩ := A.target k v ps (old e pending) pending
      obtain ⟨u, found⟩ := Option.isSome_iff_exists.1 target
      exact ⟨by unfold State.live; rw [new found]; rfl, other⟩
    · by_cases same : k = ⟨slot, s.tasks[slot].gen⟩
      · rw [fresh k same]
        refine iff_of_false (List.not_mem_nil) ?_
        rintro ⟨v, ps, e, pending, rfl⟩
        obtain ⟨target, -⟩ := A.target r v ps (old e pending) pending
        unfold State.live at target
        rw [dead _ (congrArg Handle.slot same)] at target
        cases target
      · obtain ⟨before, kept⟩ := live k alive same
        rw [kept, A.listed k r before]
        exact ⟨fun ⟨v, ps, e, pending, target⟩ => ⟨v, ps, new e, pending, target⟩,
          fun ⟨v, ps, e, pending, target⟩ => ⟨v, ps, old e pending, pending, target⟩⟩
    · by_cases same : k = ⟨slot, s.tasks[slot].gen⟩
      · rw [fresh k same]; exact List.nodup_nil
      · obtain ⟨before, kept⟩ := live k alive same
        rw [kept]; exact A.nodup k before

/-- The end of a wait leaves the pending sends of the others. -/
theorem endWait_pending {k : Handle} {r : Resume} {ps : PendingSend} (e : (s.endWait k r).task? h = some w)
    (pending : w.pendingSend = some ps) : h ≠ k ∧ ∃ v, s.task? h = some v ∧ v.pendingSend = some ps := by
  have undone {v : Task} (found : (s.undoWait k).task? h = some v) (some : v.pendingSend = some ps) :
      h ≠ k ∧ ∃ v, s.task? h = Option.some v ∧ v.pendingSend = Option.some ps := by
    rw [undoWait_task?] at found
    split at found
    case isTrue same =>
      obtain ⟨u, -, rfl⟩ := Option.map_eq_some_iff.1 found
      cases some
    case isFalse other => exact ⟨other, v, found, some⟩
  have woken : (s.endWait k r).task? h = ((s.undoWait k).wake k r).task? h := rfl
  rw [woken] at e
  cases record : (s.undoWait k).task? k with
  | none =>
    have same : (s.undoWait k).wake k r = s.undoWait k := by unfold wake; rw [record]
    exact undone (same ▸ e) pending
  | some v =>
    obtain ⟨x, -, kept, -, -, T⟩ := wake_turns record r
    rw [T.task] at e
    split at e
    case isTrue same =>
      subst same
      cases e
      exact undone record (kept.symm.trans pending)
    case isFalse => exact undone e pending

/-- The release of every sender leaves no pending send for the inbox (R23, R103). -/
theorem releaseAllGone_unsought (A : s.SendersAgree) (live : s.live h = true) : Unsought h (s.releaseAllGone h) := by
  have entries (hs : List Handle) : ∀ {s : State},
      (∀ k v ps, s.task? k = some v → v.pendingSend = some ps → ps.target = h → k ∈ hs) →
        Unsought h (hs.foldl (fun s sender => s.endWait sender .gone) s) := by
    induction hs with
    | nil => exact fun out k v ps e pending target => List.not_mem_nil (out k v ps e pending target)
    | cons x rest ih =>
      intro s listed
      refine ih fun k v ps e pending target => ?_
      obtain ⟨other, u, found, before⟩ := endWait_pending e pending
      exact (List.mem_cons.1 (listed k u ps found before target)).resolve_left other
  exact entries _ fun k v ps e pending target => (A.listed h k live).2 ⟨v, ps, e, pending, target⟩

theorem removeTask_senders (A : s.SendersAgree) (e : s.task? h = some v) : (s.removeTask h v).SendersAgree := by
  have detached := detachTask_but A e .gone
  have aborted : SendersBut (some h) ((s.detachTask h v.state .gone).abortSeed h v.seedPort) := by
    refine detached.sends ?_
    unfold abortSeed
    split
    · exact .trans (.same (by rfl)) (.modTask _ h fun _ _ => rfl)
    · exact .refl _
  have undone : Sends ((s.detachTask h v.state .gone).abortSeed h v.seedPort)
      (((s.detachTask h v.state .gone).abortSeed h v.seedPort).undoWait h) := by
    unfold undoWait dropPendingSend
    split
    case h_1 u found =>
      rw [aborted.out h u rfl found]
      exact .same (by rfl)
    case h_2 => exact .same (by rfl)
  unfold removeTask
  refine SendersAgree.sends ?_ (returnSlots_sends _)
  exact (aborted.sends undone).restated (st := .dormant) (fun _ => ⟨rfl, rfl⟩) rfl

theorem unsetSink_sends (h : Handle) : Sends s (s.unsetSink h) := .same (by rfl)

theorem disposeInbox_senders (A : s.SendersAgree) (live : s.live h = true) :
    (s.disposeInbox h).SendersAgree ∧ Unsought h (s.disposeInbox h) := by
  have emptied := A.sends (emptyInbox_sends h)
  have alive : (s.emptyInbox h).live h = true := (emptyInbox_sends h).live h |>.trans live
  have released : ((s.emptyInbox h).releaseAllGone h).SendersAgree :=
    releaseAllGone_keeps h (fun k A => endWait_senders A k .gone) emptied
  have cleared := (mapLines_sends (s := (s.emptyInbox h).releaseAllGone h) (LineRec.clearDestroyed h)).trans (unsetSink_sends h)
  exact ⟨released.sends cleared, (releaseAllGone_unsought emptied alive).sends cleared⟩

theorem freeSlot_task? (live : s.live h = true) (k : Handle) :
    (s.freeSlot h).task? k = if k = h then none else s.task? k := by
  have get (i : Slot) : (s.freeSlot h).tasks[i] = if i = h.slot then ⟨nextGeneration h.gen, none⟩ else s.tasks[i] :=
    getElem_set_fin ..
  rw [task?_slot, get]
  by_cases same : k.slot = h.slot
  · rw [if_pos same, ite_self]
    split
    case isTrue => rfl
    case isFalse other =>
      cases e : s.task? k with
      | none => rfl
      | some v => exact absurd (live_inj (by unfold State.live; rw [e]; rfl) live same) other
  · rw [if_neg same, if_neg fun both => same (congrArg Handle.slot both)]
    rfl

theorem freeSlot_senders (A : s.SendersAgree) (U : Unsought h s) (e : s.task? h = some v)
    (quiet : v.state.waitsToSend = false) : (s.freeSlot h).SendersAgree := by
  have live : s.live h = true := by unfold State.live; rw [e]; rfl
  have task := freeSlot_task? live
  have old {k : Handle} {w : Task} (f : (s.freeSlot h).task? k = some w) : k ≠ h ∧ s.task? k = some w := by
    rw [task] at f
    split at f
    case isTrue => cases f
    case isFalse other => exact ⟨other, f⟩
  have before {k : Handle} (alive : (s.freeSlot h).live k = true) : s.live k = true := by
    obtain ⟨w, f⟩ := Option.isSome_iff_exists.1 alive
    unfold State.live
    rw [(old f).2]; rfl
  have none : v.pendingSend = none := (A.quiet_but e quiet).out h v rfl e
  have new {k : Handle} {w : Task} {ps : PendingSend} (f : s.task? k = some w) (pending : w.pendingSend = some ps) :
      (s.freeSlot h).task? k = some w := by
    rw [task, if_neg fun same => ?_, f]
    subst same
    cases e.symm.trans f
    exact nomatch none.symm.trans pending
  refine ⟨fun k w f => A.waits k w (old f).2, fun k w ps f pending => ?_, fun k r alive => ?_, fun k alive => ?_⟩
  · obtain ⟨target, other⟩ := A.target k w ps (old f).2 pending
    refine ⟨?_, other⟩
    unfold State.live
    rw [task, if_neg (U k w ps (old f).2 pending)]
    exact target
  · refine (A.listed k r (before alive)).trans ⟨?_, ?_⟩
    · exact fun ⟨w, ps, f, pending, target⟩ => ⟨w, ps, new f pending, pending, target⟩
    · exact fun ⟨w, ps, f, pending, target⟩ => ⟨w, ps, (old f).2, pending, target⟩
  · exact A.nodup k (before alive)

theorem destroyed_senders (L : s.Linked) (A : s.SendersAgree) (e : s.task? h = some v) :
    (((s.removeTask h v).disposeInbox h).freeSlot h).SendersAgree := by
  obtain ⟨removed, idle⟩ := removeTask_linked L e
  obtain ⟨-, w, found, stopped, -⟩ := disposeInbox_linked removed idle
  have live : (s.removeTask h v).live h = true := by
    obtain ⟨u, here, -⟩ := idle
    unfold State.live
    rw [here]; rfl
  obtain ⟨agree, unsought⟩ := disposeInbox_senders (removeTask_senders A e) live
  refine freeSlot_senders agree unsought found ?_
  cases state : w.state <;> rw [state] at stopped <;> first | rfl | cases stopped

/-! ### SEND with WAIT -/

/-- A sender joins the list of its target. -/
theorem SendersAgree.join (A : s.SendersAgree) (e : s.task? h = some v) (quiet : v.state.waitsToSend = false)
    {ps : PendingSend} (live : s.live ps.target = true) (other : ps.target ≠ h)
    (task : ∀ k, t.task? k = if k = h then some w else s.task? k) (pending : w.pendingSend = some ps)
    (waits : w.state.waitsToSend = true)
    (senders : ∀ k, (t.inbox k).senders = if k.slot = ps.target.slot then (s.inbox k).senders ++ [h] else (s.inbox k).senders) :
    t.SendersAgree := by
  have none : v.pendingSend = none := (A.quiet_but e quiet).out h v rfl e
  have alive (k : Handle) : t.live k = s.live k := by
    unfold State.live
    rw [task]
    split
    case isTrue same => subst same; rw [e]; rfl
    case isFalse => rfl
  have list (k : Handle) (here : s.live k = true) :
      (t.inbox k).senders = if k = ps.target then (s.inbox k).senders ++ [h] else (s.inbox k).senders := by
    rw [senders]
    by_cases same : k = ps.target
    · rw [if_pos same, if_pos (congrArg Handle.slot same)]
    · rw [if_neg same, if_neg fun slot => same (live_inj here live slot)]
  have absent (k : Handle) (here : s.live k = true) : h ∉ (s.inbox k).senders := by
    intro mem
    obtain ⟨u, qs, found, some, -⟩ := (A.listed k h here).1 mem
    cases e.symm.trans found
    exact nomatch none.symm.trans some
  refine ⟨fun k x f => ?_, fun k x qs f some => ?_, fun k r here => ?_, fun k here => ?_⟩
  · rw [task] at f
    split at f
    · cases f; rw [pending, waits]; rfl
    · exact A.waits k x f
  · rw [alive]
    rw [task] at f
    split at f
    case isTrue same =>
      subst same
      cases f
      cases pending.symm.trans some
      exact ⟨live, other⟩
    case isFalse => exact A.target k x qs f some
  · have here := (alive k).symm.trans here
    have before := A.listed k r here
    have member : r ∈ (t.inbox k).senders ↔ r ∈ (s.inbox k).senders ∨ k = ps.target ∧ r = h := by
      rw [list k here]
      split
      case isTrue same => simp [same]
      case isFalse differ => simp [differ]
    rw [member]
    by_cases same : r = h
    · subst same
      rw [task, if_pos rfl]
      constructor
      · rintro (mem | ⟨rfl, -⟩)
        · exact absurd mem (absent k here)
        · exact ⟨w, ps, rfl, pending, rfl⟩
      · rintro ⟨x, qs, f, some, target⟩
        cases f
        cases pending.symm.trans some
        exact .inr ⟨target.symm, rfl⟩
    · rw [task, if_neg same, before]
      exact or_iff_left fun both => same both.2
  · have here := (alive k).symm.trans here
    rw [list k here]
    split
    · exact List.nodup_append.2 ⟨A.nodup k here, List.nodup_singleton h, fun x mem y only => by
        rw [List.mem_singleton.1 only]
        rintro rfl
        exact absent k here mem⟩
    · exact A.nodup k here

theorem armTimeout_tasks (h : Handle) (n : BitVec 16) (k : DeadlineKind) : (s.armTimeout h n k).tasks = s.tasks := by
  unfold armTimeout; split <;> rfl

theorem armTimeout_inboxes (h : Handle) (n : BitVec 16) (k : DeadlineKind) : (s.armTimeout h n k).inboxes = s.inboxes := by
  unfold armTimeout; split <;> rfl

theorem beginSendWait_senders (L : s.Linked) (A : s.SendersAgree) (run : (s.port p).state = .run h false)
    {ps : PendingSend} (live : s.live ps.target = true) (other : ps.target ≠ h) (n : BitVec 16) :
    (s.beginSendWait p h ps n).SendersAgree := by
  obtain ⟨v, e, state⟩ := L.running (p := p) (h := h) (by rw [run]; rfl)
  unfold beginSendWait beginCheckIn
  refine SendersAgree.sends ?_ (.quiet (.evalPreempt _))
  rw [setPortState_eq, setResult_eq]
  refine SendersAgree.sends (SendersAgree.sends ?_ (.modPort _ p _)) (.modPort _ p _)
  refine A.join e (by rw [state]; rfl) live other (w := { v with pendingSend := some ps, state := .saving p .sendWait false })
    (fun k => ?_) rfl rfl fun k => ?_
  · rw [setTaskState_eq, task?_modTask, task?_congr (armTimeout_tasks ..), task?_congr (armTimeout_tasks ..), task?_modTask,
      task?_modTask, modInbox_task?, modInbox_task?]
    by_cases same : k = h
    · subst same
      rw [if_pos rfl, if_pos rfl, if_pos rfl, e]; rfl
    · rw [if_neg same, if_neg same, if_neg same]
  · have get : ((s.modInbox ps.target fun ib => { ib with senders := ib.senders ++ [h] }).inbox k) =
        if k.slot = ps.target.slot then { s.inbox ps.target with senders := (s.inbox ps.target).senders ++ [h] } else
          s.inbox k := getElem_set_fin ..
    have kept : ((((s.modInbox ps.target fun ib => { ib with senders := ib.senders ++ [h] }).modTask h
        fun t => { t with pendingSend := some ps }).armTimeout h n .send).setTaskState h (.saving p .sendWait false)).inbox k
        = (s.modInbox ps.target fun ib => { ib with senders := ib.senders ++ [h] }).inbox k :=
      inbox_congr (by rw [setTaskState_eq, modTask_inboxes, armTimeout_inboxes, modTask_inboxes]) k
    rw [kept, get]
    split
    case isTrue same =>
      have here : s.inbox ps.target = s.inbox k := congrArg (fun i : Slot => s.inboxes[i]) same.symm
      rw [here]
    case isFalse => rfl

/-! ### Steps -/

theorem undefer_sends (h : Handle) : Sends s (s.undefer h) := .same (by rfl)

theorem breakRing_sends (j : Job) (rest : List Job) : Sends s (State.breakRing { s with burst := none } j rest) := by
  unfold breakRing
  dsimp only
  have ended : Sends s (({ s with burst := none, jobs := rest.filter fun k => k.inbox ≠ j.inbox } : State).freeSlotList
      (j.slots ++ (rest.filter fun k => k.inbox = j.inbox).flatMap Job.slots)) := .same (by rfl)
  exact (ended.trans (.modInbox _ j.inbox (f := fun ib => ib.break ib.occupancy) fun _ => rfl)).trans (undefer_sends _)

/-- A RECEIVE that waits begins a check-in. -/
theorem receiveWait_calm (L : s.Linked) (run : (s.port p).state = .run h false) (n : BitVec 16) :
    Calm s ((s.armTimeout h n .recv).beginCheckIn p h .recvWait .empty) := by
  obtain ⟨v, e, state⟩ := L.running (p := p) (h := h) (by rw [run]; rfl)
  obtain ⟨-, ports, tasks⟩ := armTimeout_linked L h n .recv
  exact (armTimeout_calm h n .recv).trans (beginCheckIn_calm ((congrArg PortUnit.state (port_congr ports p)).trans run)
    ((task?_congr tasks h).trans e) state rfl _)

theorem senders_engine : Engine (fun s => s.Linked ∧ s.SendersAgree) fun _ s => s.Linked ∧ s.SendersAgree where
  toFlow := linked_flow.and senders_flow
  loose _ := linked_flow.and senders_flow
  timer f w k := ⟨linked_engine.timer f w k.1, k.2.sends (.same (by rfl))⟩
  started k := ⟨linked_engine.started k.1, by rw [startAttempt_eq]; exact k.2.sends (.same (by rfl))⟩
  unowned k head out := ⟨linked_engine.unowned k.1 head out, k.2.sends (.same (by rfl))⟩
  spilled k burst write head own :=
    ⟨linked_engine.spilled k.1 burst write head own, k.2.sends (.trans (.same (by rfl)) (.modInbox _ _ fun _ => rfl))⟩
  refilled k burst read head slots own :=
    ⟨linked_engine.refilled k.1 burst read head slots own, k.2.sends (.trans (.same (by rfl)) (.modInbox _ _ fun _ => rfl))⟩
  more k _ := k
  last k done := ⟨linked_engine.last k.1 done, k.2.sends (.same (by rfl))⟩
  retried k head := ⟨linked_engine.retried k.1 head, k.2.sends (.same (by rfl))⟩
  broken k head own := ⟨linked_engine.broken k.1 head own, k.2.sends (breakRing_sends _ _)⟩
  ended k := ⟨linked_engine.ended k.1, k.2.sends (.same (by rfl))⟩
  lost p cause k := ⟨loseTask_linked k.1 p cause, loseTask_senders k.1 k.2 p cause⟩

theorem senders_commands : Commands (fun s => s.Linked ∧ s.SendersAgree) fun _ s => s.Linked ∧ s.SendersAgree where
  toEngine := senders_engine
  task {s c p} kind k taken := by
    refine ⟨linked_commands.task kind k.1 taken, ?_⟩
    by_cases stop : c = .halt
    · subst stop; exact halt_senders k.2 p
    · exact k.2.sends (commandEffect_calm k.1 kind stop taken).toSends
  sendWait n k run e live other :=
    ⟨linked_commands.sendWait n k.1 run e live other, beginSendWait_senders k.1 k.2 run live other n⟩
  receiveWait n k run e :=
    ⟨linked_commands.receiveWait n k.1 run e, k.2.sends (receiveWait_calm k.1 run n).toSends⟩
  receivePending {s p h t} k run e := by
    have marked : Sends s (s.modInbox h fun ib => { ib with recvPending := true }) := .modInbox _ _ fun _ => rfl
    exact ⟨linked_commands.receivePending k.1 run e, k.2.sends (marked.trans (.modPort _ p _))⟩
  emptied {s h} k live := by
    refine ⟨linked_commands.emptied k.1 live, k.2.sends ?_⟩
    exact .trans (t := { s with jobs := markCurrent h s.jobs }) (.same (by rfl)) ((emptyInbox_sends h).trans (.modInbox _ _ fun _ => rfl))
  destroyed k e := ⟨linked_commands.destroyed k.1 e, destroyed_senders k.1 k.2 e⟩
  checkedOut {s p h t n i} k loading e := by
    refine ⟨linked_commands.checkedOut k.1 loading e, k.2.sends ?_⟩
    have record := Sends.modTask (s.setPortState p (.run h false)) h (f := fun t => { t with resume := .ok, bound := none })
      fun _ _ => rfl
    have freed (u : State) : Sends u (u.freeSlotList t.bound.toList) := .same (by rfl)
    exact ((Sends.modPort s p _).trans record).trans (freed _)
  loaded k loading := ⟨linked_commands.loaded k.1 loading, k.2.sends (.same (by rfl))⟩
  written p w k := ⟨linked_commands.written p w k.1, k.2.sends (writeFrame_calm k.1.awaitIdle p w).toSends⟩
  reset := ⟨linked_commands.reset, reset_sendersAgree⟩
  leveled levels k := ⟨linked_commands.leveled levels k.1, k.2.sends (.same (by rfl))⟩

theorem sendersAgree_step (L : s.Linked) (A : s.SendersAgree) (run : step s = .next t) : t.SendersAgree :=
  ((senders_commands.keeps fun p k => ⟨create_linked k.1 p, create_senders k.1 k.2 p⟩).step
    (fun _ k => ⟨k.1.same, k.2.sends (.same (by rfl))⟩) ⟨L, A⟩ run).2

end State
end Sys2Proof.Machine
end

section
/-! ## `Unbound` through a step -/

namespace Sys2Proof.Machine

theorem Binds.inUnit (s : State) (p : Port) {st : PortState} (f : PortUnit → PortUnit) (state : (f (s.port p)).state = st)
    (before : ∀ h, (s.port p).state ≠ .run h true) (after : ∀ h r, st ≠ .run h r) : Binds s (s.modPort p f) :=
  .modPort s p before fun h r now => absurd (state.symm.trans now) (after h r)

namespace State
variable {s t : State} {p q : Port} {h : Handle} {v w : Task}

/-- One task takes another record, with no message bound if it must be free. -/
theorem unbound_turns (U : Unbound s) (e : s.task? h = some v) (T : Turns s t h w) (runs : SameRuns s t)
    (free : MustBeFree t h → w.bound = none) : Unbound t where
  unbound k x f sure := by
    rw [T.task] at f
    split at f
    case isTrue same => subst same; cases f; exact free sure
    case isFalse other =>
      refine U.unbound k x f ?_
      rcases sure with ⟨y, found, waits⟩ | ⟨q, r, run⟩
      · exact .inl ⟨y, by rwa [T.task, if_neg other] at found, waits⟩
      · exact .inr ⟨q, r, (runs q k r).1 run⟩
  receiving k live := by
    have before : s.live k = true := by
      unfold State.live at live ⊢
      rw [T.task] at live
      split at live
      case isTrue same => subst same; rw [e]; rfl
      case isFalse => exact live
    have same : t.inbox k = s.inbox k := by unfold State.inbox; rw [T.inboxes]
    rw [same, U.receiving k before]
    exact exists_congr fun q => (runs q k true).symm

theorem undoWait_stays (h k : Handle) : ((s.undoWait h).task? k).map (fun v => (v.bound, v.state)) =
    (s.task? k).map fun v => (v.bound, v.state) := by
  rw [undoWait_task?]
  split
  case isTrue same => subst same; rw [Option.map_map]; rfl
  case isFalse => rfl

theorem undoWait_binds (h : Handle) : Binds s (s.undoWait h) :=
  .of_tasks (undoWait_stays h) (fun k => by rw [(undoWait_wakes h).inbox k]) fun q k r => by rw [undoWait_port]

theorem wake_binds (A : AwaitIdle s) (h : Handle) (r : Resume) : Binds s (s.wake h r) := by
  cases e : s.task? h with
  | none =>
    have same : s.wake h r = s := by unfold wake; rw [e]
    rw [same]
    exact .refl s
  | some v =>
    obtain ⟨w, bound, -, -, waits, T⟩ := wake_turns e r
    exact .turns e T bound (fun now => .inl ⟨v, e, waits now⟩) (T.runs A)

theorem undoWait_awaitIdle (A : AwaitIdle s) (h : Handle) : AwaitIdle (s.undoWait h) := by
  intro q mem k r
  rw [undoWait_port]
  exact A q (undoWait_awaitList (s := s) ▸ mem) k r

theorem endWait_binds (A : AwaitIdle s) (h : Handle) (r : Resume) : Binds s (s.endWait h r) :=
  (undoWait_binds h).trans (wake_binds (undoWait_awaitIdle A h) h r)

/-- A task that waits to receive does not wait once it is woken. -/
theorem wake_receiver_turns (e : s.task? h = some v) (receives : v.state.waitsToReceive = true) (res : Resume) :
    ∃ w, w.bound = v.bound ∧ ¬ Waits w.state ∧ Turns s (s.wake h res) h w := by
  rcases (ownerWaits_iff e).1 (ownerWaits_receives.2 ⟨v, e, receives⟩) with state | ⟨q, state⟩
  · have resumed := modTask_turns e fun u => { u with resume := res }
    obtain ⟨st, kind, turned⟩ := readyTail_turns ((resumed.task h).trans (if_pos rfl))
    refine ⟨{ v with resume := res, state := st }, rfl, (not_waits_of_active kind).2, ?_⟩
    rw [wake_of_waiting e (.inl state) res, ← modTask_withTask e fun u => { u with resume := res }]
    exact resumed.then turned (modTask_awaitList ..)
  · refine ⟨{ v with state := .saving q .recvWait true, resume := res }, rfl, ?_, ?_⟩
    · rintro (st | st | st | ⟨p, d, st⟩) <;> cases st
    · rw [wake_of_saving e state rfl, ← modTask_withTask e fun u => { u with state := .saving q .recvWait true, resume := res }]
      exact modTask_turns e _

theorem createRefill_binds (made : s.createRefill h = some t) : Binds s t := by
  obtain ⟨-, -, -, rfl⟩ := createRefill_eq made
  exact .trans (.same (by rfl)) (.modInbox _ h fun _ => rfl)

theorem retryDeferred_binds : Binds s s.retryDeferred :=
  retryDeferred_keeps (P := Binds s) (fun B _ made => B.trans (createRefill_binds made)) (fun _ B => B.trans (.same (by rfl))) (.refl s)

theorem returnSlots_binds (xs : List PoolSlot) : Binds s (s.returnSlots xs) := by
  rw [returnSlots_eq]
  split
  · exact .refl s
  · exact .trans (.same (by rfl)) retryDeferred_binds

theorem emptyInbox_binds (h : Handle) : Binds s (s.emptyInbox h) := by
  unfold emptyInbox
  refine .trans ?_ (returnSlots_binds _)
  exact .trans (.same (by rfl)) (.modInbox _ h fun _ => rfl)

/-- A pending RECEIVE is answered at the port that runs the owner (R99, R103). -/
theorem completeReceive_binds (L : s.Linked) (U : Unbound s) (live : s.live h = true) (c : ResultCode) :
    Binds s (s.completeReceive h c) := by
  cases mark : (s.inbox h).recvPending with
  | false => rw [completeReceive_idle mark]; exact .refl s
  | true =>
    obtain ⟨p, run⟩ := (U.receiving h live).1 mark
    obtain ⟨v, e, state⟩ := L.running (p := p) (h := h) (by rw [run]; rfl)
    have record : (s.clearReceivePending h).task? h = some v := e
    unfold completeReceive
    rw [if_pos mark]
    dsimp only
    rw [record]
    dsimp only
    rw [state]
    exact L.leaveRun run (fun u => { u with state := .run h false, result := resultWord c 0#16, done := true })
      fun k r now => ⟨(PortState.run.inj now).1.symm, (PortState.run.inj now).2.symm⟩

theorem handOff_unbound (L : s.Linked) (U : Unbound s) (waits : s.ownerWaits h = true) (x : PoolSlot) (xs : List PoolSlot) :
    Unbound ((((({ s with poolFree := xs } : State).modInbox h Inbox.advanceSeq).modTask h
      fun t => { t with bound := some x }).removeDeadline h).wake h .ok) := by
  obtain ⟨v, e, receives⟩ := ownerWaits_receives.1 waits
  have advanced : Binds s (({ s with poolFree := xs } : State).modInbox h Inbox.advanceSeq) :=
    .trans (t := { s with poolFree := xs }) (.same (by rfl)) (.modInbox _ h fun _ => rfl)
  have given := modTask_turns (s := ({ s with poolFree := xs } : State).modInbox h Inbox.advanceSeq) e
    fun t => { t with bound := some x }
  have timed : Turns (({ s with poolFree := xs } : State).modInbox h Inbox.advanceSeq) (((({ s with poolFree := xs } :
      State).modInbox h Inbox.advanceSeq).modTask h fun t => { t with bound := some x }).removeDeadline h) h
      { v with bound := some x } := ⟨given.task, given.inboxes, given.state⟩
  obtain ⟨w, -, quiet, woken⟩ := wake_receiver_turns ((timed.task h).trans (if_pos rfl)) receives .ok
  have T := timed.then woken (modTask_awaitList ..)
  have runs := T.runs L.awaitIdle
  refine unbound_turns (U.binds advanced) e T runs ?_
  rintro (⟨y, found, now⟩ | ⟨q, r, run⟩)
  · rw [T.task, if_pos rfl] at found
    cases found
    exact absurd now quiet
  · obtain ⟨y, found, state⟩ := L.running (p := q) (h := h) (by rw [show (s.port q).state = .run h r from (runs q h r).1 run]; rfl)
    cases e.symm.trans found
    rw [state] at receives
    cases receives

theorem mapLines_binds (f : LineRec → LineRec) : Binds s (s.mapLines f) :=
  .same (by rw [mapLines_tasks, mapLines_inboxes, mapLines_ports])

theorem unbound_flow : Flow fun s => s.Linked ∧ Unbound s where
  quiet Q k := ⟨linked_flow.quiet Q k.1, k.2.binds (.quiet Q)⟩
  line l f ok k := ⟨linked_flow.line l f ok k.1, k.2.binds (.same (by rfl))⟩
  lines f ok k := ⟨linked_flow.lines f ok k.1, k.2.binds (mapLines_binds _)⟩
  endWait h r k := ⟨linked_flow.endWait h r k.1, k.2.binds (endWait_binds k.1.awaitIdle h r)⟩
  made k need made := ⟨linked_flow.made k.1 need made, k.2.binds (createRefill_binds made)⟩
  handOff k waits free := ⟨linked_flow.handOff k.1 waits free, handOff_unbound k.1 k.2 waits _ _⟩
  resident k live none room free :=
    ⟨linked_flow.resident k.1 live none room free, k.2.binds (.trans (.same (by rfl)) (.modInbox _ _ fun _ => rfl))⟩
  spill k live room free := ⟨linked_flow.spill k.1 live room free, k.2.binds (.trans (.same (by rfl)) (.modInbox _ _ fun _ => rfl))⟩
  pop k head := ⟨linked_flow.pop k.1 head, k.2.binds (.trans (.same (by rfl)) (.modInbox _ _ fun _ => rfl))⟩
  answered c k live := ⟨linked_flow.answered c k.1 live, k.2.binds (completeReceive_binds k.1 k.2 live c)⟩

/-! ### Losses and stops -/

theorem halted_waits (r : HaltReason) : ¬ Waits (.halted r) := by
  rintro (st | st | st | ⟨p, d, st⟩) <;> cases st

theorem setHalted_binds (h : Handle) (r : HaltReason) : Binds s (s.setTaskState h (.halted r)) :=
  .modTask s h (fun _ _ => rfl) fun _ _ waits => absurd waits (halted_waits r)

theorem lose_not_run (p : Port) (cause : LossCause) (h : Handle) (r : Bool) : ((s.port p).lose cause).state ≠ .run h r := by
  rcases s.lost_state p cause with lost | lost <;> rw [lost] <;> nofun

theorem loseTask_binds (L : s.Linked) (p : Port) (cause : LossCause) :
    Binds s ((s.modPort p fun u => u.lose cause).loseTask p (s.port p).state) := by
  have lost (out : ∀ h, (s.port p).state ≠ .run h true) : Binds s (s.modPort p fun u => u.lose cause) :=
    .modPort s p out fun h r now => absurd now (lose_not_run p cause h r)
  unfold loseTask
  split
  case h_1 state => exact lost fun h now => nomatch state.symm.trans now
  case h_2 state => exact lost fun h now => nomatch state.symm.trans now
  case h_3 state => exact lost fun h now => nomatch state.symm.trans now
  case h_4 state => exact (lost fun h now => nomatch state.symm.trans now).trans (.same (by rfl))
  case h_5 h n i state =>
    obtain ⟨w, e, running⟩ := L.running (p := p) (h := h) (by rw [state]; rfl)
    exact (lost fun h now => nomatch state.symm.trans now).trans
      (readyHead_calm (s := s.modPort p _) (lose_awaitIdle L p cause) e (by rw [running]; rfl)).toBinds
  case h_6 h r state =>
    refine .trans ?_ (setHalted_binds h _)
    have left := L.leaveRun state (fun u => u.lose cause) fun k r' now => absurd now (lose_not_run p cause k r')
    cases r <;> exact left
  case h_7 h ws state =>
    exact ((lost fun h now => nomatch state.symm.trans now).trans (undoWait_binds h)).trans (setHalted_binds h _)
  case h_8 h ws state =>
    exact (lost fun h now => nomatch state.symm.trans now).trans (.modTask _ h (fun _ _ => rfl) fun v e waits => .inl ⟨v, e, waits⟩)

theorem evict_binds (L : s.Linked) (q : Port) (h : Handle) (c : ResultCode) : Binds s (s.evict q h c) := by
  by_cases receiving : ∃ k, (s.port q).state = .run k true
  · obtain ⟨k, run⟩ := receiving
    have evicted : s.evict q h c = ((s.clearReceivePending k).undoWait h).evictPort q c := by
      unfold evict abandonReceive
      rw [run]
    rw [evicted]
    have ports (r : Port) : (((s.clearReceivePending k).undoWait h).port r).state = (s.port r).state := by
      rw [undoWait_port]; rfl
    refine L.stopReceive run (fun i => ?_) (fun i => ?_) (fun r other => ?_) fun i r now => ?_
    · exact undoWait_stays (s := s.clearReceivePending k) h i
    · have get : (s.clearReceivePending k).inboxes[i] = if i = k.slot then { s.inbox k with recvPending := false } else
        s.inboxes[i] := getElem_set_fin ..
      change (((s.clearReceivePending k).undoWait h).inboxes[i]).recvPending = _
      rw [(undoWait_wakes h).inbox i, get]
      split
      case isTrue same => simp [same]
      case isFalse other => simp [other]
    · rw [evictPort_eq, modPort_port, if_neg other]
      exact ports r
    · rw [evictPort_eq, modPort_port, if_pos rfl] at now
      cases now
  · have kept : s.abandonReceive q = s := by
      unfold abandonReceive
      split
      case h_1 k run => exact absurd ⟨k, run⟩ receiving
      case h_2 => rfl
    unfold evict
    rw [kept, evictPort_eq]
    exact (undoWait_binds h).trans (.inUnit _ q _ rfl (fun k now => receiving ⟨k, by rwa [undoWait_port] at now⟩) nofun)

theorem detachTask_binds (L : s.Linked) (h : Handle) (st : TaskState) (c : ResultCode) : Binds s (s.detachTask h st c) := by
  unfold detachTask
  split
  iterate 2 exact .refl s
  · exact (dequeue_calm h).toBinds
  iterate 2 exact evict_binds L _ h c
  all_goals exact undoWait_binds h

theorem halt_binds (L : s.Linked) (p : Port) : Binds s (s.halt p) := by
  refine onNamed_holds (P := Binds s) p (.modPort_state s p rfl) fun h v e => ?_
  have halted : Binds s (s.haltTask p h v) := by
    unfold haltTask
    refine (((detachTask_binds L h v.state .halted).trans (setHalted_binds h .supervisor)).trans ?_).trans (.quiet (.evalPreempt _))
    unfold answerEvicter
    split
    · exact .refl _
    · exact .modPort_state _ p rfl
  split
  · exact .modPort_state s p rfl
  all_goals exact halted

end State
end Sys2Proof.Machine
end

section
/-! ## `Unbound` through the commands -/

namespace Sys2Proof.Machine
namespace State
variable {s t : State} {p q : Port} {h : Handle} {v w : Task}

/-- Only live tasks run. -/
theorem Linked.run_live (L : s.Linked) {r : Bool} (run : (s.port p).state = .run h r) : s.live h = true := by
  obtain ⟨v, e, -⟩ := L.running (p := p) (h := h) (by rw [run]; rfl)
  unfold State.live
  rw [e]; rfl

theorem create_unbound (L : s.Linked) (U : Unbound s) (p : Port) : Unbound (s.create p) := by
  unfold create
  dsimp only
  split
  case h_2 => exact U.binds (.modPort_state s p rfl)
  unfold createTask
  split
  case h_2 => exact U.binds (.modPort_state s p rfl)
  case h_1 slot rest free =>
    have none : s.tasks[slot].task = none := (L.free slot).1 (by rw [free]; exact List.mem_cons_self)
    refine Unbound.binds (s := ({ s with freeSlots := rest } : State).makeTask slot _) ?_ (.modPort_state _ p rfl)
    have task := makeTask_task? (rest := rest) none (Task.new ‹_› ‹_› ‹_›)
    have inbox := makeTask_inbox (s := s) (slot := slot) (rest := rest) (Task.new ‹_› ‹_› ‹_›)
    have ports (q : Port) : (({ s with freeSlots := rest } : State).makeTask slot (Task.new ‹_› ‹_› ‹_›)).port q = s.port q := rfl
    generalize ({ s with freeSlots := rest } : State).makeTask slot (Task.new _ _ _) = t at task inbox ports ⊢
    have dead (k : Handle) (at_ : k.slot = slot) : s.live k = false := by
      subst at_
      unfold State.live
      rw [task?_slot, none, ite_self]; rfl
    refine ⟨fun k v e sure => ?_, fun k live => ?_⟩
    · rw [task] at e
      split at e
      · cases e; rfl
      case isFalse other =>
        refine U.unbound k v e ?_
        rcases sure with ⟨x, found, waits⟩ | ⟨q, r, run⟩
        · exact .inl ⟨x, by rwa [task, if_neg other] at found, waits⟩
        · exact .inr ⟨q, r, ports q ▸ run⟩
    · by_cases same : k = ⟨slot, s.tasks[slot].gen⟩
      · rw [inbox, if_pos (congrArg Handle.slot same)]
        refine iff_of_false nofun fun ⟨q, run⟩ => ?_
        exact nomatch (dead k (congrArg Handle.slot same)).symm.trans (L.run_live (ports q ▸ run))
      · have before : s.live k = true := by unfold State.live at live ⊢; rwa [task, if_neg same] at live
        rw [inbox, if_neg fun at_ => nomatch (dead k at_).symm.trans before]
        simp only [ports]
        exact U.receiving k before

theorem freeSlot_unbound (U : Unbound s) (live : s.live h = true) : Unbound (s.freeSlot h) := by
  have task := freeSlot_task? live
  have old {k : Handle} {w : Task} (f : (s.freeSlot h).task? k = some w) : s.task? k = some w := by
    rw [task] at f
    split at f
    case isTrue => cases f
    case isFalse other => exact f
  refine ⟨fun k w f sure => U.unbound k w (old f) ?_, fun k alive => ?_⟩
  · rcases sure with ⟨x, found, waits⟩ | run
    · exact .inl ⟨x, old found, waits⟩
    · exact .inr run
  · obtain ⟨w, f⟩ := Option.isSome_iff_exists.1 alive
    exact U.receiving k (by unfold State.live; rw [old f]; rfl)

/-- R22 leaves every task that must be free unbound. -/
theorem removeTask_unbound (L : s.Linked) (U : Unbound s) (e : s.task? h = some v) : Unbound (s.removeTask h v) := by
  have aborted : Binds s ((s.detachTask h v.state .gone).abortSeed h v.seedPort) := by
    cases seed : v.seedPort with
    | none => exact detachTask_binds L h v.state .gone
    | some q =>
      have stopped := L.seedStopped h v e (by rw [seed]; rfl)
      have idle : s.detachTask h v.state .gone = s := by
        cases state : v.state <;> rw [state] at stopped <;> first | rfl | cases stopped
      rw [idle]
      have post := (L.seeded q h).2 ⟨v, e, seed⟩
      have evicted : Binds s (s.evictPort q .gone) :=
        .inUnit s q _ rfl (fun k run => by rw [run] at post; cases post) nofun
      exact evicted.trans (.modTask _ h (fun _ _ => rfl) fun x f waits => .inl ⟨x, f, waits⟩)
  have U := U.binds (aborted.trans (undoWait_binds h))
  unfold removeTask
  refine Unbound.binds ?_ (returnSlots_binds _)
  generalize ((s.detachTask h v.state .gone).abortSeed h v.seedPort).undoWait h = u at U ⊢
  cases f : u.task? h with
  | none =>
    have same : u.modTask h (fun t => { t with state := .dormant, bound := none }) = u := by unfold modTask; rw [f]
    rw [same]
    exact U
  | some w =>
    exact unbound_turns U f (modTask_turns f fun t => { t with state := .dormant, bound := none })
      (fun q k r => by rw [modTask_port]) fun _ => rfl

theorem destroyed_unbound (L : s.Linked) (U : Unbound s) (e : s.task? h = some v) :
    Unbound (((s.removeTask h v).disposeInbox h).freeSlot h) := by
  obtain ⟨removed, idle⟩ := removeTask_linked L e
  obtain ⟨-, w, found, -⟩ := disposeInbox_linked removed idle
  have unbound := (removeTask_unbound L U e).binds (emptyInbox_binds h)
  have released := unbound_flow.releaseAllGone ⟨(emptyInbox_moves _ h).linked removed, unbound⟩ h
  refine freeSlot_unbound ?_ (by unfold State.live; rw [found]; rfl)
  have cleared (u : State) : Binds u (u.unsetSink h) := .same (by rfl)
  exact (released.2.binds (mapLines_binds _)).binds (cleared _)

theorem beginCheckIn_binds (run : (s.port p).state = .run h false) (d : Disposition) (c : ResultCode) :
    Binds s (s.beginCheckIn p h d c) := by
  have saving : Binds s (s.setTaskState h (.saving p d false)) :=
    .modTask s h (fun _ _ => rfl) fun _ _ _ => .inr ⟨p, false, run⟩
  unfold beginCheckIn
  refine (saving.trans (.inUnit (st := .saving .checkIn h []) _ p _ rfl (fun k now => ?_) nofun)).trans
    (.modPort_state _ p rfl)
  rw [setTaskState_eq, modTask_port, run] at now
  cases now

theorem beginSendWait_binds (run : (s.port p).state = .run h false) (ps : PendingSend) (n : BitVec 16) :
    Binds s (s.beginSendWait p h ps n) := by
  have joined : Binds s ((s.modInbox ps.target fun ib => { ib with senders := ib.senders ++ [h] }).modTask h
      fun t => { t with pendingSend := some ps }) :=
    (Binds.modInbox s ps.target (f := fun ib => { ib with senders := ib.senders ++ [h] }) fun _ => rfl).trans
      (.modTask _ h (fun _ _ => rfl) fun x f waits => .inl ⟨x, f, waits⟩)
  have port : ((s.modInbox ps.target fun ib => { ib with senders := ib.senders ++ [h] }).modTask h
      fun t => { t with pendingSend := some ps }).port p = s.port p := by rw [modTask_port, modInbox_port]
  unfold beginSendWait
  generalize (s.modInbox ps.target fun ib => { ib with senders := ib.senders ++ [h] }).modTask h
      (fun t => { t with pendingSend := some ps }) = u at joined port ⊢
  have armed : (u.armTimeout h n .send).port p = u.port p := by unfold armTimeout; split <;> rfl
  exact ((joined.trans (armTimeout_calm h n .send).toBinds).trans
    (beginCheckIn_binds (by rw [armed, port, run]) _ _)).trans (.quiet (.evalPreempt _))

theorem checkedOut_unbound (U : Unbound s) {n i : Nat} (loading : (s.port p).state = .loading h n i)
    (e : s.task? h = some v) (xs : List PoolSlot) : Unbound (((s.setPortState p (.run h false)).modTask h
      fun t => { t with resume := .ok, bound := none }).freeSlotList xs) := by
  have task (k : Handle) : (((s.setPortState p (.run h false)).modTask h
      fun t => { t with resume := .ok, bound := none }).freeSlotList xs).task? k =
        if k = h then some { v with resume := .ok, bound := none } else s.task? k :=
    (modTask_turns (s := s.setPortState p (.run h false)) e fun t => { t with resume := .ok, bound := none }).task k
  have inbox (k : Handle) : (((s.setPortState p (.run h false)).modTask h
      fun t => { t with resume := .ok, bound := none }).freeSlotList xs).inbox k = s.inbox k :=
    inbox_congr (modTask_inboxes ..) k
  have port (q : Port) : ((((s.setPortState p (.run h false)).modTask h
      fun t => { t with resume := .ok, bound := none }).freeSlotList xs).port q).state =
        if q = p then .run h false else (s.port q).state := by
    rw [freeSlotList_port, modTask_port, setPortState_eq, modPort_port]
    split <;> rfl
  generalize ((s.setPortState p (.run h false)).modTask h
      fun t => { t with resume := .ok, bound := none }).freeSlotList xs = t at task inbox port ⊢
  refine ⟨fun k x f sure => ?_, fun k live => ?_⟩
  · rw [task] at f
    split at f
    case isTrue => cases f; rfl
    case isFalse other =>
      refine U.unbound k x f ?_
      rcases sure with ⟨y, found, waits⟩ | ⟨q, r, run⟩
      · exact .inl ⟨y, by rwa [task, if_neg other] at found, waits⟩
      · rw [port] at run
        split at run
        case isTrue => exact absurd (PortState.run.inj run).1.symm other
        case isFalse => exact .inr ⟨q, r, run⟩
  · have before : s.live k = true := by
      unfold State.live at live ⊢
      rw [task] at live
      split at live
      case isTrue same => subst same; rw [e]; rfl
      case isFalse => exact live
    rw [inbox, U.receiving k before]
    refine exists_congr fun q => ?_
    rw [port]
    split
    case isTrue same =>
      subst same
      exact iff_of_false (fun now => nomatch loading.symm.trans now) nofun
    case isFalse => rfl

theorem receivePending_unbound (U : Unbound s) (run : (s.port p).state = .run h false) (alive : s.live h = true) :
    Unbound ((s.modInbox h fun ib => { ib with recvPending := true }).setPortState p (.run h true)) := by
  have task (k : Handle) : ((s.modInbox h fun ib => { ib with recvPending := true }).setPortState p (.run h true)).task? k =
      s.task? k := rfl
  have inbox (k : Handle) : ((s.modInbox h fun ib => { ib with recvPending := true }).setPortState p (.run h true)).inbox k =
      if k.slot = h.slot then { s.inbox h with recvPending := true } else s.inbox k := getElem_set_fin ..
  have port (q : Port) : (((s.modInbox h fun ib => { ib with recvPending := true }).setPortState p (.run h true)).port q).state =
      if q = p then .run h true else (s.port q).state := by
    rw [setPortState_eq, modPort_port]
    split <;> rfl
  generalize (s.modInbox h fun ib => { ib with recvPending := true }).setPortState p (.run h true) = t at task inbox port ⊢
  refine ⟨fun k x f sure => U.unbound k x (task k ▸ f) ?_, fun k live => ?_⟩
  · rcases sure with ⟨y, found, waits⟩ | ⟨q, r, now⟩
    · exact .inl ⟨y, task k ▸ found, waits⟩
    · rw [port] at now
      split at now
      case isTrue same => exact .inr ⟨p, false, (PortState.run.inj now).1 ▸ run⟩
      case isFalse => exact .inr ⟨q, r, now⟩
  · have live : s.live k = true := by unfold State.live at live ⊢; rwa [task] at live
    by_cases same : k = h
    · subst same
      rw [inbox, if_pos rfl]
      exact iff_of_true rfl ⟨p, by rw [port, if_pos rfl]⟩
    · rw [inbox, if_neg fun slot => same (live_inj live alive slot), U.receiving k live]
      refine exists_congr fun q => ?_
      rw [port]
      split
      case isTrue here =>
        subst here
        exact iff_of_false (fun now => nomatch run.symm.trans now) fun now => same (PortState.run.inj now).1.symm
      case isFalse => rfl

theorem breakRing_binds (j : Job) (rest : List Job) : Binds s (State.breakRing { s with burst := none } j rest) := by
  unfold breakRing
  dsimp only
  have ended : Binds s (({ s with burst := none, jobs := rest.filter fun k => k.inbox ≠ j.inbox } : State).freeSlotList
      (j.slots ++ (rest.filter fun k => k.inbox = j.inbox).flatMap Job.slots)) := .same (by rfl)
  have undeferred (u : State) : Binds u (u.undefer j.inbox) := .same (by rfl)
  exact (ended.trans (.modInbox _ j.inbox (f := fun ib => ib.break ib.occupancy) fun _ => rfl)).trans (undeferred _)

theorem unbound_engine : Engine (fun s => s.Linked ∧ Unbound s) fun _ s => s.Linked ∧ Unbound s where
  toFlow := unbound_flow
  loose _ := unbound_flow
  timer f w k := ⟨linked_engine.timer f w k.1, k.2.binds (.same (by rfl))⟩
  started k := ⟨linked_engine.started k.1, by rw [startAttempt_eq]; exact k.2.binds (.same (by rfl))⟩
  unowned k head out := ⟨linked_engine.unowned k.1 head out, k.2.binds (.same (by rfl))⟩
  spilled k burst write head own :=
    ⟨linked_engine.spilled k.1 burst write head own, k.2.binds (.trans (.same (by rfl)) (.modInbox _ _ fun _ => rfl))⟩
  refilled k burst read head slots own :=
    ⟨linked_engine.refilled k.1 burst read head slots own, k.2.binds (.trans (.same (by rfl)) (.modInbox _ _ fun _ => rfl))⟩
  more k _ := k
  last k done := ⟨linked_engine.last k.1 done, k.2.binds (.same (by rfl))⟩
  retried k head := ⟨linked_engine.retried k.1 head, k.2.binds (.same (by rfl))⟩
  broken k head own := ⟨linked_engine.broken k.1 head own, k.2.binds (breakRing_binds _ _)⟩
  ended k := ⟨linked_engine.ended k.1, k.2.binds (.same (by rfl))⟩
  lost p cause k := ⟨loseTask_linked k.1 p cause, k.2.binds (loseTask_binds k.1 p cause)⟩

theorem reset_unbound : Unbound State.reset := by
  have dead (h : Handle) : State.reset.task? h = none := by
    rw [task?_slot]
    simp [State.reset]
  refine ⟨fun h t e => absurd ((dead h).symm.trans e) nofun, fun h live => ?_⟩
  unfold State.live at live
  rw [dead] at live
  cases live

theorem unbound_commands : Commands (fun s => s.Linked ∧ Unbound s) fun _ s => s.Linked ∧ Unbound s where
  toEngine := unbound_engine
  task {s c p} kind k taken := by
    refine ⟨linked_commands.task kind k.1 taken, ?_⟩
    by_cases stop : c = .halt
    · subst stop; exact k.2.binds (halt_binds k.1 p)
    · exact k.2.binds (commandEffect_calm k.1 kind stop taken).toBinds
  sendWait n k run e live other :=
    ⟨linked_commands.sendWait n k.1 run e live other, k.2.binds (beginSendWait_binds run _ n)⟩
  receiveWait n k run e := ⟨linked_commands.receiveWait n k.1 run e, k.2.binds (receiveWait_calm k.1 run n).toBinds⟩
  receivePending k run e :=
    ⟨linked_commands.receivePending k.1 run e, receivePending_unbound k.2 run (k.1.run_live run)⟩
  emptied {s h} k live := by
    have marked : Binds s ({ s with jobs := markCurrent h s.jobs } : State) := .same (by rfl)
    exact ⟨linked_commands.emptied k.1 live, k.2.binds ((marked.trans (emptyInbox_binds h)).trans (.modInbox _ _ fun _ => rfl))⟩
  destroyed k e := ⟨linked_commands.destroyed k.1 e, destroyed_unbound k.1 k.2 e⟩
  checkedOut k loading e := ⟨linked_commands.checkedOut k.1 loading e, checkedOut_unbound k.2 loading e _⟩
  loaded {s p h n i} k loading :=
    ⟨linked_commands.loaded k.1 loading, k.2.binds (.inUnit s p _ rfl (fun h now => nomatch loading.symm.trans now) nofun)⟩
  written p w k := ⟨linked_commands.written p w k.1, k.2.binds (writeFrame_calm k.1.awaitIdle p w).toBinds⟩
  reset := ⟨linked_commands.reset, reset_unbound⟩
  leveled levels k := ⟨linked_commands.leveled levels k.1, k.2.binds (.same (by rfl))⟩

end State
end Sys2Proof.Machine
end

section
/-! ## Where the pool slots are (R106) -/

namespace Sys2Proof.Machine

/-- A sum in which one term changes. -/
theorem sum_change {n : Nat} {f g : Fin n → Nat} (i : Fin n) (other : ∀ k, k ≠ i → f k = g k) :
    ∑ k, f k + g i = ∑ k, g k + f i := by
  have others : ∑ k ∈ {i}ᶜ, f k = ∑ k ∈ {i}ᶜ, g k := Finset.sum_congr rfl fun k mem => other k (by simpa using mem)
  rw [Fintype.sum_eq_add_sum_compl i f, Fintype.sum_eq_add_sum_compl i g, others]
  omega

namespace State
variable {s t : State} {p : Port} {h : Handle} {v w : Task} {x y : PoolSlot} {j : Job} {rest : List Job}

/-- How often a pool slot stands in the resident lists. -/
def residents (s : State) (x : PoolSlot) : Nat := ∑ k : Slot, s.inboxes[k].resident.count x

/-- How often a pool slot is bound to a task. -/
def bounds (s : State) (x : PoolSlot) : Nat := ∑ k : Slot, (s.tasks[k].task.bind Task.bound).toList.count x

/-- How often a pool slot stands among the slots of jobs. -/
def queued (js : List Job) (x : PoolSlot) : Nat := (js.flatMap Job.slots).count x

/-- How often a pool slot is free or held. -/
def tally (s : State) (x : PoolSlot) : Nat := s.poolFree.count x + s.residents x + queued s.jobs x + s.bounds x

theorem count_heldSlots (x : PoolSlot) : s.heldSlots.count x = s.residents x + queued s.jobs x + s.bounds x := by
  unfold heldSlots residents queued bounds
  rw [List.count_append, List.count_append, List.filterMap_eq_flatMap_toList, List.count_flatMap, List.count_flatMap (l := List.finRange 64),
    Fin.sum_univ_def, Fin.sum_univ_def]
  rfl

theorem tally_eq_one : (∀ x, s.tally x = 1) ↔ (s.poolFree ++ s.heldSlots).Perm (List.finRange 512) := by
  rw [List.perm_iff_count]
  refine forall_congr' fun x => ?_
  have all : (List.finRange 512).count x = 1 := List.count_eq_one_of_mem (List.nodup_finRange 512) (List.mem_finRange x)
  rw [all, List.count_append, count_heldSlots]
  unfold tally
  rw [Nat.add_assoc, Nat.add_assoc, Nat.add_assoc]

@[simp] theorem queued_cons : queued (j :: rest) x = j.slots.count x + queued rest x := by
  rw [queued, List.flatMap_cons, List.count_append]; rfl

@[simp] theorem queued_append (js ks : List Job) : queued (js ++ ks) x = queued js x + queued ks x := by
  rw [queued, List.flatMap_append, List.count_append]; rfl

@[simp] theorem queued_nil : queued [] x = 0 := rfl

theorem queued_singleton : queued [j] x = j.slots.count x := by simp

/-- The jobs of an inbox and the other jobs. -/
theorem queued_split (js : List Job) (h : Handle) :
    queued (js.filter fun k => k.inbox ≠ h) x + queued (js.filter fun k => k.inbox = h) x = queued js x := by
  induction js with
  | nil => rfl
  | cons j rest ih =>
    by_cases own : j.inbox = h
    · rw [List.filter_cons_of_neg (by simpa using own), List.filter_cons_of_pos (by simpa using own), queued_cons, queued_cons]
      omega
    · rw [List.filter_cons_of_pos (by simpa using own), List.filter_cons_of_neg (by simpa using own), queued_cons, queued_cons]
      omega

/-! ### Changes of one record -/

theorem residents_modInbox (f : Inbox → Inbox) : (s.modInbox h f).residents x + (s.inbox h).resident.count x =
    s.residents x + (f (s.inbox h)).resident.count x := by
  have get (k : Slot) : (s.modInbox h f).inboxes[k] = if k = h.slot then f (s.inbox h) else s.inboxes[k] := getElem_set_fin ..
  have change := sum_change (f := fun k => (s.modInbox h f).inboxes[k].resident.count x)
    (g := fun k => s.inboxes[k].resident.count x) h.slot fun k other => by rw [get, if_neg other]
  rw [get, if_pos rfl] at change
  exact change

theorem bounds_modTask (e : s.task? h = some v) (f : Task → Task) : (s.modTask h f).bounds x + v.bound.toList.count x =
    s.bounds x + (f v).bound.toList.count x := by
  have get (k : Slot) : (s.modTask h f).tasks[k] = if k = h.slot then ⟨h.gen, some (f v)⟩ else s.tasks[k] := by
    unfold modTask
    rw [e]
    exact getElem_set_fin ..
  have change := sum_change (f := fun k => ((s.modTask h f).tasks[k].task.bind Task.bound).toList.count x)
    (g := fun k => (s.tasks[k].task.bind Task.bound).toList.count x) h.slot fun k other => by rw [get, if_neg other]
  rw [get, if_pos rfl, (s.task?_eq.1 e).2] at change
  exact change

/-- What the records say of a bound message by handle, they say by slot. -/
theorem task_at_slot (same : ∀ h, (t.task? h).map Task.bound = (s.task? h).map Task.bound) (k : Slot) :
    t.tasks[k].task.map Task.bound = s.tasks[k].task.map Task.bound := by
  have here := same ⟨k, s.tasks[k].gen⟩
  have there := same ⟨k, t.tasks[k].gen⟩
  rw [task?_slot, task?_slot, if_pos rfl] at here there
  by_cases gens : t.tasks[k].gen = s.tasks[k].gen
  · rw [if_pos gens] at here
    exact here
  · rw [if_neg gens] at here
    rw [if_neg (Ne.symm gens)] at there
    exact there.trans here

end State

/-- Every pool slot stays where it is. -/
structure Pools (s t : State) : Prop where
  poolFree : t.poolFree = s.poolFree
  jobs : t.jobs = s.jobs
  resident : ∀ k : Slot, t.inboxes[k].resident = s.inboxes[k].resident
  bound : ∀ h, (t.task? h).map Task.bound = (s.task? h).map Task.bound

namespace Pools
variable {s t u : State} {h : Handle}

theorem trans (a : Pools s t) (b : Pools t u) : Pools s u :=
  ⟨b.poolFree.trans a.poolFree, b.jobs.trans a.jobs, fun k => (b.resident k).trans (a.resident k),
   fun h => (b.bound h).trans (a.bound h)⟩

theorem same (kept : (t.poolFree, t.jobs, t.inboxes, t.tasks) = (s.poolFree, s.jobs, s.inboxes, s.tasks)) : Pools s t := by
  obtain ⟨poolFree, kept⟩ := Prod.mk.inj kept
  obtain ⟨jobs, kept⟩ := Prod.mk.inj kept
  obtain ⟨inboxes, tasks⟩ := Prod.mk.inj kept
  exact ⟨poolFree, jobs, fun k => by rw [inboxes], fun h => by rw [State.task?_congr tasks]⟩

theorem stores (S : Stores s t) : Pools s t :=
  ⟨S.poolFree, S.jobs, fun k => congrArg Prod.fst (S.inbox k), S.bound⟩

theorem modInbox (s : State) (h : Handle) {f : Inbox → Inbox} (kept : ∀ ib, (f ib).resident = ib.resident) :
    Pools s (s.modInbox h f) := by
  refine ⟨rfl, rfl, fun k => ?_, fun _ => rfl⟩
  have get : (s.modInbox h f).inboxes[k] = if k = h.slot then f (s.inbox h) else s.inboxes[k] := getElem_set_fin ..
  rw [get]
  split
  case isTrue same => subst same; exact kept _
  case isFalse => rfl

theorem tally (P : Pools s t) (x : PoolSlot) : t.tally x = s.tally x := by
  have residents : t.residents x = s.residents x := by
    unfold State.residents
    exact Finset.sum_congr rfl fun k _ => by rw [P.resident]
  have bounds : t.bounds x = s.bounds x := by
    unfold State.bounds
    refine Finset.sum_congr rfl fun k _ => ?_
    have same (o : Option Task) : o.bind Task.bound = (o.map Task.bound).join := by cases o <;> rfl
    rw [same, same, State.task_at_slot P.bound k]
  unfold State.tally
  rw [P.poolFree, P.jobs, residents, bounds]

theorem vacant (P : Pools s t) (k : Slot) (empty : t.tasks[k].task = none) : s.tasks[k].task = none := by
  have same := State.task_at_slot P.bound k
  rw [empty] at same
  exact Option.map_eq_none_iff.1 same.symm

end Pools

/-- A job holds the slots of its bursts to come (R111). -/
def Job.Good (j : Job) : Prop := j.slots ≠ [] ∧ j.burstsDone + j.slots.length = j.count

/-- Every pool slot is in one place (R106), the jobs are as `X` says, and the inboxes of FREE slots are empty. -/
structure Pooled (X : List Job → Prop) (s : State) : Prop where
  tally : ∀ x, s.tally x = 1
  jobs : X s.jobs
  free : ∀ k : Slot, s.tasks[k].task = none → s.inboxes[k].resident = []

/-- Another job may join the queue. -/
def Extends (X : List Job → Prop) : Prop := ∀ js j, X js → j.Good → X (js ++ [j])

/-- All jobs hold the slots of their bursts to come. -/
def Whole (js : List Job) : Prop := ∀ j ∈ js, j.Good

/-- The current job is `j`, whose slots may all be used up; the other jobs hold the slots of their bursts to come. -/
def Follows (j : Job) (js : List Job) : Prop := ∃ rest, js = j :: rest ∧ j.burstsDone + j.slots.length = j.count ∧ Whole rest

theorem whole_extends : Extends Whole := fun _ _ whole good k mem =>
  (List.mem_append.1 mem).elim (whole k) fun last => List.mem_singleton.1 last ▸ good

theorem follows_extends (j : Job) : Extends (Follows j) := by
  rintro js k ⟨rest, rfl, counted, whole⟩ good
  exact ⟨rest ++ [k], rfl, counted, whole_extends _ _ whole good⟩

theorem slotsPlaced_iff {s : State} : s.SlotsPlaced ↔ Unbound s ∧ Pooled Whole s := by
  constructor
  · intro P
    refine ⟨⟨fun h v e sure => ?_, P.receiving⟩, ⟨State.tally_eq_one.2 P.slots, P.jobs, P.free⟩⟩
    rcases sure with ⟨w, found, waits⟩ | ⟨p, r, run⟩
    · cases e.symm.trans found
      exact P.waiting h v e waits
    · exact P.running p h r v run e
  · rintro ⟨U, P⟩
    exact ⟨State.tally_eq_one.1 P.tally, P.jobs, P.free, fun h v e waits => U.unbound h v e (.inl ⟨v, e, waits⟩),
      fun p h r v run e => U.unbound h v e (.inr ⟨p, r, run⟩), U.receiving⟩

namespace Pooled
variable {X : List Job → Prop} {s t : State} {h : Handle} {v w : Task}

theorem pools (P : Pooled X s) (Q : Pools s t) : Pooled X t :=
  ⟨fun x => (Q.tally x).trans (P.tally x), Q.jobs ▸ P.jobs, fun k none => (Q.resident k).trans (P.free k (Q.vacant k none))⟩

theorem stores (P : Pooled X s) (S : Stores s t) : Pooled X t := P.pools (.stores S)

end Pooled
end Sys2Proof.Machine
end

section
/-! ## `Pooled` through the flow of messages and the engine -/

namespace Sys2Proof.Machine
namespace State
variable {X : List Job → Prop} {s t : State} {p : Port} {h : Handle} {v w : Task} {x y : PoolSlot} {xs : List PoolSlot}
  {j : Job} {rest : List Job}

/-- The slot of a live task is not FREE. -/
theorem occupied_of_live (live : s.live h = true) : s.tasks[h.slot].task ≠ none := by
  intro empty
  obtain ⟨v, e⟩ := Option.isSome_iff_exists.1 live
  exact nomatch empty.symm.trans (s.task?_eq.1 e).2

theorem modTask_vacant {f : Task → Task} {k : Slot} (empty : (s.modTask h f).tasks[k].task = none) : s.tasks[k].task = none := by
  unfold modTask at empty
  split at empty
  case h_1 v e =>
    have get : (s.tasks.set h.slot ⟨h.gen, some (f v)⟩)[k] = if k = h.slot then ⟨h.gen, some (f v)⟩ else s.tasks[k] :=
      getElem_set_fin ..
    change (s.tasks.set h.slot ⟨h.gen, some (f v)⟩)[k].task = none at empty
    rw [get] at empty
    split at empty
    · cases empty
    · exact empty
  case h_2 => exact empty

theorem modInbox_resident {f : Inbox → Inbox} {k : Slot} (other : k ≠ h.slot) :
    (s.modInbox h f).inboxes[k] = s.inboxes[k] :=
  (getElem_set_fin ..).trans (if_neg other)

/-! ### Moves of one slot -/

theorem made_pooled (extends_ : Extends X) (P : Pooled X s) (made : s.createRefill h = some t) : Pooled X t := by
  obtain ⟨-, some, enough, rfl⟩ := createRefill_eq made
  generalize s.grant (min (s.inbox h).backed ((s.inbox h).limit - (s.inbox h).resident.length)) = a at some enough ⊢
  have taken : (s.poolFree.take a).length = a := List.length_take_of_le enough
  have joined : Pooled X { s with
      poolFree := s.poolFree.drop a
      jobs := s.jobs ++ [(s.inbox h).refillJob h (s.poolFree.take a)] } := by
    refine ⟨fun x => ?_, extends_ _ _ P.jobs ⟨?_, ?_⟩, P.free⟩
    · have before := P.tally x
      have split : s.poolFree.count x = (s.poolFree.take a).count x + (s.poolFree.drop a).count x := by
        rw [← List.count_append, List.take_append_drop]
      have joins : queued (s.jobs ++ [(s.inbox h).refillJob h (s.poolFree.take a)]) x =
        queued s.jobs x + (s.poolFree.take a).count x := by rw [queued_append, queued_singleton]; rfl
      unfold tally at before ⊢
      change (s.poolFree.drop a).count x + s.residents x + queued (s.jobs ++ _) x + s.bounds x = 1
      omega
    · intro none
      have length := congrArg List.length (show s.poolFree.take a = [] from none)
      rw [taken] at length
      exact absurd length (by simp; omega)
    · change 0 + (s.poolFree.take a).length = (s.poolFree.take a).length
      exact Nat.zero_add _
  exact joined.pools (.modInbox _ h fun _ => rfl)

theorem retryDeferred_pooled (extends_ : Extends X) (P : Pooled X s) : Pooled X s.retryDeferred :=
  retryDeferred_keeps (fun P _ made => made_pooled extends_ P made) (fun _ P => P.pools (.same (by rfl))) P

/-- A free slot is bound to a task that has none. -/
theorem bind_pooled (P : Pooled X s) (free : s.poolFree = x :: xs) (e : s.task? h = some v) (none : v.bound = none) :
    Pooled X (({ s with poolFree := xs } : State).modTask h fun t => { t with bound := some x }) := by
  refine ⟨fun y => ?_, by rw [modTask_jobs]; exact P.jobs, fun k empty => by
    rw [modTask_inboxes]; exact P.free k (modTask_vacant (s := { s with poolFree := xs }) empty)⟩
  have before := P.tally y
  have bound := bounds_modTask (x := y) (s := { s with poolFree := xs }) e fun t => { t with bound := some x }
  have residents : (({ s with poolFree := xs } : State).modTask h fun t => { t with bound := some x }).residents y =
    s.residents y := by unfold residents; rw [modTask_inboxes]
  rw [none] at bound
  unfold tally at before ⊢
  rw [modTask_poolFree, modTask_jobs, residents]
  rw [free] at before
  change xs.count y + s.residents y + queued s.jobs y + _ = 1
  have one : (some x).toList.count y + xs.count y = (x :: xs).count y := by
    rw [← List.count_append]; rfl
  change _ + 0 = s.bounds y + (some x).toList.count y at bound
  omega

/-- A task's message, if it has one, is unbound and its slot freed. -/
theorem unbind_pooled (P : Pooled X s) (e : s.task? h = some v) {f : Task → Task} (none : (f v).bound = none) :
    Pooled X ((s.modTask h f).freeSlotList v.bound.toList) := by
  refine ⟨fun y => ?_, by rw [freeSlotList_jobs, modTask_jobs]; exact P.jobs, fun k empty => by
    rw [freeSlotList_inboxes, modTask_inboxes]; exact P.free k (modTask_vacant (h := h) (f := f) empty)⟩
  have before := P.tally y
  have bound := bounds_modTask (x := y) e f
  have residents : ((s.modTask h f).freeSlotList v.bound.toList).residents y = s.residents y := by
    unfold State.residents; rw [freeSlotList_inboxes, modTask_inboxes]
  rw [none] at bound
  have freed : ((s.modTask h f).freeSlotList v.bound.toList).poolFree = v.bound.toList ++ s.poolFree := by
    rw [← modTask_poolFree (s := s) (h := h) f]; rfl
  unfold tally at before ⊢
  rw [freed, residents, freeSlotList_jobs, modTask_jobs, List.count_append]
  change _ + _ = s.bounds y + 0 at bound
  change _ + (s.modTask h f).bounds y = 1
  omega

/-- The resident list of an inbox, the free slots and the jobs take and give slots. -/
theorem moved_pooled (P : Pooled X s) (occupied : s.tasks[h.slot].task ≠ none) {f : Inbox → Inbox} {free : List PoolSlot} {js : List Job}
    (jobs : X js) (kept : ∀ y, free.count y + (f (s.inbox h)).resident.count y + queued js y =
      s.poolFree.count y + (s.inbox h).resident.count y + queued s.jobs y) :
    Pooled X (({ s with poolFree := free, jobs := js } : State).modInbox h f) := by
  refine ⟨fun y => ?_, jobs, fun k empty => ?_⟩
  · have before := P.tally y
    have inboxes := residents_modInbox (x := y) (s := { s with poolFree := free, jobs := js }) (h := h) f
    have kept := kept y
    unfold tally at before ⊢
    change _ + _ = s.residents y + (f (s.inbox h)).resident.count y at inboxes
    change free.count y + _ + queued js y + s.bounds y = 1
    change _ + (s.inbox h).resident.count y = _ at inboxes
    omega
  · have other : k ≠ h.slot := by rintro rfl; exact occupied empty
    rw [modInbox_resident other]
    exact P.free k empty

theorem completeReceive_stores (h : Handle) (c : ResultCode) : Stores s (s.completeReceive h c) := by
  have cleared : Stores s (s.clearReceivePending h) := clearReceivePending_stores h
  unfold completeReceive
  split
  · dsimp only
    split
    · split
      · exact cleared.trans (modPort_stores _ _)
      all_goals exact cleared
    · exact cleared
  · exact .refl s

/-- A hand-off binds the message to an owner that has none (R83, R84). -/
theorem handOff_pooled (U : Unbound s) (P : Pooled X s) (waits : s.ownerWaits h = true) (free : s.poolFree = x :: xs) :
    Pooled X ((((({ s with poolFree := xs } : State).modInbox h Inbox.advanceSeq).modTask h
      fun t => { t with bound := some x }).removeDeadline h).wake h .ok) := by
  obtain ⟨v, e, receives⟩ := ownerWaits_receives.1 waits
  have none := U.unbound h v e (.inl ⟨v, e, (waits_of_receives receives).1⟩)
  have advanced : Pooled X (s.modInbox h Inbox.advanceSeq) := P.pools (.modInbox s h fun _ => rfl)
  have bound := bind_pooled (s := s.modInbox h Inbox.advanceSeq) advanced free e none
  exact (bound.pools (t := State.removeDeadline _ h) (.same (by rfl))).stores (wake_wakes h .ok).stores

theorem mapLines_pools (f : LineRec → LineRec) : Pools s (s.mapLines f) :=
  .same (by rw [mapLines_poolFree, mapLines_jobs, mapLines_inboxes, mapLines_tasks])

/-- What keeps the pool and the records, for every condition on the jobs under which another may join. -/
theorem pooled_flow (extends_ : Extends X) : Flow fun s => (s.Linked ∧ Unbound s) ∧ Pooled X s where
  quiet Q k := ⟨unbound_flow.quiet Q k.1, k.2.stores (.quiet Q)⟩
  line l f ok k := ⟨unbound_flow.line l f ok k.1, k.2.pools (.same (by rfl))⟩
  lines f ok k := ⟨unbound_flow.lines f ok k.1, k.2.pools (mapLines_pools f)⟩
  endWait h r k := ⟨unbound_flow.endWait h r k.1, k.2.stores (endWait_wakes h r).stores⟩
  made k need made := ⟨unbound_flow.made k.1 need made, made_pooled extends_ k.2 made⟩
  handOff k waits free := ⟨unbound_flow.handOff k.1 waits free, handOff_pooled k.1.2 k.2 waits free⟩
  resident {s h x xs} k live none room free := by
    refine ⟨unbound_flow.resident k.1 live none room free, moved_pooled k.2 (occupied_of_live live) k.2.jobs fun y => ?_⟩
    rw [free]
    change _ + ((s.inbox h).resident ++ [x]).count y + _ = _
    rw [List.count_append, List.count_cons (l := xs), List.count_cons (l := []), List.count_nil]
    omega
  spill {s h x xs} k live room free := by
    refine ⟨unbound_flow.spill k.1 live room free, moved_pooled k.2 (occupied_of_live live) (extends_ _ _ k.2.jobs ⟨nofun, rfl⟩) fun y => ?_⟩
    rw [free, queued_append, queued_singleton]
    change _ + (s.inbox h).resident.count y + (_ + [x].count y) = _
    rw [List.count_cons (l := xs), List.count_cons (l := []), List.count_nil]
    omega
  pop {s h x xs} k head := by
    have occupied : s.tasks[h.slot].task ≠ none := fun empty => nomatch (k.2.free h.slot empty).symm.trans head
    refine ⟨unbound_flow.pop k.1 head, moved_pooled k.2 occupied k.2.jobs fun y => ?_⟩
    rw [head, List.count_cons, List.count_cons]
    change _ + xs.count y + _ = _
    omega
  answered c k live := ⟨unbound_flow.answered c k.1 live, k.2.stores (completeReceive_stores _ c)⟩

end State
end Sys2Proof.Machine
end

section
/-! ## `State.SlotsPlaced` through a step -/

namespace Sys2Proof.Machine
namespace State
variable {X : List Job → Prop} {s t : State} {p : Port} {h : Handle} {v w : Task} {x y : PoolSlot} {xs : List PoolSlot}
  {j : Job} {rest : List Job}

/-- The free slots and the jobs exchange slots. -/
theorem exchanged_pooled {Y : List Job → Prop} (P : Pooled X s) {free : List PoolSlot} {js : List Job} (jobs : Y js)
    (kept : ∀ y, free.count y + queued js y = s.poolFree.count y + queued s.jobs y) :
    Pooled Y { s with poolFree := free, jobs := js } := by
  refine ⟨fun y => ?_, jobs, P.free⟩
  have before := P.tally y
  have kept := kept y
  unfold tally at before ⊢
  change free.count y + s.residents y + queued js y + s.bounds y = 1
  omega

theorem whole_head (whole : Whole s.jobs) (jobs : s.jobs = j :: rest) : j.Good ∧ Whole rest := by
  rw [jobs] at whole
  exact ⟨whole j List.mem_cons_self, fun k mem => whole k (List.mem_cons_of_mem _ mem)⟩

theorem whole_filter {js : List Job} (whole : Whole js) (q : Job → Bool) : Whole (js.filter q) := fun k mem =>
  whole k (List.mem_filter.1 mem).1

/-- The current job ends, and its slots are free (R112, R126). -/
theorem headGone_pooled (P : Pooled Whole s) (jobs : s.jobs = j :: rest) :
    Pooled Whole { s with burst := none, jobs := rest, poolFree := j.slots ++ s.poolFree } := by
  have gone : Pooled Whole { s with jobs := rest, poolFree := j.slots ++ s.poolFree } := by
    refine exchanged_pooled P (whole_head P.jobs jobs).2 fun y => ?_
    rw [jobs, queued_cons, List.count_append]
    omega
  exact gone.pools (.same (by rfl))

theorem breakRing_pooled (P : Pooled Whole s) (jobs : s.jobs = j :: rest) :
    Pooled Whole (State.breakRing { s with burst := none } j rest) := by
  unfold breakRing
  dsimp only
  have gone : Pooled Whole { s with
      jobs := rest.filter fun k => k.inbox ≠ j.inbox
      poolFree := (j.slots ++ (rest.filter fun k => k.inbox = j.inbox).flatMap Job.slots) ++ s.poolFree } := by
    refine exchanged_pooled P (whole_filter (whole_head P.jobs jobs).2 _) fun y => ?_
    have split := queued_split (x := y) rest j.inbox
    rw [jobs, queued_cons, List.count_append, List.count_append]
    change _ + queued (rest.filter fun k => k.inbox = j.inbox) y + _ + _ = _
    omega
  have ended : Pooled Whole (({ s with burst := none, jobs := rest.filter fun k => k.inbox ≠ j.inbox } : State).freeSlotList
      (j.slots ++ (rest.filter fun k => k.inbox = j.inbox).flatMap Job.slots)) := gone.pools (.same (by rfl))
  have broken := ended.pools (.modInbox _ j.inbox (f := fun ib => ib.break ib.occupancy) fun _ => rfl)
  exact broken.pools (t := State.undefer _ j.inbox) (.same (by rfl))

/-- A burst of a refill brings a message to the resident list (R114). -/
theorem refilled_pooled (P : Pooled Whole s) (jobs : s.jobs = j :: rest) (slots : j.slots = x :: xs) (owned : s.owns j = true) :
    Pooled (Follows (refillAdvanced j xs)) (({ s with burst := none, jobs := refillAdvanced j xs :: rest } : State).modInbox
      j.inbox fun ib => { ib with resident := ib.resident ++ [x], refilling := ib.refilling - 1 }) := by
  obtain ⟨⟨-, counted⟩, whole⟩ := whole_head P.jobs jobs
  have follows : Follows (refillAdvanced j xs) (refillAdvanced j xs :: rest) := by
    refine ⟨rest, rfl, ?_, whole⟩
    rw [slots, List.length_cons] at counted
    change j.burstsDone + 1 + xs.length = j.count
    omega
  have occupied := occupied_of_live ((State.owns_iff (s := s)).1 owned).1
  refine ⟨fun y => ?_, follows, fun k empty => ?_⟩
  · have before := P.tally y
    have inboxes := residents_modInbox (x := y) (s := { s with burst := none, jobs := refillAdvanced j xs :: rest })
      (h := j.inbox) fun ib => { ib with resident := ib.resident ++ [x], refilling := ib.refilling - 1 }
    have one : queued s.jobs y = [x].count y + (xs.count y + queued rest y) := by
      rw [jobs, queued_cons, slots, ← Nat.add_assoc, ← List.count_append]; rfl
    have left : queued (refillAdvanced j xs :: rest) y = xs.count y + queued rest y := queued_cons
    unfold tally at before ⊢
    change _ + (s.inbox j.inbox).resident.count y = s.residents y + ((s.inbox j.inbox).resident ++ [x]).count y at inboxes
    rw [List.count_append] at inboxes
    change s.poolFree.count y + _ + queued (refillAdvanced j xs :: rest) y + s.bounds y = 1
    omega
  · have other : k ≠ j.inbox.slot := by rintro rfl; exact occupied empty
    rw [modInbox_resident other]
    exact P.free k empty

theorem placed_engine : Engine (fun s => (s.Linked ∧ Unbound s) ∧ Pooled Whole s)
    fun j s => (s.Linked ∧ Unbound s) ∧ Pooled (Follows j) s where
  toFlow := pooled_flow whole_extends
  loose j := pooled_flow (follows_extends j)
  timer f w k := ⟨unbound_engine.timer f w k.1, k.2.pools (.same (by rfl))⟩
  started k := ⟨unbound_engine.started k.1, by rw [startAttempt_eq]; exact k.2.pools (.same (by rfl))⟩
  unowned k head out := ⟨unbound_engine.unowned k.1 head out, headGone_pooled k.2 head⟩
  spilled k burst write head own :=
    ⟨unbound_engine.spilled k.1 burst write head own, (headGone_pooled k.2 head).pools (.modInbox _ _ fun _ => rfl)⟩
  refilled k burst read head slots own :=
    ⟨unbound_engine.refilled k.1 burst read head slots own, refilled_pooled k.2 head slots own⟩
  more {s j} k more := by
    refine ⟨k.1, k.2.tally, ?_, k.2.free⟩
    obtain ⟨rest, jobs, counted, whole⟩ := k.2.jobs
    have good : j.Good := ⟨fun none => by rw [none] at counted; exact more counted, counted⟩
    rw [jobs]
    exact fun i mem => (List.mem_cons.1 mem).elim (fun same => same ▸ good) (whole i)
  last {s j} k done := by
    refine ⟨unbound_engine.last (j := j) k.1 done, ?_⟩
    obtain ⟨rest, jobs, counted, whole⟩ := k.2.jobs
    have none : j.slots = [] := List.length_eq_zero_iff.1 (by omega)
    have ended : Pooled Whole { s with poolFree := s.poolFree, jobs := rest } := exchanged_pooled k.2 whole fun y => by
      rw [jobs, queued_cons, none]; simp
    rw [jobs]
    exact ended
  retried {s j rest} k head := by
    refine ⟨unbound_engine.retried k.1 head, ?_⟩
    obtain ⟨good, whole⟩ := whole_head k.2.jobs head
    have marked : Pooled Whole { s with poolFree := s.poolFree, jobs := { j with attempt := .second } :: rest } := by
      refine exchanged_pooled k.2 ?_ fun y => by rw [head, queued_cons, queued_cons]
      exact fun i mem => (List.mem_cons.1 mem).elim (fun same => same ▸ good) (whole i)
    exact marked.pools (.same (by rfl))
  broken k head own := ⟨unbound_engine.broken k.1 head own, breakRing_pooled k.2 head⟩
  ended k := ⟨unbound_engine.ended k.1, k.2.pools (.same (by rfl))⟩
  lost p cause k := ⟨unbound_engine.lost p cause k.1, k.2.stores ((modPort_stores p _).trans (loseTask_stores p _))⟩

/-! ### Commands -/

theorem create_pooled (L : s.Linked) (P : Pooled X s) (p : Port) : Pooled X (s.create p) := by
  unfold create
  dsimp only
  split
  case h_2 => exact P.stores (modPort_stores p _)
  unfold createTask
  split
  case h_2 => exact P.stores (modPort_stores p _)
  case h_1 slot rest free =>
    have none : s.tasks[slot].task = none := (L.free slot).1 (by rw [free]; exact List.mem_cons_self)
    refine Pooled.stores (s := ({ s with freeSlots := rest } : State).makeTask slot _) ?_ (modPort_stores p _)
    have task (k : Slot) : (({ s with freeSlots := rest } : State).makeTask slot (Task.new ‹_› ‹_› ‹_›)).tasks[k] =
        if k = slot then ⟨s.tasks[slot].gen, some (Task.new ‹_› ‹_› ‹_›)⟩ else s.tasks[k] := getElem_set_fin ..
    have inbox (k : Slot) : (({ s with freeSlots := rest } : State).makeTask slot (Task.new ‹_› ‹_› ‹_›)).inboxes[k] =
        if k = slot then Inbox.default else s.inboxes[k] := getElem_set_fin ..
    have empty := P.free slot none
    refine ⟨fun x => ?_, P.jobs, fun k vacant => ?_⟩
    · refine Eq.trans ?_ (P.tally x)
      unfold tally residents bounds
      refine congrArg₂ (· + ·) (congrArg₂ (· + ·) (congrArg₂ (· + ·) rfl ?_) rfl) ?_
      · refine Finset.sum_congr rfl fun k _ => ?_
        rw [inbox]
        split
        case isTrue same => subst same; rw [empty]; rfl
        case isFalse => rfl
      · refine Finset.sum_congr rfl fun k _ => ?_
        rw [task]
        split
        case isTrue same => subst same; rw [none]; rfl
        case isFalse => rfl
    · rw [inbox]
      split
      · rfl
      case isFalse other =>
        rw [task, if_neg other] at vacant
        exact P.free k vacant

/-- Emptying an inbox frees the slots of its messages and of its queued jobs (R23, R103). -/
theorem emptyInbox_pooled (P : Pooled Whole s) (live : s.live h = true) : Pooled Whole (s.emptyInbox h) := by
  have split := fun y => queued_split (x := y) s.jobs.tail h
  have whole : Whole (s.jobs.take 1 ++ s.jobs.tail.filter fun k => k.inbox ≠ h) := by
    intro k mem
    rcases List.mem_append.1 mem with first | later
    · exact P.jobs k (List.mem_of_mem_take first)
    · exact P.jobs k (List.mem_of_mem_tail (List.mem_filter.1 later).1)
  have moved : Pooled Whole (({ s with
      poolFree := ((s.inbox h).resident ++ (s.jobs.tail.filter fun k => k.inbox = h).flatMap Job.slots) ++ s.poolFree
      jobs := s.jobs.take 1 ++ s.jobs.tail.filter fun k => k.inbox ≠ h } : State).modInbox h Inbox.emptied) := by
    refine moved_pooled P (occupied_of_live live) whole fun y => ?_
    have parts : queued s.jobs y = queued (s.jobs.take 1) y + queued s.jobs.tail y := by
      rw [← queued_append]; cases s.jobs <;> rfl
    have split := split y
    rw [queued_append, List.count_append, List.count_append]
    change _ + queued (s.jobs.tail.filter fun k => k.inbox = h) y + _ + ([] : List PoolSlot).count y + _ = _
    rw [List.count_nil]
    omega
  have listed : Pooled Whole { s.withInbox h { s.inbox h with
        resident := [], spilling := 0, backed := 0, refilling := 0, writeIndex := 0, readIndex := 0 } with
      jobs := s.jobs.take 1 ++ s.jobs.tail.filter fun k => k.inbox ≠ h
      deferred := s.deferred.filter fun k => k ≠ h
      poolFree := ((s.inbox h).resident ++ (s.jobs.tail.filter fun k => k.inbox = h).flatMap Job.slots) ++ s.poolFree } :=
    moved.pools (.same (by rfl))
  rw [emptyInbox_eq]
  split
  · exact listed
  · exact retryDeferred_pooled whole_extends listed

theorem markCurrent_pooled (P : Pooled Whole s) (h : Handle) : Pooled Whole { s with jobs := markCurrent h s.jobs } := by
  have marked : Pooled Whole { s with poolFree := s.poolFree, jobs := markCurrent h s.jobs } := by
    refine exchanged_pooled P (fun k mem => ?_) fun y => ?_
    · have whole := P.jobs
      cases jobs : s.jobs with
      | nil => rw [jobs] at mem; cases mem
      | cons j rest =>
        obtain ⟨good, others⟩ := whole_head whole jobs
        rw [jobs] at mem
        rcases List.mem_cons.1 mem with rfl | later
        · split
          · exact good
          · exact good
        · exact others k later
    · cases s.jobs with
      | nil => rfl
      | cons j rest =>
        unfold markCurrent
        rw [queued_cons, queued_cons]
        split <;> rfl
  exact marked

theorem removeTask_pooled (P : Pooled Whole s) (h : Handle) (v : Task) (e : s.task? h = some v) :
    Pooled Whole (s.removeTask h v) := by
  have aborted : Stores s (((s.detachTask h v.state .gone).abortSeed h v.seedPort).undoWait h) := by
    refine ((detachTask_stores h v.state .gone).trans ?_).trans (undoWait_stores h)
    unfold abortSeed
    split
    · exact (modPort_stores _ _).trans (modTask_stores h fun _ => rfl)
    · exact .refl _
  have P := P.stores aborted
  have same := aborted.bound h
  unfold removeTask
  generalize ((s.detachTask h v.state .gone).abortSeed h v.seedPort).undoWait h = u at P same ⊢
  obtain ⟨w, f, bound⟩ := exists_of_map_eq same.symm e
  have freed := unbind_pooled P f (f := fun t => { t with state := .dormant, bound := none }) rfl
  rw [returnSlots_eq]
  split
  case isTrue none =>
    rw [bound, none] at freed
    exact freed
  case isFalse =>
    rw [bound] at freed
    exact retryDeferred_pooled whole_extends freed

theorem removeTask_unbinds (e : s.task? h = some v) : ((s.removeTask h v).task? h).map Task.bound = some none := by
  have aborted : Stores s (((s.detachTask h v.state .gone).abortSeed h v.seedPort).undoWait h) := by
    refine ((detachTask_stores h v.state .gone).trans ?_).trans (undoWait_stores h)
    unfold abortSeed
    split
    · exact (modPort_stores _ _).trans (modTask_stores h fun _ => rfl)
    · exact .refl _
  obtain ⟨w, f, -⟩ := exists_of_map_eq (aborted.bound h).symm e
  unfold removeTask
  rw [(returnSlots_binds _).bound h, task?_modTask_self _ _ f]
  rfl

theorem retryDeferred_resident (k : Slot) : s.retryDeferred.inboxes[k].resident = s.inboxes[k].resident := by
  refine retryDeferred_keeps (P := fun t => t.inboxes[k].resident = s.inboxes[k].resident) (fun {u t i} kept _ made => ?_)
    (fun _ kept => kept) rfl
  obtain ⟨-, -, -, rfl⟩ := createRefill_eq made
  refine Eq.trans ?_ kept
  have get (f : Inbox → Inbox) (u : State) : (u.modInbox i f).inboxes[k] = if k = i.slot then f (u.inbox i) else u.inboxes[k] :=
    getElem_set_fin ..
  rw [get]
  split
  case isTrue same => subst same; rfl
  case isFalse => rfl

theorem emptyInbox_resident (h : Handle) : ((s.emptyInbox h).inbox h).resident = [] := by
  have get : (s.withInbox h { s.inbox h with
      resident := [], spilling := 0, backed := 0, refilling := 0, writeIndex := 0, readIndex := 0 }).inboxes[h.slot].resident = [] := by
    refine congrArg Inbox.resident ((getElem_set_fin ..).trans (if_pos rfl))
  rw [emptyInbox_eq]
  split
  · exact get
  · exact (retryDeferred_resident h.slot).trans get

/-- A task that holds no slot leaves its record. -/
theorem freeSlot_pooled (P : Pooled X s) (unbound : (s.task? h).map Task.bound = some none)
    (empty : (s.inbox h).resident = []) : Pooled X (s.freeSlot h) := by
  obtain ⟨v, e, none⟩ := Option.map_eq_some_iff.1 unbound
  have record := (s.task?_eq.1 e).2
  have task (k : Slot) : (s.freeSlot h).tasks[k] = if k = h.slot then ⟨nextGeneration h.gen, Option.none⟩ else s.tasks[k] :=
    getElem_set_fin ..
  refine ⟨fun x => (Eq.trans ?_ (P.tally x)), P.jobs, fun k vacant => ?_⟩
  · unfold tally bounds
    refine congrArg₂ (· + ·) rfl (Finset.sum_congr rfl fun k _ => ?_)
    rw [task]
    split
    case isTrue same =>
      subst same
      rw [record]
      exact congrArg (fun b => b.toList.count x) none.symm
    case isFalse => rfl
  · rw [task] at vacant
    split at vacant
    case isTrue same => subst same; exact empty
    case isFalse => exact P.free k vacant

theorem unsetSink_pools (h : Handle) : Pools s (s.unsetSink h) := .same (by rfl)

/-- After the release of the senders, DESTROY moves no slot (R23). -/
theorem disposeInbox_pools (h : Handle) : Pools ((s.emptyInbox h).releaseAllGone h) (s.disposeInbox h) := by
  unfold disposeInbox
  generalize (s.emptyInbox h).releaseAllGone h = u
  exact (mapLines_pools (LineRec.clearDestroyed h)).trans (unsetSink_pools h)

theorem setInbox_pools (p : Port) : Pools s (s.setInbox p) := by
  have answer {u : State} (c : ResultCode) : Pools u (u.setResult p c 0#16) := .stores (modPort_stores p _)
  unfold setInbox
  dsimp only
  split
  · exact answer _
  split
  · exact answer _
  split
  · exact answer _
  · exact (Pools.modInbox s (s.handleArg p) (f := fun ib => ib.setLimits (s.port p).inboxLimits) fun _ => rfl).trans (answer _)

theorem destroyed_pooled (L : s.Linked) (P : Pooled Whole s) (e : s.task? h = some v) :
    Pooled Whole (((s.removeTask h v).disposeInbox h).freeSlot h) := by
  obtain ⟨removed, w, f, -⟩ := removeTask_linked L e
  have emptied := emptyInbox_pooled (removeTask_pooled P h v e) (h := h) (by unfold State.live; rw [f]; rfl)
  have released := emptied.stores (releaseAllGone_wakes _ h).stores
  refine freeSlot_pooled (released.pools (disposeInbox_pools h)) ?_ ?_
  · rw [(disposeInbox_pools (s := s.removeTask h v) h).bound, (releaseAllGone_wakes _ h).bound,
      (emptyInbox_binds (s := s.removeTask h v) h).bound]
    exact removeTask_unbinds e
  · refine ((disposeInbox_pools (s := s.removeTask h v) h).resident h.slot).trans ?_
    exact (congrArg Inbox.resident ((releaseAllGone_wakes _ h).inbox h.slot)).trans (emptyInbox_resident h)

theorem placed_commands : Commands (fun s => (s.Linked ∧ Unbound s) ∧ Pooled Whole s)
    fun j s => (s.Linked ∧ Unbound s) ∧ Pooled (Follows j) s where
  toEngine := placed_engine
  task {s c p} kind k taken := by
    refine ⟨unbound_commands.task kind k.1 taken, ?_⟩
    by_cases limit : c = .setInbox
    · subst limit
      exact k.2.pools (setInbox_pools p)
    exact k.2.stores (commandEffect_stores kind limit p)
  sendWait n k run e live other :=
    ⟨unbound_commands.sendWait n k.1 run e live other, k.2.stores (beginSendWait_stores ..)⟩
  receiveWait n k run e := ⟨unbound_commands.receiveWait n k.1 run e, k.2.stores (receiveWait_stores ..)⟩
  receivePending k run e := ⟨unbound_commands.receivePending k.1 run e, k.2.stores (receivePending_stores ..)⟩
  emptied {s h} k live := by
    refine ⟨unbound_commands.emptied k.1 live, ?_⟩
    exact (emptyInbox_pooled (markCurrent_pooled k.2 h) live).pools (.modInbox _ h fun _ => rfl)
  destroyed k e := ⟨unbound_commands.destroyed k.1 e, destroyed_pooled k.1.1 k.2 e⟩
  checkedOut {s p h t n i} k loading e := by
    refine ⟨unbound_commands.checkedOut k.1 loading e, ?_⟩
    exact unbind_pooled (k.2.stores (modPort_stores p _)) (s := s.setPortState p (.run h false)) e rfl
  loaded k loading := ⟨unbound_commands.loaded k.1 loading, k.2.stores (modPort_stores _ _)⟩
  written p w k := ⟨unbound_commands.written p w k.1, k.2.stores (writeFrame_stores p w)⟩
  reset := by
    obtain ⟨unbound, pooled⟩ := slotsPlaced_iff.1 reset_slotsPlaced
    exact ⟨⟨linked_commands.reset, unbound⟩, pooled⟩
  leveled levels k := ⟨unbound_commands.leveled levels k.1, k.2.pools (.same (by rfl))⟩

/-- Every step keeps every pool slot in one place (R106). -/
theorem slotsPlaced_step (L : s.Linked) (placed : s.SlotsPlaced) (run : step s = .next t) : t.SlotsPlaced := by
  obtain ⟨unbound, pooled⟩ := slotsPlaced_iff.1 placed
  obtain ⟨⟨-, unbound⟩, pooled⟩ := (placed_commands.keeps fun p k =>
    ⟨⟨create_linked k.1.1 p, create_unbound k.1.1 k.1.2 p⟩, create_pooled k.1.1 k.2 p⟩).step
    (fun _ k => ⟨⟨k.1.1.same, k.1.2.binds (.same (by rfl))⟩, k.2.pools (.same (by rfl))⟩) ⟨⟨L, unbound⟩, pooled⟩ run
  exact slotsPlaced_iff.2 ⟨unbound, pooled⟩

end State
end Sys2Proof.Machine
end

section
/-! ## The counts of the inboxes and their jobs (R79, R116) -/

namespace Sys2Proof.Machine

/-- What a job adds to the counts of the inbox of `h`: a message in spill, messages in refill, a refill. -/
def Job.load (j : Job) (h : Handle) : Nat × Nat × Nat :=
  (if j.serves .spill h then 1 else 0, if j.serves .refill h then j.slots.length else 0, if j.serves .refill h then 1 else 0)

/-- What the jobs of a queue make of the counts of the inbox of `h`. -/
def loads (js : List Job) (h : Handle) : Nat × Nat × Nat := (js.map fun j => j.load h).sum

/-- The counts of an inbox are within its limits (R79). -/
def Inbox.Fits (ib : Inbox) : Prop := ib.resident.length + ib.refilling ≤ ib.limit ∧ ib.occupancy ≤ ib.capacity

/-- The counts of an inbox are what its jobs make of them, of which at most one is a refill (R116). -/
def Inbox.Matches (ib : Inbox) (load : Nat × Nat × Nat) : Prop :=
  ib.spilling = load.1 ∧ ib.refilling = load.2.1 ∧ load.2.2 ≤ 1

/-- A burst in progress is the current job's, of its direction (R119, R120). -/
def BurstOf (s : State) : Prop := ∀ b, s.burst = some b → ∃ j rest, s.jobs = j :: rest ∧ b.write = (j.kind == .spill)

/-- The counts are within the limits, and those of the inboxes `X` speaks of are those of their jobs. -/
structure Counts (X : Handle → Prop) (s : State) : Prop where
  fits : ∀ k : Slot, s.inboxes[k].Fits
  serves : ∀ h, X h → s.live h = true → (s.inbox h).Matches (loads s.jobs h)
  burst : BurstOf s

section
variable {j : Job} {js ks : List Job} {h k : Handle}

@[simp] theorem loads_nil : loads [] h = 0 := rfl

theorem loads_cons : loads (j :: js) h = j.load h + loads js h := by simp [loads]

theorem loads_append : loads (js ++ ks) h = loads js h + loads ks h := by simp [loads]

theorem loads_singleton : loads [j] h = j.load h := by simp [loads]

theorem Job.load_of_other (other : j.inbox ≠ h) : j.load h = 0 := by
  have out (kind : JobKind) : j.serves kind h = false := by simp [Job.serves, other]
  simp [Job.load, out]

theorem Job.load_of_marked (marked : j.resetMark = true) : j.load h = 0 := by
  have out (kind : JobKind) : j.serves kind h = false := by simp [Job.serves, marked]
  simp [Job.load, out]

theorem Job.load_spill (kind : j.kind = .spill) (own : j.inbox = h) (mark : j.resetMark = false) : j.load h = (1, 0, 0) := by
  simp [Job.load, Job.serves, kind, own, mark]

theorem Job.load_refill (kind : j.kind = .refill) (own : j.inbox = h) (mark : j.resetMark = false) :
    j.load h = (0, j.slots.length, 1) := by
  simp [Job.load, Job.serves, kind, own, mark]

/-- The jobs of an inbox are not those of another. -/
theorem loads_filter_other (other : k ≠ h) : loads (js.filter fun j => j.inbox ≠ h) k = loads js k := by
  induction js with
  | nil => rfl
  | cons j rest ih =>
    by_cases own : j.inbox = h
    · rw [List.filter_cons_of_neg (by simpa using own), ih, loads_cons, Job.load_of_other (own.trans_ne other.symm), zero_add]
    · rw [List.filter_cons_of_pos (by simpa using own), loads_cons, loads_cons, ih]

theorem loads_of_none (none : ∀ j ∈ js, j.inbox ≠ h) : loads js h = 0 := by
  induction js with
  | nil => rfl
  | cons j rest ih =>
    rw [loads_cons, Job.load_of_other (none j List.mem_cons_self), zero_add]
    exact ih fun i mem => none i (List.mem_cons_of_mem _ mem)

theorem loads_filter_own : loads (js.filter fun j => j.inbox ≠ h) h = 0 :=
  loads_of_none fun j mem => by simpa using (List.mem_filter.1 mem).2

theorem loads_eq : loads js h = (js.countP (Job.serves · .spill h),
    ((js.filter (Job.serves · .refill h)).flatMap Job.slots).length, js.countP (Job.serves · .refill h)) := by
  induction js with
  | nil => rfl
  | cons j rest ih =>
    rw [loads_cons, ih, List.countP_cons, List.countP_cons, Job.load]
    refine Prod.ext (Nat.add_comm ..) (Prod.ext ?_ (Nat.add_comm ..))
    by_cases serves : j.serves .refill h = true
    · rw [List.filter_cons_of_pos (p := (Job.serves · .refill h)) serves, List.flatMap_cons, List.length_append, if_pos serves]
      rfl
    · rw [List.filter_cons_of_neg (p := (Job.serves · .refill h)) serves, if_neg serves]
      exact Nat.zero_add _

end

theorem countsAgree_iff {s : State} : s.CountsAgree ↔ Counts (fun _ => True) s := by
  constructor
  · intro C
    refine ⟨fun k => ⟨C.resident k, C.ring k⟩, fun h _ live => ?_, C.burst⟩
    rw [loads_eq]
    exact ⟨C.spilling h live, C.refilling h live, C.oneRefill h live⟩
  · intro C
    have serves (h : Handle) (live : s.live h = true) := C.serves h trivial live
    simp only [loads_eq] at serves
    exact ⟨fun k => (C.fits k).1, fun k => (C.fits k).2, fun h live => (serves h live).1, fun h live => (serves h live).2.1,
      fun h live => (serves h live).2.2, C.burst⟩

/-- The counts, the jobs and the burst stay as they are. -/
structure Tallies (s t : State) : Prop where
  jobs : t.jobs = s.jobs
  burst : t.burst = s.burst
  inbox : ∀ k : Slot, storedIn t.inboxes[k] = storedIn s.inboxes[k]
  live : ∀ h, t.live h = s.live h

section
variable {s t u : State} {X : Handle → Prop} {h k : Handle} {ib jb : Inbox}

theorem Inbox.Fits.congr (F : ib.Fits) (same : storedIn jb = storedIn ib) : jb.Fits := by
  simp only [storedIn, Prod.mk.injEq] at same
  obtain ⟨resident, spilling, backed, refilling, limit, capacity⟩ := same
  unfold Inbox.Fits Inbox.occupancy at F ⊢
  rwa [resident, spilling, backed, refilling, limit, capacity]

theorem Inbox.Matches.congr {load : Nat × Nat × Nat} (M : ib.Matches load) (same : storedIn jb = storedIn ib) : jb.Matches load := by
  simp only [storedIn, Prod.mk.injEq] at same
  obtain ⟨-, spilling, -, refilling, -⟩ := same
  unfold Inbox.Matches at M ⊢
  rwa [spilling, refilling]

namespace Tallies

theorem stores (S : Stores s t) : Tallies s t := ⟨S.jobs, S.burst, S.inbox, S.live⟩

theorem same (kept : (t.jobs, t.burst, t.inboxes, t.tasks) = (s.jobs, s.burst, s.inboxes, s.tasks)) : Tallies s t := by
  obtain ⟨jobs, kept⟩ := Prod.mk.inj kept
  obtain ⟨burst, kept⟩ := Prod.mk.inj kept
  obtain ⟨inboxes, tasks⟩ := Prod.mk.inj kept
  exact ⟨jobs, burst, fun k => by rw [inboxes], State.live_congr tasks⟩

theorem trans (a : Tallies s t) (b : Tallies t u) : Tallies s u :=
  ⟨b.jobs.trans a.jobs, b.burst.trans a.burst, fun k => (b.inbox k).trans (a.inbox k), fun h => (b.live h).trans (a.live h)⟩

theorem modInbox (s : State) (h : Handle) {f : Inbox → Inbox} (kept : ∀ ib, storedIn (f ib) = storedIn ib) :
    Tallies s (s.modInbox h f) := .stores (State.modInbox_stores h kept)

end Tallies

theorem Counts.tallies (C : Counts X s) (T : Tallies s t) : Counts X t where
  fits k := (C.fits k).congr (T.inbox k)
  serves h own live := T.jobs ▸ (C.serves h own ((T.live h).symm.trans live)).congr (T.inbox h.slot)
  burst b some := T.jobs ▸ C.burst b (T.burst ▸ some)

theorem Counts.stores (C : Counts X s) (S : Stores s t) : Counts X t := C.tallies (.stores S)

/-- An inbox changes without a change of what is owed to it by jobs. -/
theorem Counts.refit (C : Counts X s) {f : Inbox → Inbox} (fits : (f (s.inbox h)).Fits)
    (kept : (f (s.inbox h)).spilling = (s.inbox h).spilling ∧ (f (s.inbox h)).refilling = (s.inbox h).refilling) :
    Counts X (s.modInbox h f) := by
  have get (k : Slot) : (s.modInbox h f).inboxes[k] = if k = h.slot then f (s.inbox h) else s.inboxes[k] := getElem_set_fin ..
  refine ⟨fun k => ?_, fun k here alive => ?_, C.burst⟩
  · rw [get]
    split
    · exact fits
    · exact C.fits k
  · have record : (s.modInbox h f).inbox k = if k.slot = h.slot then f (s.inbox h) else s.inbox k := get k.slot
    have serves := C.serves k here alive
    rw [record]
    split
    case isTrue same =>
      have here : s.inbox k = s.inbox h := congrArg (fun i : Slot => s.inboxes[i]) same
      rw [here] at serves
      exact ⟨kept.1.trans serves.1, kept.2.trans serves.2.1, serves.2.2⟩
    case isFalse => exact serves

/-- The jobs change, and with them the counts of one inbox. -/
theorem Counts.movedTo {Y : Handle → Prop} (C : Counts X s) (live : s.live h = true) {js : List Job} {f : Inbox → Inbox}
    (tasks : t.tasks = s.tasks) (inboxes : t.inboxes = s.inboxes) (jobs : t.jobs = js) (burst : BurstOf t)
    (speaks : ∀ k, k ≠ h → Y k → X k)
    (others : ∀ k, k ≠ h → s.live k = true → loads js k = loads s.jobs k) (fits : (f (s.inbox h)).Fits)
    (own : Y h → (f (s.inbox h)).Matches (loads js h)) : Counts Y (t.modInbox h f) := by
  have get (k : Slot) : (t.modInbox h f).inboxes[k] = if k = h.slot then f (s.inbox h) else s.inboxes[k] := by
    have base : (t.modInbox h f).inboxes[k] = if k = h.slot then f (t.inbox h) else t.inboxes[k] := getElem_set_fin ..
    rw [base, State.inbox_congr inboxes, inboxes]
  refine ⟨fun k => ?_, fun k here alive => ?_, burst⟩
  · rw [get]
    split
    · exact fits
    · exact C.fits k
  · have alive : s.live k = true := (State.live_congr tasks k).symm.trans alive
    have record : (t.modInbox h f).inbox k = if k.slot = h.slot then f (s.inbox h) else s.inbox k := get k.slot
    rw [record]
    change Inbox.Matches _ (loads t.jobs k)
    rw [jobs]
    by_cases same : k = h
    · subst same
      rw [if_pos rfl]
      exact own here
    · rw [if_neg fun slot => same (State.live_inj alive live slot), others k same alive]
      exact C.serves k (speaks k same here) alive

theorem Counts.moved (C : Counts X s) (live : s.live h = true) {js : List Job} {f : Inbox → Inbox}
    (tasks : t.tasks = s.tasks) (inboxes : t.inboxes = s.inboxes) (jobs : t.jobs = js) (burst : BurstOf t)
    (others : ∀ k, k ≠ h → s.live k = true → loads js k = loads s.jobs k) (fits : (f (s.inbox h)).Fits)
    (own : X h → (f (s.inbox h)).Matches (loads js h)) : Counts X (t.modInbox h f) :=
  C.movedTo live tasks inboxes jobs burst (fun _ _ here => here) others fits own

end
end Sys2Proof.Machine
end

section
/-! ## `Counts` through the flow of messages and the engine -/

namespace Sys2Proof.Machine
namespace State
variable {X : Handle → Prop} {s t : State} {p : Port} {h k : Handle} {v w : Task} {x y : PoolSlot} {xs : List PoolSlot}
  {j : Job} {rest : List Job}

/-- A job joins the queue behind the current one. -/
theorem burstOf_append (B : BurstOf s) {js : List Job} (jobs : t.jobs = s.jobs ++ js) (burst : t.burst = s.burst) : BurstOf t := by
  intro b some
  obtain ⟨j, rest, head, write⟩ := B b (burst.symm.trans some)
  exact ⟨j, rest ++ js, by rw [jobs, head]; rfl, write⟩

theorem burstOf_none (ended : s.burst = none) : BurstOf s := fun _ some => absurd (ended.symm.trans some) (by simp)

theorem loads_of_no_refill {js : List Job} (none : ∀ j ∈ js, j.serves .refill h = false) : (loads js h).2 = (0, 0) := by
  have filtered : js.filter (Job.serves · .refill h) = [] :=
    List.filter_eq_nil_iff.2 fun j mem serves => by rw [none j mem] at serves; cases serves
  have none : js.countP (Job.serves · .refill h) = 0 := by rw [List.countP_eq_length_filter, filtered]; rfl
  rw [loads_eq, filtered, none]
  rfl

/-- A refill job is made for an inbox that has none, of as many messages as are backed and find room (R113, R116). -/
theorem made_counts (C : Counts X s) (need : s.refillNeeded h = true) (own : X h) (made : s.createRefill h = some t) :
    Counts X t := by
  obtain ⟨task, -, -, none, -⟩ := refillNeeded_iff.1 need
  obtain ⟨-, -, enough, rfl⟩ := createRefill_eq made
  have backed : s.grant (min (s.inbox h).backed ((s.inbox h).limit - (s.inbox h).resident.length)) ≤ (s.inbox h).backed := by
    unfold grant; omega
  have room : s.grant (min (s.inbox h).backed ((s.inbox h).limit - (s.inbox h).resident.length)) ≤
      (s.inbox h).limit - (s.inbox h).resident.length := by unfold grant; omega
  generalize s.grant (min (s.inbox h).backed ((s.inbox h).limit - (s.inbox h).resident.length)) = a at enough backed room ⊢
  have idle : (loads s.jobs h).2 = (0, 0) := loads_of_no_refill fun j mem => by
    cases serves : j.serves .refill h with
    | false => rfl
    | true =>
      simp only [Job.serves, Bool.and_eq_true, beq_iff_eq] at serves
      exact absurd serves.1.2 (none j mem serves.1.1)
  obtain ⟨spilling, refilling, -⟩ := C.serves h own task
  rw [idle] at refilling
  obtain ⟨fits, ring⟩ := C.fits h.slot
  change (s.inbox h).resident.length + (s.inbox h).refilling ≤ (s.inbox h).limit at fits
  change (s.inbox h).spilling + (s.inbox h).backed + (s.inbox h).refilling ≤ (s.inbox h).capacity at ring
  change (s.inbox h).refilling = 0 at refilling
  have load : ((s.inbox h).refillJob h (s.poolFree.take a)).load h = (0, a, 1) := by
    rw [Job.load_refill (h := h) (j := (s.inbox h).refillJob h (s.poolFree.take a)) rfl rfl rfl]
    exact congrArg (fun n => (0, n, 1)) (List.length_take_of_le enough)
  refine C.moved task rfl rfl rfl (burstOf_append C.burst rfl rfl) (fun k other _ => ?_) ⟨?_, ?_⟩ fun _ => ?_
  · rw [loads_append, loads_singleton, Job.load_of_other other.symm, add_zero]
  · change (s.inbox h).resident.length + ((s.inbox h).refilling + a) ≤ (s.inbox h).limit
    omega
  · change (s.inbox h).spilling + ((s.inbox h).backed - a) + ((s.inbox h).refilling + a) ≤ (s.inbox h).capacity
    omega
  · rw [loads_append, loads_singleton, load]
    refine ⟨spilling, ?_, ?_⟩
    · change (s.inbox h).refilling + a = (loads s.jobs h).2.1 + a
      rw [idle, refilling]
    · change (loads s.jobs h).2.2 + 1 ≤ 1
      rw [idle]

theorem mapLines_tallies (f : LineRec → LineRec) : Tallies s (s.mapLines f) :=
  .same (by rw [mapLines_jobs, mapLines_burst, mapLines_inboxes, mapLines_tasks])

theorem modTask_live (h k : Handle) (f : Task → Task) : (s.modTask h f).live k = s.live k := by
  unfold State.live
  rw [task?_modTask]
  split
  case isTrue same => subst same; exact Option.isSome_map
  case isFalse => rfl

theorem modTask_tallies (h : Handle) (f : Task → Task) : Tallies s (s.modTask h f) :=
  ⟨modTask_jobs .., modTask_burst .., fun k => by rw [modTask_inboxes], fun k => modTask_live h k f⟩

theorem handOff_tallies : Tallies s ((((({ s with poolFree := xs } : State).modInbox h Inbox.advanceSeq).modTask h
      fun t => { t with bound := some x }).removeDeadline h).wake h .ok) := by
  have taken : Tallies s ({ s with poolFree := xs } : State) := .same (by rfl)
  have advanced := taken.trans (.modInbox _ h (f := Inbox.advanceSeq) fun _ => rfl)
  have bound := advanced.trans (modTask_tallies h fun t => { t with bound := some x })
  have timed := bound.trans (u := State.removeDeadline _ h) (.same (by rfl))
  exact timed.trans (.stores (wake_wakes h .ok).stores)

theorem resident_counts (C : Counts X s) (none : (s.inbox h).occupancy = 0)
    (room : (s.inbox h).resident.length < (s.inbox h).limit) : Counts X (({ s with poolFree := xs } : State).modInbox h
      fun ib => { ib.advanceSeq with resident := ib.resident ++ [x] }) := by
  have taken : Counts X ({ s with poolFree := xs } : State) := C.tallies (.same (by rfl))
  refine taken.refit ⟨?_, (C.fits h.slot).2⟩ ⟨rfl, rfl⟩
  change ((s.inbox h).resident ++ [x]).length + (s.inbox h).refilling ≤ (s.inbox h).limit
  unfold Inbox.occupancy at none
  rw [List.length_append, List.length_singleton]
  omega

theorem spill_counts (C : Counts X s) (live : s.live h = true) (room : (s.inbox h).occupancy < (s.inbox h).capacity) :
    Counts X (({ s with poolFree := xs, jobs := s.jobs ++ [(s.inbox h).spillJob h x] } : State).modInbox h fun ib =>
      { ib.advanceSeq with writeIndex := ringAdvance ib.writeIndex 1 ib.capacity, spilling := ib.spilling + 1 }) := by
  refine C.moved live rfl rfl rfl (burstOf_append C.burst rfl rfl) (fun k other _ => ?_) ⟨(C.fits h.slot).1, ?_⟩ fun own => ?_
  · rw [loads_append, loads_singleton, Job.load_of_other other.symm, add_zero]
  · change (s.inbox h).spilling + 1 + (s.inbox h).backed + (s.inbox h).refilling ≤ (s.inbox h).capacity
    unfold Inbox.occupancy at room
    omega
  · obtain ⟨spilling, refilling, one⟩ := C.serves h own live
    rw [loads_append, loads_singleton, Job.load_spill (h := h) (j := (s.inbox h).spillJob h x) rfl rfl rfl]
    refine ⟨?_, refilling, one⟩
    change (s.inbox h).spilling + 1 = (loads s.jobs h).1 + 1
    rw [spilling]

theorem pop_counts (C : Counts X s) (head : (s.inbox h).resident = x :: xs) {free : List PoolSlot} :
    Counts X (({ s with poolFree := free } : State).modInbox h fun ib => { ib with resident := xs }) := by
  have freed : Counts X ({ s with poolFree := free } : State) := C.tallies (.same (by rfl))
  obtain ⟨fits, ring⟩ := C.fits h.slot
  refine freed.refit ⟨?_, ring⟩ ⟨rfl, rfl⟩
  change (s.inbox h).resident.length + (s.inbox h).refilling ≤ (s.inbox h).limit at fits
  change xs.length + (s.inbox h).refilling ≤ (s.inbox h).limit
  rw [head, List.length_cons] at fits
  omega

/-- What keeps the counts of all inboxes. -/
theorem counts_flow : Flow (Counts fun _ => True) where
  quiet Q C := C.stores (.quiet Q)
  line l f _ C := C.tallies (.same (by rfl))
  lines f _ C := C.tallies (mapLines_tallies f)
  endWait h r C := C.stores (endWait_wakes h r).stores
  made C need made := made_counts C need trivial made
  handOff C _ _ := C.tallies handOff_tallies
  resident C _ none room _ := resident_counts C none room
  spill C live room _ := spill_counts C live room
  pop C head := pop_counts C head
  answered c C _ := C.stores (completeReceive_stores _ c)

/-- What keeps the counts while a burst has ended. -/
theorem ended_flow : Flow fun s => s.burst = none where
  quiet Q none := Q.burst.trans none
  line _ _ _ none := none
  lines _ _ none := (mapLines_burst ..).trans none
  endWait h r none := (endWait_wakes h r).burst.trans none
  made none _ made := (createRefill_eq made).2.2.2 ▸ none
  handOff none _ _ := handOff_tallies.burst.trans none
  resident none _ _ _ _ := none
  spill none _ _ _ := none
  pop none _ := none
  answered c none _ := (completeReceive_stores _ c).burst.trans none

/-! ### The engine -/

theorem headGone_counts (C : Counts X s) (jobs : s.jobs = j :: rest)
    (idle : ∀ k, X k → s.live k = true → j.load k = 0) {free : List PoolSlot} :
    Counts X { s with burst := none, jobs := rest, poolFree := free } := by
  refine ⟨C.fits, fun k own live => ?_, burstOf_none rfl⟩
  have serves := C.serves k own live
  rw [jobs, loads_cons, idle k own live, zero_add] at serves
  exact serves

theorem unowned_load (out : s.owns j = false) (live : s.live k = true) : j.load k = 0 := by
  by_cases own : j.inbox = k
  · subst own
    refine Job.load_of_marked ?_
    unfold owns at out
    rw [live] at out
    simpa using out
  · exact Job.load_of_other own

theorem owned_job (owned : s.owns j = true) : s.live j.inbox = true ∧ j.resetMark = false := (owns_iff (s := s)).1 owned

/-- The burst in progress tells the kind of the current job (R119, R120). -/
theorem BurstOf.kind (B : BurstOf s) {b : Burst} (burst : s.burst = some b) (jobs : s.jobs = j :: rest) :
    b.write = (j.kind == .spill) := by
  obtain ⟨i, is, head, write⟩ := B b burst
  cases jobs.symm.trans head
  exact write

/-- A spill is done: its message is in the ring (R112). -/
theorem spilled_counts (C : Counts X s) (own : X j.inbox) {b : Burst} (burst : s.burst = some b) (write : b.write = true)
    (jobs : s.jobs = j :: rest) (owned : s.owns j = true) {free : List PoolSlot} :
    Counts X (({ s with burst := none, jobs := rest, poolFree := free } : State).modInbox j.inbox fun ib =>
      { ib with spilling := ib.spilling - 1, backed := ib.backed + 1 }) := by
  obtain ⟨live, mark⟩ := owned_job owned
  have kind : j.kind = .spill := by simpa [write] using BurstOf.kind C.burst burst jobs
  obtain ⟨spilling, refilling, one⟩ := C.serves j.inbox own live
  rw [jobs, loads_cons, Job.load_spill kind rfl mark] at spilling refilling one
  change (s.inbox j.inbox).spilling = 1 + (loads rest j.inbox).1 at spilling
  change (s.inbox j.inbox).refilling = 0 + (loads rest j.inbox).2.1 at refilling
  change 0 + (loads rest j.inbox).2.2 ≤ 1 at one
  obtain ⟨fits, ring⟩ := C.fits j.inbox.slot
  change (s.inbox j.inbox).spilling + (s.inbox j.inbox).backed + (s.inbox j.inbox).refilling ≤ (s.inbox j.inbox).capacity at ring
  refine C.moved live (js := rest) (t := { s with burst := none, jobs := rest, poolFree := free }) rfl rfl rfl (burstOf_none rfl)
    (fun k other _ => ?_) ⟨fits, ?_⟩ fun _ => ⟨?_, ?_, ?_⟩
  · rw [jobs, loads_cons, Job.load_of_other other.symm, zero_add]
  · change (s.inbox j.inbox).spilling - 1 + ((s.inbox j.inbox).backed + 1) + (s.inbox j.inbox).refilling ≤ (s.inbox j.inbox).capacity
    omega
  · change (s.inbox j.inbox).spilling - 1 = _
    omega
  · change (s.inbox j.inbox).refilling = _
    omega
  · omega

/-- A burst of a refill has brought a message (R114). -/
theorem refilled_counts (C : Counts X s) (own : X j.inbox) (kind : j.kind = .refill) (jobs : s.jobs = j :: rest)
    (slots : j.slots = x :: xs) (owned : s.owns j = true) :
    Counts X (({ s with burst := none, jobs := refillAdvanced j xs :: rest } : State).modInbox j.inbox fun ib =>
      { ib with resident := ib.resident ++ [x], refilling := ib.refilling - 1 }) := by
  obtain ⟨live, mark⟩ := owned_job owned
  obtain ⟨spilling, refilling, one⟩ := C.serves j.inbox own live
  have load : (refillAdvanced j xs).load j.inbox = (0, xs.length, 1) :=
    Job.load_refill (j := refillAdvanced j xs) kind rfl mark
  rw [jobs, loads_cons, Job.load_refill kind rfl mark, slots] at spilling refilling one
  change (s.inbox j.inbox).spilling = 0 + (loads rest j.inbox).1 at spilling
  change (s.inbox j.inbox).refilling = xs.length + 1 + (loads rest j.inbox).2.1 at refilling
  change 1 + (loads rest j.inbox).2.2 ≤ 1 at one
  obtain ⟨fits, ring⟩ := C.fits j.inbox.slot
  change (s.inbox j.inbox).resident.length + (s.inbox j.inbox).refilling ≤ (s.inbox j.inbox).limit at fits
  change (s.inbox j.inbox).spilling + (s.inbox j.inbox).backed + (s.inbox j.inbox).refilling ≤ (s.inbox j.inbox).capacity at ring
  refine C.moved live (t := { s with burst := none, jobs := refillAdvanced j xs :: rest }) rfl rfl rfl (burstOf_none rfl)
    (fun k other _ => ?_) ⟨?_, ?_⟩ fun _ => ?_
  · rw [jobs, loads_cons, loads_cons, Job.load_of_other other.symm, Job.load_of_other (j := refillAdvanced j xs) other.symm]
  · change ((s.inbox j.inbox).resident ++ [x]).length + ((s.inbox j.inbox).refilling - 1) ≤ (s.inbox j.inbox).limit
    rw [List.length_append, List.length_singleton]
    omega
  · change (s.inbox j.inbox).spilling + (s.inbox j.inbox).backed + ((s.inbox j.inbox).refilling - 1) ≤ (s.inbox j.inbox).capacity
    omega
  · rw [loads_cons, load]
    refine ⟨spilling, ?_, one⟩
    change (s.inbox j.inbox).refilling - 1 = xs.length + (loads rest j.inbox).2.1
    omega

/-- An inbox becomes BROKEN with the jobs of its ring (R123). -/
theorem breakRing_counts (C : Counts X s) (jobs : s.jobs = j :: rest) (owned : s.owns j = true) :
    Counts X (State.breakRing { s with burst := none } j rest) := by
  obtain ⟨live, -⟩ := owned_job owned
  obtain ⟨fits, -⟩ := C.fits j.inbox.slot
  change (s.inbox j.inbox).resident.length + (s.inbox j.inbox).refilling ≤ (s.inbox j.inbox).limit at fits
  unfold breakRing
  dsimp only
  have broken : Counts X ((({ s with burst := none, jobs := rest.filter fun k => k.inbox ≠ j.inbox } : State).freeSlotList
      (j.slots ++ (rest.filter fun k => k.inbox = j.inbox).flatMap Job.slots)).modInbox j.inbox
        fun ib => ib.break ib.occupancy) := by
    refine C.moved live (js := rest.filter fun k => k.inbox ≠ j.inbox) rfl rfl rfl (burstOf_none rfl) (fun k other _ => ?_)
      ⟨?_, Nat.zero_le _⟩ fun _ => ?_
    · rw [loads_filter_other other, jobs, loads_cons, Job.load_of_other other.symm, zero_add]
    · change (s.inbox j.inbox).resident.length + 0 ≤ (s.inbox j.inbox).limit
      omega
    · rw [loads_filter_own]
      exact ⟨rfl, rfl, Nat.zero_le 1⟩
  exact broken.tallies (t := State.undefer _ j.inbox) (.same (by rfl))

theorem retried_counts (C : Counts X s) (jobs : s.jobs = j :: rest) :
    Counts X { s with burst := none, jobs := { j with attempt := .second } :: rest } := by
  refine ⟨C.fits, fun k own live => ?_, burstOf_none rfl⟩
  have serves := C.serves k own live
  rw [jobs] at serves
  exact serves

theorem started_counts (C : Counts X s) : Counts X s.startAttempt := by
  refine ⟨fun k => ?_, fun k own live => ?_, ?_⟩
  · rw [startAttempt_eq]; exact C.fits k
  · rw [startAttempt_eq] at live ⊢; exact C.serves k own live
  · unfold startAttempt
    split
    case h_1 j rest _ jobs =>
      intro b some
      cases some
      exact ⟨j, rest, jobs, by cases j.kind <;> rfl⟩
    case h_2 => exact C.burst

/-- A refill that has brought all its messages leaves the queue (R114). -/
theorem last_counts (C : Counts X s) (jobs : s.jobs = j :: rest) (kind : j.kind = .refill) (none : j.slots = [])
    (ended : s.burst = Option.none) : Counts X { s with jobs := rest } := by
  refine ⟨C.fits, fun k own live => ?_, burstOf_none ended⟩
  obtain ⟨spilling, refilling, one⟩ := C.serves k own live
  have load : (j.load k).1 = 0 ∧ (j.load k).2.1 = 0 := by
    by_cases here : j.serves .refill k = true <;> simp [Job.load, Job.serves, kind, none]
  rw [jobs, loads_cons] at spilling refilling one
  change (s.inbox k).spilling = (j.load k).1 + (loads rest k).1 at spilling
  change (s.inbox k).refilling = (j.load k).2.1 + (loads rest k).2.1 at refilling
  change (j.load k).2.2 + (loads rest k).2.2 ≤ 1 at one
  change (s.inbox k).Matches (loads rest k)
  exact ⟨by omega, by omega, by omega⟩

theorem const_flow (c : Prop) : Flow fun _ => c where
  quiet _ h := h
  line _ _ _ h := h
  lines _ _ h := h
  endWait _ _ h := h
  made h _ _ := h
  handOff h _ _ := h
  resident h _ _ _ _ := h
  spill h _ _ _ := h
  pop h _ := h
  answered _ h _ := h

/-- What a step needs, beside the counts, to keep them. -/
abbrev Sound (s : State) : Prop := ((s.Linked ∧ Unbound s) ∧ Pooled Whole s) ∧ Counts (fun _ => True) s

/-- The same while the finished burst of the refill `j` is followed up. -/
abbrev Following (j : Job) (s : State) : Prop := ((s.Linked ∧ Unbound s) ∧ Pooled (Follows j) s) ∧
  (Counts (fun _ => True) s ∧ s.burst = none) ∧ j.kind = .refill

theorem sound_engine : Engine Sound Following where
  toFlow := placed_engine.toFlow.and counts_flow
  loose j := (placed_engine.loose j).and ((counts_flow.and ended_flow).and (const_flow _))
  timer {s} f w k := by
    refine ⟨placed_engine.timer f w k.1, k.2.fits, k.2.serves, fun b some => ?_⟩
    obtain ⟨c, burst, rfl⟩ := Option.map_eq_some_iff.1 some
    obtain ⟨j, rest, jobs, write⟩ := k.2.burst c burst
    exact ⟨j, rest, jobs, (w c).trans write⟩
  started k := ⟨placed_engine.started k.1, started_counts k.2⟩
  unowned k head out := ⟨placed_engine.unowned k.1 head out, headGone_counts k.2 head fun _ _ live => unowned_load out live⟩
  spilled k burst write head own :=
    ⟨placed_engine.spilled k.1 burst write head own, spilled_counts k.2 trivial burst write head own⟩
  refilled {s b j rest x xs} k burst read head slots own := by
    have kind : j.kind = .refill := by
      have write := BurstOf.kind k.2.burst burst head
      rw [read] at write
      cases kind : j.kind with
      | spill => rw [kind] at write; cases write
      | refill => rfl
    exact ⟨placed_engine.refilled k.1 burst read head slots own,
      ⟨refilled_counts k.2 trivial kind head slots own, rfl⟩, kind⟩
  more k more := ⟨placed_engine.more k.1 more, k.2.1.1⟩
  last {s j} k done := by
    refine ⟨placed_engine.last k.1 done, ?_⟩
    obtain ⟨rest, jobs, counted, -⟩ := k.1.2.jobs
    have counts := last_counts k.2.1.1 jobs k.2.2 (List.length_eq_zero_iff.1 (by omega)) k.2.1.2
    rwa [jobs]
  retried k head := ⟨placed_engine.retried k.1 head, retried_counts k.2 head⟩
  broken k head own := ⟨placed_engine.broken k.1 head own, breakRing_counts k.2 head own⟩
  ended k := ⟨placed_engine.ended k.1, k.2.fits, k.2.serves, burstOf_none rfl⟩
  lost p cause k := ⟨placed_engine.lost p cause k.1, k.2.stores ((modPort_stores p _).trans (loseTask_stores p _))⟩

end State
end Sys2Proof.Machine
end

section
/-! ## `State.CountsAgree` through a step -/

namespace Sys2Proof.Machine
namespace State
variable {X Y : Handle → Prop} {s t : State} {p : Port} {h k : Handle} {v w : Task} {x y : PoolSlot} {xs : List PoolSlot}
  {j : Job} {rest : List Job}

theorem retryDeferred_counts (C : Counts (fun _ => True) s) : Counts (fun _ => True) s.retryDeferred :=
  counts_flow.retryDeferred C

/-- The current job stays when an inbox is emptied. -/
theorem burstOf_take (B : BurstOf s) {js : List Job} (jobs : t.jobs = s.jobs.take 1 ++ js) (burst : t.burst = s.burst) :
    BurstOf t := by
  intro b some
  obtain ⟨j, rest, head, write⟩ := B b (burst.symm.trans some)
  exact ⟨j, js, by rw [jobs, head]; rfl, write⟩

theorem loads_take_tail (js : List Job) (h : Handle) : loads (js.take 1) h + loads js.tail h = loads js h := by
  rw [← loads_append]
  cases js <;> rfl

/-- An inbox made empty needs no refill, so the retries leave it alone (R23, R103, R118). -/
theorem retryEmptied_counts (C : Counts X s) (empty : (s.inbox h).backed = 0) (others : ∀ k, k ≠ h → X k) :
    Counts X s.retryDeferred := by
  refine (retryDeferred_keeps (P := fun t => Counts X t ∧ (t.inbox h).backed = 0) (fun {u t k} kept need made => ?_)
    (fun _ kept => ⟨kept.1.tallies (.same (by rfl)), kept.2⟩) ⟨C, empty⟩).1
  obtain ⟨C, empty⟩ := kept
  obtain ⟨-, -, backed, -⟩ := refillNeeded_iff.1 need
  have other : h.slot ≠ k.slot := fun same => by
    have here : u.inbox k = u.inbox h := congrArg (fun i : Slot => u.inboxes[i]) same.symm
    rw [here, empty] at backed
    exact absurd backed (Nat.lt_irrefl 0)
  refine ⟨made_counts C need (others k fun same => other (congrArg Handle.slot same.symm)) made, ?_⟩
  obtain ⟨-, -, -, rfl⟩ := createRefill_eq made
  exact (congrArg Inbox.backed (modInbox_resident other)).trans empty

/-- The jobs of an emptied inbox are gone but for the current one, which is not counted if it is marked (R23, R103, R126). -/
theorem emptyInbox_counts (C : Counts (fun k => k ≠ h) s) (live : s.live h = true) (others : ∀ k, k ≠ h → Y k)
    (clear : Y h → loads (s.jobs.take 1) h = 0) : Counts Y (s.emptyInbox h) := by
  have moved : Counts Y (({ s with
      poolFree := ((s.inbox h).resident ++ (s.jobs.tail.filter fun k => k.inbox = h).flatMap Job.slots) ++ s.poolFree
      jobs := s.jobs.take 1 ++ s.jobs.tail.filter fun k => k.inbox ≠ h } : State).modInbox h Inbox.emptied) := by
    refine C.movedTo live (js := s.jobs.take 1 ++ s.jobs.tail.filter fun k => k.inbox ≠ h) rfl rfl rfl
      (burstOf_take C.burst rfl rfl) (fun k other _ => other) (fun k other _ => ?_) ⟨Nat.zero_le _, Nat.zero_le _⟩ fun own => ?_
    · rw [loads_append, loads_filter_other other, loads_take_tail]
    · rw [loads_append, loads_filter_own, clear own]
      exact ⟨rfl, rfl, Nat.zero_le 1⟩
  have listed : Counts Y { s.withInbox h { s.inbox h with
        resident := [], spilling := 0, backed := 0, refilling := 0, writeIndex := 0, readIndex := 0 } with
      jobs := s.jobs.take 1 ++ s.jobs.tail.filter fun k => k.inbox ≠ h
      deferred := s.deferred.filter fun k => k ≠ h
      poolFree := ((s.inbox h).resident ++ (s.jobs.tail.filter fun k => k.inbox = h).flatMap Job.slots) ++ s.poolFree } :=
    moved.tallies (.same (by rfl))
  have backed : ((s.withInbox h { s.inbox h with
      resident := [], spilling := 0, backed := 0, refilling := 0, writeIndex := 0, readIndex := 0 }).inbox h).backed = 0 :=
    congrArg Inbox.backed ((getElem_set_fin ..).trans (if_pos rfl))
  rw [emptyInbox_eq]
  split
  · exact listed
  · exact retryEmptied_counts listed backed others

theorem weaken_counts (C : Counts (fun _ => True) s) : Counts X s := ⟨C.fits, fun h _ => C.serves h trivial, C.burst⟩

theorem markCurrent_counts (C : Counts (fun _ => True) s) :
    Counts (fun k => k ≠ h) { s with jobs := markCurrent h s.jobs } := by
  refine ⟨C.fits, fun k other live => ?_, fun b some => ?_⟩
  · have serves := C.serves k trivial live
    change (s.inbox k).Matches (loads (markCurrent h s.jobs) k)
    cases jobs : s.jobs with
    | nil => rw [jobs] at serves; exact serves
    | cons j rest =>
      rw [jobs, loads_cons] at serves
      change (s.inbox k).Matches (loads ((if j.inbox = h then { j with resetMark := true } else j) :: rest) k)
      rw [loads_cons]
      split
      case isTrue own =>
        rw [Job.load_of_other (own.trans_ne (Ne.symm other))] at serves
        rw [Job.load_of_marked rfl]
        exact serves
      case isFalse => exact serves
  · obtain ⟨j, rest, head, write⟩ := C.burst b some
    refine ⟨if j.inbox = h then { j with resetMark := true } else j, rest, by
      change markCurrent h s.jobs = _
      rw [head]; rfl, ?_⟩
    split <;> exact write

theorem loads_markCurrent (js : List Job) (h : Handle) : loads ((markCurrent h js).take 1) h = 0 := by
  cases js with
  | nil => rfl
  | cons j rest =>
    change loads [if j.inbox = h then { j with resetMark := true } else j] h = 0
    rw [loads_singleton]
    split
    case isTrue own => exact Job.load_of_marked rfl
    case isFalse other => exact Job.load_of_other other

theorem reset_counts (C : Counts (fun _ => True) s) (live : s.live h = true) :
    Counts (fun _ => True) ((State.emptyInbox { s with jobs := markCurrent h s.jobs } h).modInbox h Inbox.renew) := by
  have emptied : Counts (fun _ => True) (State.emptyInbox { s with jobs := markCurrent h s.jobs } h) :=
    emptyInbox_counts (markCurrent_counts C) live (fun _ _ => trivial) fun _ => loads_markCurrent s.jobs h
  exact emptied.tallies (.modInbox _ h fun _ => rfl)

theorem removeTask_counts (C : Counts (fun _ => True) s) (h : Handle) (v : Task) : Counts (fun _ => True) (s.removeTask h v) := by
  have aborted : Stores s (((s.detachTask h v.state .gone).abortSeed h v.seedPort).undoWait h) := by
    refine ((detachTask_stores h v.state .gone).trans ?_).trans (undoWait_stores h)
    unfold abortSeed
    split
    · exact (modPort_stores _ _).trans (modTask_stores h fun _ => rfl)
    · exact .refl _
  have unbound := (C.stores aborted).tallies (modTask_tallies h fun t => { t with state := .dormant, bound := none })
  unfold removeTask
  rw [returnSlots_eq]
  split
  · exact unbound
  · exact retryDeferred_counts (unbound.tallies (.same (by rfl)))

theorem disposeInbox_tallies (h : Handle) : Tallies ((s.emptyInbox h).releaseAllGone h) (s.disposeInbox h) := by
  unfold disposeInbox
  generalize (s.emptyInbox h).releaseAllGone h = u
  exact (mapLines_tallies (LineRec.clearDestroyed h)).trans (.same (by rfl))

/-- With its task the inbox of a handle is spoken of no more. -/
theorem freeSlot_counts (C : Counts (fun k => k ≠ h) s) (live : s.live h = true) : Counts (fun _ => True) (s.freeSlot h) := by
  have task := freeSlot_task? live
  refine ⟨C.fits, fun k _ alive => ?_, C.burst⟩
  obtain ⟨u, found⟩ := Option.isSome_iff_exists.1 alive
  rw [task] at found
  split at found
  case isTrue => cases found
  case isFalse other => exact C.serves k other (by unfold State.live; rw [found]; rfl)

theorem destroyed_counts (L : s.Linked) (C : Counts (fun _ => True) s) (e : s.task? h = some v) :
    Counts (fun _ => True) (((s.removeTask h v).disposeInbox h).freeSlot h) := by
  obtain ⟨removed, w, f, place⟩ := removeTask_linked L e
  obtain ⟨-, w', f', -⟩ := disposeInbox_linked removed ⟨w, f, place⟩
  have emptied : Counts (fun k => k ≠ h) ((s.removeTask h v).emptyInbox h) :=
    emptyInbox_counts (weaken_counts (removeTask_counts C h v)) (by unfold State.live; rw [f]; rfl)
      (fun _ other => other) fun own => absurd rfl own
  have disposed : Counts (fun k => k ≠ h) ((s.removeTask h v).disposeInbox h) :=
    (emptied.stores (releaseAllGone_wakes _ h).stores).tallies (disposeInbox_tallies h)
  exact freeSlot_counts disposed (by unfold State.live; rw [f']; rfl)

theorem setInbox_counts (C : Counts (fun _ => True) s) (p : Port) : Counts (fun _ => True) (s.setInbox p) := by
  have answer {u : State} (c : ResultCode) (D : Counts (fun _ => True) u) : Counts (fun _ => True) (u.setResult p c 0#16) :=
    D.stores (modPort_stores p _)
  unfold setInbox
  dsimp only
  split
  · exact answer _ C
  split
  · exact answer _ C
  split
  · exact answer _ C
  case isFalse empty =>
    have total : (s.inbox (s.handleArg p)).total = 0 := by
      rw [not_or, not_not] at empty
      exact empty.1
    unfold Inbox.total Inbox.occupancy at total
    refine answer _ (C.refit (f := fun ib => ib.setLimits (s.port p).inboxLimits) ⟨?_, ?_⟩ ⟨rfl, rfl⟩)
    · change (s.inbox (s.handleArg p)).resident.length + (s.inbox (s.handleArg p)).refilling ≤ _
      omega
    · change (s.inbox (s.handleArg p)).spilling + (s.inbox (s.handleArg p)).backed + (s.inbox (s.handleArg p)).refilling ≤ _
      omega

theorem sound_commands : Commands Sound Following where
  toEngine := sound_engine
  task {s c p} kind k taken := by
    refine ⟨placed_commands.task kind k.1 taken, ?_⟩
    by_cases limit : c = .setInbox
    · subst limit; exact setInbox_counts k.2 p
    · exact k.2.stores (commandEffect_stores kind limit p)
  sendWait n k run e live other :=
    ⟨placed_commands.sendWait n k.1 run e live other, k.2.stores (beginSendWait_stores ..)⟩
  receiveWait n k run e := ⟨placed_commands.receiveWait n k.1 run e, k.2.stores (receiveWait_stores ..)⟩
  receivePending k run e := ⟨placed_commands.receivePending k.1 run e, k.2.stores (receivePending_stores ..)⟩
  emptied k live := ⟨placed_commands.emptied k.1 live, reset_counts k.2 live⟩
  destroyed k e := ⟨placed_commands.destroyed k.1 e, destroyed_counts k.1.1.1 k.2 e⟩
  checkedOut {s p h t n i} k loading e := by
    refine ⟨placed_commands.checkedOut k.1 loading e, ?_⟩
    have runs : Counts (fun _ => True) (s.setPortState p (.run h false)) := k.2.stores (modPort_stores p _)
    exact (runs.tallies (modTask_tallies h _)).tallies (.same (by rfl))
  loaded k loading := ⟨placed_commands.loaded k.1 loading, k.2.stores (modPort_stores _ _)⟩
  written p w k := ⟨placed_commands.written p w k.1, k.2.stores (writeFrame_stores p w)⟩
  reset := ⟨placed_commands.reset, countsAgree_iff.1 reset_countsAgree⟩
  leveled levels k := ⟨placed_commands.leveled levels k.1, k.2.tallies (.same (by rfl))⟩

/-! ### CREATE, and the jobs left by DESTROY (R2) -/

/-- A new task's inbox has no job: none is left for its handle. -/
theorem create_counts (L : s.Linked) (C : Counts (fun _ => True) s) (none : s.NoJobComesRound) (p : Port) :
    Counts (fun _ => True) (s.create p) := by
  unfold create
  dsimp only
  split
  case h_2 => exact C.stores (modPort_stores p _)
  unfold createTask
  split
  case h_2 => exact C.stores (modPort_stores p _)
  case h_1 slot rest free =>
    have vacant : s.tasks[slot].task = Option.none := (L.free slot).1 (by rw [free]; exact List.mem_cons_self)
    have strange := fun j mem => none j mem slot (by rw [free]; rfl)
    refine Counts.stores (s := ({ s with freeSlots := rest } : State).makeTask slot _) ?_ (modPort_stores p _)
    have task := makeTask_task? (rest := rest) vacant (Task.new ‹_› ‹_› ‹_›)
    have inbox (k : Slot) : (({ s with freeSlots := rest } : State).makeTask slot (Task.new ‹_› ‹_› ‹_›)).inboxes[k] =
        if k = slot then Inbox.default else s.inboxes[k] := getElem_set_fin ..
    refine ⟨fun k => ?_, fun k _ live => ?_, C.burst⟩
    · rw [inbox]
      split
      · exact ⟨Nat.zero_le _, Nat.zero_le _⟩
      · exact C.fits k
    · change Inbox.Matches (State.inboxes _)[k.slot] (loads s.jobs k)
      rw [inbox]
      by_cases same : k = ⟨slot, s.tasks[slot].gen⟩
      · rw [if_pos (congrArg Handle.slot same), loads_of_none fun j mem => same ▸ strange j mem]
        exact ⟨rfl, rfl, Nat.zero_le 1⟩
      · have before : s.live k = true := by unfold State.live at live ⊢; rwa [task, if_neg same] at live
        have other : k.slot ≠ slot := fun at_ => occupied_of_live before (at_.symm ▸ vacant)
        rw [if_neg other]
        exact C.serves k trivial before

/-- Every job is for a live inbox, or for one that `H` names. -/
def JobsKnown (H : Handle → Prop) (s : State) : Prop := ∀ j ∈ s.jobs, s.live j.inbox = true ∨ H j.inbox

variable {H : Handle → Prop}

theorem JobsKnown.of (K : JobsKnown H s) (jobs : ∀ j ∈ t.jobs, ∃ i ∈ s.jobs, j.inbox = i.inbox)
    (live : ∀ h, t.live h = s.live h) : JobsKnown H t := by
  intro j mem
  obtain ⟨i, before, same⟩ := jobs j mem
  rw [live, same]
  exact K i before

theorem JobsKnown.same (K : JobsKnown H s) (jobs : t.jobs = s.jobs) (live : ∀ h, t.live h = s.live h) : JobsKnown H t :=
  K.of (fun j mem => ⟨j, jobs ▸ mem, rfl⟩) live

theorem JobsKnown.tallies (K : JobsKnown H s) (T : Tallies s t) : JobsKnown H t := K.same T.jobs T.live

theorem JobsKnown.append (K : JobsKnown H s) (jobs : t.jobs = s.jobs ++ [j]) (live : ∀ h, t.live h = s.live h)
    (own : s.live j.inbox = true) : JobsKnown H t := by
  intro i mem
  rw [jobs, List.mem_append, List.mem_singleton] at mem
  rw [live]
  rcases mem with before | rfl
  · exact K i before
  · exact .inl own

theorem jobsKnown_flow : Flow (JobsKnown H) where
  quiet Q K := K.tallies (.stores (.quiet Q))
  line l f _ K := K.same rfl fun _ => rfl
  lines f _ K := K.tallies (mapLines_tallies f)
  endWait h r K := K.tallies (.stores (endWait_wakes h r).stores)
  made {s t h} K need made := by
    obtain ⟨task, -⟩ := refillNeeded_iff.1 need
    obtain ⟨-, -, -, rfl⟩ := createRefill_eq made
    exact K.append rfl (fun _ => rfl) task
  handOff K _ _ := K.tallies handOff_tallies
  resident K _ _ _ _ := K.same rfl fun _ => rfl
  spill K live _ _ := K.append rfl (fun _ => rfl) live
  pop K _ := K.same rfl fun _ => rfl
  answered c K _ := K.tallies (.stores (completeReceive_stores _ c))

theorem jobsKnown_engine : Engine (JobsKnown H) fun _ => JobsKnown H where
  toFlow := jobsKnown_flow
  loose _ := jobsKnown_flow
  timer _ _ K := K.same rfl fun _ => rfl
  started K := by rw [startAttempt_eq]; exact K.same rfl fun _ => rfl
  unowned K head _ := K.of (fun i mem => ⟨i, head ▸ List.mem_cons_of_mem _ mem, rfl⟩) fun _ => rfl
  spilled K _ _ head _ := K.of (fun i mem => ⟨i, head ▸ List.mem_cons_of_mem _ mem, rfl⟩) fun _ => rfl
  refilled K _ _ head _ _ := K.of (fun i mem => (List.mem_cons.1 mem).elim
    (fun same => ⟨_, head ▸ List.mem_cons_self, by rw [same]; rfl⟩)
    fun later => ⟨i, head ▸ List.mem_cons_of_mem _ later, rfl⟩) fun _ => rfl
  more K _ := K
  last K _ := K.of (fun i mem => ⟨i, List.mem_of_mem_tail mem, rfl⟩) fun _ => rfl
  retried K head := K.of (fun i mem => (List.mem_cons.1 mem).elim
    (fun same => ⟨_, head ▸ List.mem_cons_self, by rw [same]⟩)
    fun later => ⟨i, head ▸ List.mem_cons_of_mem _ later, rfl⟩) fun _ => rfl
  broken K head _ := K.of (fun i mem => ⟨i, head ▸ List.mem_cons_of_mem _ (List.mem_filter.1 mem).1, rfl⟩) fun _ => rfl
  ended K := K.same rfl fun _ => rfl
  lost p _ K := K.tallies (.stores ((modPort_stores p _).trans (loseTask_stores p _)))

/-- What is made of a state before a command's effect brings no job round. -/
theorem noJobComesRound_of (L : t.Linked) (none : s.NoJobComesRound) (S : Steady s t)
    (known : JobsKnown (fun h => ∃ i ∈ s.jobs, h = i.inbox) t) : t.NoJobComesRound := by
  intro j mem k head same
  have gen : t.tasks[k].gen = s.tasks[k].gen := congrArg Prod.fst (S.identity k)
  rcases known j mem with live | ⟨i, before, own⟩
  · refine occupied_of_live (h := j.inbox) live ?_
    rw [same]
    exact (L.free k).1 (List.mem_of_head? head)
  · exact none i before k (S.freeSlots ▸ head) (by rw [← own, same, gen])

theorem jobsKnown_self : JobsKnown (fun h => ∃ i ∈ s.jobs, h = i.inbox) s := fun j mem => .inr ⟨j, mem, rfl⟩

/-- Every step keeps the counts of every inbox those of its jobs, as long as no handle comes round to a job (R2, R79). -/
theorem countsAgree_step (L : s.Linked) (placed : s.SlotsPlaced) (counts : s.CountsAgree) (none : s.NoJobComesRound)
    (run : step s = .next t) : t.CountsAgree := by
  obtain ⟨unbound, pooled⟩ := slotsPlaced_iff.1 placed
  have keeps : Keeps (fun s => Sound s ∧ s.NoJobComesRound) Sound := by
    refine sound_commands.keepsFrom (fun k => k.1) (fun k => ?_) (fun k => ?_) (fun Q k => ?_) fun k => ?_
    · have settled := sound_commands.settle k.1
      exact ⟨settled, noJobComesRound_of settled.1.1.1 k.2 (settle_steady _) (jobsKnown_engine.settle jobsKnown_self)⟩
    · have finished := sound_commands.finishExpiries k.1
      exact ⟨finished, noJobComesRound_of finished.1.1.1 k.2 (finishExpiries_steady _) (jobsKnown_engine.finishExpiries jobsKnown_self)⟩
    · refine ⟨sound_commands.quiet Q k.1, ?_⟩
      unfold NoJobComesRound
      rw [Q.jobs, Q.freeSlots, Q.tasks]
      exact k.2
    · exact ⟨⟨⟨create_linked k.1.1.1.1 _, create_unbound k.1.1.1.1 k.1.1.1.2 _⟩, create_pooled k.1.1.1.1 k.1.1.2 _⟩,
        create_counts k.1.1.1.1 k.1.2 k.2 _⟩
  have sound : Sound s ∧ s.NoJobComesRound := ⟨⟨⟨⟨L, unbound⟩, pooled⟩, countsAgree_iff.1 counts⟩, none⟩
  refine countsAgree_iff.2 (keeps.step (fun cs k => ⟨⟨⟨⟨k.1.1.1.1.same, k.1.1.1.2.binds (.same (by rfl))⟩,
    k.1.1.2.pools (.same (by rfl))⟩, k.1.2.tallies (.same (by rfl))⟩, k.2⟩) sound run).2

end State

/-- Settles O37: each of the four is shown of the changes of which the shared operations, the engine and the commands are made
(`Flow`, `Engine`, `Commands`), and so of every step. -/
theorem everyStepKeepsThePoolAndTheLists : Obligations.EveryStepKeepsThePoolAndTheLists :=
  ⟨fun _ _ counted run => State.linesCounted_step counted run, fun _ _ L agree run => State.sendersAgree_step L agree run,
   fun _ _ L placed run => State.slotsPlaced_step L placed run,
   fun _ _ L placed counts none run => State.countsAgree_step L placed counts none run⟩

end Sys2Proof.Machine
end

section
/-! ## The slots and the jobs that an emptied inbox leaves (R23, R103, R108) -/

namespace Sys2Proof.Machine
namespace State
variable {s t : State} {h k : Handle} {xs : List PoolSlot}

/-- Each of the slots is free, or a REFILL job made by a retry has claimed it (R108, R118). -/
def Returned (s : State) (xs : List PoolSlot) : Prop :=
  ∀ x ∈ xs, x ∈ s.poolFree ∨ ∃ j ∈ s.jobs, j.kind = .refill ∧ x ∈ j.slots

theorem Returned.same (R : Returned s xs) (kept : (t.poolFree, t.jobs) = (s.poolFree, s.jobs)) : Returned t xs := by
  obtain ⟨pool, jobs⟩ := Prod.mk.inj kept
  unfold Returned
  rw [pool, jobs]
  exact R

theorem returned_free (free : ∀ x ∈ xs, x ∈ s.poolFree) : Returned s xs := fun x mem => .inl (free x mem)

theorem made_returned (R : Returned s xs) (made : s.createRefill h = some t) : Returned t xs := by
  obtain ⟨-, -, -, rfl⟩ := createRefill_eq made
  generalize s.grant (min (s.inbox h).backed ((s.inbox h).limit - (s.inbox h).resident.length)) = a
  intro x mem
  rcases R x mem with free | ⟨j, queued, kind, own⟩
  · rw [← List.take_append_drop a s.poolFree, List.mem_append] at free
    rcases free with claimed | left
    · exact .inr ⟨_, List.mem_append_right _ List.mem_cons_self, rfl, claimed⟩
    · exact .inl left
  · exact .inr ⟨j, List.mem_append_left _ queued, kind, own⟩

theorem retryDeferred_returned (R : Returned s xs) : Returned s.retryDeferred xs :=
  retryDeferred_keeps (P := fun t => Returned t xs) (fun R _ made => made_returned R made) (fun _ R => R) R

theorem retryDeferred_of_none (none : s.deferred = []) : s.retryDeferred = s := by
  unfold retryDeferred
  rw [none]
  unfold retryEntries
  rw [← none]

/-- The retries only take inboxes off the list (R118). -/
theorem retryEntries_shortens (hs : List Handle) : ∀ s : State, (retryEntries hs s).deferred ⊆ hs := by
  induction hs with
  | nil => exact fun _ _ mem => mem
  | cons k rest ih =>
    intro s
    unfold retryEntries
    split
    · split
      · exact fun _ mem => List.mem_cons_of_mem _ (ih _ mem)
      · exact fun _ mem => mem
    · exact fun _ mem => List.mem_cons_of_mem _ (ih _ mem)

/-- The jobs of `t` are those of `s` and REFILL jobs of inboxes other than `h`, which is as it was. -/
def SparedBy (s t : State) (h : Handle) : Prop :=
  t.inbox h = s.inbox h ∧ ∃ more, t.jobs = s.jobs ++ more ∧ ∀ k ∈ more, k.kind = .refill ∧ k.inbox ≠ h

theorem sparedBy_self (h : Handle) : SparedBy s s h := ⟨rfl, [], (List.append_nil _).symm, fun _ mem => nomatch mem⟩

/-- An inbox with nothing in its ring is served by no retry (R116, R118). -/
theorem retryDeferred_spares (empty : (s.inbox h).backed = 0) : SparedBy s s.retryDeferred h := by
  refine retryDeferred_keeps (P := fun t => SparedBy s t h) (fun {u t k} spared need made => ?_) (fun _ spared => spared)
    (sparedBy_self h)
  obtain ⟨inbox, more, jobs, refills⟩ := spared
  obtain ⟨-, -, backed, -⟩ := refillNeeded_iff.1 need
  have other : h.slot ≠ k.slot := fun same => by
    have here : u.inbox k = u.inbox h := congrArg (fun i : Slot => u.inboxes[i]) same.symm
    rw [here, inbox, empty] at backed
    exact absurd backed (Nat.lt_irrefl 0)
  obtain ⟨-, -, -, rfl⟩ := createRefill_eq made
  generalize u.grant (min (u.inbox k).backed ((u.inbox k).limit - (u.inbox k).resident.length)) = a
  refine ⟨(modInbox_resident other).trans inbox, more ++ [(u.inbox k).refillJob k (u.poolFree.take a)],
    (congrArg (· ++ _) jobs).trans (List.append_assoc ..), fun j mem => ?_⟩
  · rcases List.mem_append.1 mem with before | last
    · exact refills j before
    · rw [List.mem_singleton.1 last]
      exact ⟨rfl, fun same => other (congrArg Handle.slot same).symm⟩

/-! ### The inbox emptied -/

/-- The slots that the emptying of an inbox returns: of its resident messages, and of its queued jobs (R23, R103). -/
def freedBy (s : State) (h : Handle) : List PoolSlot :=
  (s.inbox h).resident ++ (s.jobs.tail.filter fun k => k.inbox = h).flatMap Job.slots

/-- The inbox empty and its slots free, before the retry. -/
def cleared (s : State) (h : Handle) : State :=
  { s.withInbox h { s.inbox h with
      resident := [], spilling := 0, backed := 0, refilling := 0, writeIndex := 0, readIndex := 0 } with
    jobs := s.jobs.take 1 ++ s.jobs.tail.filter fun k => k.inbox ≠ h
    deferred := s.deferred.filter fun k => k ≠ h
    poolFree := s.freedBy h ++ s.poolFree }

theorem emptyInbox_cleared (s : State) (h : Handle) :
    s.emptyInbox h = if s.freedBy h = [] then s.cleared h else (s.cleared h).retryDeferred := emptyInbox_eq s h

theorem cleared_inbox (h : Handle) : (s.cleared h).inbox h = { s.inbox h with
    resident := [], spilling := 0, backed := 0, refilling := 0, writeIndex := 0, readIndex := 0 } :=
  (getElem_set_fin ..).trans (if_pos rfl)

theorem cleared_spared (s : State) (h : Handle) : SparedBy (s.cleared h) (s.emptyInbox h) h := by
  rw [emptyInbox_cleared]
  split
  · exact sparedBy_self h
  · exact retryDeferred_spares (by rw [cleared_inbox])

theorem emptyInbox_inbox (s : State) (h : Handle) : (s.emptyInbox h).inbox h = { s.inbox h with
    resident := [], spilling := 0, backed := 0, refilling := 0, writeIndex := 0, readIndex := 0 } :=
  (cleared_spared s h).1.trans (cleared_inbox h)

theorem emptyInbox_jobs (s : State) (h : Handle) : ∃ more,
    (s.emptyInbox h).jobs = s.jobs.take 1 ++ (s.jobs.tail.filter fun k => k.inbox ≠ h) ++ more ∧
      ∀ k ∈ more, k.kind = .refill ∧ k.inbox ≠ h := (cleared_spared s h).2

/-- What is queued behind the current job is for other inboxes. -/
theorem emptyInbox_queued (s : State) (h : Handle) : ∀ j ∈ (s.emptyInbox h).jobs.tail, j.inbox ≠ h := by
  obtain ⟨more, jobs, refills⟩ := emptyInbox_jobs s h
  intro j mem
  rw [jobs] at mem
  cases before : s.jobs with
  | nil => rw [before] at mem; exact (refills j (List.mem_of_mem_tail mem)).2
  | cons i rest =>
    rw [before] at mem
    rcases List.mem_append.1 (show j ∈ rest.filter (fun k => k.inbox ≠ h) ++ more from mem) with kept | new
    · exact of_decide_eq_true (List.mem_filter.1 kept).2
    · exact (refills j new).2

theorem emptyInbox_not_deferred (s : State) (h : Handle) : h ∉ (s.emptyInbox h).deferred := by
  have out : h ∉ (s.cleared h).deferred := fun mem => of_decide_eq_true (List.mem_filter.1 mem).2 rfl
  rw [emptyInbox_cleared]
  split
  · exact out
  · exact fun mem => out (retryEntries_shortens _ _ mem)

theorem emptyInbox_pool_of_none (none : s.deferred = []) (h : Handle) :
    (s.emptyInbox h).poolFree = s.freedBy h ++ s.poolFree := by
  have still : (s.cleared h).deferred = [] := by
    change s.deferred.filter _ = []
    rw [none]; rfl
  rw [emptyInbox_cleared, retryDeferred_of_none still, ite_self]
  rfl

theorem cleared_returned (R : Returned s xs) (h : Handle) : Returned (s.cleared h) (xs ++ s.freedBy h) := by
  intro x mem
  rcases List.mem_append.1 mem with before | freed
  · rcases R x before with free | ⟨j, queued, kind, own⟩
    · exact .inl (List.mem_append_right _ free)
    · rw [← List.take_append_drop 1 s.jobs, List.drop_one, List.mem_append] at queued
      rcases queued with current | behind
      · exact .inr ⟨j, List.mem_append_left _ current, kind, own⟩
      · by_cases same : j.inbox = h
        · refine .inl (List.mem_append_left _ (List.mem_append_right _ (List.mem_flatMap.2 ⟨j, ?_, own⟩)))
          exact List.mem_filter.2 ⟨behind, decide_eq_true same⟩
        · exact .inr ⟨j, List.mem_append_right _ (List.mem_filter.2 ⟨behind, decide_eq_true same⟩), kind, own⟩
  · exact .inl (List.mem_append_left _ freed)

theorem emptyInbox_returned (R : Returned s xs) (h : Handle) : Returned (s.emptyInbox h) (xs ++ s.freedBy h) := by
  rw [emptyInbox_cleared]
  split
  · exact cleared_returned R h
  · exact retryDeferred_returned (cleared_returned R h)

end State
end Sys2Proof.Machine
end

section
/-! ## The senders released with GONE (R23, R91, R103) -/

namespace Sys2Proof.Machine

/-- Only tasks that `X` names are touched: what is kept of the others, of the running tasks, and of the ports at which nobody
awaits a task. -/
structure Spares (X : Handle → Prop) (s t : State) : Prop where
  task : ∀ j, ¬ X j → t.task? j = s.task? j
  running : ∀ j v q, s.task? j = some v → v.state = .running q → ∃ w, t.task? j = some w ∧ w.state = .running q
  ready : ∀ j (q : Priority), ¬ X j → (j ∈ t.ready[q] ↔ j ∈ s.ready[q])
  deadlines : ∀ j, ¬ X j → (t.deadlines.filter fun d => d.task = j) = s.deadlines.filter fun d => d.task = j
  fewer : t.deadlines ⊆ s.deadlines
  await : t.awaitList ⊆ s.awaitList
  port : ∀ q, q ∉ s.awaitList → t.port q = s.port q

namespace Spares
variable {X Y : Handle → Prop} {s t u : State} {h : Handle} {v : Task}

theorem refl (s : State) : Spares X s s :=
  ⟨fun _ _ => rfl, fun _ v _ e state => ⟨v, e, state⟩, fun _ _ _ => .rfl, fun _ _ => rfl, fun _ mem => mem, fun _ mem => mem,
   fun _ _ => rfl⟩

theorem trans (a : Spares X s t) (b : Spares X t u) : Spares X s u where
  task j out := (b.task j out).trans (a.task j out)
  running j v q e state := by
    obtain ⟨w, found, kept⟩ := a.running j v q e state
    exact b.running j w q found kept
  ready j q out := (b.ready j q out).trans (a.ready j q out)
  deadlines j out := (b.deadlines j out).trans (a.deadlines j out)
  fewer _ mem := a.fewer (b.fewer mem)
  await _ mem := a.await (b.await mem)
  port q out := (b.port q fun mem => out (a.await mem)).trans (a.port q out)

theorem mono (a : Spares X s t) (wider : ∀ j, X j → Y j) : Spares Y s t where
  task j out := a.task j fun own => out (wider j own)
  running := a.running
  ready j q out := a.ready j q fun own => out (wider j own)
  deadlines j out := a.deadlines j fun own => out (wider j own)
  fewer := a.fewer
  await := a.await
  port := a.port

/-- The task changes, and does not cease to run. -/
theorem modTask (e : s.task? h = some v) {f : Task → Task} (runs : ∀ q, v.state = .running q → (f v).state = .running q) :
    Spares (· = h) s (s.modTask h f) where
  task j other := by rw [State.task?_modTask, if_neg other]
  running j w q found state := by
    rw [State.task?_modTask]
    split
    case isTrue same =>
      subst same
      cases e.symm.trans found
      exact ⟨f v, by rw [e]; rfl, runs q state⟩
    case isFalse => exact ⟨w, found, state⟩
  ready _ _ _ := by rw [State.modTask_ready]
  deadlines _ _ := by rw [State.modTask_deadlines]
  fewer _ mem := by rwa [State.modTask_deadlines] at mem
  await _ mem := by rwa [State.modTask_awaitList] at mem
  port q _ := State.modTask_port ..

end Spares

namespace State
variable {s t u : State} {h k : Handle} {v : Task}

theorem mem_set_ready {queues : Vector (List Handle) 16} {p : Priority} {queue : List Handle}
    (same : k ∈ queue ↔ k ∈ queues[p]) (q : Priority) : k ∈ (queues.set p queue)[q] ↔ k ∈ queues[q] := by
  rw [getElem_set_fin]
  split
  case isTrue own => subst own; exact same
  case isFalse => exact .rfl

theorem enqueueTail_spares (e : s.task? h = some v) : Spares (· = h) s (s.enqueueTail h) := by
  rw [enqueueTail_of e]
  refine ⟨fun _ _ => rfl, fun _ v _ e state => ⟨v, e, state⟩, fun j q other => mem_set_ready ?_ q, fun _ _ => rfl,
    fun _ mem => mem, fun _ mem => mem, fun _ _ => rfl⟩
  rw [List.mem_append, List.mem_singleton]
  exact or_iff_left other

theorem offer_spares (e : s.task? h = some v) (ready : v.state = .ready) : Spares (· = h) s (s.offer h) := by
  rw [offer_of_task e]
  cases found : s.awaitList.find? fun r => v.eligible r with
  | none => exact .refl s
  | some r =>
    have await : r ∈ s.awaitList := List.mem_of_find?_eq_some found
    refine ⟨fun j other => ?_, fun j w q record state => ?_, fun j q other => mem_set_ready ?_ q, fun _ _ => rfl,
      fun _ mem => mem, fun _ mem => List.mem_of_mem_filter mem, fun q out => ?_⟩
    · exact (withTask_task?_of_live e j _).trans (if_neg other)
    · refine ⟨w, (withTask_task?_of_live e j _).trans ((if_neg fun same => ?_).trans record), state⟩
      subst same
      cases e.symm.trans record
      cases ready.symm.trans state
    · rw [List.mem_filter]
      exact and_iff_left (decide_eq_true other)
    · refine (withPort_port ..).trans (if_neg ?_)
      rintro rfl
      exact out await

theorem readyTail_spares (e : s.task? h = some v) (idle : ∀ q, v.state ≠ .running q) : Spares (· = h) s (s.readyTail h) := by
  have record : (s.setTaskState h .ready).task? h = some { v with state := .ready } := task?_modTask_self _ _ e
  have queued : ((s.setTaskState h .ready).enqueueTail h).task? h = some { v with state := .ready } := by
    rw [enqueueTail_of record]; exact record
  have ready : Spares (· = h) s (s.setTaskState h .ready) := .modTask e fun q state => absurd state (idle q)
  exact (ready.trans (enqueueTail_spares record)).trans (offer_spares queued rfl)

/-- A task made READY stands in its queue, or runs on a port that awaited a task (R53, R58). -/
theorem readyTail_woken (e : s.task? h = some v) :
    (s.readyTail h).task? h = some { v with state := .ready } ∧ h ∈ (s.readyTail h).ready[v.priority] ∨
      ∃ q ∈ s.awaitList, (s.readyTail h).task? h = some { v with state := .running q } := by
  have record : (s.setTaskState h .ready).task? h = some { v with state := .ready } := task?_modTask_self _ _ e
  have queued : ((s.setTaskState h .ready).enqueueTail h).task? h = some { v with state := .ready } := by
    rw [enqueueTail_of record]; exact record
  have await : ((s.setTaskState h .ready).enqueueTail h).awaitList = s.awaitList := by
    rw [enqueueTail_of record]; exact modTask_awaitList ..
  have stands : h ∈ ((s.setTaskState h .ready).enqueueTail h).ready[v.priority] := by
    rw [enqueueTail_of record]
    refine (Vector.getElem_set_self ..).symm ▸ ?_
    exact List.mem_append_right _ List.mem_cons_self
  unfold readyTail
  generalize (s.setTaskState h .ready).enqueueTail h = t at queued await stands
  rw [offer_of_task queued]
  cases found : t.awaitList.find? fun r => ({ v with state := .ready } : Task).eligible r with
  | none => exact .inl ⟨queued, stands⟩
  | some r =>
    refine .inr ⟨r, await ▸ List.mem_of_find?_eq_some found, ?_⟩
    exact (withTask_task?_of_live queued h _).trans (if_pos rfl)

theorem undoWait_deadlines (s : State) (h : Handle) :
    (s.undoWait h).deadlines = s.deadlines.filter fun e => e.task ≠ h := by
  unfold undoWait dropPendingSend
  split
  · split
    · exact congrArg (List.filter _) (modTask_deadlines ..)
    · rfl
  · rfl

theorem undoWait_spares (s : State) (h : Handle) : Spares (· = h) s (s.undoWait h) where
  task j other := by rw [undoWait_task?, if_neg other]
  running j v q e state := by
    rw [undoWait_task?]
    split
    case isTrue same => subst same; exact ⟨{ v with pendingSend := none }, by rw [e]; rfl, state⟩
    case isFalse => exact ⟨v, e, state⟩
  ready _ _ _ := by rw [undoWait_ready]
  deadlines j other := by
    rw [undoWait_deadlines, List.filter_filter]
    refine List.filter_congr fun d _ => ?_
    by_cases own : d.task = j
    · subst own; simp [other]
    · simp [own]
  fewer _ mem := by
    rw [undoWait_deadlines] at mem
    exact List.mem_of_mem_filter mem
  await _ mem := by rwa [undoWait_awaitList] at mem
  port q _ := undoWait_port q

theorem wake_spares (s : State) (h : Handle) (res : Resume) : Spares (· = h) s (s.wake h res) := by
  cases e : s.task? h with
  | none =>
    have same : s.wake h res = s := by unfold wake; rw [e]
    rw [same]
    exact .refl s
  | some v =>
    have readied (waits : v.state = .recvWait ∨ v.state = .sendWait ∨ v.state = .sleeping) :
        Spares (· = h) s (s.wake h res) := by
      have idle : ∀ q, v.state ≠ .running q := fun q state => by
        rcases waits with st | st | st <;> exact nomatch st.symm.trans state
      rw [wake_of_waiting e waits res, ← modTask_withTask e fun u => { u with resume := res }]
      exact (Spares.modTask e fun _ state => state).trans
        (readyTail_spares (task?_modTask_self _ _ e) idle)
    unfold wake at readied ⊢
    rw [e] at readied ⊢
    cases state : v.state with
    | recvWait => simpa only [state] using readied (.inl state)
    | sendWait => simpa only [state] using readied (.inr (.inl state))
    | sleeping => simpa only [state] using readied (.inr (.inr state))
    | dormant | ready | running | halted => simpa only [state] using Spares.refl s
    | saving q d done =>
      cases done with
      | true => simpa only [state] using Spares.refl s
      | false =>
        simp only [state]
        split
        · exact .modTask e fun q' now => nomatch state.symm.trans now
        · exact .refl s

theorem endWait_spares (s : State) (h : Handle) (res : Resume) : Spares (· = h) s (s.endWait h res) :=
  (undoWait_spares s h).trans (wake_spares _ h res)

theorem gone_spares (hs : List Handle) : ∀ s : State,
    Spares (· ∈ hs) s (hs.foldl (fun s sender => s.endWait sender .gone) s) := by
  induction hs with
  | nil => exact fun s => .refl s
  | cons x rest ih =>
    intro s
    have first : Spares (· ∈ x :: rest) s (s.endWait x .gone) := (endWait_spares s x .gone).mono fun j own => own ▸ List.mem_cons_self
    exact first.trans ((ih _).mono fun _ mem => List.mem_cons_of_mem _ mem)

theorem releaseAllGone_spares (s : State) (h : Handle) : Spares (· ∈ (s.inbox h).senders) s (s.releaseAllGone h) :=
  gone_spares _ s

/-! ### What a released sender gets -/

/-- The task, with the record `v` before, has been released with GONE, and is READY, runs on a port that awaited a task in `s`,
or has its disposition satisfied (R42, R93). -/
def GoneFrom (s r : State) (k : Handle) (v : Task) : Prop :=
  ∃ x, r.task? k = some x ∧ x.pendingSend = none ∧ x.resume = .gone ∧ r.deadlinePresent k = false ∧
    (v.state = .sendWait → (x.state = .ready ∧ k ∈ r.ready[v.priority]) ∨ ∃ q ∈ s.awaitList, x.state = .running q) ∧
    ∀ q, v.state = .saving q .sendWait false → x.state = .saving q .sendWait true

variable {X : Handle → Prop}

theorem GoneFrom.earlier (G : GoneFrom t u k v) (await : t.awaitList ⊆ s.awaitList) : GoneFrom s u k v := by
  obtain ⟨x, found, pending, resume, entry, waits, saving⟩ := G
  exact ⟨x, found, pending, resume, entry,
    fun state => (waits state).imp_right fun ⟨q, mem, runs⟩ => ⟨q, await mem, runs⟩, saving⟩

theorem deadlinePresent_eq_false : s.deadlinePresent h = false ↔ ∀ d ∈ s.deadlines, d.task ≠ h := by
  simp [deadlinePresent]

theorem GoneFrom.later (G : GoneFrom s t k v) (S : Spares X t u) (out : ¬ X k) : GoneFrom s u k v := by
  obtain ⟨x, found, pending, resume, entry, waits, saving⟩ := G
  refine ⟨x, (S.task k out).trans found, pending, resume, ?_, fun state => ?_, saving⟩
  · rw [deadlinePresent_eq_false] at entry ⊢
    exact fun d mem => entry d (S.fewer mem)
  · exact (waits state).imp_left fun ⟨ready, mem⟩ => ⟨ready, (S.ready k _ out).2 mem⟩

theorem waitsToSend_iff {st : TaskState} : st.waitsToSend = true ↔ st = .sendWait ∨ ∃ q, st = .saving q .sendWait false := by
  constructor
  · intro waits
    unfold TaskState.waitsToSend at waits
    split at waits
    · exact .inl rfl
    · exact .inr ⟨_, rfl⟩
    · exact nomatch waits
  · rintro (rfl | ⟨q, rfl⟩) <;> rfl

theorem endWait_gone (e : s.task? k = some v) (waits : v.state.waitsToSend = true) : GoneFrom s (s.endWait k .gone) k v := by
  have record := undoWait_task?_self e
  have entry : (s.endWait k .gone).deadlinePresent k = false := by
    rw [deadlinePresent_eq_false]
    intro d mem
    have before := (wake_spares (s.undoWait k) k .gone).fewer mem
    rw [undoWait_deadlines] at before
    exact of_decide_eq_true (List.mem_filter.1 before).2
  have await : (s.undoWait k).awaitList = s.awaitList := undoWait_awaitList
  have unfolded : s.endWait k .gone = (s.undoWait k).wake k .gone := rfl
  rcases waitsToSend_iff.1 waits with state | ⟨q, state⟩
  · have resumed : ((s.undoWait k).withTask k { v with pendingSend := none, resume := .gone }).task? k =
        some { v with pendingSend := none, resume := .gone } := withTask_task?_self k _
    have woken := readyTail_woken resumed
    rw [← wake_of_waiting record (.inr (.inl state)) .gone, ← unfolded] at woken
    rcases woken with ⟨found, stands⟩ | ⟨q, mem, found⟩
    · exact ⟨_, found, rfl, rfl, entry, fun _ => .inl ⟨rfl, stands⟩, fun q now => nomatch state.symm.trans now⟩
    · have before : q ∈ s.awaitList := await ▸ mem
      exact ⟨_, found, rfl, rfl, entry, fun _ => .inr ⟨q, before, rfl⟩, fun q now => nomatch state.symm.trans now⟩
  · have found : (s.endWait k .gone).task? k =
        some { v with pendingSend := none, state := .saving q .sendWait true, resume := .gone } := by
      rw [unfolded, wake_of_saving record state rfl]
      exact withTask_task?_self k _
    refine ⟨_, found, rfl, rfl, entry, fun now => (nomatch state.symm.trans now), fun r now => ?_⟩
    cases state.symm.trans now
    rfl

/-- Each sender on the list of an inbox is released with GONE, and no later release touches it. -/
theorem releaseAllGone_gone (nodup : (s.inbox h).senders.Nodup) (mem : k ∈ (s.inbox h).senders) (e : s.task? k = some v)
    (waits : v.state.waitsToSend = true) : GoneFrom s (s.releaseAllGone h) k v := by
  have entries (hs : List Handle) : hs.Nodup → k ∈ hs → ∀ s : State, s.task? k = some v →
      GoneFrom s (hs.foldl (fun s sender => s.endWait sender .gone) s) k v := by
    induction hs with
    | nil => exact fun _ mem => nomatch mem
    | cons x rest ih =>
      intro nodup mem s e
      obtain ⟨out, once⟩ := List.nodup_cons.1 nodup
      by_cases same : k = x
      · subst same
        exact (endWait_gone e waits).later (gone_spares rest _) out
      · have first := endWait_spares s x .gone
        exact (ih once ((List.mem_cons.1 mem).resolve_left same) _ ((first.task k same).trans e)).earlier first.await
  exact entries _ nodup mem s e

end State
end Sys2Proof.Machine
end

section
/-! ## RESET_INBOX (R103) -/

namespace Sys2Proof.Machine

/-- What the dispatch unit and the ports hold, with the deadlines, the lines, the sink and the free slots. -/
def dispatchOf (s : State) := (s.tasks, s.ready, s.awaitList, s.ports, s.deadlines, s.lines, s.sink, s.freeSlots)

theorem Spares.dispatch {X : Handle → Prop} {s t : State} (same : dispatchOf t = dispatchOf s) : Spares X s t := by
  unfold dispatchOf at same
  simp only [Prod.mk.injEq] at same
  obtain ⟨tasks, ready, await, ports, deadlines, -⟩ := same
  have task (h : Handle) : t.task? h = s.task? h := State.task?_congr tasks h
  refine ⟨fun j _ => task j, fun j v q e state => ⟨v, (task j).trans e, state⟩, fun j q _ => ?_, fun j _ => ?_, ?_, ?_,
    fun q _ => State.port_congr ports q⟩
  · rw [ready]
  · rw [deadlines]
  · rw [deadlines]; exact fun _ mem => mem
  · rw [await]; exact fun _ mem => mem

namespace State
variable {s t u : State} {p q : Port} {h k : Handle} {v : Task}

theorem retryDeferred_dispatch : dispatchOf s.retryDeferred = dispatchOf s :=
  retryDeferred_keeps (P := fun t => dispatchOf t = dispatchOf s)
    (fun same _ made => by rw [(createRefill_eq made).2.2.2]; exact same) (fun _ same => same) rfl

theorem emptyInbox_dispatch (s : State) (h : Handle) : dispatchOf (s.emptyInbox h) = dispatchOf s := by
  rw [emptyInbox_cleared]
  split
  · rfl
  · exact retryDeferred_dispatch

/-! ### The inbox renewed -/

/-- Steps 1 and 2 of R103: the current job is marked, the inbox is emptied and made as new. -/
def renewed (s : State) (h : Handle) : State :=
  ({ s with jobs := markCurrent h s.jobs }.emptyInbox h).modInbox h Inbox.renew

theorem renewed_inbox (s : State) (h : Handle) : (s.renewed h).inbox h = { s.inbox h with
    broken := false, resident := [], spilling := 0, backed := 0, refilling := 0, writeIndex := 0, readIndex := 0,
    nextSeq := 0#16, lostCount := 0 } := by
  have renew : (s.renewed h).inbox h = Inbox.renew (({ s with jobs := markCurrent h s.jobs } : State).emptyInbox h |>.inbox h) :=
    (getElem_set_fin ..).trans (if_pos rfl)
  rw [renew, emptyInbox_inbox]
  rfl

theorem renewed_dispatch (s : State) (h : Handle) : dispatchOf (s.renewed h) = dispatchOf s :=
  emptyInbox_dispatch { s with jobs := markCurrent h s.jobs } h

theorem markCurrent_tail (h : Handle) (js : List Job) : (markCurrent h js).tail = js.tail := by
  cases js <;> rfl

theorem marked_freedBy (s : State) (h : Handle) : ({ s with jobs := markCurrent h s.jobs } : State).freedBy h = s.freedBy h := by
  unfold freedBy
  exact congrArg (fun js : List Job => (s.inbox h).resident ++ (js.filter fun k => k.inbox = h).flatMap Job.slots)
    (markCurrent_tail h s.jobs)

theorem renewed_returned (s : State) (h : Handle) : Returned (s.renewed h) (s.freedBy h) := by
  have emptied := emptyInbox_returned (s := { s with jobs := markCurrent h s.jobs }) (xs := [])
    (returned_free fun _ mem => nomatch mem) h
  rw [marked_freedBy] at emptied
  exact emptied.same rfl

theorem renewed_pool_of_none (none : s.deferred = []) (h : Handle) : (s.renewed h).poolFree = s.freedBy h ++ s.poolFree := by
  have emptied := emptyInbox_pool_of_none (s := { s with jobs := markCurrent h s.jobs }) none h
  rw [marked_freedBy] at emptied
  exact emptied

theorem renewed_jobs (s : State) (h : Handle) : ∃ more, (s.renewed h).jobs =
    (markCurrent h s.jobs).take 1 ++ ((markCurrent h s.jobs).tail.filter fun k => k.inbox ≠ h) ++ more ∧
      ∀ k ∈ more, k.kind = .refill ∧ k.inbox ≠ h := emptyInbox_jobs { s with jobs := markCurrent h s.jobs } h

theorem renewed_not_deferred (s : State) (h : Handle) : h ∉ (s.renewed h).deferred := emptyInbox_not_deferred _ h

/-! ### The pending RECEIVE answered -/

/-- What the answer to a pending RECEIVE leaves. -/
theorem completeReceive_leaves (s : State) (h : Handle) (c : ResultCode) :
    ((s.completeReceive h c).poolFree, (s.completeReceive h c).jobs, (s.completeReceive h c).deferred,
      (s.completeReceive h c).tasks, (s.completeReceive h c).ready, (s.completeReceive h c).deadlines,
      (s.completeReceive h c).lines) = (s.poolFree, s.jobs, s.deferred, s.tasks, s.ready, s.deadlines, s.lines) := by
  unfold completeReceive
  split
  · dsimp only
    split
    · split <;> rfl
    · rfl
  · rfl

theorem completeReceive_inbox (s : State) (h : Handle) (c : ResultCode) :
    (s.completeReceive h c).inbox h = { s.inbox h with recvPending := false } := by
  have cleared : (s.clearReceivePending h).inbox h = { s.inbox h with recvPending := false } :=
    (getElem_set_fin ..).trans (if_pos rfl)
  unfold completeReceive
  split
  · dsimp only
    split
    · split <;> exact cleared
    · exact cleared
  case isFalse idle =>
    rw [Bool.not_eq_true] at idle
    rw [← idle]

/-! ### What a reset inbox leaves -/

/-- The state that RESET_INBOX makes, before the preempt flags and its answer. -/
def resetTo (s : State) (h : Handle) : State :=
  (((s.renewed h).releaseAllGone h).completeReceive h .empty).mapLines (LineRec.discardInbox h)

theorem clearInbox_eq (s : State) (h : Handle) : s.clearInbox h = (s.resetTo h).evalPreempt := rfl

theorem resetTo_stores (s : State) (h : Handle) : ((s.resetTo h).poolFree, (s.resetTo h).jobs, (s.resetTo h).deferred) =
    ((s.renewed h).poolFree, (s.renewed h).jobs, (s.renewed h).deferred) := by
  have released := releaseAllGone_wakes (s.renewed h) h
  unfold resetTo
  generalize (s.renewed h).releaseAllGone h = g at released ⊢
  have completed := completeReceive_leaves g h .empty
  simp only [Prod.mk.injEq] at completed
  obtain ⟨pool, jobs, deferred, -⟩ := completed
  rw [mapLines_poolFree, mapLines_jobs, mapLines_deferred, pool, jobs, deferred, released.poolFree, released.jobs,
    released.deferred]

theorem resetTo_keeps (s : State) (h : Handle) : ((s.resetTo h).tasks, (s.resetTo h).ready, (s.resetTo h).deadlines) =
    (((s.renewed h).releaseAllGone h).tasks, ((s.renewed h).releaseAllGone h).ready,
      ((s.renewed h).releaseAllGone h).deadlines) := by
  unfold resetTo
  generalize (s.renewed h).releaseAllGone h = g
  have completed := completeReceive_leaves g h .empty
  simp only [Prod.mk.injEq] at completed
  obtain ⟨-, -, -, tasks, ready, deadlines, -⟩ := completed
  rw [mapLines_tasks, mapLines_ready, mapLines_deadlines, tasks, ready, deadlines]

theorem resetTo_inbox (s : State) (h : Handle) : (s.resetTo h).inbox h = { Inbox.default with
    limit := (s.inbox h).limit
    mark := (s.inbox h).mark
    basePage := (s.inbox h).basePage
    capacity := (s.inbox h).capacity
    senders := ((s.renewed h).releaseAllGone h |>.inbox h).senders } := by
  have released : ((s.renewed h).releaseAllGone h).inbox h =
      { (s.renewed h).inbox h with senders := ((s.renewed h).releaseAllGone h |>.inbox h).senders } :=
    (releaseAllGone_wakes (s.renewed h) h).inbox h.slot
  rw [renewed_inbox] at released
  unfold resetTo
  generalize (s.renewed h).releaseAllGone h = g at released ⊢
  rw [mapLines_inbox, completeReceive_inbox, released]
  rfl

/-- A RECEIVE that was pending at the running task's port is answered with EMPTY (R103). -/
theorem resetTo_port (pending : (s.inbox h).recvPending = true) (e : s.task? h = some v) (state : v.state = .running q) :
    ((s.resetTo h).port q).state = .run h false ∧ ((s.resetTo h).port q).done = true ∧
      ((s.resetTo h).port q).result = resultWord .empty 0#16 := by
  have spared := (Spares.dispatch (X := (· ∈ ((s.renewed h).inbox h).senders)) (renewed_dispatch s h)).trans
    (releaseAllGone_spares (s.renewed h) h)
  obtain ⟨w, found, runs⟩ := spared.running h v q e state
  have awaited : (((s.renewed h).releaseAllGone h).inbox h).recvPending = true := by
    have released := congrArg Inbox.recvPending ((releaseAllGone_wakes (s.renewed h) h).inbox h.slot)
    exact released.trans ((congrArg Inbox.recvPending (renewed_inbox s h)).trans pending)
  unfold resetTo
  generalize (s.renewed h).releaseAllGone h = g at found awaited ⊢
  rw [mapLines_port, completeReceive_running awaited found runs .empty, withPort_port, if_pos rfl]
  exact ⟨rfl, rfl, rfl⟩

/-- The senders of a list that agrees do not include the owner, and they wait to send. -/
theorem SendersAgree.sender (A : s.SendersAgree) (live : s.live h = true) (mem : k ∈ (s.inbox h).senders) :
    k ≠ h ∧ ∀ v, s.task? k = some v → v.state.waitsToSend = true := by
  obtain ⟨v, ps, e, pending, target⟩ := (A.listed h k live).1 mem
  refine ⟨fun same => (A.target k v ps e pending).2 (target.trans same.symm), fun w found => ?_⟩
  cases e.symm.trans found
  exact (A.waits k v e).symm.trans (by rw [pending]; rfl)

theorem GoneFrom.congr (G : GoneFrom s t k v) (task : u.task? k = t.task? k)
    (kept : (u.ready, u.deadlines) = (t.ready, t.deadlines)) : GoneFrom s u k v := by
  obtain ⟨ready, deadlines⟩ := Prod.mk.inj kept
  unfold GoneFrom deadlinePresent at G ⊢
  rw [task, ready, deadlines]
  exact G

/-- The release of every sender on the list, in a state made of `s` in which the other tasks are as they were (R23, R103). -/
theorem released_gone (A : s.SendersAgree) (live : s.live h = true) (B : t.SendersAgree) (alive : t.live h = true)
    (task : ∀ j, j ≠ h → t.task? j = s.task? j) (await : t.awaitList ⊆ s.awaitList) (mem : k ∈ (s.inbox h).senders)
    (e : s.task? k = some v) : GoneFrom s (t.releaseAllGone h) k v := by
  obtain ⟨other, waits⟩ := A.sender live mem
  obtain ⟨w, ps, found, pending, target⟩ := (A.listed h k live).1 mem
  have listed : k ∈ (t.inbox h).senders := (B.listed h k alive).2 ⟨w, ps, (task k other).trans found, pending, target⟩
  exact (releaseAllGone_gone (B.nodup h alive) listed ((task k other).trans e) (waits v e)).earlier await

theorem released_senders (A : s.SendersAgree) (live : s.live h = true) : ((s.releaseAllGone h).inbox h).senders = [] := by
  have agrees : (s.releaseAllGone h).SendersAgree := releaseAllGone_keeps h (fun k A => endWait_senders A k .gone) A
  have alive : (s.releaseAllGone h).live h = true := by
    have same := congrArg Option.isSome ((releaseAllGone_wakes s h).bound h)
    simp only [Option.isSome_map] at same
    exact same.trans live
  refine List.eq_nil_iff_forall_not_mem.2 fun k mem => ?_
  obtain ⟨v, ps, e, pending, target⟩ := (agrees.listed h k alive).1 mem
  exact releaseAllGone_unsought A live k v ps e pending target

theorem renewed_sends (s : State) (h : Handle) : Sends s (s.renewed h) := by
  have emptied : Sends s (State.emptyInbox { s with jobs := markCurrent h s.jobs } h) :=
    .trans (.same (by rfl)) (emptyInbox_sends h)
  exact emptied.trans (.modInbox _ h fun _ => rfl)

end State
end Sys2Proof.Machine
end

section
/-! ## RESET_INBOX, as its statement has it (R103) -/

namespace Sys2Proof.Machine
namespace State
variable {s t r u : State} {p q : Port} {h k : Handle} {v : Task} {x : PortUnit}

/-! ### What a re-evaluation of the preempt flags leaves -/

theorem Reevaluated.inbox (E : r.Reevaluated (u.withPort p x)) (h : Handle) : r.inbox h = u.inbox h := by
  obtain ⟨-, same, -⟩ := E
  rw [same]; rfl

theorem Reevaluated.stores (E : r.Reevaluated (u.withPort p x)) :
    (r.poolFree, r.jobs, r.deferred) = (u.poolFree, u.jobs, u.deferred) := by
  obtain ⟨-, same, -⟩ := E
  rw [same]; rfl

theorem Reevaluated.keeps (E : r.Reevaluated (u.withPort p x)) :
    (r.tasks, r.ready, r.deadlines) = (u.tasks, u.ready, u.deadlines) := by
  obtain ⟨-, same, -⟩ := E
  rw [same]; rfl

/-! ### The clauses -/

theorem exec_resetInbox_of_live (free : s.SupervisorAt p) (e : s.task? (Handle.ofWord (s.port p).args[0]) = some v) :
    ∃ r, exec (.resetInbox p) s = .next r ∧
      r.Reevaluated (((s.taken p).resetTo (Handle.ofWord (s.port p).args[0])).withPort p
        ((((s.taken p).resetTo (Handle.ofWord (s.port p).args[0])).port p).answer .ok
          (BitVec.ofNat 16 (s.inbox (Handle.ofWord (s.port p).args[0])).total))) := by
  have taken : exec (.resetInbox p) s = .next ((s.taken p).resetInbox p) :=
    exec_supervisor (c := .resetInbox) free rfl nofun
  have live : (s.taken p).live (Handle.ofWord (s.port p).args[0]) = true := congrArg Option.isSome e
  refine ⟨_, taken, ?_⟩
  unfold resetInbox
  rw [taken_handleArg]
  dsimp only
  rw [if_pos live, clearInbox_eq]
  exact evalPreempt_setResult_reevaluated _ p .ok _

/-- What RESET_INBOX leaves of the slots, the jobs and the deferred-refill list. -/
theorem resetTo_emptied (stores : (r.poolFree, r.jobs, r.deferred) =
      ((s.resetTo h).poolFree, (s.resetTo h).jobs, (s.resetTo h).deferred)) :
    Returned r (s.freedBy h) ∧ (s.deferred = [] → r.poolFree = s.freedBy h ++ s.poolFree) ∧ h ∉ r.deferred ∧
      ∃ more, r.jobs = (markCurrent h s.jobs).take 1 ++ ((markCurrent h s.jobs).tail.filter fun k => k.inbox ≠ h) ++ more ∧
        ∀ k ∈ more, k.kind = .refill ∧ k.inbox ≠ h := by
  rw [resetTo_stores] at stores
  simp only [Prod.mk.injEq] at stores
  obtain ⟨pool, jobs, deferred⟩ := stores
  refine ⟨(renewed_returned s h).same (by rw [pool, jobs]), fun none => ?_, ?_, ?_⟩
  · rw [pool, renewed_pool_of_none none]
  · rw [deferred]; exact renewed_not_deferred s h
  · rw [jobs]; exact renewed_jobs s h

/-- The senders that RESET_INBOX releases, and what it leaves of the owner. -/
theorem resetTo_released (A : s.SendersAgree) (e : s.task? h = some v)
    (keeps : (r.tasks, r.ready, r.deadlines) = ((s.resetTo h).tasks, (s.resetTo h).ready, (s.resetTo h).deadlines)) :
    ((s.resetTo h).inbox h).senders = [] ∧ r.task? h = some v ∧
      (r.deadlines.filter fun d => d.task = h) = (s.deadlines.filter fun d => d.task = h) ∧
      ∀ k ∈ (s.inbox h).senders, ∀ w, s.task? k = some w → GoneFrom s r k w := by
  have live : s.live h = true := congrArg Option.isSome e
  have sends := renewed_sends s h
  have agrees := A.sends sends
  have alive : (s.renewed h).live h = true := (sends.live h).trans live
  have spared := (Spares.dispatch (X := (· ∈ ((s.renewed h).inbox h).senders)) (renewed_dispatch s h)).trans
    (releaseAllGone_spares (s.renewed h) h)
  have own : h ∉ ((s.renewed h).inbox h).senders := fun mem => (agrees.sender alive mem).1 rfl
  rw [resetTo_keeps] at keeps
  have parts := keeps
  simp only [Prod.mk.injEq] at parts
  obtain ⟨tasks, ready, deadlines⟩ := parts
  have queues : (r.ready, r.deadlines) = (((s.renewed h).releaseAllGone h).ready, ((s.renewed h).releaseAllGone h).deadlines) := by
    rw [ready, deadlines]
  have same : Spares (fun _ => False) s (s.renewed h) := .dispatch (renewed_dispatch s h)
  refine ⟨?_, ?_, ?_, fun k mem w found => ?_⟩
  · rw [resetTo_inbox]; exact released_senders agrees alive
  · rw [task?_congr tasks, spared.task h own, e]
  · rw [deadlines, spared.deadlines h own]
  · exact (released_gone A live agrees alive (fun j _ => same.task j not_false) same.await mem found).congr (task?_congr tasks k) queues

theorem resetTo_eq {f : Line → LineRec} (lines : ∀ l, f l = LineRec.discardInbox h s.lines[l]) :
    { ((s.renewed h).releaseAllGone h).completeReceive h .empty with lines := Vector.ofFn f } = s.resetTo h := by
  have kept : (((s.renewed h).releaseAllGone h).completeReceive h .empty).lines = s.lines := by
    have same := renewed_dispatch s h
    simp only [dispatchOf, Prod.mk.injEq] at same
    obtain ⟨-, -, -, -, -, lines, -⟩ := same
    rw [completeReceive_lines, (releaseAllGone_wakes _ h).lines, lines]
  unfold resetTo
  generalize ((s.renewed h).releaseAllGone h).completeReceive h .empty = c at kept ⊢
  unfold mapLines
  rw [kept, funext lines]

/-- The answer leaves what another port was answered with, and that a RECEIVE is done. -/
theorem Reevaluated.received {st : PortState} {w : Word} {x : BitVec 16}
    (E : r.Reevaluated (u.withPort p ((u.port p).answer .ok x)))
    (received : (u.port q).state = st ∧ (u.port q).done = true ∧ (u.port q).result = w) :
    (r.port q).state = st ∧ (r.port q).done = true ∧ (q ≠ p → (r.port q).result = w) := by
  obtain ⟨state, done, result⟩ := received
  obtain ⟨-, -, ports⟩ := E
  rw [ports q, withPort_port]
  split
  case isTrue own => subst own; exact ⟨state, done, fun other => absurd rfl other⟩
  case isFalse => exact ⟨state, done, fun _ => result⟩

end State
end Sys2Proof.Machine
end

section
/-! ## A task taken out of everything that holds it (R22) -/

namespace Sys2Proof.Machine

/-- The port has been evicted with GONE (R15, R18). -/
def EvictedAt (s : State) (q : Port) : Prop :=
  (s.port q).state = .idle ∧ (s.port q).evicted = true ∧ (s.port q).result = resultWord .gone 0#16

/-- Task `h` has been taken out of something that held it: no slot has moved, the other tasks are as they were, and no sender
list and no deadline list has gained an entry. -/
structure Withdrawn (h : Handle) (s t : State) : Prop where
  kept : (t.poolFree, t.jobs, t.deferred, t.lines, t.sink, t.freeSlots, t.awaitList) =
    (s.poolFree, s.jobs, s.deferred, s.lines, s.sink, s.freeSlots, s.awaitList)
  task : ∀ j, j ≠ h → t.task? j = s.task? j
  resident : ∀ k : Slot, t.inboxes[k].resident = s.inboxes[k].resident
  senders : ∀ k : Slot, t.inboxes[k].senders ⊆ s.inboxes[k].senders
  fewer : t.deadlines ⊆ s.deadlines
  evicted : ∀ q, EvictedAt s q → EvictedAt t q

namespace Withdrawn
variable {s t u : State} {h : Handle}

theorem refl (s : State) : Withdrawn h s s :=
  ⟨rfl, fun _ _ => rfl, fun _ => rfl, fun _ _ mem => mem, fun _ mem => mem, fun _ gone => gone⟩

theorem trans (a : Withdrawn h s t) (b : Withdrawn h t u) : Withdrawn h s u :=
  ⟨b.kept.trans a.kept, fun j other => (b.task j other).trans (a.task j other),
   fun k => (b.resident k).trans (a.resident k), fun k _ mem => a.senders k (b.senders k mem),
   fun _ mem => a.fewer (b.fewer mem), fun q gone => b.evicted q (a.evicted q gone)⟩

end Withdrawn

namespace State
variable {s t u : State} {p q : Port} {h k : Handle} {v : Task} {ps : PendingSend}

theorem dequeue_withdrawn (s : State) (h : Handle) : Withdrawn h s (s.dequeue h) := by
  unfold dequeue
  split
  · exact ⟨rfl, fun _ _ => rfl, fun _ => rfl, fun _ _ mem => mem, fun _ mem => mem, fun _ gone => gone⟩
  · exact .refl s

theorem modTask_withdrawn (s : State) (h : Handle) (f : Task → Task) : Withdrawn h s (s.modTask h f) where
  kept := by rw [modTask_poolFree, modTask_jobs, modTask_deferred, modTask_lines, modTask_sink, modTask_freeSlots,
    modTask_awaitList]
  task j other := by rw [task?_modTask, if_neg other]
  resident k := by rw [modTask_inboxes]
  senders k _ mem := by rwa [modTask_inboxes] at mem
  fewer _ mem := by rwa [modTask_deadlines] at mem
  evicted q gone := by
    unfold EvictedAt
    rw [modTask_port]
    exact gone

/-- No sender list gains an entry when a wait is undone. -/
theorem undoWait_shrinks (s : State) (h : Handle) (k : Slot) :
    (s.undoWait h).inboxes[k].senders ⊆ s.inboxes[k].senders := by
  cases e : s.task? h with
  | none =>
    have same : s.undoWait h = s.removeDeadline h := by unfold undoWait dropPendingSend; rw [e]
    rw [same]
    exact fun _ mem => mem
  | some v =>
    rw [undoWait_of_task e]
    cases v.pendingSend with
    | none => exact fun _ mem => mem
    | some ps =>
      have get : (s.withInbox ps.target { s.inbox ps.target with
          senders := (s.inbox ps.target).senders.filter fun r => r ≠ h }).inboxes[k] =
          if k = ps.target.slot then { s.inbox ps.target with
            senders := (s.inbox ps.target).senders.filter fun r => r ≠ h } else s.inboxes[k] := getElem_set_fin ..
      intro j mem
      have listed := (congrArg Inbox.senders get) ▸ mem
      split at listed
      case isTrue same => subst same; exact List.mem_of_mem_filter listed
      case isFalse => exact listed

/-- A task whose wait is undone stands on its target's list no more. -/
theorem undoWait_unlisted (e : s.task? h = some v) (pending : v.pendingSend = some ps) :
    h ∉ ((s.undoWait h).inbox ps.target).senders := by
  have get : (s.withInbox ps.target { s.inbox ps.target with
      senders := (s.inbox ps.target).senders.filter fun r => r ≠ h }).inbox ps.target = { s.inbox ps.target with
        senders := (s.inbox ps.target).senders.filter fun r => r ≠ h } := (getElem_set_fin ..).trans (if_pos rfl)
  have list : ((s.undoWait h).inbox ps.target).senders = (s.inbox ps.target).senders.filter fun r => r ≠ h := by
    rw [undoWait_of_task e, pending]
    exact congrArg Inbox.senders get
  rw [list]
  exact fun mem => of_decide_eq_true (List.mem_filter.1 mem).2 rfl

theorem undoWait_withdrawn (s : State) (h : Handle) : Withdrawn h s (s.undoWait h) where
  kept := by
    have waits := undoWait_wakes (s := s) h
    rw [waits.poolFree, waits.jobs, waits.deferred, waits.lines, waits.sink, waits.freeSlots, undoWait_awaitList]
  task := (undoWait_spares s h).task
  resident k := by rw [(undoWait_wakes h).inbox k]
  senders := undoWait_shrinks s h
  fewer := (undoWait_spares s h).fewer
  evicted q gone := by
    unfold EvictedAt
    rw [undoWait_port]
    exact gone

theorem abandonReceive_withdrawn (s : State) (q : Port) (h : Handle) : Withdrawn h s (s.abandonReceive q) := by
  unfold abandonReceive
  split
  case h_1 k _ =>
    have get (i : Slot) : (s.clearReceivePending k).inboxes[i] =
        if i = k.slot then { s.inbox k with recvPending := false } else s.inboxes[i] := getElem_set_fin ..
    refine ⟨rfl, fun _ _ => rfl, fun i => ?_, fun i => ?_, fun _ mem => mem, fun _ gone => gone⟩
    · rw [get]
      split
      case isTrue same => subst same; rfl
      case isFalse => rfl
    · rw [get]
      split
      case isTrue same => subst same; exact fun _ mem => mem
      case isFalse => exact fun _ mem => mem
  case h_2 => exact .refl s

theorem evictPort_port (s : State) (q r : Port) : EvictedAt s r ∨ r = q → EvictedAt (s.evictPort q .gone) r := by
  intro gone
  unfold EvictedAt
  rw [evictPort_eq, modPort_port]
  split
  case isTrue => exact ⟨rfl, rfl, rfl⟩
  case isFalse other => exact gone.resolve_right other

theorem evictPort_withdrawn (s : State) (q : Port) (h : Handle) : Withdrawn h s (s.evictPort q .gone) :=
  ⟨rfl, fun _ _ => rfl, fun _ => rfl, fun _ _ mem => mem, fun _ mem => mem, fun r gone => evictPort_port s q r (.inl gone)⟩

theorem evict_withdrawn (s : State) (q : Port) (h : Handle) : Withdrawn h s (s.evict q h .gone) :=
  ((abandonReceive_withdrawn s q h).trans (undoWait_withdrawn _ h)).trans (evictPort_withdrawn _ q h)

theorem detachTask_withdrawn (s : State) (h : Handle) (st : TaskState) : Withdrawn h s (s.detachTask h st .gone) := by
  unfold detachTask
  split
  iterate 2 exact .refl s
  · exact dequeue_withdrawn s h
  iterate 2 exact evict_withdrawn s _ h
  all_goals exact undoWait_withdrawn s h

theorem abortSeed_withdrawn (s : State) (h : Handle) (sp : Option Port) : Withdrawn h s (s.abortSeed h sp) := by
  unfold abortSeed
  split
  · exact (evictPort_withdrawn s _ h).trans (modTask_withdrawn _ h _)
  · exact .refl s

/-! ### The state before the bound message is returned -/

/-- R22 but for the bound message: the task holds nothing and nothing holds it. -/
def unheld (s : State) (h : Handle) (v : Task) : State :=
  (((s.detachTask h v.state .gone).abortSeed h v.seedPort).undoWait h).modTask h
    fun t => { t with state := .dormant, bound := none }

theorem removeTask_unheld (s : State) (h : Handle) (v : Task) :
    s.removeTask h v = (s.unheld h v).returnSlots v.bound.toList := rfl

theorem unheld_withdrawn (s : State) (h : Handle) (v : Task) : Withdrawn h s (s.unheld h v) :=
  (((detachTask_withdrawn s h v.state).trans (abortSeed_withdrawn _ h v.seedPort)).trans (undoWait_withdrawn _ h)).trans
    (modTask_withdrawn _ h _)

theorem unheld_deadlines (s : State) (h : Handle) (v : Task) : (s.unheld h v).deadlinePresent h = false := by
  rw [deadlinePresent_eq_false]
  intro d mem
  unfold unheld at mem
  rw [modTask_deadlines, undoWait_deadlines] at mem
  exact of_decide_eq_true (List.mem_filter.1 mem).2

/-- The task's record is as it was, or its wait has been undone. -/
def Undone (t : State) (h : Handle) (v : Task) : Prop :=
  t.task? h = some v ∨
    t.task? h = some { v with pendingSend := none } ∧
      ∀ ps, v.pendingSend = some ps → h ∉ (t.inbox ps.target).senders

theorem Undone.modPort (U : Undone t h v) (q : Port) (f : PortUnit → PortUnit) : Undone (t.modPort q f) h v := U

theorem abandonReceive_task? (q : Port) (k : Handle) : (s.abandonReceive q).task? k = s.task? k := by
  unfold abandonReceive
  split <;> rfl

theorem detachTask_undone (e : s.task? h = some v) : Undone (s.detachTask h v.state .gone) h v := by
  have undone {u : State} (found : u.task? h = some v) : Undone (u.undoWait h) h v :=
    .inr ⟨undoWait_task?_self found, fun _ pending => undoWait_unlisted found pending⟩
  have evicted (q : Port) : Undone (s.evict q h .gone) h v := by
    unfold evict
    rw [evictPort_eq]
    exact (undone ((abandonReceive_task? q h).trans e)).modPort q _
  unfold detachTask
  split
  iterate 2 exact .inl e
  · rw [dequeue_of e]; exact .inl e
  iterate 2 exact evicted _
  all_goals exact undone e

theorem abortSeed_undone (U : Undone t h v) (sp : Option Port) :
    ∃ w, (t.abortSeed h sp).task? h = some w ∧ (w.pendingSend = v.pendingSend ∨ w.pendingSend = none ∧
      ∀ ps, v.pendingSend = some ps → h ∉ ((t.abortSeed h sp).inbox ps.target).senders) := by
  obtain ⟨x, found, cases_⟩ : ∃ x, t.task? h = some x ∧ (x.pendingSend = v.pendingSend ∨ x.pendingSend = none ∧
      ∀ ps, v.pendingSend = some ps → h ∉ (t.inbox ps.target).senders) :=
    U.elim (fun e => ⟨v, e, .inl rfl⟩) fun ⟨e, out⟩ => ⟨_, e, .inr ⟨rfl, out⟩⟩
  have shrinks := (abortSeed_withdrawn t h sp).senders
  have out (listed : ∀ ps, v.pendingSend = some ps → h ∉ (t.inbox ps.target).senders) :
      ∀ ps, v.pendingSend = some ps → h ∉ ((t.abortSeed h sp).inbox ps.target).senders :=
    fun ps pending mem => listed ps pending (shrinks ps.target.slot mem)
  cases sp with
  | none => exact ⟨x, found, cases_.imp_right fun ⟨lost, listed⟩ => ⟨lost, out listed⟩⟩
  | some q =>
    refine ⟨{ x with seedPort := none }, ?_, cases_.imp_right fun ⟨lost, listed⟩ => ⟨lost, out listed⟩⟩
    have there : (t.evictPort q .gone).task? h = some x := found
    exact task?_modTask_self _ _ there

theorem unheld_unlisted (e : s.task? h = some v) (pending : v.pendingSend = some ps) :
    h ∉ ((s.unheld h v).inbox ps.target).senders := by
  obtain ⟨w, found, listed⟩ := abortSeed_undone (detachTask_undone e) v.seedPort
  have out : h ∉ ((((s.detachTask h v.state .gone).abortSeed h v.seedPort).undoWait h).inbox ps.target).senders := by
    rcases listed with same | ⟨-, out⟩
    · exact undoWait_unlisted found (same.trans pending)
    · exact fun mem => out ps pending (undoWait_shrinks _ h ps.target.slot mem)
  unfold unheld
  rw [modTask_inbox]
  exact out

/-- The port that held the task, checked it in or seeded it is evicted with GONE. -/
theorem unheld_evicted (s : State) (h : Handle) (v : Task)
    (on : v.state.place = .held q ∨ v.state.place = .saved q ∨ v.seedPort = some q) : EvictedAt (s.unheld h v) q := by
  have after {u : State} (gone : EvictedAt u q) : EvictedAt ((u.undoWait h).modTask h
      fun t => { t with state := .dormant, bound := none }) q :=
    (modTask_withdrawn _ h _).evicted q ((undoWait_withdrawn u h).evicted q gone)
  have held (gone : EvictedAt (s.detachTask h v.state .gone) q) : EvictedAt (s.unheld h v) q :=
    after ((abortSeed_withdrawn _ h v.seedPort).evicted q gone)
  rcases on with place | place | seed
  · refine held ?_
    cases state : v.state with
    | running r =>
      rw [state] at place
      cases place
      exact evictPort_port _ q q (.inr rfl)
    | _ => rw [state] at place; nomatch place
  · refine held ?_
    cases state : v.state with
    | saving r d done =>
      rw [state] at place
      cases place
      exact evictPort_port _ q q (.inr rfl)
    | _ => rw [state] at place; nomatch place
  · unfold unheld
    rw [seed]
    refine after ?_
    exact (modTask_withdrawn _ h _).evicted q (evictPort_port _ q q (.inr rfl))

end State
end Sys2Proof.Machine
end

section
/-! ## What DESTROY leaves (R22 to R24) -/

namespace Sys2Proof.Machine
namespace State
variable {s t u : State} {p q : Port} {h k : Handle} {v w : Task} {ps : PendingSend}

/-! ### The bound message returned -/

theorem retryDeferred_appends (s : State) : ∃ more, s.retryDeferred.jobs = s.jobs ++ more := by
  refine retryDeferred_keeps (P := fun t => ∃ more, t.jobs = s.jobs ++ more) (fun {u t i} appended _ made => ?_)
    (fun _ appended => appended) ⟨[], (List.append_nil _).symm⟩
  obtain ⟨more, jobs⟩ := appended
  obtain ⟨-, -, -, rfl⟩ := createRefill_eq made
  exact ⟨_, (congrArg (· ++ _) jobs).trans (List.append_assoc ..)⟩

/-- A retry takes nothing from what the emptying of an inbox returns. -/
theorem retryDeferred_freedBy (s : State) (h : Handle) : s.freedBy h ⊆ s.retryDeferred.freedBy h := by
  obtain ⟨more, jobs⟩ := retryDeferred_appends s
  have resident : (s.retryDeferred.inbox h).resident = (s.inbox h).resident := retryDeferred_resident h.slot
  intro x mem
  unfold freedBy at mem ⊢
  rw [resident]
  rcases List.mem_append.1 mem with own | queued
  · exact List.mem_append_left _ own
  · obtain ⟨j, behind, slot⟩ := List.mem_flatMap.1 queued
    obtain ⟨there, same⟩ := List.mem_filter.1 behind
    refine List.mem_append_right _ (List.mem_flatMap.2 ⟨j, List.mem_filter.2 ⟨?_, same⟩, slot⟩)
    rw [jobs]
    cases before : s.jobs with
    | nil => rw [before] at there; nomatch there
    | cons i rest => rw [before] at there; exact List.mem_append_left _ there

theorem removeTask_eq (s : State) (h : Handle) (v : Task) : s.removeTask h v = match v.bound with
    | some x => State.retryDeferred { s.unheld h v with poolFree := x :: (s.unheld h v).poolFree }
    | none => s.unheld h v := by
  rw [removeTask_unheld, returnSlots_eq]
  cases v.bound <;> rfl

theorem unheld_freedBy (s : State) (h : Handle) (v : Task) : (s.unheld h v).freedBy h = s.freedBy h := by
  have W := unheld_withdrawn s h v
  have kept := W.kept
  simp only [Prod.mk.injEq] at kept
  obtain ⟨-, jobs, -⟩ := kept
  unfold freedBy
  rw [jobs, show ((s.unheld h v).inbox h).resident = (s.inbox h).resident from W.resident h.slot]

theorem removeTask_freedBy (s : State) (h : Handle) (v : Task) : s.freedBy h ⊆ (s.removeTask h v).freedBy h := by
  rw [removeTask_unheld, returnSlots_eq, ← unheld_freedBy s h v]
  generalize s.unheld h v = u
  split
  · exact fun _ mem => mem
  · exact retryDeferred_freedBy { u with poolFree := v.bound.toList ++ u.poolFree } h

theorem removeTask_returned (s : State) (h : Handle) (v : Task) : Returned (s.removeTask h v) v.bound.toList := by
  rw [removeTask_unheld, returnSlots_eq]
  split
  case isTrue none => rw [none]; exact returned_free fun _ mem => nomatch mem
  case isFalse => exact retryDeferred_returned (returned_free fun _ mem => List.mem_append_left _ mem)

theorem removeTask_of_none (none : s.deferred = []) (h : Handle) (v : Task) :
    (s.removeTask h v).deferred = [] ∧ (s.removeTask h v).freedBy h = s.freedBy h ∧
      (s.removeTask h v).poolFree = v.bound.toList ++ s.poolFree := by
  have kept := (unheld_withdrawn s h v).kept
  simp only [Prod.mk.injEq] at kept
  obtain ⟨pool, -, deferred, -⟩ := kept
  rw [removeTask_unheld, returnSlots_eq, ← unheld_freedBy s h v, ← pool]
  generalize s.unheld h v = u at deferred
  have still : ({ u with poolFree := v.bound.toList ++ u.poolFree } : State).deferred = [] := deferred.trans none
  split
  case isTrue unbound => exact ⟨still, rfl, by rw [unbound]; rfl⟩
  case isFalse =>
    rw [retryDeferred_of_none still]
    exact ⟨still, rfl, rfl⟩

theorem removeTask_dispatch (s : State) (h : Handle) (v : Task) : dispatchOf (s.removeTask h v) = dispatchOf (s.unheld h v) := by
  rw [removeTask_unheld, returnSlots_eq]
  generalize s.unheld h v = u
  split
  · rfl
  · exact retryDeferred_dispatch

/-! ### The inbox emptied and its senders released -/

/-- The task out of what held it, its inbox empty. -/
def vacated (s : State) (h : Handle) (v : Task) : State := (s.removeTask h v).emptyInbox h

theorem vacated_dispatch (s : State) (h : Handle) (v : Task) : dispatchOf (s.vacated h v) = dispatchOf (s.unheld h v) :=
  (emptyInbox_dispatch _ h).trans (removeTask_dispatch s h v)

theorem vacated_spares {X : Handle → Prop} (s : State) (h : Handle) (v : Task) : Spares X (s.unheld h v) (s.vacated h v) :=
  .dispatch (vacated_dispatch s h v)

theorem vacated_task? (s : State) (h : Handle) (v : Task) {j : Handle} (other : j ≠ h) :
    (s.vacated h v).task? j = s.task? j :=
  ((vacated_spares (X := fun _ => False) s h v).task j not_false).trans ((unheld_withdrawn s h v).task j other)

theorem unheld_awaitList (s : State) (h : Handle) (v : Task) : (s.unheld h v).awaitList = s.awaitList := by
  have kept := (unheld_withdrawn s h v).kept
  simp only [Prod.mk.injEq] at kept
  obtain ⟨-, -, -, -, -, -, await⟩ := kept
  exact await

theorem vacated_awaitList (s : State) (h : Handle) (v : Task) : (s.vacated h v).awaitList ⊆ s.awaitList := by
  rw [← unheld_awaitList s h v]
  exact (vacated_spares (X := fun _ => False) s h v).await

theorem vacated_senders (s : State) (h : Handle) (v : Task) (k : Slot) :
    (s.vacated h v).inboxes[k].senders = (s.unheld h v).inboxes[k].senders := by
  have returned : (s.removeTask h v).inboxes[k].senders = (s.unheld h v).inboxes[k].senders := by
    rw [removeTask_unheld, returnSlots_eq]
    generalize s.unheld h v = u
    split
    · rfl
    · exact retryDeferred_sends.senders k
  exact ((emptyInbox_sends h).senders k).trans returned

theorem wake_inboxes (s : State) (k : Handle) (r : Resume) : (s.wake k r).inboxes = s.inboxes := by
  cases e : s.task? k with
  | none => unfold wake; rw [e]
  | some v =>
    obtain ⟨_, -, -, -, -, turned⟩ := wake_turns e r
    exact turned.inboxes

theorem releaseAllGone_shrinks (s : State) (h : Handle) (k : Slot) :
    (s.releaseAllGone h).inboxes[k].senders ⊆ s.inboxes[k].senders := by
  refine releaseAllGone_keeps (P := fun t => t.inboxes[k].senders ⊆ s.inboxes[k].senders) h (fun {t} j kept => ?_)
    fun _ mem => mem
  have ended : (t.endWait j .gone).inboxes = (t.undoWait j).inboxes := wake_inboxes ..
  rw [ended]
  exact fun _ mem => kept (undoWait_shrinks t j k mem)

/-- The task and its inbox are gone but for its slot. -/
def left (s : State) (h : Handle) (v : Task) : State := (s.vacated h v).releaseAllGone h

theorem left_spares (s : State) (h : Handle) (v : Task) :
    Spares (· ∈ ((s.vacated h v).inbox h).senders) (s.unheld h v) (s.left h v) :=
  (vacated_spares s h v).trans (releaseAllGone_spares _ h)

theorem left_deadlines (s : State) (h : Handle) (v : Task) : (s.left h v).deadlinePresent h = false := by
  have before := unheld_deadlines s h v
  rw [deadlinePresent_eq_false] at before ⊢
  exact fun d mem => before d ((left_spares s h v).fewer mem)

theorem left_unlisted (e : s.task? h = some v) (pending : v.pendingSend = some ps) :
    h ∉ ((s.left h v).inbox ps.target).senders := fun mem =>
  unheld_unlisted e pending ((vacated_senders s h v ps.target.slot) ▸ releaseAllGone_shrinks _ h ps.target.slot mem)

theorem Linked.not_awaiting (L : s.Linked) (post : (s.port q).state.post ≠ .waits) : q ∉ s.awaitList :=
  fun mem => post ((L.await q).1 mem)

theorem left_evicted (L : s.Linked) (e : s.task? h = some v)
    (on : v.state.place = .held q ∨ v.state.place = .saved q ∨ v.seedPort = some q) : EvictedAt (s.left h v) q := by
  have out : q ∉ s.awaitList := by
    refine L.not_awaiting ?_
    rcases on with place | place | seed
    · rw [(L.held q h).2 ⟨v, e, place⟩]; exact nofun
    · rw [(L.saved q h).2 ⟨v, e, place⟩]; exact nofun
    · rw [(L.seeded q h).2 ⟨v, e, seed⟩]; exact nofun
  have same := (left_spares s h v).port q (unheld_awaitList s h v ▸ out)
  unfold EvictedAt
  rw [same]
  exact unheld_evicted s h v on

theorem left_inbox (s : State) (h : Handle) (v : Task) : ((s.left h v).inbox h).resident = [] ∧
    ((s.left h v).inbox h).spilling + ((s.left h v).inbox h).backed + ((s.left h v).inbox h).refilling = 0 := by
  have released : (s.left h v).inbox h = { (s.vacated h v).inbox h with senders := ((s.left h v).inbox h).senders } :=
    (releaseAllGone_wakes (s.vacated h v) h).inbox h.slot
  have emptied : (s.vacated h v).inbox h = _ := emptyInbox_inbox (s.removeTask h v) h
  rw [released, emptied]
  exact ⟨rfl, rfl⟩

theorem left_stores (s : State) (h : Handle) (v : Task) : ((s.left h v).poolFree, (s.left h v).jobs, (s.left h v).deferred) =
    ((s.vacated h v).poolFree, (s.vacated h v).jobs, (s.vacated h v).deferred) := by
  have released := releaseAllGone_wakes (s.vacated h v) h
  unfold left
  rw [released.poolFree, released.jobs, released.deferred]

theorem left_records (s : State) (h : Handle) (v : Task) :
    ((s.left h v).lines, (s.left h v).sink, (s.left h v).freeSlots) = (s.lines, s.sink, s.freeSlots) := by
  have released := releaseAllGone_wakes (s.vacated h v) h
  have vacant := vacated_dispatch s h v
  have kept := (unheld_withdrawn s h v).kept
  simp only [dispatchOf, Prod.mk.injEq] at vacant kept
  obtain ⟨-, -, -, -, -, lines, sink, free⟩ := vacant
  obtain ⟨-, -, -, lines', sink', free', -⟩ := kept
  unfold left
  rw [released.lines, released.sink, released.freeSlots, lines, sink, free, lines', sink', free']

theorem left_emptied (s : State) (h : Handle) (v : Task) :
    Returned (s.left h v) (v.bound.toList ++ s.freedBy h) ∧
      (s.deferred = [] → (s.left h v).poolFree = s.freedBy h ++ v.bound.toList ++ s.poolFree) ∧
      h ∉ (s.left h v).deferred ∧ ∀ j ∈ (s.left h v).jobs.tail, j.inbox ≠ h := by
  have stores := left_stores s h v
  simp only [Prod.mk.injEq] at stores
  obtain ⟨pool, jobs, deferred⟩ := stores
  refine ⟨fun x mem => ?_, fun none => ?_, ?_, ?_⟩
  · have returned := emptyInbox_returned (removeTask_returned s h v) h
    refine (returned.same (t := s.left h v) (by rw [pool, jobs]; rfl)) x ?_
    rcases List.mem_append.1 mem with bound | own
    · exact List.mem_append_left _ bound
    · exact List.mem_append_right _ (removeTask_freedBy s h v own)
  · obtain ⟨still, freed, before⟩ := removeTask_of_none none h v
    rw [pool, vacated, emptyInbox_pool_of_none still, freed, before, List.append_assoc]
  · rw [deferred]; exact emptyInbox_not_deferred _ h
  · rw [jobs]; exact emptyInbox_queued _ h

/-- The senders of the inbox are released with GONE, and none is left. -/
theorem left_released (L : s.Linked) (A : s.SendersAgree) (e : s.task? h = some v) :
    ((s.left h v).inbox h).senders = [] ∧
      ∀ k ∈ (s.inbox h).senders, k ≠ h ∧ ∀ w, s.task? k = some w → GoneFrom s (s.left h v) k w := by
  obtain ⟨-, w, found, -⟩ := removeTask_linked L e
  have emptied : Sends (s.removeTask h v) (s.vacated h v) := emptyInbox_sends h
  have agrees : (s.vacated h v).SendersAgree := (removeTask_senders A e).sends emptied
  have alive : (s.vacated h v).live h = true := (emptied.live h).trans (congrArg Option.isSome found)
  have live : s.live h = true := congrArg Option.isSome e
  refine ⟨released_senders agrees alive, fun k mem => ⟨(A.sender live mem).1, fun w there => ?_⟩⟩
  exact released_gone A live agrees alive (fun j other => vacated_task? s h v other) (vacated_awaitList s h v) mem there

end State
end Sys2Proof.Machine
end

section
/-! ## DESTROY, as its statement has it (R22 to R24) -/

namespace Sys2Proof.Machine
namespace State
variable {s t r u : State} {p q : Port} {h k : Handle} {v w x y : Task} {ps : PendingSend}

/-! ### The steps, written out -/

/-- The eviction of the task on port `q`, by a command taken at port `p`. -/
theorem taken_evict_gone (L : s.Linked) (e : s.task? h = some v) (current : v.state.currentPort = some q) (p : Port) :
    (s.taken p).evict q h .gone =
      (((if (s.port q).state = .run h true then (s.taken p).withInbox h { s.inbox h with recvPending := false }
        else s.taken p).undoWait h).withPort q
          { (((if (s.port q).state = .run h true then (s.taken p).withInbox h { s.inbox h with recvPending := false }
            else s.taken p).undoWait h).port q).answer .gone 0#16 with state := .idle, evicted := true }) := by
  have state : ((s.taken p).port q).state = (s.port q).state := by rw [taken_port]; split <;> simp_all
  have abandoned : (s.taken p).abandonReceive q =
      if (s.port q).state = .run h true then (s.taken p).withInbox h { s.inbox h with recvPending := false } else s.taken p := by
    rw [abandonReceive_of_current (taken_linked L p) e current, receiveAbandoned, state]
    rfl
  rw [evict, abandoned, evictPort_eq, modPort_withPort]
  generalize (if (s.port q).state = .run h true then (s.taken p).withInbox h { s.inbox h with recvPending := false }
    else s.taken p).undoWait h = u
  rfl

/-- A record written between changes only what a later write of it covers. -/
theorem withTask_undoWait_withTask (e : s.task? h = some x) (pending : y.pendingSend = x.pendingSend) (v : Task) :
    ((s.withTask h y).undoWait h).withTask h v = (s.undoWait h).withTask h v := by
  rw [undoWait_of_task e, undoWait_of_task (withTask_task?_self h y), pending]
  cases x.pendingSend with
  | none => exact congrArg (fun u : State => u.withDeadlines (s.deadlines.filter fun e => e.task ≠ h)) (withTask_withTask h y v)
  | some ps => simp only [withTask, withInbox, inbox, Vector.set_set]

theorem Undone.record (U : Undone t h v) : ∃ x, t.task? h = some x ∧ { x with pendingSend := none } =
    ({ v with pendingSend := none } : Task) :=
  U.elim (fun e => ⟨v, e, rfl⟩) fun ⟨e, _⟩ => ⟨_, e, rfl⟩

theorem unheld_of_unseeded (e : s.task? h = some v) (seed : v.seedPort = none) :
    s.unheld h v = ((s.detachTask h v.state .gone).undoWait h).withTask h
      { v with state := .dormant, bound := none, pendingSend := none, seedPort := none } := by
  obtain ⟨x, found, same⟩ := (detachTask_undone e).record
  have unseeded : (s.detachTask h v.state .gone).abortSeed h v.seedPort = s.detachTask h v.state .gone := by
    rw [seed]; rfl
  have record := modTask_withTask (undoWait_task?_self found) fun t => { t with state := .dormant, bound := none }
  have stripped : { v with state := .dormant, bound := none, pendingSend := none, seedPort := none } =
      ({ v with state := .dormant, bound := none, pendingSend := none } : Task) := by rw [← seed]
  rw [unheld, unseeded, record, same, stripped]

theorem unheld_of_seeded (e : s.task? h = some v) (seed : v.seedPort = some q) :
    s.unheld h v = (((s.detachTask h v.state .gone).withPort q
        { ((s.detachTask h v.state .gone).port q).answer .gone 0#16 with state := .idle, evicted := true }).undoWait h).withTask h
      { v with state := .dormant, bound := none, pendingSend := none, seedPort := none } := by
  obtain ⟨x, found, same⟩ := (detachTask_undone e).record
  unfold unheld
  generalize s.detachTask h v.state .gone = d at found
  have port : (d.evictPort q .gone).task? h = some x := found
  have aborted : d.abortSeed h v.seedPort = (d.evictPort q .gone).withTask h { x with seedPort := none } := by
    rw [seed]
    exact modTask_withTask port fun t => { t with seedPort := none }
  have undone : (((d.evictPort q .gone).withTask h { x with seedPort := none }).undoWait h).task? h =
      some { x with seedPort := none, pendingSend := none } := undoWait_task?_self (withTask_task?_self h _)
  have record := modTask_withTask undone fun t => { t with state := .dormant, bound := none }
  have stripped : ({ x with seedPort := none, pendingSend := none, state := .dormant, bound := none } : Task) =
      { v with state := .dormant, bound := none, pendingSend := none, seedPort := none } :=
    congrArg (fun y : Task => { y with seedPort := none, state := .dormant, bound := none }) same
  rw [aborted, record, stripped, withTask_undoWait_withTask (y := { x with seedPort := none }) port rfl]
  rfl

theorem unheld_poolFree (s : State) (h : Handle) (v : Task) : (s.unheld h v).poolFree = s.poolFree :=
  congrArg Prod.fst (unheld_withdrawn s h v).kept

theorem disposeInbox_left (s : State) (h : Handle) (v : Task) : (s.removeTask h v).disposeInbox h =
    ((s.left h v).mapLines (LineRec.clearDestroyed h)).unsetSink h := by
  unfold disposeInbox left vacated
  rfl

/-- DESTROY but for its answer and the preempt flags. -/
def destroyed (s : State) (h : Handle) (v : Task) : State := ((s.removeTask h v).disposeInbox h).freeSlot h

theorem destroyed_eq {f : Line → LineRec} (lines : ∀ l, f l = LineRec.clearDestroyed h s.lines[l]) :
    { s.left h v with
      lines := Vector.ofFn f
      sink := if s.sink = some h then none else s.sink
      tasks := (s.left h v).tasks.set h.slot ⟨nextGeneration h.gen, none⟩
      freeSlots := h.slot :: s.freeSlots } = s.destroyed h v := by
  have records := left_records s h v
  rw [destroyed, disposeInbox_left]
  generalize s.left h v = g at records ⊢
  simp only [Prod.mk.injEq] at records
  obtain ⟨kept, sink, free⟩ := records
  unfold freeSlot unsetSink mapLines
  dsimp only
  rw [kept, sink, free, funext lines]

theorem destroyed_fields (s : State) (h : Handle) (v : Task) :
    ((s.destroyed h v).poolFree, (s.destroyed h v).jobs, (s.destroyed h v).deferred, (s.destroyed h v).inboxes,
      (s.destroyed h v).ready, (s.destroyed h v).deadlines, (s.destroyed h v).ports) =
    ((s.left h v).poolFree, (s.left h v).jobs, (s.left h v).deferred, (s.left h v).inboxes,
      (s.left h v).ready, (s.left h v).deadlines, (s.left h v).ports) := by
  rw [← destroyed_eq (s := s) (h := h) (v := v) fun _ => rfl]

theorem destroyed_port (s : State) (h : Handle) (v : Task) (q : Port) : (s.destroyed h v).port q = (s.left h v).port q := by
  have fields := destroyed_fields s h v
  simp only [Prod.mk.injEq] at fields
  obtain ⟨-, -, -, -, -, -, ports⟩ := fields
  exact port_congr ports q

theorem destroyed_lines (s : State) (h : Handle) (v : Task) (l : Line) :
    (s.destroyed h v).lines[l] = LineRec.clearDestroyed h s.lines[l] := by
  rw [← destroyed_eq (s := s) (h := h) (v := v) fun _ => rfl]
  exact Vector.getElem_ofFn ..

theorem destroyed_sink (s : State) (h : Handle) (v : Task) : (s.destroyed h v).sink ≠ some h := by
  rw [← destroyed_eq (s := s) (h := h) (v := v) fun _ => rfl]
  dsimp only
  split
  · exact nofun
  case isFalse other => exact other

theorem destroyed_task? (L : s.Linked) (e : s.task? h = some v) (k : Handle) :
    (s.destroyed h v).task? k = if k = h then none else (s.left h v).task? k := by
  obtain ⟨removed, idle⟩ := removeTask_linked L e
  obtain ⟨-, w, found, -⟩ := disposeInbox_linked removed idle
  have disposed : ((s.removeTask h v).disposeInbox h).task? k = (s.left h v).task? k := by
    have unset (u : State) : (u.unsetSink h).task? k = u.task? k := rfl
    rw [disposeInbox_left, unset, mapLines_task?]
  rw [destroyed, freeSlot_task? (congrArg Option.isSome found), disposed]

end State

/-- DESTROY leaves no line that names the task (R151). -/
theorem LineRec.clearDestroyed_names (h : Handle) (x : LineRec) :
    (∀ b, (x.clearDestroyed h).binding = some b → b.target ≠ h) ∧
      ∀ pe, (x.clearDestroyed h).pending = some pe → pe.target ≠ h := by
  obtain ⟨level, binding, pending, count, missed⟩ := x
  unfold LineRec.clearDestroyed LineRec.clearPending
  cases binding with
  | none => cases pending <;> dsimp only <;> grind
  | some b =>
    dsimp only
    by_cases own : b.target = h
    · rw [if_pos own]; cases pending <;> dsimp only <;> grind
    · rw [if_neg own]; cases pending <;> dsimp only <;> grind

end Sys2Proof.Machine
end

section
/-! ## RESET_INBOX and DESTROY empty the inbox (R22 to R24, R103) -/

namespace Sys2Proof.Machine
namespace State
variable {s t r u : State} {p q : Port} {h k : Handle} {v w : Task} {ps : PendingSend} {x : PortUnit} {held : Prop}

/-- The state that DESTROY leaves, its answer and the preempt flags not looked at. -/
theorem Reevaluated.unanswered [Decidable held] (E : r.Reevaluated (if held then u else u.withPort p x)) :
    r = { u with ports := r.ports } := by
  obtain ⟨-, same, -⟩ := E
  rw [same]
  split <;> rfl

theorem Reevaluated.evictedAt [Decidable held] (E : r.Reevaluated (if held then u else u.withPort p x))
    (gone : EvictedAt u q) (apart : q = p → held) : EvictedAt r q := by
  obtain ⟨-, -, ports⟩ := E
  unfold EvictedAt
  rw [ports q]
  split
  · exact gone
  case isFalse away =>
    rw [withPort_port, if_neg fun same => away (apart same)]
    exact gone

/-- DESTROY: the state it makes, and its answer unless it evicted the issuing port (R17, R22). -/
theorem exec_destroy_of_live (free : s.SupervisorAt p) (e : s.task? (Handle.ofWord (s.port p).args[0]) = some v) :
    exec (.destroy p) s = .next (((s.taken p).destroyed (Handle.ofWord (s.port p).args[0]) v).answerEvicter p v.state).evalPreempt := by
  have taken : exec (.destroy p) s = .next ((s.taken p).destroy p) := exec_supervisor (c := .destroy) free rfl nofun
  rw [taken, destroy, taken_onNamed_some e]
  rfl

theorem currentPort_iff {st : TaskState} : st.currentPort = some p ↔ st.place = .held p ∨ st.place = .saved p := by
  cases st <;> simp [TaskState.currentPort, TaskState.place]

theorem answerEvicter_eq (u : State) (p : Port) (st : TaskState) [Decidable (st.place = .held p ∨ st.place = .saved p)] :
    u.answerEvicter p st = if st.place = .held p ∨ st.place = .saved p then u
      else u.withPort p ((u.port p).answer .ok 0#16) := by
  unfold answerEvicter
  rw [setResult_eq, modPort_withPort]
  by_cases held : st.place = .held p ∨ st.place = .saved p
  · rw [if_pos (currentPort_iff.2 held), if_pos held]
  · rw [if_neg fun current => held (currentPort_iff.1 current), if_neg held]
    rfl

/-- What a destroyed task leaves of the slots, the jobs, the lists and the inbox. -/
theorem destroyed_leaves (same : r = { s.destroyed h v with ports := r.ports }) :
    Returned r (v.bound.toList ++ s.freedBy h) ∧
      (s.deferred = [] → r.poolFree = s.freedBy h ++ v.bound.toList ++ s.poolFree) ∧
      r.deadlinePresent h = false ∧ h ∉ r.deferred ∧ (∀ j ∈ r.jobs.tail, j.inbox ≠ h) ∧
      (∀ k : Handle, r.inbox k = (s.left h v).inbox k) ∧
      (r.ready, r.deadlines) = ((s.left h v).ready, (s.left h v).deadlines) := by
  have fields := destroyed_fields s h v
  have kept : (r.poolFree, r.jobs, r.deferred, r.inboxes, r.ready, r.deadlines) =
      ((s.destroyed h v).poolFree, (s.destroyed h v).jobs, (s.destroyed h v).deferred, (s.destroyed h v).inboxes,
        (s.destroyed h v).ready, (s.destroyed h v).deadlines) := by rw [same]
  obtain ⟨returned, exact_, out, queued⟩ := left_emptied s h v
  have entry := left_deadlines s h v
  simp only [Prod.mk.injEq] at fields kept
  obtain ⟨pool, jobs, deferred, inboxes, ready, deadlines, -⟩ := fields
  obtain ⟨pool', jobs', deferred', inboxes', ready', deadlines'⟩ := kept
  refine ⟨returned.same (by rw [pool', jobs', pool, jobs]), fun none => ?_, ?_, ?_, ?_, fun k => ?_, ?_⟩
  · rw [pool', pool, exact_ none]
  · unfold deadlinePresent at entry ⊢
    rw [deadlines', deadlines, entry]
  · rw [deferred', deferred]; exact out
  · rw [jobs', jobs]; exact queued
  · exact inbox_congr (inboxes'.trans inboxes) k
  · rw [ready', ready, deadlines', deadlines]

theorem destroyed_task?_of (L : s.Linked) (e : s.task? h = some v) (same : r = { s.destroyed h v with ports := r.ports })
    (k : Handle) : r.task? k = if k = h then none else (s.left h v).task? k := by
  have tasks : r.tasks = (s.destroyed h v).tasks := by rw [same]
  rw [task?_congr tasks, destroyed_task? L e]

/-- No port and no queue names a handle that is not live. -/
theorem Linked.unnamed (L : s.Linked) (gone : s.task? h = none) :
    (∀ q : Priority, h ∉ s.ready[q]) ∧
      ∀ q, (s.port q).state.post ≠ .holds h ∧ (s.port q).state.post ≠ .saves h ∧ (s.port q).state.post ≠ .seeds h := by
  refine ⟨fun q mem => ?_, fun q => ⟨fun post => ?_, fun post => ?_, fun post => ?_⟩⟩
  · obtain ⟨v, e, -⟩ := (L.ready q h).1 mem
    exact nomatch gone.symm.trans e
  · obtain ⟨v, e, -⟩ := (L.held q h).1 post
    exact nomatch gone.symm.trans e
  · obtain ⟨v, e, -⟩ := (L.saved q h).1 post
    exact nomatch gone.symm.trans e
  · obtain ⟨v, e, -⟩ := (L.seeded q h).1 post
    exact nomatch gone.symm.trans e

/-- A port that may issue a command seeds no task. -/
theorem Linked.not_seeding (L : s.Linked) (free : (s.port p).state.Free) (e : s.task? h = some v) : v.seedPort ≠ some p := by
  intro seed
  have post := (L.seeded p h).2 ⟨v, e, seed⟩
  rcases free with idle | ⟨code, -⟩
  · rw [idle] at post; nomatch post
  · cases state : (s.port p).state with
    | saving kind k n => rw [state] at code; exact absurd code (show ¬ 5#3 = 4#3 by decide)
    | _ => rw [state] at post; nomatch post

end State
end Sys2Proof.Machine
end

section
/-! ## RESET_INBOX and DESTROY against their statement -/

namespace Sys2Proof.Machine
namespace State
variable {s : State} {p : Port}

theorem exec_resetInbox_stale (free : s.SupervisorAt p) (stale : s.task? (Handle.ofWord (s.port p).args[0]) = none) :
    exec (.resetInbox p) s = .next (s.answered p .badHandle 0#16) := by
  have taken : exec (.resetInbox p) s = .next ((s.taken p).resetInbox p) :=
    exec_supervisor (c := .resetInbox) free rfl nofun
  have dead : ¬ (s.taken p).live (Handle.ofWord (s.port p).args[0]) = true := by
    unfold live
    rw [taken_task?, stale]
    exact Bool.false_ne_true
  rw [taken, resetInbox, taken_handleArg, if_neg dead, taken_setResult]

theorem exec_destroy_stale (free : s.SupervisorAt p) (stale : s.task? (Handle.ofWord (s.port p).args[0]) = none) :
    exec (.destroy p) s = .next (s.answered p .badHandle 0#16) := by
  have taken : exec (.destroy p) s = .next ((s.taken p).destroy p) := exec_supervisor (c := .destroy) free rfl nofun
  rw [taken, destroy, taken_onNamed_none stale]

end State

/-- Settles O29: each of the two is brought to its pieces (`resetTo`, `destroyed`), of which the clauses are shown one by one:
the slots returned and the jobs left by the emptying of the inbox, the senders by the releases, and that nothing names the
destroyed handle by the links of the state that is left. -/
theorem resetInboxAndDestroyEmptyTheInbox : Obligations.ResetInboxAndDestroyEmptyTheInbox := by
  intro p s free h freedBy emptied released returned releasedWithGone
  refine ⟨fun stale => ⟨?_, ?_⟩, fun t e => ⟨?_, fun L => ?_⟩⟩
  · exact State.exec_resetInbox_stale free stale
  · exact State.exec_destroy_stale free stale
  · intro ib marked emptiedInbox u v total
    have marks : marked = { s.taken p with jobs := markCurrent h s.jobs } :=
      congrArg (fun js => { s.taken p with jobs := js }) (markCurrent_eq h s.jobs).symm
    have empties : emptiedInbox = State.emptyInbox { s.taken p with jobs := markCurrent h s.jobs } h :=
      (State.emptyInbox_cleared marked h).symm.trans (congrArg (State.emptyInbox · h) marks)
    have completes : u = (((s.taken p).renewed h).releaseAllGone h).completeReceive h .empty :=
      congrArg (fun e : State => ((e.modInbox h Inbox.renew).releaseAllGone h).completeReceive h .empty) empties
    have same : v = (s.taken p).resetTo h := by
      refine (congrArg (fun c : State => { c with lines := v.lines }) completes).trans (State.resetTo_eq fun l => ?_)
      unfold LineRec.discardInbox
      change _ = match s.lines[l].pending with | some pe => _ | none => _
      cases s.lines[l].pending <;> rfl
    obtain ⟨r, run, E⟩ := State.exec_resetInbox_of_live free e
    have marksJobs : marked.jobs = markCurrent h s.jobs := congrArg State.jobs marks
    obtain ⟨back, exact_, out, jobs⟩ := State.resetTo_emptied (s := s.taken p) E.stores
    refine ⟨r, run, ?_, back, exact_, ?_, out, ?_, ?_, ?_⟩
    · rw [same]
      have counts : total = ib.total := by
        change _ = ib.resident.length + (ib.spilling + ib.backed + ib.refilling)
        rw [← Nat.add_assoc, ← Nat.add_assoc]
      rw [counts]
      exact E
    · have inbox := E.inbox h
      rw [State.resetTo_inbox] at inbox
      rw [inbox]
      rfl
    · rw [marksJobs]; exact jobs
    · intro q pending state _ _
      exact E.received (State.resetTo_port (s := s.taken p) pending e state)
    · intro _ A
      obtain ⟨senders, task, deadlines, gone⟩ := State.resetTo_released (s := s.taken p) (A.sends (.same (by rfl))) e E.keeps
      exact ⟨(congrArg Inbox.senders (E.inbox h)).trans senders, task, deadlines, fun k mem w => gone k mem w⟩
  · intro evicted away out unseeded bare w u v heldHere
    have record : (s.taken p).task? h = some t := e
    have taken := State.taken_linked L p
    have outs : out = (s.taken p).detachTask h t.state .gone := by
      have held {q : Port} (current : t.state.currentPort = some q) : away q = (s.taken p).evict q h .gone :=
        (State.taken_evict_gone L e current p).symm
      unfold out
      cases state : t.state with
      | running q => exact held (by rw [state]; rfl)
      | saving q d done => exact held (by rw [state]; rfl)
      | ready => exact (State.dequeue_of record).symm
      | _ => rfl
    have bares : bare = (s.taken p).unheld h t := by
      unfold bare unseeded
      cases seed : t.seedPort with
      | none => rw [outs]; exact (State.unheld_of_unseeded record seed).symm
      | some q => rw [outs]; exact (State.unheld_of_seeded record seed).symm
    have removed : w = (s.taken p).removeTask h t := by
      have pool := State.unheld_poolFree (s.taken p) h t
      rw [State.removeTask_eq]
      unfold w
      cases t.bound with
      | none => exact bares
      | some x => rw [bares, pool]; rfl
    have vacant : emptied w = (s.taken p).vacated h t :=
      (State.emptyInbox_cleared w h).symm.trans (congrArg (State.emptyInbox · h) removed)
    have released' : u = (s.taken p).left h t := congrArg (State.releaseAllGone · h) vacant
    have whole : v = (s.taken p).destroyed h t := by
      refine (congrArg (fun c : State => { c with
        lines := v.lines
        sink := v.sink
        tasks := c.tasks.set h.slot ⟨nextGeneration h.gen, none⟩
        freeSlots := v.freeSlots }) released').trans (State.destroyed_eq fun l => ?_)
      have kept : (s.taken p).lines = s.lines := rfl
      rw [kept]
      unfold LineRec.clearDestroyed
      generalize s.lines[l] = x
      obtain ⟨level, binding, pending, count, missed⟩ := x
      cases binding with
      | none => cases pending <;> rfl
      | some b =>
        dsimp only
        by_cases own : b.target = h
        · simp only [if_pos own]; cases pending <;> rfl
        · simp only [if_neg own]; cases pending <;> rfl
    have run := State.exec_destroy_of_live free e
    obtain ⟨r, made⟩ : ∃ r, r = (((s.taken p).destroyed h t).answerEvicter p t.state).evalPreempt := ⟨_, rfl⟩
    have E : r.Reevaluated (if heldHere then (s.taken p).destroyed h t else
        ((s.taken p).destroyed h t).withPort p ((((s.taken p).destroyed h t).port p).answer .ok 0#16)) := by
      rw [made, State.answerEvicter_eq]
      exact State.evalPreempt_reevaluated _
    have linked : r.Linked := by
      have kept := State.destroy_linked taken p
      rw [State.destroy, State.taken_onNamed_some e] at kept
      rw [made]
      exact kept
    have same := E.unanswered
    obtain ⟨back, pool, entry, deferred, queued, inboxes, lists⟩ := State.destroyed_leaves same
    have tasks := State.destroyed_task?_of taken record same
    have gone : r.task? h = none := (tasks h).trans (if_pos rfl)
    obtain ⟨ready, ports⟩ := linked.unnamed gone
    obtain ⟨resident, ring⟩ := State.left_inbox (s.taken p) h t
    refine ⟨r, made ▸ run, ?_, back, pool, congrArg Option.isSome gone, entry, deferred, ready, ?_, ?_, ?_, queued, ?_, ?_,
      ports, ?_, ?_⟩
    · rw [whole]; exact E
    · intro ps pending
      rw [inboxes]
      exact State.left_unlisted record pending
    · rw [inboxes]; exact resident
    · rw [inboxes]; exact ring
    · intro l
      have line : r.lines[l] = LineRec.clearDestroyed h s.lines[l] := by
        have lines : r.lines = ((s.taken p).destroyed h t).lines := by rw [same]
        rw [lines]
        exact State.destroyed_lines (s.taken p) h t l
      rw [line]
      exact LineRec.clearDestroyed_names h _
    · have sink : r.sink = ((s.taken p).destroyed h t).sink := by rw [same]
      rw [sink]
      exact State.destroyed_sink _ h t
    · intro q on
      refine E.evictedAt ?_ ?_
      · have after : EvictedAt ((s.taken p).left h t) q := State.left_evicted taken record on
        have port : ((s.taken p).destroyed h t).port q = ((s.taken p).left h t).port q := State.destroyed_port ..
        unfold EvictedAt
        rw [port]
        exact after
      · rintro rfl
        exact on.imp_right fun saved => saved.resolve_right (L.not_seeding free.1.2.2 e)
    · intro A
      obtain ⟨senders, released⟩ := State.left_released taken (A.sends (.same (by rfl))) record
      refine ⟨(congrArg Inbox.senders (inboxes h)).trans senders, fun k mem x there => ?_⟩
      obtain ⟨other, gone⟩ := released k mem
      exact (gone x there).congr ((tasks k).trans (if_neg other)) lists

end Sys2Proof.Machine
end
